-- ==== Sys2Proof/Word.lean ====
section
/-! DEFINITION. The words of the hub: the numbers, addresses and sets of 00_scope.md's conventions. -/

namespace Sys2Proof

/-- A node, 0 to 3. -/
abbrev NodeId := Fin 4

/-- An entry of the Line Transaction Table, 0 to 47 (R20). -/
abbrev EntryId := Fin 48

/-- A way of a directory set, 0 to 7 (R1). -/
abbrev WayNo := Fin 8

/-- A region record, 0 to 7 (R115). -/
abbrev RegionNo := Fin 8

/-- A word of a pool line, 0 to 7 (R108). -/
abbrev WordNo := Fin 8

/-- A request or return tag, 0 to 63 (00_scope.md, Messages). -/
abbrev Tag := BitVec 6

/-- A line address: the pool byte address divided by 64 (00_scope.md, Addresses). -/
abbrev LineAddr := BitVec 30

/-- A directory set, 0 to 16 383 (R1). -/
abbrev SetIdx := BitVec 14

/-- A directory tag; it is also the MiB number of the line (R1, 08_admission.md section 8.1). -/
abbrev DirTag := BitVec 16

/-- A set of nodes, one bit per node, as the registers hold it (R164). -/
abbrev NodeSet := BitVec 4

/-- A set of error classes, class c at bit c (R164). -/
abbrev ClassSet := BitVec 10

/-- The 64 bytes of a line: byte k is bits 8k to 8k + 7 (R166). -/
abbrev LineData := BitVec 512

/-- One word of 8 bytes of a pool line (R108). -/
abbrev WordData := BitVec 64

/-- The byte mask of a PLAIN-WRITE: bit k stands for byte k (R166). -/
abbrev ByteMask := BitVec 64

/-- A configuration offset (R161). -/
abbrev Offset := BitVec 12

/-- A register's 32-bit value (chapter 12). -/
abbrev RegValue := BitVec 32

/-- A fixed number of like things read at an index. -/
def tget {α : Type} {n : Nat} (v : Vector α n) (i : Fin n) : α := v[i.val]

/-- A fixed number of like things with one of them replaced. -/
def tset {α : Type} {n : Nat} (v : Vector α n) (i : Fin n) (x : α) : Vector α n := v.set i.val x

@[simp] theorem tget_tset_same {α : Type} {n : Nat} (v : Vector α n) (i : Fin n) (x : α) :
    tget (tset v i x) i = x := by
  simp [tget, tset]

theorem tget_tset_ne {α : Type} {n : Nat} (v : Vector α n) {i j : Fin n} (x : α) (h : i ≠ j) :
    tget (tset v i x) j = tget v j := by
  have hv : i.val ≠ j.val := fun e => h (Fin.ext e)
  simp [tget, tset, hv]

theorem tget_tset {α : Type} {n : Nat} (v : Vector α n) (i j : Fin n) (x : α) :
    tget (tset v i x) j = if i = j then x else tget v j := by
  by_cases h : i = j
  · subst h; simp
  · simp [h, tget_tset_ne v x h]

@[simp] theorem tset_tset_same {α : Type} {n : Nat} (v : Vector α n) (i : Fin n) (x y : α) :
    tset (tset v i x) i y = tset v i y := by
  simp [tset]

theorem tget_map {α β : Type} {n : Nat} (f : α → β) (v : Vector α n) (i : Fin n) :
    tget (v.map f) i = f (tget v i) := by
  simp [tget]

end Sys2Proof
end

