-- ==== Sys2Proof/Syntax.lean ====
section
/-! DEFINITION. The commands of the hub: one constructor of Instr for each row of the table of operations and
events, with the operands the environment brings. -/

namespace Sys2Proof

/-- Lane counts of a node link (R131). -/
inductive Lanes where
  | x8
  | x16
deriving DecidableEq, Repr

/-- Signalling grades of a node link: 1, 2 or 4 (R131). -/
inductive Grade where
  | g1
  | g2
  | g4
deriving DecidableEq, Repr

/-- The target lanes and grade an end announces, or the pair a link runs at (R131). -/
structure Targets where
  lanes : Lanes
  grade : Grade
deriving DecidableEq, Repr

/-- The state of a directory record (R2). -/
inductive DirState where
  | shared
  | held
deriving DecidableEq, Repr

/-- A state field as it decodes from damaged storage: R5 allows a value that is neither SHARED nor HELD. -/
inductive RawState where
  | shared
  | held
  | other
deriving DecidableEq, Repr

/-- A directory record: which line of the set, its state and its sharer set (R2). -/
structure Record where
  tag     : DirTag
  state   : DirState
  sharers : NodeSet
deriving DecidableEq, Repr

/-- What a stored way decodes to: valid indication, tag, state and sharer set (R5). -/
structure RawRecord where
  valid   : Bool
  tag     : DirTag
  state   : RawState
  sharers : NodeSet
deriving DecidableEq, Repr

/-- The check results of a way (R5). -/
inductive CheckResult where
  | clean
  | corrected
  | uncorrectable
deriving DecidableEq, Repr

/-- How a stored way differs from what was last written to it. Three or more wrong bits lie outside the code's
guarantee (R5), so there the environment says what the way decodes to and which result the check gives. -/
inductive WayDamage where
  | intact
  | oneBit
  | twoBits
  | beyond (decoded : RawRecord) (found : CheckResult)
deriving DecidableEq, Repr, Inhabited

/-- Damage done to the storage of one way of the directory. -/
structure DirUpset where
  set    : SetIdx
  way    : WayNo
  damage : WayDamage
deriving DecidableEq, Repr

/-- The conditions in which a READ finds a word (R109). -/
inductive WordCond where
  | clean
  | corrected
  | uncorrectable
  | marked
deriving DecidableEq, Repr, Inhabited

/-- How a stored pool word differs from what was last written to it. `twoBits flips` gives the wrong bits among
the 64 data bits. Three or more wrong bits lie outside the code's guarantee (R109): the environment says what the
READ finds and delivers. -/
inductive WordDamage where
  | intact
  | oneBit
  | twoBits (flips : WordData)
  | beyond (found : WordCond) (bits : WordData)
deriving DecidableEq, Repr

/-- Damage done to the storage of one word of the pool line being read. -/
structure WordUpset where
  word   : WordNo
  damage : WordDamage
deriving DecidableEq, Repr

/-- A message as it stands on a node link (R166): its 64-bit header, then the byte mask and the data where the
kind carries them (where it does not, the field is not looked at). -/
structure WireMsg where
  header : BitVec 64
  mask   : ByteMask
  data   : LineData
deriving DecidableEq, Repr

/-- The commands: the rows of the table of operations and events. `upsets` is the damage the directory's storage
has suffered since the last command; it is there for every command within which the directory may be read. -/
inductive Instr where
  | coldReset (powerOn : Bool)
  | initSweep
  | trainingStart (n : NodeId)
  | basePhaseComplete (n : NodeId) (partner : Targets)
  | stepUpComplete (n : NodeId)
  | trainingFailed (n : NodeId)
  | partnerGone (n : NodeId) (upsets : List DirUpset)
  | retrainPartner (n : NodeId)
  | retrainingSuccess (n : NodeId) (partner : Targets)
  | retrainAttemptFailed (n : NodeId)
  | relinkExpired (n : NodeId) (upsets : List DirUpset)
  | frameSend (n : NodeId) (count : Nat)
  | frameAcknowledged (n : NodeId) (count : Nat)
  | ackTimeout (n : NodeId) (frame : Nat)
  | damageReported (n : NodeId) (frame : Nat)
  | frameReceivedDamaged (n : NodeId) (number : Nat)
  | requestArrival (n : NodeId) (m : WireMsg)
  | returnArrival (n : NodeId) (m : WireMsg)
  | ackClean (n : NodeId) (m : WireMsg) (upsets : List DirUpset)
  | ackData (n : NodeId) (m : WireMsg) (upsets : List DirUpset)
  | miss (n : NodeId) (m : WireMsg) (upsets : List DirUpset)
  | confirm (n : NodeId) (m : WireMsg) (upsets : List DirUpset)
  | probeTimerExpiry (e : EntryId) (n : NodeId) (upsets : List DirUpset)
  | confirmTimerExpiry (e : EntryId) (upsets : List DirUpset)
  | returnWaitExpiry (e : EntryId) (upsets : List DirUpset)
  | poolReadComplete (e : EntryId) (words : List WordUpset) (upsets : List DirUpset)
  | poolWriteComplete (e : EntryId) (upsets : List DirUpset)
  | poisonWriteComplete (upsets : List DirUpset)
  | fetchS (upsets : List DirUpset)
  | fetchH (upsets : List DirUpset)
  | upgrade (upsets : List DirUpset)
  | flush (upsets : List DirUpset)
  | plainRead
  | plainWrite
  | order
  | leave
  | configRead
  | returnD (upsets : List DirUpset)
  | returnC (upsets : List DirUpset)
  | relink
  | forceLost (upsets : List DirUpset)
  | errorAck
  | alertClear
  | errorCount
  | poolSize
  | enable
  | base
  | limit
  | attr
  | configWrite
  | walkerExamineWay (upsets : List DirUpset)
  | presenceAsserted (n : NodeId)
deriving DecidableEq, Repr

end Sys2Proof
end

