-- ==== Sys2Proof/Decode.lean ====
section
/-! DEFINITION. The command a table word spells: the rows of this block's table give no bits, so no word spells a
command. -/

namespace Sys2Proof

/-- No row of the table gives bits: every word answers none. -/
def decodeTableWord (_nbits _w : Nat) : Option Instr := none

end Sys2Proof
end

