-- ==== Sys2Proof/Config.lean ====
section
/-! DEFINITION. What is fixed for the hub, and the free values: the constants with no body stand for values the
handbook leaves undefined (nothing can be proved of what they are). -/

namespace Sys2Proof

/-- What a READ finds in a word whose contents are unknown, and the bits as stored. -/
structure RawWord where
  cond : WordCond
  bits : WordData
deriving DecidableEq, Repr, Inhabited

/-- FREE VALUE. The record a way holds after a cold reset, until the init sweep writes it: "every way's record is
undefined" (R16). The first argument says which cold reset (State.dir.seed). Log 4. -/
opaque Config.undefinedRecord : Nat → SetIdx → WayNo → Option Record

/-- FREE VALUE. The condition of that way's check bits: "its check bits cannot be trusted" (section 1.6). Log 4. -/
opaque Config.undefinedDamage : Nat → SetIdx → WayNo → WayDamage

/-- FREE VALUE. What word k of a line reads as while its contents are unknown: undefined after power-on, and in a
line whose WRITE a reset abandoned; "may find any of the four results" (R114). The first argument says which
power-on or which abandoned write. Log 5. -/
opaque Config.unknownWord : Nat → LineAddr → WordNo → RawWord

/-- FREE VALUE. The data bits of the poison marker's pattern, which R112 does not give. They are seen only where a
marker with two wrong bits is delivered as stored (R109). Log 7. -/
opaque Config.markerBits : WordData

/-- The time allowed for the base phase and for a step-up, in µs (R131). -/
def Config.trainingSpan : Nat := 10000

/-- The time within which a frame's acknowledgement must arrive, in µs (R132). -/
def Config.ackSpan : Nat := 2

/-- The resendings of one frame, and the damaged receipts of one frame in a row, after which a link retrains
(R132). -/
def Config.retryLimit : Nat := 8

/-- The capacity of the pool operation queue (R104). -/
def Config.poolQueueSize : Nat := 32

/-- The REQUEST and RETURN entries there may be (R20). -/
def Config.workLimit : Nat := 44

/-- The RECALL entries there may be (R20). -/
def Config.recallLimit : Nat := 4

/-- The model's bound on the tasks of one step, which no state the rules reach comes near. Log 16. -/
def Config.settleBound : Nat := 100000

end Sys2Proof
end

