-- ==== Sys2Proof/Machine/State.lean ====
section
/-! DEFINITION. The state of the hub, as plain data: every register, queue, counter, mode and pin the handbook gives
it, the queue of commands that wait, and the state after reset. -/

namespace Sys2Proof.Machine

/-- Hub status (R17). -/
inductive HubStatus where
  | init
  | ready
deriving DecidableEq, Repr

/-- Link states (R129). -/
inductive LinkState where
  | down
  | training
  | active
  | retraining
deriving DecidableEq, Repr

/-- Membership (R129). -/
inductive Membership where
  | absent
  | member
  | leaving
  | lost
deriving DecidableEq, Repr

/-- Where a training or retraining attempt stands, with the time it has left in µs (R131, R133). -/
inductive TrainPhase where
  | idle
  | base (remaining : Nat)
  | stepUp (agreed : Targets) (remaining : Nat)
deriving DecidableEq, Repr

/-- A timer of the Line Transaction Table: stopped, or running or frozen with a remaining time in µs (R28). -/
inductive Timer where
  | stopped
  | running (remaining : Nat)
  | frozen (remaining : Nat)
deriving DecidableEq, Repr

/-- Message kinds and the two kinds of work that have no message (R166). -/
inductive MsgKind where
  | fetchS | fetchH | upgrade | flush | plainRead | plainWrite | order | configRead | configWrite | leave
  | returnD | returnC | ackClean | ackData | miss | confirm | grantS | grantH | data | done
  | refuse | configData | alert | recall | walker | probeDrop | probeYield | probeSurrender
deriving DecidableEq, Repr

/-- Probe kinds (R28). -/
inductive ProbeKind where
  | drop
  | yield
  | surrender
deriving DecidableEq, Repr

/-- Refusal reasons (R165). -/
inductive Reason where
  | noRegion
  | denied
  | kind
  | leaving
  | dirFault
  | state
  | configOffset
  | regionBusy
deriving DecidableEq, Repr

/-- Data with the flag that marks it as untrustworthy (00_scope.md, Messages; R21). -/
structure Buffer where
  data   : LineData
  poison : Bool
deriving DecidableEq, Repr

/-- What a request asks, with the fields of its kind (R137, R166). -/
inductive ReqBody where
  | fetchS (line : LineAddr)
  | fetchH (line : LineAddr)
  | upgrade (line : LineAddr)
  | flush (line : LineAddr)
  | plainRead (line : LineAddr)
  | plainWrite (line : LineAddr) (mask : ByteMask) (data : LineData)
  | order
  | leave
  | configRead (offset : Offset)
  | configWrite (offset : Offset) (value : RegValue)
deriving DecidableEq, Repr

/-- A request in a node's request queue. -/
structure ReqMsg where
  tag  : Tag
  body : ReqBody
deriving DecidableEq, Repr

/-- A return in a node's return queue: RETURN-D where it brings data, RETURN-C where it brings none (R63). -/
structure RetMsg where
  tag  : Tag
  line : LineAddr
  data : Option Buffer
deriving DecidableEq, Repr

/-- The channel field of a DONE (R166). -/
inductive Channel where
  | request
  | ret
deriving DecidableEq, Repr

/-- A message in an outbound queue (R139, R166). `answersLeave` marks the DONE that answers a LEAVE, whose leaving
ends the membership (R140); it is the model's own mark and no field of the message (log 27). -/
inductive OutMsg where
  | grantS (tag : Tag) (entry : EntryId) (line : LineAddr) (data : Buffer)
  | grantH (tag : Tag) (entry : EntryId) (line : LineAddr) (data : Option Buffer)
  | data (tag : Tag) (line : LineAddr) (data : Buffer)
  | done (tag : Tag) (channel : Channel) (poison : Bool) (answersLeave : Bool)
  | refuse (tag : Tag) (reason : Reason)
  | configData (tag : Tag) (value : RegValue)
  | alert (classes : ClassSet)
  | probe (kind : ProbeKind) (entry : EntryId) (line : LineAddr)
deriving DecidableEq, Repr

/-- A frame sent and not acknowledged: how many messages of the outbound queue it carries, how often it has been
sent again, and the time its acknowledgement has left (stopped while nothing is sent) (R129, R132). -/
structure Frame where
  messages : Nat
  resends  : Nat
  ackTimer : Option Nat
deriving DecidableEq, Repr

/-- A node's order slot while it is occupied (R100). -/
structure OrderSlot where
  tag     : Tag
  waiting : List EntryId
deriving DecidableEq, Repr

/-- What the hub holds for one node: its Node Link Controller (R129), its NODE-CONTROL register (R164) and its
state in the Admission Unit (R128). -/
structure Node where
  link          : LinkState
  membership    : Membership
  agreed        : Option Targets
  mismatch      : Bool
  requestQ      : List ReqMsg
  returnQ       : List RetMsg
  outQ          : List OutMsg
  frames        : List Frame
  reqCredits    : Nat
  retCredits    : Nat
  relinkTimer   : Option Nat
  training      : TrainPhase
  damagedCount  : Nat
  damagedFrame  : Nat
  presence      : Bool
  enable        : Bool
  target        : Targets
  priority      : BitVec 2
  patienceLimit : BitVec 8
  patience      : Nat
  urgent        : Bool
  orderSlot     : Option OrderSlot
  posted        : Nat
deriving DecidableEq, Repr

/-- Region kinds (R115). -/
inductive RegionKind where
  | coherent
  | plain
  | plainPosted
deriving DecidableEq, Repr

/-- A region record (R115). -/
structure Region where
  enabled  : Bool
  base     : BitVec 16
  limit    : BitVec 16
  kind     : RegionKind
  readSet  : NodeSet
  writeSet : NodeSet
deriving DecidableEq, Repr

/-- The owner of a way's pin (R10). -/
inductive Pin where
  | none
  | entry (e : EntryId)
  | walker
deriving DecidableEq, Repr

/-- One way of the directory: the record as last written (absent when the way was written VACANT), how the storage
has departed from it since, the pin owner and the quarantine mark (R2, R5, R7, R10). -/
structure Way where
  written     : Option Record
  damage      : WayDamage
  pin         : Pin
  quarantined : Bool
deriving DecidableEq, Repr

/-- One set of the directory: its eight ways and its recency order, least recent first (R1, R15). -/
structure DirSet where
  ways  : Vector Way 8
  order : List WayNo
deriving DecidableEq, Repr

/-- The Sharer Directory: its sets as a list of (set, contents) pairs in canonical form, an unlisted set being
`DirSet.vacant`; which undefined contents the last cold reset left (log 4); and the two counts (R18, R19). -/
structure Directory where
  sets       : List (Nat × DirSet)
  seed       : Nat
  validCount : Nat
  quarCount  : Nat
deriving DecidableEq, Repr

/-- The kinds of an entry's work (R21). -/
inductive WorkKind where
  | fetchS
  | fetchH
  | upgrade
  | flush
  | plainRead
  | plainWrite
  | returnD
  | returnC
  | recall
deriving DecidableEq, Repr

/-- The classes of entries (R20). -/
inductive EntryClass where
  | request
  | ret
  | recall
deriving DecidableEq, Repr

/-- Entry phases (R22). -/
inductive Phase where
  | free
  | queued
  | wayWait
  | gather
  | finish
deriving DecidableEq, Repr

/-- The origin of an entry (R21). -/
structure Origin where
  node : NodeId
  tag  : Tag
deriving DecidableEq, Repr

/-- A snapshot (R21, R24): a miss, or the state and sharer set of the record that hit. -/
inductive Snapshot where
  | miss
  | hit (state : DirState) (sharers : NodeSet)
deriving DecidableEq, Repr

/-- Probe record statuses (R28). -/
inductive ProbeStatus where
  | none
  | queuedOut
  | sent
  | answered
  | lost
deriving DecidableEq, Repr

/-- A probe record (R28). `waitEnded` says that the node was lost and its straggler wait has ended (R38). -/
structure Probe where
  kind      : Option ProbeKind
  status    : ProbeStatus
  sends     : Nat
  answers   : Nat
  timer     : Timer
  waitEnded : Bool
deriving DecidableEq, Repr

/-- The pool operation field (R21). -/
inductive PoolField where
  | none
  | waiting
  | readOut
  | writeOut
deriving DecidableEq, Repr

/-- The outcome field (R21): no change, VACANT, or the state and sharer set to write. -/
inductive DirOutcome where
  | noChange
  | vacant
  | record (state : DirState) (sharers : NodeSet)
deriving DecidableEq, Repr

/-- The confirm field (R21). -/
inductive Confirm where
  | notNeeded
  | awaited (n : NodeId)
  | received
deriving DecidableEq, Repr

/-- An entry's returned mark for one node (R64). -/
inductive RetMark where
  | none
  | returnD
  | returnC
deriving DecidableEq, Repr

/-- The scope of a recall: every node its snapshot names, or the departing node alone (R83, R87). -/
inductive Scope where
  | all
  | only (d : NodeId)
deriving DecidableEq, Repr

/-- An entry of the Line Transaction Table (R21, R64, R83). Its class follows from its kind, and the set of its way
is the set of its line. The last four fields are implied by the rules they name (log 25). -/
structure Entry where
  phase         : Phase
  kind          : WorkKind
  origin        : Option Origin
  line          : LineAddr
  way           : Option WayNo
  snapshot      : Option Snapshot
  probes        : Vector Probe 4
  awaited       : Option NodeId
  returnTimer   : Timer
  poolOp        : PoolField
  buffer        : Option Buffer
  poolStale     : Bool
  outcome       : DirOutcome
  confirm       : Confirm
  confirmTimer  : Timer
  orphaned      : Bool
  beneficiary   : Option EntryId
  successor     : Option EntryId
  posted        : Bool
  mask          : ByteMask
  writeData     : LineData
  returned      : Vector RetMark 4
  scope         : Option Scope
  creation      : Option Record
  /-- The kind as admitted, which a DIRFAULT refusal names (R90). -/
  admitted      : WorkKind
  /-- The holder answered PROBE-YIELD with keep yes (R42). -/
  holderKept    : Bool
  /-- The holder's part was settled by a loss, so a FETCH-H writes the marker too (R145). -/
  settledByLoss : Bool
  /-- A corrected write-back is owed (R60, R93). -/
  owesWriteBack : Bool
deriving DecidableEq, Repr

/-- The conditions of a member of the way-wait list (R79). -/
inductive WaitCond where
  | pin (ways : List WayNo)
  | behind
  | blocked
  | stalled
  | recalling
deriving DecidableEq, Repr

/-- A member of the way-wait list (R79). -/
structure Member where
  entry : EntryId
  cond  : WaitCond
deriving DecidableEq, Repr

/-- The parties that share the RECALL entries (R84). -/
inductive Party where
  | wayWait
  | walker
deriving DecidableEq, Repr

/-- The owner of a pool operation (R103). -/
inductive Owner where
  | entry (e : EntryId)
  | walker
deriving DecidableEq, Repr

/-- A pool operation (R103): a READ where `write` is absent, else a WRITE of that data and poison. -/
structure PoolOp where
  owner : Owner
  line  : LineAddr
  write : Option Buffer
deriving DecidableEq, Repr

/-- What a word of the pool holds: data with good check bits, the poison marker (R108, R112), or contents unknown
since power-on or an abandoned write (R114). -/
inductive WordContent where
  | data (w : WordData)
  | marker
  | unknown (seed : Nat)
deriving DecidableEq, Repr

/-- A word of the pool: what was last stored and how the storage has departed from it since. -/
structure StoredWord where
  content : WordContent
  damage  : WordDamage
deriving DecidableEq, Repr

/-- A line of the pool: eight words (R108). -/
abbrev PoolLine := Vector StoredWord 8

/-- The pool: its lines as a list of (line address, line) pairs in canonical form, an unlisted line being unknown
under `seed`, which names the last power-on (R114, log 5). -/
structure Pool where
  lines : List (Nat × PoolLine)
  seed  : Nat
deriving DecidableEq, Repr

/-- Why the walker stands still (R146): not at all, for a way to be unpinned, for a RECALL entry for DEPART node d (R151),
or for its poison write. -/
inductive Stall where
  | none
  | way (w : WayNo)
  | reserve (d : NodeId)
  | write
deriving DecidableEq, Repr

/-- The mode of a walk record (R146). -/
inductive WalkMode where
  | depart
  | loss
deriving DecidableEq, Repr

/-- A walk record (R146). `joining` says that it is among the joining records (R147). `leaveTag` is the LEAVE's tag,
for DEPART. -/
structure WalkRec where
  mode      : WalkMode
  remaining : Nat
  recalls   : Nat
  leaveTag  : Tag
  joining   : Bool
deriving DecidableEq, Repr

/-- The Reclaim Walker (R146). -/
structure Walker where
  pointer  : SetIdx
  position : WayNo
  stall    : Stall
  records  : Vector (Option WalkRec) 4
deriving DecidableEq, Repr

/-- The readers of the directory, as the detail of its events names them (R5). -/
inductive Reader where
  | activation
  | wayWait
  | walker
deriving DecidableEq, Repr

/-- Causes of a node's loss (R142). -/
inductive LossCause where
  | relinkExpired
  | partnerGone
  | probeTimeout
  | confirmTimeout
  | returnTimeout
  | forced
deriving DecidableEq, Repr

/-- Details of LINK events (R131 to R134, R165). -/
inductive LinkDetail where
  | mismatch
  | trainingFailed
  | partnerGone
  | retrainRetry
  | retrainCommand
  | retrainPartner
  | relinkExpired
deriving DecidableEq, Repr

/-- The details of events (section 11.1, R165). -/
inductive Detail where
  | reason (r : Reason)
  | entryNumber (e : BitVec 6)
  | state
  | credit
  | kind
  | words (n : Nat)
  | beyondSize
  | postedMerge
  | reader (r : Reader)
  | malformedWrite
  | probe (k : ProbeKind)
  | cause (c : LossCause)
  | link (d : LinkDetail)
deriving DecidableEq, Repr

/-- The place an event names (R154). -/
inductive Place where
  | line (l : LineAddr)
  | way (set : SetIdx) (w : WayNo)
deriving DecidableEq, Repr

/-- The fields of an event, any of which may be absent (R154). -/
structure ErrRec where
  node   : Option NodeId := none
  tag    : Option Tag := none
  kind   : Option MsgKind := none
  place  : Option Place := none
  detail : Option Detail := none
deriving DecidableEq, Repr

/-- The ten error classes, in the order of R164. -/
inductive ErrClass where
  | refusal
  | protocol
  | poolCorrected
  | poolUncorrected
  | poisonSent
  | dirCorrected
  | dirUncorrected
  | probeRetry
  | nodeLost
  | link
deriving DecidableEq, Repr

/-- What the Error and Alert Unit holds for one class (R153). -/
structure ClassState where
  pending : Bool
  further : Bool
  count   : Nat
  first   : Option ErrRec
deriving DecidableEq, Repr

/-- The alert state, with the addressee while SENT (R157). -/
inductive AlertState where
  | idle
  | sent (addressee : NodeId)
deriving DecidableEq, Repr

/-- The state of the hub. -/
structure State where
  status        : HubStatus
  promote       : Bool
  correctWb     : Bool
  poolSize      : BitVec 7
  probeTimeout  : BitVec 16
  retries       : BitVec 2
  relinkTimeout : BitVec 16
  nodes         : Vector Node 4
  regions       : Vector Region 8
  returnPtr     : NodeId
  requestPtr    : NodeId
  dir           : Directory
  entries       : Vector Entry 48
  wayWait       : List Member
  recallMark    : Party
  pool          : Pool
  poolQueue     : List PoolOp
  issueWait     : List PoolOp
  walker        : Walker
  errors        : Vector ClassState 10
  alertMask     : ClassSet
  alertTarget   : NodeId
  pinEnable     : Bool
  alert         : AlertState
  /-- The counter from which fresh seeds of undefined contents are taken (log 4, log 5). -/
  freeSeed      : Nat
  /-- The commands that wait, first in, first out. -/
  pending       : List Instr
deriving DecidableEq, Repr

/-- The one fault: a step whose consequences did not come to rest within `Config.settleBound` tasks. Raised by
`settle` alone. Safe: no state the rules reach brings it about, and no claim is provable through it (log 16). -/
inductive Fault where
  | unsettled
deriving DecidableEq, Repr

/-- The reasons a step can be refused. `notModelled` is for a command with no meaning yet; no arm of exec answers it.
Safe: nothing is proved of a refused command. -/
inductive Refusal where
  | notModelled (mnemonic : String)
deriving DecidableEq, Repr

/-- A probe record of no probe (R28). -/
def Probe.none : Probe :=
  { kind := Option.none, status := .none, sends := 0, answers := 0, timer := .stopped, waitEnded := false }

/-- A FREE entry: every field at its allocation value (R21, R26). The fields the allocator fills in are written as
zeros (log 24). -/
def Entry.free : Entry :=
  { phase := .free, kind := .fetchS, origin := none, line := 0, way := none, snapshot := none
    probes := Vector.replicate 4 Probe.none, awaited := none, returnTimer := .stopped, poolOp := .none
    buffer := none, poolStale := false, outcome := .noChange, confirm := .notNeeded, confirmTimer := .stopped
    orphaned := false, beneficiary := none, successor := none, posted := false, mask := 0, writeData := 0
    returned := Vector.replicate 4 RetMark.none, scope := none, creation := none, admitted := .fetchS
    holderKept := false, settledByLoss := false, owesWriteBack := false }

/-- A VACANT way with good check bits, unpinned and unmarked (R16). -/
def Way.vacant : Way := { written := none, damage := .intact, pin := .none, quarantined := false }

/-- A set as the init sweep leaves it (R16). -/
def DirSet.vacant : DirSet := { ways := Vector.replicate 8 Way.vacant, order := [0, 1, 2, 3, 4, 5, 6, 7] }

/-- A line of unknown contents (R114). -/
def PoolLine.unknown (seed : Nat) : PoolLine :=
  Vector.replicate 8 { content := .unknown seed, damage := .intact }

/-- A node after cold reset (R123, R100, R99, R129, R164); the presence signal is an input, withdrawn here (log 1). -/
def Node.reset : Node :=
  { link := .down, membership := .absent, agreed := none, mismatch := false, requestQ := [], returnQ := []
    outQ := [], frames := [], reqCredits := 0, retCredits := 0, relinkTimer := none, training := .idle
    damagedCount := 0, damagedFrame := 0, presence := false, enable := true, target := ⟨.x16, .g2⟩, priority := 0
    patienceLimit := 32, patience := 0, urgent := false, orderSlot := none, posted := 0 }

/-- A region record after cold reset (R115). -/
def Region.reset : Region :=
  { enabled := false, base := 0, limit := 0, kind := .coherent, readSet := 0, writeSet := 0 }

/-- A class of the Error and Alert Unit after cold reset (R153). -/
def ClassState.reset : ClassState := { pending := false, further := false, count := 0, first := none }

/-- The walker after cold reset: the init sweep at set 0, no record (R16, R146). -/
def Walker.reset : Walker :=
  { pointer := 0, position := 0, stall := .none, records := Vector.replicate 4 none }

/-- The hub right after a cold reset by power-on (R16, R36, R115, R164, and the tables "State after cold reset" of
the chapters). -/
def State.reset : State :=
  { status := .init, promote := false, correctWb := true, poolSize := 0, probeTimeout := 500, retries := 2
    relinkTimeout := 200, nodes := Vector.replicate 4 Node.reset, regions := Vector.replicate 8 Region.reset
    returnPtr := 0, requestPtr := 0, dir := { sets := [], seed := 0, validCount := 0, quarCount := 0 }
    entries := Vector.replicate 48 Entry.free, wayWait := [], recallMark := .walker
    pool := { lines := [], seed := 0 }, poolQueue := [], issueWait := [], walker := Walker.reset
    errors := Vector.replicate 10 ClassState.reset, alertMask := 0, alertTarget := 0, pinEnable := false
    alert := .idle, freeSeed := 1, pending := [] }

end Sys2Proof.Machine
end

