-- ==== Sys2Proof/Machine/Ops.lean ====
section
/-! DEFINITION. The named operations over the hub's plain state: sets of nodes, memory in canonical form, the
accessors of nodes, entries, sets and lines, line data, timers, queueing a message, and the time base. -/

namespace Sys2Proof.Machine

/-! ## Numbers and sets -/

/-- The four nodes, in order. -/
def allNodes : List NodeId := [0, 1, 2, 3]

/-- The eight ways of a set, in order. -/
def allWays : List WayNo := [0, 1, 2, 3, 4, 5, 6, 7]

/-- The 48 entries, in order. -/
def allEntries : List EntryId := List.finRange 48

/-- Node n stands in the set. -/
def NodeSet.has (s : NodeSet) (n : NodeId) : Bool := s.getLsbD n.val

/-- The set of node n alone. -/
def NodeSet.single (n : NodeId) : NodeSet := 1#4 <<< n.val

/-- The set with n added. -/
def NodeSet.with (s : NodeSet) (n : NodeId) : NodeSet := s ||| NodeSet.single n

/-- The set with n removed. -/
def NodeSet.without (s : NodeSet) (n : NodeId) : NodeSet := s &&& ~~~(NodeSet.single n)

/-- The members of the set, in ascending order. -/
def NodeSet.members (s : NodeSet) : List NodeId := allNodes.filter (NodeSet.has s)

/-- The holder a HELD record names: its one node (R2). -/
def NodeSet.holder (s : NodeSet) : NodeId := (NodeSet.members s).headD 0

/-- The first node for which f answers, looking from p upward, 0 to 3 and around to 0 (R121, R122). -/
def firstFrom {α : Type} (p : NodeId) (f : NodeId → Option α) : Option α :=
  [p, p + 1, p + 2, p + 3].findSome? f

/-! ## Lines, sets and tags (R1) -/

/-- The set index of a line: its line address modulo 16 384. -/
def LineAddr.set (l : LineAddr) : SetIdx := l.extractLsb' 0 14

/-- The tag of a line: its line address divided by 16 384. It is the line's MiB number too. -/
def LineAddr.tag (l : LineAddr) : DirTag := l.extractLsb' 14 16

/-- The line of a tag in a set: the tag times 16 384 plus the set index. -/
def lineOf (t : DirTag) (k : SetIdx) : LineAddr := t ++ k

/-! ## Line data -/

/-- Byte k of a line (R166). -/
def LineData.byte (d : LineData) (k : Nat) : BitVec 8 := d.extractLsb' (8 * k) 8

/-- Word k of a line: its bytes 8k to 8k + 7 (R108). -/
def LineData.word (d : LineData) (k : WordNo) : WordData := d.extractLsb' (64 * k.val) 64

/-- The line of eight words, word 0 lowest. -/
def LineData.ofWords (ws : Vector WordData 8) : LineData :=
  ws[7] ++ ws[6] ++ ws[5] ++ ws[4] ++ ws[3] ++ ws[2] ++ ws[1] ++ ws[0]

/-- A byte of ones where the flag is set, of zeros where it is clear. -/
def byteOf (b : Bool) : BitVec 8 := if b then 255 else 0

/-- The bit mask of the first k bytes of a byte mask. -/
def spreadMask (m : ByteMask) : (k : Nat) → BitVec (8 * k)
  | 0 => 0#0
  | k + 1 => (byteOf (m.getLsbD k) ++ spreadMask m k).cast (by omega)

/-- The bit mask of a byte mask: eight ones for each byte whose flag is set. -/
def ByteMask.bits (m : ByteMask) : LineData := (spreadMask m 64).cast (by decide)

/-- The merge of a partial write: the bytes whose flag is set from `new`, the rest from `old` (R96). -/
def mergeBytes (m : ByteMask) (old new : LineData) : LineData :=
  (old &&& ~~~(ByteMask.bits m)) ||| (new &&& ByteMask.bits m)

/-! ## Sparse memory in canonical form -/

/-- What stands at a key: `d` where the key is not listed. -/
def Cells.get {α : Type} (d : α) : List (Nat × α) → Nat → α
  | [], _ => d
  | (k, v) :: t, a => if k = a then v else Cells.get d t a

/-- The list with x at key a: keys stay rising, and a key whose contents are d is not listed. -/
def Cells.put {α : Type} [DecidableEq α] (d : α) : List (Nat × α) → Nat → α → List (Nat × α)
  | [], a, x => if x = d then [] else [(a, x)]
  | (k, v) :: t, a, x =>
    if a < k then (if x = d then (k, v) :: t else (a, x) :: (k, v) :: t)
    else if a = k then (if x = d then t else (a, x) :: t)
    else (k, v) :: Cells.put d t a x

/-- The canonical form: keys strictly rising, and no listed contents equal to what an unlisted key reads as. -/
abbrev Cells.Wf {α : Type} (d : α) (l : List (Nat × α)) : Prop :=
  (l.map Prod.fst).Pairwise (· < ·) ∧ ∀ c ∈ l, c.2 ≠ d

/-- What an unlisted line of the pool is: unknown since the power-on that `seed` names (R114, log 5). -/
def Pool.unlisted (p : Pool) : PoolLine := PoolLine.unknown p.seed

/-- The line at an address of the pool. -/
def Pool.line (p : Pool) (l : LineAddr) : PoolLine := Cells.get p.unlisted p.lines l.toNat

/-- The pool with a line stored. -/
def Pool.putLine (p : Pool) (l : LineAddr) (x : PoolLine) : Pool :=
  { p with lines := Cells.put p.unlisted p.lines l.toNat x }

/-- The pool's memory is in canonical form. -/
abbrev Memory.wf (p : Pool) : Prop := Cells.Wf p.unlisted p.lines

/-- The directory's storage is in canonical form. -/
abbrev Directory.wf (d : Directory) : Prop := Cells.Wf DirSet.vacant d.sets

/-! ## Accessors -/

/-- What the hub holds for node n. -/
def State.node (s : State) (n : NodeId) : Node := tget s.nodes n

/-- The state with node n's part replaced. -/
def State.setNode (s : State) (n : NodeId) (x : Node) : State := { s with nodes := tset s.nodes n x }

/-- The state with node n's part changed by f. -/
def State.modNode (s : State) (n : NodeId) (f : Node → Node) : State := s.setNode n (f (s.node n))

/-- Entry e of the Line Transaction Table. -/
def State.entry (s : State) (e : EntryId) : Entry := tget s.entries e

/-- The state with entry e replaced. -/
def State.setEntry (s : State) (e : EntryId) (x : Entry) : State := { s with entries := tset s.entries e x }

/-- The state with entry e changed by f. -/
def State.modEntry (s : State) (e : EntryId) (f : Entry → Entry) : State := s.setEntry e (f (s.entry e))

/-- The contents a set has after a cold reset, until the init sweep writes it: undefined records, no pin, no mark,
order 0 to 7 (R16, log 4). -/
def DirSet.undefined (seed : Nat) (k : SetIdx) : DirSet :=
  { ways := Vector.ofFn (fun w => { written := Config.undefinedRecord seed k w
                                    damage := Config.undefinedDamage seed k w, pin := .none, quarantined := false })
    order := [0, 1, 2, 3, 4, 5, 6, 7] }

/-- Set k as it stands. While the sweep runs, the sets from its pointer on are not yet written (R16). -/
def State.dirSet (s : State) (k : SetIdx) : DirSet :=
  if s.status = .init ∧ s.walker.pointer ≤ k then DirSet.undefined s.dir.seed k
  else Cells.get DirSet.vacant s.dir.sets k.toNat

/-- The state with set k replaced. -/
def State.putDirSet (s : State) (k : SetIdx) (x : DirSet) : State :=
  { s with dir := { s.dir with sets := Cells.put DirSet.vacant s.dir.sets k.toNat x } }

/-- Way w of set k. -/
def State.way (s : State) (k : SetIdx) (w : WayNo) : Way := tget (s.dirSet k).ways w

/-- The state with way w of set k replaced. -/
def State.putWay (s : State) (k : SetIdx) (w : WayNo) (x : Way) : State :=
  s.putDirSet k { s.dirSet k with ways := tset (s.dirSet k).ways w x }

/-- The class of an entry follows from its kind (R20). -/
def WorkKind.cls : WorkKind → EntryClass
  | .returnD => .ret
  | .returnC => .ret
  | .recall => .recall
  | _ => .request

/-- A coherent request kind (R39). -/
def WorkKind.coherent : WorkKind → Bool
  | .fetchS => true
  | .fetchH => true
  | .upgrade => true
  | .flush => true
  | _ => false

/-- A plain kind (R92). -/
def WorkKind.plain : WorkKind → Bool
  | .plainRead => true
  | .plainWrite => true
  | _ => false

/-- The entry is not FREE. -/
def Entry.inUse (x : Entry) : Bool := decide (x.phase ≠ .free)

/-- The entry is in WAYWAIT, GATHER or FINISH (R23). -/
def Entry.active (x : Entry) : Bool :=
  match x.phase with
  | .wayWait => true
  | .gather => true
  | .finish => true
  | .free => false
  | .queued => false

/-- The node of the entry's origin (0 where it has none; every REQUEST and RETURN entry has one, R21). -/
def Entry.originNode (x : Entry) : NodeId := (x.origin.map Origin.node).getD 0

/-- The tag of the entry's origin. -/
def Entry.originTag (x : Entry) : Tag := (x.origin.map Origin.tag).getD 0

/-- The entry's origin is node n. -/
def Entry.isFrom (x : Entry) (n : NodeId) : Bool := decide (x.origin.map Origin.node = some n)

/-- The probe record of the entry for node n (R28). -/
def Entry.probe (x : Entry) (n : NodeId) : Probe := tget x.probes n

/-- The returned mark of the entry for node n (R64). -/
def Entry.mark (x : Entry) (n : NodeId) : RetMark := tget x.returned n

/-- The entry with its probe record for n replaced. -/
def Entry.setProbe (x : Entry) (n : NodeId) (p : Probe) : Entry := { x with probes := tset x.probes n p }

/-- The entry with its returned mark for n replaced. -/
def Entry.setMark (x : Entry) (n : NodeId) (m : RetMark) : Entry := { x with returned := tset x.returned n m }

/-- A probe is unanswered while its status is QUEUED-OUT or SENT (R28). -/
def Probe.unanswered (p : Probe) : Bool :=
  match p.status with
  | .queuedOut => true
  | .sent => true
  | .none => false
  | .answered => false
  | .lost => false

/-- A probe record still waits for answers to its copies (R25, R32, R38). -/
def Probe.straggling (p : Probe) : Bool :=
  decide (p.status = .answered) && decide (p.answers < p.sends) && !p.waitEnded

/-- The entry active on a line (R23). -/
def State.activeOn (s : State) (l : LineAddr) : Option EntryId :=
  allEntries.find? (fun e => (s.entry e).active && decide ((s.entry e).line = l))

/-- The lowest-numbered FREE entry (R20). -/
def State.freeEntry (s : State) : Option EntryId := allEntries.find? (fun e => !(s.entry e).inUse)

/-- The number of entries not FREE (R20). -/
def State.inUse (s : State) : Nat := allEntries.countP (fun e => (s.entry e).inUse)

/-- The number of REQUEST and RETURN entries in use (R20). -/
def State.workInUse (s : State) : Nat :=
  allEntries.countP (fun e => (s.entry e).inUse && decide ((s.entry e).kind.cls ≠ .recall))

/-- The number of RECALL entries in use (R20). -/
def State.recallsInUse (s : State) : Nat :=
  allEntries.countP (fun e => (s.entry e).inUse && decide ((s.entry e).kind.cls = .recall))

/-- The entries that follow e in its line's chain, in order, at most k of them (R23). -/
def State.chainAfter (s : State) : Nat → EntryId → List EntryId
  | 0, _ => []
  | k + 1, e =>
    match (s.entry e).successor with
    | none => []
    | some f => f :: s.chainAfter k f

/-- The last entry of the chain that e stands in (R23). -/
def State.chainTail (s : State) (e : EntryId) : EntryId := ((s.chainAfter 48 e).getLast?).getD e

/-- The QUEUED entry x unlinked: its predecessor takes its successor (R27). -/
def State.unlink (s : State) (x : EntryId) : State :=
  { s with entries := s.entries.map (fun p =>
      if p.successor = some x ∧ p.phase ≠ .free then { p with successor := (s.entry x).successor } else p) }

/-- Entry e becomes FREE with every field at its allocation value (R26 step 7). -/
def State.freeUp (s : State) (e : EntryId) : State := s.setEntry e Entry.free

/-! ## Membership and links -/

/-- The node's membership is MEMBER or LEAVING: it may be probed and offers candidates (R40, R119, R136). -/
def Node.joined (x : Node) : Bool :=
  match x.membership with
  | .member => true
  | .leaving => true
  | .absent => false
  | .lost => false

/-- The link is ACTIVE or RETRAINING (R119). -/
def Node.linked (x : Node) : Bool :=
  match x.link with
  | .active => true
  | .retraining => true
  | .down => false
  | .training => false

/-- The nodes whose membership is LOST. -/
def State.lostNodes (s : State) : NodeSet :=
  allNodes.foldl (fun acc n => if (s.node n).membership = .lost then NodeSet.with acc n else acc) 0

/-- A message joins the tail of node n's outbound queue; on a link that is DOWN it is discarded as it is queued
(R135, R139). -/
def State.send (s : State) (n : NodeId) (m : OutMsg) : State :=
  if (s.node n).link = .down then s else s.modNode n (fun x => { x with outQ := x.outQ ++ [m] })

/-- The number of messages at the head of the outbound queue that some frame has carried (R140). -/
def Node.sentCount (x : Node) : Nat := (x.frames.map Frame.messages).sum

/-- The message is an ALERT. -/
def OutMsg.isAlert : OutMsg → Bool
  | .alert _ => true
  | _ => false

/-! ## Timers (R36, R37) -/

/-- The confirm and return-wait span T × (R + 1), and the probe timeout T, in µs (R36). -/
def State.probeSpan (s : State) : Nat := s.probeTimeout.toNat

/-- The confirm span and the return-wait span: T × (R + 1) (R36). -/
def State.waitSpan (s : State) : Nat := s.probeTimeout.toNat * (s.retries.toNat + 1)

/-- A timer started toward node n: it runs, or stands frozen with its full span while n's link is RETRAINING
(R37). -/
def State.startTimer (s : State) (n : NodeId) (span : Nat) : Timer :=
  if (s.node n).link = .retraining then .frozen span else .running span

/-- A running timer stops counting and keeps its remaining time (R37). -/
def Timer.freeze : Timer → Timer
  | .running r => .frozen r
  | t => t

/-- A frozen timer resumes from its remaining time (R37). -/
def Timer.resume : Timer → Timer
  | .frozen r => .running r
  | t => t

/-- One microsecond of a running timer; at 0 it waits for its expiry to be taken. -/
def Timer.tick : Timer → Timer
  | .running r => .running (r - 1)
  | t => t

/-- The entry's timers aimed at node n, changed by f: its probe timer for n, its confirm timer where n is the
grantee, its return-wait timer where n's return is awaited (section 2.11). -/
def Entry.mapTimers (n : NodeId) (f : Timer → Timer) (x : Entry) : Entry :=
  { x with probes := tset x.probes n { x.probe n with timer := f (x.probe n).timer }
           confirmTimer := if x.confirm = .awaited n then f x.confirmTimer else x.confirmTimer
           returnTimer := if x.awaited = some n then f x.returnTimer else x.returnTimer }

/-- Every timer of the table aimed at node n, changed by f (R37). -/
def State.mapTimers (s : State) (n : NodeId) (f : Timer → Timer) : State :=
  { s with entries := s.entries.map (Entry.mapTimers n f) }

/-! ## The time base -/

/-- One microsecond of an entry's timers. -/
def Entry.tick (x : Entry) : Entry :=
  { x with probes := x.probes.map (fun p => { p with timer := p.timer.tick })
           confirmTimer := x.confirmTimer.tick, returnTimer := x.returnTimer.tick }

/-- One microsecond of a training phase. -/
def TrainPhase.tick : TrainPhase → TrainPhase
  | .idle => .idle
  | .base r => .base (r - 1)
  | .stepUp t r => .stepUp t (r - 1)

/-- One microsecond of a link's timers: the relink timer, the training phase, the acknowledgement timers. -/
def Node.tick (x : Node) : Node :=
  { x with relinkTimer := x.relinkTimer.map (· - 1), training := x.training.tick
           frames := x.frames.map (fun f => { f with ackTimer := f.ackTimer.map (· - 1) }) }

/-- One microsecond passes on the hub's time base: every running timer loses one, and nothing else changes
(log 3). -/
def State.tick (s : State) : State :=
  { s with nodes := s.nodes.map Node.tick, entries := s.entries.map Entry.tick }

end Sys2Proof.Machine
end

