-- ==== Sys2Proof/Machine/Flags.lean ====
section
/-! DEFINITION. Flags: the capture of events by the Error and Alert Unit, the alert mechanism and the ALERT_N pin
(chapter 11), and the derived status flags of links and entries. -/

namespace Sys2Proof.Machine

/-- The number of a class, in the order of R164. -/
def ErrClass.index : ErrClass → Fin 10
  | .refusal => 0
  | .protocol => 1
  | .poolCorrected => 2
  | .poolUncorrected => 3
  | .poisonSent => 4
  | .dirCorrected => 5
  | .dirUncorrected => 6
  | .probeRetry => 7
  | .nodeLost => 8
  | .link => 9

/-- What the unit holds for class c. -/
def State.cls (s : State) (c : Fin 10) : ClassState := tget s.errors c

/-- The capture of one event by its class: the first record while the pending flag is clear, else the further flag;
the count rises and stops at 65 535 (R153, R155). -/
def ClassState.capture (x : ClassState) (r : ErrRec) : ClassState :=
  { pending := true
    further := x.pending
    count := min 65535 (x.count + 1)
    first := if x.pending then x.first else some r }

/-- An event arrives at the unit (R153). -/
def State.capture (s : State) (c : ErrClass) (r : ErrRec) : State :=
  { s with errors := tset s.errors c.index ((s.cls c.index).capture r) }

/-- The pending flags, class c at bit c (R164). -/
def State.pendingSet (s : State) : ClassSet :=
  (List.finRange 10).foldl
    (fun acc c => if (s.cls c).pending then acc ||| (1#10 <<< c.val) else acc) 0

/-- The classes pending and unmasked (R157, R160). -/
def State.alertSet (s : State) : ClassSet := s.pendingSet &&& s.alertMask

/-- An ALERT stands in some node's outbound queue (R157). -/
def State.alertQueued (s : State) : Bool := allNodes.any (fun n => (s.node n).outQ.any OutMsg.isAlert)

/-- The condition under which an ALERT is sent while the state is IDLE (R157). -/
def State.alertReady (s : State) : Bool :=
  decide (s.alertSet ≠ 0) && (s.node s.alertTarget).joined
    && decide ((s.node s.alertTarget).link = .active) && !s.alertQueued

/-- The test of R157: while the state is IDLE and the condition holds, an ALERT with the classes pending and
unmasked is queued on the target's outbound queue and the state becomes SENT. -/
def State.alertTest (s : State) : State :=
  match s.alert with
  | .sent _ => s
  | .idle =>
    if s.alertReady then { s.send s.alertTarget (.alert s.alertSet) with alert := .sent s.alertTarget } else s

/-- An event is raised: it is captured, and the alert condition is tested (R153, R157). -/
def State.raise (s : State) (c : ErrClass) (r : ErrRec) : State := (s.capture c r).alertTest

/-- ALERT_N, true where the pin is driven low: the pin enable is on and some class is pending and unmasked (R160). -/
def State.alertN (s : State) : Bool := s.pinEnable && decide (s.alertSet ≠ 0)

/-- ALERT-STATUS's flag: the outstanding ALERT has left the outbound queue (R157). While the state is IDLE no ALERT is
outstanding and it reads 0, which is the model's choice (log 34). -/
def State.alertLeft (s : State) : Bool :=
  match s.alert with
  | .idle => false
  | .sent n => !(s.node n).outQ.any OutMsg.isAlert

/-- A class acknowledged: pending and further clear, the first record empty, the count kept (R156). -/
def ClassState.acknowledge (x : ClassState) : ClassState :=
  { x with pending := false, further := false, first := none }

/-- The classes named by the low ten bits of a write to ERROR-ACK are acknowledged (R156). -/
def State.acknowledge (s : State) (named : ClassSet) : State :=
  { s with errors := Vector.ofFn (fun c : Fin 10 =>
      if named.getLsbD c.val then (s.cls c).acknowledge else s.cls c) }

/-- ALERT-CLEAR: an ALERT not yet sent in any frame is withdrawn from the addressee's outbound queue, the state
becomes IDLE, and the condition is tested at once; in IDLE nothing changes (R158). -/
def State.alertClear (s : State) : State :=
  match s.alert with
  | .idle => s
  | .sent n =>
    let s := s.modNode n (fun x => { x with
      outQ := x.outQ.take x.sentCount ++ (x.outQ.drop x.sentCount).filter (fun m => !m.isAlert) })
    { s with alert := .idle }.alertTest

/-- A DOWN link offers training while the conditions of R130 hold. -/
def State.offersTraining (s : State) (n : NodeId) : Bool :=
  decide ((s.node n).link = .down) && decide (s.status = .ready) && (s.node n).enable && (s.node n).presence
    && decide ((s.node n).membership = .absent)
    && !allEntries.any (fun e => (s.entry e).inUse && decide ((s.entry e).kind.cls = .ret) && (s.entry e).isFrom n)

/-- An entry in GATHER waits for nothing more: no probe without a first answer, no pool read, no awaited return
(R25). -/
def Entry.gatherDone (x : Entry) : Bool :=
  allNodes.all (fun n => !(x.probe n).unanswered) && decide (x.poolOp = .none) && decide (x.awaited = none)

/-- An entry in FINISH waits for nothing more: no awaited CONFIRM, no pool write, no straggler (R25). -/
def Entry.finishDone (x : Entry) : Bool :=
  (match x.confirm with | .awaited _ => false | .notNeeded => true | .received => true)
    && decide (x.poolOp = .none) && allNodes.all (fun n => !(x.probe n).straggling)

/-- The effective priority of node n: its configured priority, or 4 while it is urgent (R122). -/
def Node.effectivePriority (x : Node) : Nat := if x.urgent then 4 else x.priority.toNat

/-- A node passed over at a request admission: its patience counter rises, stopping at 255, and on reaching its
limit, which must not be 0, makes the node urgent (R123). -/
def Node.passedOver (x : Node) : Node :=
  if x.patience < 255 then
    { x with patience := x.patience + 1
             urgent := x.urgent || (decide (x.patienceLimit ≠ 0) && decide (x.patienceLimit.toNat ≤ x.patience + 1)) }
  else x

/-- A node whose request head was admitted: counter and urgent flag clear (R123). -/
def Node.served (x : Node) : Node := { x with patience := 0, urgent := false }

/-- The walker is busy while it runs the init sweep or holds a record (R146). -/
def State.walkerBusy (s : State) : Bool :=
  decide (s.status = .init) || allNodes.any (fun n => (tget s.walker.records n).isSome)

end Sys2Proof.Machine
end

