-- ==== Sys2Proof/Machine/Operands.lean ====
section
/-! DEFINITION. The operand forms: messages as R166 lays them out on the node link, in both directions, and the
damage done to storage. -/

namespace Sys2Proof.Machine

/-! ## Codes (R165, R166) -/

/-- The code of a message kind (R166). -/
def MsgKind.code : MsgKind → BitVec 8
  | .fetchS => 0x01 | .fetchH => 0x02 | .upgrade => 0x03 | .flush => 0x04 | .plainRead => 0x05
  | .plainWrite => 0x06 | .order => 0x07 | .configRead => 0x08 | .configWrite => 0x09 | .leave => 0x0A
  | .returnD => 0x0B | .returnC => 0x0C | .ackClean => 0x0D | .ackData => 0x0E | .miss => 0x0F
  | .confirm => 0x10 | .grantS => 0x11 | .grantH => 0x12 | .data => 0x13 | .done => 0x14
  | .refuse => 0x15 | .configData => 0x16 | .alert => 0x17 | .recall => 0x18 | .walker => 0x19
  | .probeDrop => 0x1A | .probeYield => 0x1B | .probeSurrender => 0x1C

/-- The kind of a probe message (R166). -/
def ProbeKind.msgKind : ProbeKind → MsgKind
  | .drop => .probeDrop
  | .yield => .probeYield
  | .surrender => .probeSurrender

/-- The kind an entry's work is recorded under (R154, R166). -/
def WorkKind.msgKind : WorkKind → MsgKind
  | .fetchS => .fetchS
  | .fetchH => .fetchH
  | .upgrade => .upgrade
  | .flush => .flush
  | .plainRead => .plainRead
  | .plainWrite => .plainWrite
  | .returnD => .returnD
  | .returnC => .returnC
  | .recall => .recall

/-- The code of a refusal reason (R165). -/
def Reason.code : Reason → Nat
  | .noRegion => 1
  | .denied => 2
  | .kind => 3
  | .leaving => 4
  | .dirFault => 5
  | .state => 6
  | .configOffset => 7
  | .regionBusy => 8

/-- The code of a reader (R165). -/
def Reader.code : Reader → Nat
  | .activation => 1
  | .wayWait => 2
  | .walker => 3

/-- The code of a cause of loss (R165). -/
def LossCause.code : LossCause → Nat
  | .relinkExpired => 1
  | .partnerGone => 2
  | .probeTimeout => 3
  | .confirmTimeout => 4
  | .returnTimeout => 5
  | .forced => 6

/-- The code of a LINK event's detail (R165). -/
def LinkDetail.code : LinkDetail → Nat
  | .mismatch => 1
  | .trainingFailed => 2
  | .partnerGone => 3
  | .retrainRetry => 4
  | .retrainCommand => 5
  | .retrainPartner => 6
  | .relinkExpired => 7

/-- The detail code of an error record (R165). -/
def Detail.code : Detail → Nat
  | .reason r => r.code
  | .entryNumber e => e.toNat
  | .state => 0x101
  | .credit => 0x102
  | .kind => 0x103
  | .words n => n
  | .beyondSize => 0x100
  | .postedMerge => 0x101
  | .reader r => r.code
  | .malformedWrite => 5
  | .probe k => k.msgKind.code.toNat
  | .cause c => c.code
  | .link d => d.code

/-- The kinds of the answer channel (R137). -/
inductive AnswerKind where
  | ackClean
  | ackData
  | miss
  | confirm
deriving DecidableEq, Repr

/-- The message kind of an answer kind. -/
def AnswerKind.msgKind : AnswerKind → MsgKind
  | .ackClean => .ackClean
  | .ackData => .ackData
  | .miss => .miss
  | .confirm => .confirm

end Sys2Proof.Machine

namespace Sys2Proof

open Sys2Proof.Machine

/-! ## Header fields of a message received (R166) -/

/-- The kind code: header bits 7:0. -/
def WireMsg.kindCode (m : WireMsg) : BitVec 8 := m.header.extractLsb' 0 8

/-- The tag: header bits 13:8. -/
def WireMsg.tag (m : WireMsg) : Tag := m.header.extractLsb' 8 6

/-- The entry number: header bits 19:14. It may be above 47. -/
def WireMsg.entryNo (m : WireMsg) : BitVec 6 := m.header.extractLsb' 14 6

/-- The line address: header bits 49:20. -/
def WireMsg.line (m : WireMsg) : LineAddr := m.header.extractLsb' 20 30

/-- The offset of a CONFIG-READ or CONFIG-WRITE: header bits 31:20. -/
def WireMsg.offset (m : WireMsg) : Offset := m.header.extractLsb' 20 12

/-- The value of a CONFIG-WRITE: header bits 63:32. -/
def WireMsg.value (m : WireMsg) : RegValue := m.header.extractLsb' 32 32

/-- The poison flag: header bit 50. -/
def WireMsg.poison (m : WireMsg) : Bool := m.header.getLsbD 50

/-- The keep flag: header bit 51. -/
def WireMsg.keep (m : WireMsg) : Bool := m.header.getLsbD 51

/-- The data-present bit: header bit 52. -/
def WireMsg.dataPresent (m : WireMsg) : Bool := m.header.getLsbD 52

/-- The request a message on the request channel is, or nothing where its kind is not carried by that channel or its
data-present bit does not fit the kind's layout (R137, R166). A CONFIG-WRITE has no data-present bit. -/
def WireMsg.request (m : WireMsg) : Option ReqMsg :=
  let plainBody (b : ReqBody) : Option ReqMsg := if m.dataPresent then none else some ⟨m.tag, b⟩
  if m.kindCode = MsgKind.fetchS.code then plainBody (.fetchS m.line)
  else if m.kindCode = MsgKind.fetchH.code then plainBody (.fetchH m.line)
  else if m.kindCode = MsgKind.upgrade.code then plainBody (.upgrade m.line)
  else if m.kindCode = MsgKind.flush.code then plainBody (.flush m.line)
  else if m.kindCode = MsgKind.plainRead.code then plainBody (.plainRead m.line)
  else if m.kindCode = MsgKind.plainWrite.code then
    if m.dataPresent then some ⟨m.tag, .plainWrite m.line m.mask m.data⟩ else none
  else if m.kindCode = MsgKind.order.code then plainBody .order
  else if m.kindCode = MsgKind.configRead.code then plainBody (.configRead m.offset)
  else if m.kindCode = MsgKind.configWrite.code then some ⟨m.tag, .configWrite m.offset m.value⟩
  else if m.kindCode = MsgKind.leave.code then plainBody .leave
  else none

/-- The return a message on the return channel is, or nothing (R137, R166). -/
def WireMsg.ret (m : WireMsg) : Option RetMsg :=
  if m.kindCode = MsgKind.returnD.code then
    if m.dataPresent then some ⟨m.tag, m.line, some ⟨m.data, m.poison⟩⟩ else none
  else if m.kindCode = MsgKind.returnC.code then
    if m.dataPresent then none else some ⟨m.tag, m.line, none⟩
  else none

/-- The answer kind a message's kind code names, if any. -/
def WireMsg.answerCode (m : WireMsg) : Option AnswerKind :=
  [AnswerKind.ackClean, .ackData, .miss, .confirm].find? (fun k => decide (m.kindCode = k.msgKind.code))

/-- The answer a message on the answer channel is, or nothing: ACK-DATA carries data and the other three do not
(R137, R166). -/
def WireMsg.answer (m : WireMsg) : Option AnswerKind :=
  match m.answerCode with
  | none => none
  | some k => if m.dataPresent = decide (k = AnswerKind.ackData) then some k else none

/-! ## Decoding a damaged way (R5) -/

/-- The record a decoded way stands for, or nothing where it is not well formed: SHARED with no node, HELD with
other than one, or a state that is neither (R5). An invalid record is VACANT. -/
def RawRecord.toRecord (r : RawRecord) : Option (Option Record) :=
  if r.valid then
    match r.state with
    | .shared => if r.sharers = 0 then none else some (some ⟨r.tag, .shared, r.sharers⟩)
    | .held => if (NodeSet.members r.sharers).length = 1 then some (some ⟨r.tag, .held, r.sharers⟩) else none
    | .other => none
  else some none

/-- A record is as R2's law has it. -/
def Record.wellFormed (r : Record) : Bool :=
  match r.state with
  | .shared => decide (r.sharers ≠ 0)
  | .held => decide ((NodeSet.members r.sharers).length = 1)

end Sys2Proof

namespace Sys2Proof.Machine

/-! ## Messages sent (R166) -/

/-- A header field: the value at its lowest bit. -/
def headerField (value low : Nat) : BitVec 64 := BitVec.ofNat 64 (value <<< low)

/-- A header flag at its bit. -/
def headerFlag (b : Bool) (bit : Nat) : BitVec 64 := if b then BitVec.ofNat 64 (1 <<< bit) else 0

/-- The header of a message the hub sends; bits that no field of the kind uses are 0 (R166). -/
def OutMsg.header : OutMsg → BitVec 64
  | .grantS tag e line d =>
    headerField MsgKind.grantS.code.toNat 0 ||| headerField tag.toNat 8 ||| headerField e.val 14
      ||| headerField line.toNat 20 ||| headerFlag d.poison 50 ||| headerFlag true 52
  | .grantH tag e line d =>
    headerField MsgKind.grantH.code.toNat 0 ||| headerField tag.toNat 8 ||| headerField e.val 14
      ||| headerField line.toNat 20 ||| headerFlag ((d.map Buffer.poison).getD false) 50 ||| headerFlag d.isSome 52
  | .data tag line d =>
    headerField MsgKind.data.code.toNat 0 ||| headerField tag.toNat 8 ||| headerField line.toNat 20
      ||| headerFlag d.poison 50 ||| headerFlag true 52
  | .done tag channel poison _ =>
    headerField MsgKind.done.code.toNat 0 ||| headerField tag.toNat 8 ||| headerFlag poison 50
      ||| headerFlag (decide (channel = .ret)) 53
  | .refuse tag reason =>
    headerField MsgKind.refuse.code.toNat 0 ||| headerField tag.toNat 8 ||| headerField reason.code 56
  | .configData tag value =>
    headerField MsgKind.configData.code.toNat 0 ||| headerField tag.toNat 8 ||| headerField value.toNat 32
  | .alert classes => headerField MsgKind.alert.code.toNat 0 ||| headerField classes.toNat 20
  | .probe k e line =>
    headerField k.msgKind.code.toNat 0 ||| headerField e.val 14 ||| headerField line.toNat 20

/-- The data that follows the header of a message the hub sends, where its data-present bit is set (R166). -/
def OutMsg.body : OutMsg → Option LineData
  | .grantS _ _ _ d => some d.data
  | .grantH _ _ _ d => d.map Buffer.data
  | .data _ _ d => some d.data
  | .done _ _ _ _ => none
  | .refuse _ _ => none
  | .configData _ _ => none
  | .alert _ => none
  | .probe _ _ _ => none

/-- What the next frame of k messages puts on node n's link: the first k messages not yet sent in a frame, each a
header and its data (R140, R166). -/
def State.frameOutput (s : State) (n : NodeId) (k : Nat) : List (BitVec 64 × Option LineData) :=
  (((s.node n).outQ.drop (s.node n).sentCount).take k).map (fun m => (m.header, m.body))

/-! ## Damage to storage -/

/-- The directory's storage after the damage a command brings (log 6). -/
def State.damaged (s : State) (us : List DirUpset) : State :=
  us.foldl (fun s u => s.putWay u.set u.way { s.way u.set u.way with damage := u.damage }) s

/-- A line's storage after the damage a READ meets (log 6). -/
def PoolLine.damaged (x : PoolLine) (us : List WordUpset) : PoolLine :=
  us.foldl (fun x u => tset x u.word { tget x u.word with damage := u.damage }) x

/-- A stored record checked for form: one that breaks R2 is treated as an uncorrectable error (R5). -/
def formed (found : CheckResult) (r : Option Record) : CheckResult × Option Record :=
  match r with
  | none => (found, none)
  | some x => if x.wellFormed then (found, some x) else (.uncorrectable, none)

/-- The check of a way's storage: its result, and the record (absent for VACANT) where it can be had (R5). -/
def Way.check (x : Way) : CheckResult × Option Record :=
  match x.damage with
  | .intact => formed .clean x.written
  | .oneBit => formed .corrected x.written
  | .twoBits => (.uncorrectable, none)
  | .beyond decoded found =>
    match found, decoded.toRecord with
    | .uncorrectable, _ => (.uncorrectable, none)
    | _, none => (.uncorrectable, none)
    | f, some r => (f, r)

end Sys2Proof.Machine
end

