-- ==== Sys2Proof/Machine/Directory.lean ====
section
/-! DEFINITION. The Sharer Directory: reads of a set with their side effects, full writes of a way, pins, recency
and the two counts (chapter 1). -/

namespace Sys2Proof.Machine

/-- What a read returns for one way, before a tag is sought: HIT and VALID are told apart by the record's tag (R4). -/
inductive WayRead where
  | record (r : Record)
  | vacant
  | quarantined
  | unreadable
deriving DecidableEq, Repr

/-- What a read of a set returns: for each way its classification and its pin owner (R4). -/
abbrev SetRead := Vector (WayRead × Pin) 8

/-- The way counts as valid: it was last written valid and carries no quarantine mark (R7, R18). -/
def Way.counted (x : Way) : Bool := x.written.isSome && !x.quarantined

/-- A way stored by a write of the hub's own or by the setting of its mark, with the two counts following the change
(R18, R19). -/
def State.storeWay (s : State) (k : SetIdx) (w : WayNo) (x : Way) : State :=
  let old := s.way k w
  let s := s.putWay k w x
  { s with dir := { s.dir with
      validCount := s.dir.validCount + x.counted.toNat - old.counted.toNat
      quarCount := s.dir.quarCount + x.quarantined.toNat - old.quarantined.toNat } }

/-- The fields of an event about a way; it names no node and no tag (R154). -/
def dirEvent (kind : MsgKind) (k : SetIdx) (w : WayNo) (d : Detail) : ErrRec :=
  { kind := some kind, place := some (.way k w), detail := some d }

/-- The read of one way within a read of its set: the check, its event, the rewrite of a corrected way and the mark
on an uncorrectable one where the way is unpinned (R4 to R8). A quarantined way is not checked (R5). The rewrite stores
the record read and leaves both counts, whatever the read made of the way (R6, R18; log 36). -/
def State.readWay (s : State) (k : SetIdx) (w : WayNo) (reader : Reader) (kind : MsgKind) : State × WayRead :=
  let x := s.way k w
  if x.quarantined then (s, .quarantined)
  else
    match x.check with
    | (.clean, r) => (s, match r with | some r => .record r | none => .vacant)
    | (.corrected, r) =>
      let s := if x.pin = .none then s.putWay k w { x with written := r, damage := .intact } else s
      (s.raise .dirCorrected (dirEvent kind k w (.reader reader)),
        match r with | some r => .record r | none => .vacant)
    | (.uncorrectable, _) =>
      if x.pin = .none then
        ((s.storeWay k w { x with quarantined := true }).raise .dirUncorrected (dirEvent kind k w (.reader reader)),
          .quarantined)
      else (s.raise .dirUncorrected (dirEvent kind k w (.reader reader)), .unreadable)

/-- A read of set k: all eight ways, taken whole (R4). `kind` is the kind of the work that reads, which the events
record (R154). One read raises its events for ways 0 to 7 in that order, which is the model's choice (log 29), and with
their alert tests before the probes, replies and further events that what was read leads to, which is the model's choice
too (log 14). -/
def State.readSet (s : State) (k : SetIdx) (reader : Reader) (kind : MsgKind) : State × SetRead :=
  allWays.foldl
    (fun acc w =>
      let (s', r) := acc.1.readWay k w reader kind
      (s', tset acc.2 w (r, (s.way k w).pin)))
    (s, Vector.replicate 8 (.vacant, .none))

/-- The way whose record carries the tag sought: the HIT (R4). Where a record misread from three or more wrong bits
gives a second way that tag, the lowest-numbered of them, which is the model's choice (log 36). -/
def SetRead.hit (rd : SetRead) (t : DirTag) : Option (WayNo × Record × Pin) :=
  allWays.findSome? (fun w =>
    match tget rd w with
    | (.record r, p) => if r.tag = t then some (w, r, p) else none
    | _ => none)

/-- The ways returned as UNREADABLE (R8). -/
def SetRead.unreadable (rd : SetRead) : List WayNo := allWays.filter (fun w => decide ((tget rd w).1 = .unreadable))

/-- All eight ways are QUARANTINED (R90). -/
def SetRead.allQuarantined (rd : SetRead) : Bool := allWays.all (fun w => decide ((tget rd w).1 = .quarantined))

/-- The record of a way that is valid, unpinned and not quarantined (R82, R83). -/
def SetRead.recallable (rd : SetRead) (w : WayNo) : Option Record :=
  match tget rd w with
  | (.record r, .none) => some r
  | _ => none

/-- The least recent of the VACANT, unpinned, unquarantined ways, in a recency order (R82 step 3). -/
def SetRead.freeWay (rd : SetRead) (order : List WayNo) : Option WayNo :=
  order.find? (fun w => decide (tget rd w = (.vacant, .none)))

/-- The victim: the least recent of the valid, unpinned, unquarantined ways, with its record (R83). -/
def SetRead.victim (rd : SetRead) (order : List WayNo) : Option (WayNo × Record) :=
  order.findSome? (fun w => (rd.recallable w).map (fun r => (w, r)))

/-- The record a write leaves, and whether it was malformed: SHARED with no node makes the way VACANT; HELD with
other than one node is stored VACANT as a malformed write (R2). -/
def normalWrite : Option Record → Option Record × Bool
  | none => (none, false)
  | some r =>
    match r.state with
    | .shared => (if r.sharers = 0 then none else some r, false)
    | .held => if (NodeSet.members r.sharers).length = 1 then (some r, false) else (none, true)

/-- A full write of a way: the record whole or VACANT, with fresh check bits, and any quarantine mark cleared; the
pin is left as it is (R2, R9, R14). `kind` is the writer's, for the event of a malformed write. -/
def State.writeWay (s : State) (k : SetIdx) (w : WayNo) (r : Option Record) (kind : MsgKind) : State :=
  let s := s.storeWay k w { s.way k w with written := (normalWrite r).1, damage := .intact, quarantined := false }
  if (normalWrite r).2 then s.raise .dirUncorrected (dirEvent kind k w .malformedWrite) else s

/-- The pin owner of a way set (R11, R13). -/
def State.setPin (s : State) (k : SetIdx) (w : WayNo) (p : Pin) : State :=
  s.putWay k w { s.way k w with pin := p }

/-- A recency order with w moved to its most recent place; the ways after it move one place, those before it stay
(R15). -/
def recent (order : List WayNo) (w : WayNo) : List WayNo := order.filter (· ≠ w) ++ [w]

/-- Way w moves to the most recent place of its set's order (R15). -/
def State.touch (s : State) (k : SetIdx) (w : WayNo) : State :=
  s.putDirSet k { s.dirSet k with order := recent (s.dirSet k).order w }

end Sys2Proof.Machine
end

