-- ==== Sys2Proof/Machine/PoolPort.lean ====
section
/-! DEFINITION. The Pool Port: issue and acceptance of operations, the words a READ finds, the forms a WRITE stores,
and the events of a READ (chapter 7). -/

namespace Sys2Proof.Machine

/-- The pool operation field of an accepted operation (R104). -/
def PoolOp.field (op : PoolOp) : PoolField := if op.write.isSome then .writeOut else .readOut

/-- The owner entry's pool operation field takes a value; the walker keeps none (R104). -/
def State.setPoolField (s : State) (o : Owner) (f : PoolField) : State :=
  match o with
  | .entry e => s.modEntry e (fun x => { x with poolOp := f })
  | .walker => s

/-- An operation is issued: accepted into the queue when it holds fewer than 32 and nobody waits, else at the tail
of the issue-wait list (R104). -/
def State.issue (s : State) (op : PoolOp) : State :=
  if s.poolQueue.length < Config.poolQueueSize ∧ s.issueWait = [] then
    { s with poolQueue := s.poolQueue ++ [op] }.setPoolField op.owner op.field
  else { s with issueWait := s.issueWait ++ [op] }.setPoolField op.owner .waiting

/-- Entry e issues a READ of its line (R44, R93, R96). -/
def State.issueRead (s : State) (e : EntryId) : State :=
  s.issue { owner := .entry e, line := (s.entry e).line, write := none }

/-- Entry e issues a WRITE of its line (R59, R60, R70, R95, R96). -/
def State.issueWrite (s : State) (e : EntryId) (b : Buffer) : State :=
  s.issue { owner := .entry e, line := (s.entry e).line, write := some b }

/-- Entry e withdraws an operation that still waits to issue (R105). -/
def State.withdraw (s : State) (e : EntryId) : State :=
  { s with issueWait := s.issueWait.filter (fun op => decide (op.owner ≠ Owner.entry e)) }.setPoolField (.entry e) .none

/-- The accepted operation of an owner, unless an operation to the same line was accepted before it: those complete
in the order they were accepted (R106). -/
def State.completable (s : State) (o : Owner) : Option PoolOp :=
  match s.poolQueue.find? (fun op => decide (op.owner = o)) with
  | none => none
  | some op =>
    match s.poolQueue.find? (fun q => decide (q.line = op.line)) with
    | some q => if q.owner = o then some op else none
    | none => none

/-- An operation completes and leaves the queue; the head of the issue-wait list is accepted into the freed place
(R105, R106). -/
def State.retireOp (s : State) (o : Owner) : State :=
  let s := { s with poolQueue := s.poolQueue.filter (fun op => decide (op.owner ≠ o)) }.setPoolField o .none
  match s.issueWait with
  | [] => s
  | op :: rest =>
    { s with poolQueue := s.poolQueue ++ [op], issueWait := rest }.setPoolField op.owner op.field

/-- The GiB a line lies in: its line address divided by 16 777 216 (R107, R113). -/
def LineAddr.gib (l : LineAddr) : BitVec 6 := l.extractLsb' 24 6

/-- The line lies at or above the installed size: S GiB is S × 16 777 216 lines (R107, R113). -/
def State.beyondSize (s : State) (l : LineAddr) : Bool := decide (s.poolSize.toNat ≤ (LineAddr.gib l).toNat)

/-- The condition in which a READ finds a word and the word it delivers (R109): as stored where clean or
uncorrectable, corrected where corrected, zeros where marked. -/
def StoredWord.read (x : StoredWord) (l : LineAddr) (k : WordNo) : WordCond × WordData :=
  match x.damage, x.content with
  | .beyond found bits, _ => (found, if found = .marked then 0 else bits)
  | .intact, .data w => (.clean, w)
  | .oneBit, .data w => (.corrected, w)
  | .twoBits flips, .data w => (.uncorrectable, w ^^^ flips)
  | .intact, .marker => (.marked, 0)
  | .oneBit, .marker => (.marked, 0)
  | .twoBits flips, .marker => (.uncorrectable, Config.markerBits ^^^ flips)
  | .intact, .unknown seed
  | .oneBit, .unknown seed
  | .twoBits _, .unknown seed =>
    let r := Config.unknownWord seed l k
    (r.cond, if r.cond = .marked then 0 else r.bits)

/-- The results of a READ (R110), CORRECTED and UNCORRECTABLE with the number of words. -/
inductive ReadResult where
  | clean
  | corrected (words : Nat)
  | uncorrectable (words : Nat)
  | beyondSize
  | poisoned
deriving DecidableEq, Repr

/-- The result of a READ decided from its eight word conditions by the first row of R110 that applies. -/
def readResult (cs : List WordCond) : ReadResult :=
  if 0 < cs.count .uncorrectable then .uncorrectable (cs.count .uncorrectable)
  else if 0 < cs.count .marked then .poisoned
  else if 0 < cs.count .corrected then .corrected (cs.count .corrected)
  else .clean

/-- The owner's poison flag for a result (R110). -/
def ReadResult.poison : ReadResult → Bool
  | .clean => false
  | .corrected _ => false
  | .uncorrectable _ => true
  | .beyondSize => true
  | .poisoned => true

/-- The result is CORRECTED. -/
def ReadResult.isCorrected : ReadResult → Bool
  | .corrected _ => true
  | .clean => false
  | .uncorrectable _ => false
  | .beyondSize => false
  | .poisoned => false

/-- A READ of a line as the pool stands: its result and the 64 bytes delivered. At or above the installed size it is
UNCORRECTABLE with all bytes zero (R107, R109, R110). The size is the one that stands at the completion, also where it
has been raised since the acceptance, which is the model's choice (log 38). -/
def State.poolRead (s : State) (l : LineAddr) : ReadResult × LineData :=
  if s.beyondSize l then (.beyondSize, 0)
  else
    let word (k : WordNo) : WordCond × WordData := (tget (s.pool.line l) k).read l k
    (readResult (allWays.map (fun k => (word k).1)), LineData.ofWords (Vector.ofFn (fun k => (word k).2)))

/-- The line a WRITE stores: eight words of data with good check bits, or eight poison markers (R108). -/
def PoolLine.written (b : Buffer) : PoolLine :=
  Vector.ofFn (fun k =>
    { content := if b.poison then .marker else .data (LineData.word b.data k), damage := .intact })

/-- A WRITE takes effect: the whole line is replaced; at or above the installed size
nothing is stored (R107, R108); the size is the one that stands at the completion (log 38). -/
def State.poolWrite (s : State) (l : LineAddr) (b : Buffer) : State :=
  if s.beyondSize l then s else { s with pool := s.pool.putLine l (PoolLine.written b) }

/-- The damage a READ meets in its line's storage (log 6); a line beyond the size has no storage. -/
def State.poolDamaged (s : State) (l : LineAddr) (us : List WordUpset) : State :=
  if s.beyondSize l then s else { s with pool := s.pool.putLine l ((s.pool.line l).damaged us) }

/-- The fields of an event about entry e's line: its origin's node and tag where it has an origin, its kind and its
line (R111, R154). -/
def State.entryEvent (s : State) (e : EntryId) (d : Option Detail) : ErrRec :=
  { node := (s.entry e).origin.map Origin.node, tag := (s.entry e).origin.map Origin.tag
    kind := some (s.entry e).kind.msgKind, place := some (.line (s.entry e).line), detail := d }

/-- The event of a READ according to its result (R107, R111). -/
def State.readEvent (s : State) (e : EntryId) (r : ReadResult) : State :=
  match r with
  | .clean => s
  | .poisoned => s
  | .corrected n => s.raise .poolCorrected (s.entryEvent e (some (.words n)))
  | .uncorrectable n => s.raise .poolUncorrected (s.entryEvent e (some (.words n)))
  | .beyondSize => s.raise .poolUncorrected (s.entryEvent e (some .beyondSize))

end Sys2Proof.Machine
end

