-- ==== Sys2Proof/Machine/Links.lean ====
section
/-! DEFINITION. The Node Link Controllers: training and retraining, frames and the leaving of messages, arrivals,
and a link going DOWN (chapter 9). -/

namespace Sys2Proof.Machine

/-- The base every partner supports: 8 lanes, grade 1 (R131). -/
def baseTargets : Targets := ⟨.x8, .g1⟩

/-- The fields of a LINK event (R154). -/
def linkEvent (n : NodeId) (d : LinkDetail) : ErrRec := { node := some n, detail := some (.link d) }

/-- The fields of a PROTOCOL event for a message discarded at arrival: the node and the detail only (R137, R154). -/
def arrivalEvent (n : NodeId) (d : Detail) : ErrRec := { node := some n, detail := some d }

/-- A link as it stands once DOWN: queues, frames and credits emptied, agreed values none, timers stopped (R135). -/
def Node.down (x : Node) : Node :=
  { x with link := .down, agreed := none, requestQ := [], returnQ := [], outQ := [], frames := [], reqCredits := 0
           retCredits := 0, relinkTimer := none, training := .idle, damagedCount := 0 }

/-- An outstanding ALERT whose addressee's link has gone DOWN is outstanding no more, and the alert condition is
tested (R157, R159). -/
def State.alertAddresseeDown (s : State) (n : NodeId) : State :=
  (if s.alert = .sent n then { s with alert := .idle } else s).alertTest

/-- Node n's link enters DOWN from ACTIVE or RETRAINING (R135, R159). -/
def State.linkDown (s : State) (n : NodeId) : State := (s.modNode n Node.down).alertAddresseeDown n

/-! ## Training and retraining -/

/-- The link enters RETRAINING: the relink timer and the first attempt's base phase start, acknowledgement timers
stop, the timers aimed at the node freeze, and a LINK event is raised (R37, R131, R132). The link has left ACTIVE when
the event's alert test is made, which is the model's choice (log 14). -/
def State.enterRetraining (s : State) (n : NodeId) (d : LinkDetail) : State :=
  let s := s.modNode n (fun x => { x with
    link := .retraining, relinkTimer := some (s.relinkTimeout.toNat * 100), training := .base Config.trainingSpan
    frames := x.frames.map (fun f => { f with ackTimer := none }) })
  (s.mapTimers n Timer.freeze).raise .link (linkEvent n d)

/-- The exchange of targets at the end of a base phase: mismatch is cleared where they are equal; else it is set and
a LINK event MISMATCH is raised (R131). -/
def State.exchange (s : State) (n : NodeId) (partner : Targets) : State :=
  if (s.node n).target = partner then s.modNode n (fun x => { x with mismatch := false })
  else (s.modNode n (fun x => { x with mismatch := true })).raise .link (linkEvent n .mismatch)

/-- The pair the link steps up to after an exchange, if it steps up: equal targets other than base (R131). -/
def stepUpTargets (own partner : Targets) : Option Targets :=
  if own = partner ∧ own ≠ baseTargets then some own else none

/-- Training succeeds at the pair t: the link is ACTIVE and an ABSENT node becomes a MEMBER with 16 request and 8
return credits (R131, R136). -/
def State.trainSucceed (s : State) (n : NodeId) (t : Targets) : State :=
  (s.modNode n (fun x => { x with
    link := .active, agreed := some t, training := .idle, membership := .member, reqCredits := 16
    retCredits := 8 })).alertTest

/-- Retraining succeeds at the pair t: the relink timer stops, the link is ACTIVE with its queues and credits, resend
counts and damaged count return to 0, unacknowledged frames are sent first, and frozen timers resume (R37, R133). -/
def State.retrainSucceed (s : State) (n : NodeId) (t : Targets) : State :=
  let s := s.modNode n (fun x => { x with
    link := .active, agreed := some t, training := .idle, relinkTimer := none, damagedCount := 0
    frames := x.frames.map (fun f => { f with resends := 0, ackTimer := some Config.ackSpan }) })
  (s.mapTimers n Timer.resume).alertTest

/-- The link has come up at the pair t, from TRAINING or RETRAINING. -/
def State.linkUp (s : State) (n : NodeId) (t : Targets) : State :=
  match (s.node n).link with
  | .training => s.trainSucceed n t
  | .retraining => s.retrainSucceed n t
  | .down => s
  | .active => s

/-- The base phase completes: targets are exchanged, and the link comes up at base or begins a step-up (R131). -/
def State.baseComplete (s : State) (n : NodeId) (partner : Targets) : State :=
  let own := (s.node n).target
  let s := s.exchange n partner
  match stepUpTargets own partner with
  | some t => s.modNode n (fun x => { x with training := .stepUp t Config.trainingSpan })
  | none => s.linkUp n baseTargets

/-- Training ends without success: the link returns to DOWN with a LINK event (R131). Its queues are empty already
(R135). -/
def State.trainingEnds (s : State) (n : NodeId) (d : LinkDetail) : State :=
  (s.modNode n Node.down).raise .link (linkEvent n d)

/-- The time a training phase has left, if one runs. -/
def TrainPhase.remaining : TrainPhase → Option Nat
  | .idle => none
  | .base r => some r
  | .stepUp _ r => some r

/-! ## Frames -/

/-- The frame is sent again, and its acknowledgement time starts afresh (R132). Once it has been sent again 8 times
its count stands at 8 and the time of its eighth resending runs on, whatever is sent after it (log 11). -/
def Frame.resend (f : Frame) : Frame :=
  if f.resends < Config.retryLimit then { f with resends := f.resends + 1, ackTimer := some Config.ackSpan } else f

/-- Frame i and every frame sent after it are sent again (R132). -/
def Node.resendFrom (x : Node) (i : Nat) : Node :=
  { x with frames := x.frames.take i ++ (x.frames.drop i).map Frame.resend }

/-- The effects of a probe's leaving the outbound queue: its record becomes SENT unless answered, and its timer
starts while answers are fewer than sends (R29). The copy is matched by its entry number alone, also where the entry it
was made for has completed and its number is in use again, which is the model's choice (log 37). -/
def State.probeLeft (s : State) (n : NodeId) (e : EntryId) : State :=
  let p := (s.entry e).probe n
  let status := if p.status = .queuedOut then ProbeStatus.sent else p.status
  let timer := if p.answers < p.sends ∧ p.status ≠ .lost ∧ !p.waitEnded then s.startTimer n s.probeSpan else p.timer
  s.setEntry e ((s.entry e).setProbe n { p with status := status, timer := timer })

/-- The effects of a grant's leaving: the confirm timer of the entry that awaits its CONFIRM starts (R33), and a
POISON-SENT event is raised if it carries poison (R61). -/
def State.grantLeft (s : State) (n : NodeId) (tag : Tag) (e : EntryId) (line : LineAddr) (kind : MsgKind)
    (poison : Bool) : State :=
  let s := if (s.entry e).confirm = .awaited n then
      s.modEntry e (fun x => { x with confirmTimer := s.startTimer n s.waitSpan })
    else s
  if poison then
    s.raise .poisonSent { node := some n, tag := some tag, kind := some kind, place := some (.line line) }
  else s

/-- A request credit comes back (R138). -/
def State.creditRequest (s : State) (n : NodeId) : State :=
  s.modNode n (fun x => { x with reqCredits := x.reqCredits + 1 })

/-- A return credit comes back (R138). -/
def State.creditReturn (s : State) (n : NodeId) : State :=
  s.modNode n (fun x => { x with retCredits := x.retCredits + 1 })

/-- The end of a departure: the node is ABSENT, its patience is cleared and its link goes DOWN (R123, R136). -/
def State.departed (s : State) (n : NodeId) : State :=
  (s.modNode n (fun x => { x with membership := .absent, patience := 0, urgent := false })).linkDown n

/-- The effects of a message's leaving the outbound queue (R138, R140). -/
def State.left (s : State) (n : NodeId) (m : OutMsg) : State :=
  match m with
  | .grantS tag e line d => (s.creditRequest n).grantLeft n tag e line .grantS d.poison
  | .grantH tag e line d => (s.creditRequest n).grantLeft n tag e line .grantH ((d.map Buffer.poison).getD false)
  | .data tag line d =>
    let s := s.creditRequest n
    if d.poison then
      s.raise .poisonSent { node := some n, tag := some tag, kind := some .plainRead, place := some (.line line) }
    else s
  | .done _ .ret _ _ => s.creditReturn n
  | .done _ .request _ answersLeave =>
    let s := s.creditRequest n
    if answersLeave then s.departed n else s
  | .refuse _ _ => s.creditRequest n
  | .configData _ _ => s.creditRequest n
  | .alert _ => s.alertTest
  | .probe _ e _ => s.probeLeft n e

/-- The message at the head of the outbound queue leaves (R140). -/
def State.headLeaves (s : State) (n : NodeId) : State :=
  match (s.node n).outQ with
  | [] => s
  | m :: rest => (s.modNode n (fun x => { x with outQ := rest })).left n m

/-- The first k messages leave one by one, in queue order (R140). -/
def State.headsLeave (n : NodeId) : Nat → State → State
  | 0, s => s
  | k + 1, s => State.headsLeave n k (s.headLeaves n)

/-- The oldest unacknowledged frame is acknowledged, and its messages leave (R140). -/
def State.frameAcked (s : State) (n : NodeId) : State :=
  match (s.node n).frames with
  | [] => s
  | f :: rest => State.headsLeave n f.messages (s.modNode n (fun x => { x with frames := rest }))

/-- The k oldest unacknowledged frames are acknowledged, in order (R140). -/
def State.framesAcked (n : NodeId) : Nat → State → State
  | 0, s => s
  | k + 1, s => State.framesAcked n k (s.frameAcked n)

/-! ## Arrivals -/

/-- A frame of the partner's is accepted whole: a run of damaged receipts ends (R129, R132). -/
def State.frameAccepted (s : State) (n : NodeId) : State := s.modNode n (fun x => { x with damagedCount := 0 })

/-- A message arrives on the request channel (R137). -/
def State.requestArrives (s : State) (n : NodeId) (m : WireMsg) : State :=
  match m.request with
  | none => s.raise .protocol (arrivalEvent n .kind)
  | some r =>
    if 0 < (s.node n).reqCredits then
      s.modNode n (fun x => { x with reqCredits := x.reqCredits - 1, requestQ := x.requestQ ++ [r] })
    else s.raise .protocol (arrivalEvent n .credit)

/-- A message arrives on the return channel (R137). -/
def State.returnArrives (s : State) (n : NodeId) (m : WireMsg) : State :=
  match m.ret with
  | none => s.raise .protocol (arrivalEvent n .kind)
  | some r =>
    if 0 < (s.node n).retCredits then
      s.modNode n (fun x => { x with retCredits := x.retCredits - 1, returnQ := x.returnQ ++ [r] })
    else s.raise .protocol (arrivalEvent n .credit)

end Sys2Proof.Machine
end

