-- ==== Sys2Proof/Machine/Table.lean ====
section
/-! DEFINITION. The Line Transaction Table: probes and the settling of a holder's part, returns that merge, the work
of each kind at the start and the end of GATHER, and the record a completion writes (chapters 2 to 6, R144, R145). -/

namespace Sys2Proof.Machine

/-! ## Events -/

/-- The fields of a PROTOCOL event about an answer: node, the answer's kind, the line and the entry number (R31,
R76, R77, R154). -/
def answerEvent (n : NodeId) (kind : MsgKind) (line : LineAddr) (e : BitVec 6) : ErrRec :=
  { node := some n, kind := some kind, place := some (.line line), detail := some (.entryNumber e) }

/-- The fields of a PROTOCOL event about a RETURN-D that cannot be used (R65, R69). -/
def returnEvent (n : NodeId) (tag : Tag) (line : LineAddr) : ErrRec :=
  { node := some n, tag := some tag, kind := some .returnD, place := some (.line line) }

/-- The number of an entry as a message carries it. -/
def entryCode (e : EntryId) : BitVec 6 := BitVec.ofNat 6 e.val

/-! ## Settling a holder's part (R42, R43, R145) -/

/-- The holder's part settles without data: the kinds that grant data read the pool (R43, R44). -/
def State.settleNoData (s : State) (e : EntryId) : State :=
  match (s.entry e).kind with
  | .fetchS => s.issueRead e
  | .fetchH => s.issueRead e
  | _ => s

/-- A node's data reaches the buffer, newer than the pool (R42, R65). -/
def State.takeData (s : State) (e : EntryId) (b : Buffer) : State :=
  s.modEntry e (fun x => { x with buffer := some b, poolStale := true })

/-- The holder's part settles with poisoned data: 64 bytes of zero (R145). -/
def State.settleLost (s : State) (e : EntryId) : State :=
  (s.takeData e ⟨0, true⟩).modEntry e (fun x => { x with settledByLoss := true })

/-- A DONE answering a return (R63, R67, R70). -/
def State.doneReturn (s : State) (n : NodeId) (tag : Tag) : State := s.send n (.done tag .ret false false)

/-- A DONE answering a request (R57, R58, R94, R98, R100). -/
def State.doneRequest (s : State) (n : NodeId) (tag : Tag) (poison : Bool) : State :=
  s.send n (.done tag .request poison false)

/-- The earliest QUEUED RETURN entry of node n in the chain behind e (R68). -/
def State.queuedReturn (s : State) (e : EntryId) (n : NodeId) : Option EntryId :=
  (s.chainAfter 48 e).find? (fun f =>
    decide ((s.entry f).phase = .queued) && decide ((s.entry f).kind.cls = .ret) && (s.entry f).isFrom n)

/-- Entry e awaits a return from n. A QUEUED RETURN entry of n in the chain is merged in the same step, answered,
unlinked and freed; else the awaited return is set and its timer starts (R35, R65 to R68, R71). -/
def State.await (s : State) (e : EntryId) (n : NodeId) : State :=
  match s.queuedReturn e n with
  | some f =>
    let r := s.entry f
    let s := s.doneReturn n r.originTag
    let s := (s.unlink f).freeUp f
    match r.kind, r.buffer with
    | .returnD, some b => (s.takeData e b).modEntry e (fun x => x.setMark n .returnD)
    | _, _ => (s.modEntry e (fun x => x.setMark n .returnC)).settleNoData e
  | none => s.modEntry e (fun x => { x with awaited := some n, returnTimer := s.startTimer n s.waitSpan })

/-- A MISS from a holder, or its LOST answer after a merged return: the part settles from the merged return, or the
return is awaited (R43, R67). -/
def State.settleMiss (s : State) (e : EntryId) (n : NodeId) : State :=
  match (s.entry e).mark n with
  | .returnD => s
  | .returnC => s.settleNoData e
  | .none => s.await e n

/-- The synthetic LOST answer to a probe (R145). -/
def State.lostAnswer (s : State) (e : EntryId) (n : NodeId) (k : ProbeKind) : State :=
  match k, (s.entry e).mark n with
  | .drop, _ => s
  | _, .none => s.settleLost e
  | _, _ => s.settleMiss e n

/-! ## Making probes (R29, R40) -/

/-- Entry e probes node n. A node that may not be probed gives its LOST answer at once (log 19). -/
def State.makeProbe (s : State) (e : EntryId) (k : ProbeKind) (n : NodeId) : State :=
  if (s.node n).joined then
    (s.modEntry e (fun x => x.setProbe n
      { kind := some k, status := .queuedOut, sends := 1, answers := 0, timer := .stopped, waitEnded := false })).send n
      (.probe k e (s.entry e).line)
  else
    (s.modEntry e (fun x => x.setProbe n
      { kind := some k, status := .lost, sends := 1, answers := 0, timer := .stopped, waitEnded := false })).lostAnswer
      e n k

/-- Entry e drops the line from every node of a set. -/
def State.dropAll (s : State) (e : EntryId) (t : NodeSet) : State :=
  (NodeSet.members t).foldl (fun s n => s.makeProbe e .drop n) s

/-! ## The start of GATHER (R39, R44, R46 to R58, R69, R86, R87, R93, R95, R96) -/

/-- The mask selects every byte (R94). -/
def ByteMask.full (m : ByteMask) : Bool := decide (m = BitVec.allOnes 64)

/-- The nodes a recall takes its line from (R86, R87). -/
def scopeNodes (scope : Option Scope) (t : NodeSet) : NodeSet :=
  match scope with
  | some (.only d) => if NodeSet.has t d then NodeSet.single d else 0
  | some .all => t
  | none => t

/-- The work of entry e as it enters GATHER with its snapshot. Where the handbook leaves them open the model chooses:
an UPGRADE's PROTOCOL event is raised here, before its REFUSE is queued at the end of GATHER, and the PROTOCOL event of
a RETURN-D whose data is discarded before its DONE (R56, R69, R70; log 14), and a departure recall whose own way is
misread as not naming its node probes nobody over SHARED and surrenders the holder over HELD (R87; log 36). -/
def State.startWork (s : State) (e : EntryId) : State :=
  let x := s.entry e
  let n := x.originNode
  match x.kind, x.snapshot with
  | .plainRead, _ => s.issueRead e
  | .plainWrite, _ => if ByteMask.full x.mask then s else s.issueRead e
  | .fetchS, some .miss => s.issueRead e
  | .fetchS, some (.hit .shared _) => s.issueRead e
  | .fetchS, some (.hit .held t) =>
    if NodeSet.holder t = n then s.await e n else s.makeProbe e .yield (NodeSet.holder t)
  | .fetchH, some .miss => s.issueRead e
  | .fetchH, some (.hit .shared t) => (s.dropAll e (NodeSet.without t n)).issueRead e
  | .fetchH, some (.hit .held t) =>
    if NodeSet.holder t = n then s.await e n else s.makeProbe e .surrender (NodeSet.holder t)
  | .upgrade, some (.hit .shared t) => s.dropAll e (NodeSet.without t n)
  | .upgrade, some (.hit .held _) =>
    s.raise .protocol { node := some n, tag := some x.originTag, kind := some .upgrade, place := some (.line x.line)
                        detail := some .state }
  | .flush, some (.hit .shared t) => s.dropAll e t
  | .flush, some (.hit .held t) => s.makeProbe e .surrender (NodeSet.holder t)
  | .returnD, some (.hit .held t) =>
    if NodeSet.holder t = n then s.modEntry e (fun x => { x with poolStale := true })
    else (s.raise .protocol (returnEvent n x.originTag x.line)).modEntry e (fun x => { x with buffer := none })
  | .returnD, _ =>
    (s.raise .protocol (returnEvent n x.originTag x.line)).modEntry e (fun x => { x with buffer := none })
  | .recall, some (.hit .shared t) => s.dropAll e (scopeNodes x.scope t)
  | .recall, some (.hit .held t) => s.makeProbe e .surrender (NodeSet.holder t)
  | _, _ => s

/-- Entry e enters GATHER and makes its probes and its pool read (R39). -/
def State.enterGather (s : State) (e : EntryId) : State :=
  (s.modEntry e (fun x => { x with phase := .gather })).startWork e

/-! ## The end of GATHER (R25, R45 to R62, R69, R70, R86, R87, R93, R95) -/

/-- SHARED with a set, or VACANT where the set is empty (R2, R69, R87). -/
def sharedOrVacant (t : NodeSet) : DirOutcome := if t = 0 then .vacant else .record .shared t

/-- The outcome entry x fixes as its GATHER ends (R62). -/
def Entry.fixedOutcome (x : Entry) (promote : Bool) : DirOutcome :=
  let n := x.originNode
  match x.kind, x.snapshot with
  | .fetchS, some .miss => if promote then .record .held (NodeSet.single n) else .record .shared (NodeSet.single n)
  | .fetchS, some (.hit .shared t) => .record .shared (NodeSet.with t n)
  | .fetchS, some (.hit .held t) =>
    if NodeSet.holder t ≠ n ∧ x.holderKept then .record .shared (NodeSet.with (NodeSet.single n) (NodeSet.holder t))
    else .record .shared (NodeSet.single n)
  | .fetchH, _ => .record .held (NodeSet.single n)
  | .upgrade, some (.hit .shared _) => .record .held (NodeSet.single n)
  | .flush, some (.hit _ _) => .vacant
  | .returnD, some (.hit .held t) => if NodeSet.holder t = n then .vacant else .noChange
  | .returnC, some (.hit .held t) => if NodeSet.holder t = n then .vacant else .noChange
  | .returnD, some (.hit .shared t) => if NodeSet.has t n then sharedOrVacant (NodeSet.without t n) else .noChange
  | .returnC, some (.hit .shared t) => if NodeSet.has t n then sharedOrVacant (NodeSet.without t n) else .noChange
  | .recall, some (.hit .shared t) => sharedOrVacant (t &&& ~~~(scopeNodes x.scope t))
  | .recall, some (.hit .held _) => .vacant
  | _, _ => .noChange

/-- The reply entry x owes as its GATHER ends, if any (R45, R46, R54, R56 to R58, R70, R93). -/
def Entry.reply (x : Entry) (e : EntryId) (promote : Bool) : Option OutMsg :=
  let tag := x.originTag
  let b := x.buffer.getD ⟨0, false⟩
  match x.kind, x.snapshot with
  | .fetchS, some .miss =>
    if promote then some (.grantH tag e x.line (some b)) else some (.grantS tag e x.line b)
  | .fetchS, _ => some (.grantS tag e x.line b)
  | .fetchH, _ => some (.grantH tag e x.line (some b))
  | .upgrade, some (.hit .shared _) => some (.grantH tag e x.line none)
  | .upgrade, _ => some (.refuse tag .state)
  | .flush, _ => if x.poolStale then none else some (.done tag .request false false)
  | .plainRead, _ => some (.data tag x.line b)
  | .plainWrite, _ => none
  | .returnD, _ => if x.poolStale then none else some (.done tag .ret false false)
  | .returnC, _ => some (.done tag .ret false false)
  | .recall, _ => none

/-- The message is a grant. -/
def OutMsg.isGrant : OutMsg → Bool
  | .grantS _ _ _ _ => true
  | .grantH _ _ _ _ => true
  | .data _ _ _ => false
  | .done _ _ _ _ => false
  | .refuse _ _ => false
  | .configData _ _ => false
  | .alert _ => false
  | .probe _ _ _ => false

/-- The reply is queued; a grant makes the confirm awaited from the origin. An orphan queues none (R25, R33,
R143). -/
def State.queueReply (s : State) (e : EntryId) : State :=
  let x := s.entry e
  if x.orphaned then s
  else
    match x.reply e s.promote with
    | none => s
    | some m =>
      let s := s.send x.originNode m
      if m.isGrant then s.modEntry e (fun x => { x with confirm := .awaited x.originNode }) else s

/-- The kinds whose work writes a pool-stale buffer whatever else happens (R59, R70, R86). -/
def WorkKind.writesStale : WorkKind → Bool
  | .fetchS => true
  | .flush => true
  | .returnD => true
  | .recall => true
  | .fetchH => false
  | .upgrade => false
  | .plainRead => false
  | .plainWrite => false
  | .returnC => false

/-- The pool write entry x issues as it enters FINISH, if any (R59, R60, R70, R86, R93, R95, R96, R144, R145). -/
def Entry.finishWrite (x : Entry) : Option Buffer :=
  if x.kind = .plainWrite then
    some (if ByteMask.full x.mask then ⟨x.writeData, false⟩ else x.buffer.getD ⟨x.writeData, true⟩)
  else if x.poolStale && (x.kind.writesStale || x.orphaned || x.settledByLoss) then x.buffer
  else if x.owesWriteBack then x.buffer.map (fun b => { b with poison := false })
  else none

/-- GATHER ends: the outcome is fixed, the reply queued, and FINISH entered with its pool write (R25, R62). -/
def State.endGather (s : State) (e : EntryId) : State :=
  let s := s.modEntry e (fun x => { x with outcome := x.fixedOutcome s.promote })
  let s := (s.queueReply e).modEntry e (fun x => { x with phase := .finish })
  match (s.entry e).finishWrite with
  | some b => s.issueWrite e b
  | none => s

/-! ## Completion (R26, R144) -/

/-- The outcome entry x is to write, a no-change outcome standing for its snapshot (R13). -/
def Entry.outcomeToWrite (x : Entry) : DirOutcome :=
  match x.outcome, x.snapshot with
  | .noChange, some (.hit st t) => .record st t
  | .noChange, _ => .vacant
  | o, _ => o

/-- An orphan whose outcome would be HELD by its own origin, which ends VACANT (R144). -/
def Entry.vacantByLoss (x : Entry) : Bool :=
  x.orphaned && decide (x.outcome = .record .held (NodeSet.single x.originNode))

/-- The record entry x's completion writes, with the changes for lost nodes; absent for VACANT (R13, R144). -/
def Entry.finalRecord (x : Entry) (lost : NodeSet) : Option Record :=
  match x.outcomeToWrite with
  | .record .shared t => if t &&& ~~~lost = 0 then none else some ⟨LineAddr.tag x.line, .shared, t &&& ~~~lost⟩
  | .record .held t => if x.vacantByLoss then none else some ⟨LineAddr.tag x.line, .held, t⟩
  | .vacant => none
  | .noChange => none

/-! ## Answers (R31 to R34, R41 to R43, R76, R77) -/

/-- The entry an answer names, where the number is one of the 48. -/
def entryNamed (e : BitVec 6) : Option EntryId := if h : e.toNat < 48 then some ⟨e.toNat, h⟩ else none

/-- An answer from n for a line is accepted by entry x (R31). -/
def Entry.accepts (x : Entry) (n : NodeId) (l : LineAddr) : Bool :=
  x.inUse && decide (x.line = l)
    && match (x.probe n).status with
      | .sent => true
      | .queuedOut => decide (2 ≤ (x.probe n).sends)
      | .answered => decide ((x.probe n).answers < (x.probe n).sends)
      | .none => false
      | .lost => false

/-- The first accepted answer of a probe goes to the entry's work (R41 to R43, R76, R77). An answer that contradicts
a merged return is taken as MISS with one event (log 32). The event is raised, with its alert test, before the end of
GATHER that the answer may bring queues a grant, DONE or REFUSE; R76, R77 and R139 give no order, and this one is the
model's choice (log 14). -/
def State.firstAnswer (s : State) (e : EntryId) (n : NodeId) (k : AnswerKind) (m : WireMsg) : State :=
  let x := s.entry e
  let contradicts := decide (x.mark n ≠ .none) && decide (k ≠ .miss)
  let event (s : State) : State := s.raise .protocol (answerEvent n k.msgKind x.line (entryCode e))
  match (x.probe n).kind with
  | none => s
  | some .drop => if contradicts || decide (k = .ackData) then event s else s
  | some pk =>
    if contradicts then (event s).settleMiss e n
    else
      let kept (s : State) : State :=
        if pk = .yield then s.modEntry e (fun x => { x with holderKept := m.keep }) else s
      match k with
      | .ackData => (kept s).takeData e ⟨m.data, m.poison⟩
      | .ackClean => (kept s).settleNoData e
      | .miss => s.settleMiss e n
      | .confirm => s

/-- An answer is accepted by entry e: it is counted, the timer stops when answers reach sends, and the first goes to
the work (R31, R32). -/
def State.acceptAnswer (s : State) (e : EntryId) (n : NodeId) (k : AnswerKind) (m : WireMsg) : State :=
  let p := (s.entry e).probe n
  let s' := s.modEntry e (fun x => x.setProbe n
    { p with status := .answered, answers := p.answers + 1
             timer := if p.answers + 1 = p.sends then .stopped else p.timer })
  if p.status = .answered then s' else s'.firstAnswer e n k m

/-- A CONFIRM from n for a line is accepted by entry x: the confirm is awaited from n and the grant has left, which
its timer tells (R34). -/
def Entry.confirms (x : Entry) (n : NodeId) (l : LineAddr) : Bool :=
  x.inUse && decide (x.line = l) && decide (x.confirm = .awaited n) && decide (x.confirmTimer ≠ .stopped)

/-! ## Returns that merge (R64 to R67) -/

/-- The entry into which a return from n for a line merges, if any (R64). -/
def State.mergeTarget (s : State) (n : NodeId) (l : LineAddr) : Option EntryId :=
  match s.activeOn l with
  | none => none
  | some e =>
    let x := s.entry e
    if (((x.probe n).unanswered || decide (x.awaited = some n)) && decide (x.mark n = .none)) = true then some e
    else none

/-- A return merges into entry e: it is answered DONE, and gives its data where a holder's part asked for it (R65 to
R67). -/
def State.mergeReturn (s : State) (e : EntryId) (n : NodeId) (r : RetMsg) : State :=
  let x := s.entry e
  let s := s.doneReturn n r.tag
  let awaited := decide (x.awaited = some n)
  let s := if awaited then s.modEntry e (fun x => { x with awaited := none, returnTimer := .stopped }) else s
  let drop := !awaited && decide ((x.probe n).kind = some .drop)
  match r.data with
  | some b =>
    if drop then (s.raise .protocol (returnEvent n r.tag r.line)).modEntry e (fun x => x.setMark n .returnC)
    else (s.takeData e b).modEntry e (fun x => x.setMark n .returnD)
  | none =>
    let s := s.modEntry e (fun x => x.setMark n .returnC)
    if awaited then s.settleNoData e else s

end Sys2Proof.Machine
end

