-- ==== Sys2Proof/Machine/WayWait.lean ====
section
/-! DEFINITION. The way-wait list and the reserve of RECALL entries as plain state (chapter 5), and the Reclaim
Walker's records (chapter 10). -/

namespace Sys2Proof.Machine

/-! ## The list (R27, R79) -/

/-- A member in a condition other than PIN seeks a way (R79). -/
def WaitCond.seeks : WaitCond → Bool
  | .pin _ => false
  | .behind => true
  | .blocked => true
  | .stalled => true
  | .recalling => true

/-- The condition of entry e in the list, if it is a member. -/
def State.condOf (s : State) (e : EntryId) : Option WaitCond :=
  (s.wayWait.find? (fun m => decide (m.entry = e))).map Member.cond

/-- The member e takes a condition and keeps its time of joining; an entry that is no member joins at the tail
(R79). -/
def setCond (ms : List Member) (e : EntryId) (c : WaitCond) : List Member :=
  if ms.any (fun m => decide (m.entry = e)) then ms.map (fun m => if m.entry = e then { m with cond := c } else m)
  else ms ++ [⟨e, c⟩]

/-- Entry e stands in the list in condition c, in WAYWAIT. -/
def State.wait (s : State) (e : EntryId) (c : WaitCond) : State :=
  { s with wayWait := setCond s.wayWait e c }.modEntry e (fun x => { x with phase := .wayWait })

/-- Entry e leaves the list (R79). -/
def State.leaveList (s : State) (e : EntryId) : State :=
  { s with wayWait := s.wayWait.filter (fun m => decide (m.entry ≠ e)) }

/-- Entry e leaves WAYWAIT and the list, changed by f (R27, R79). -/
def State.leaveWait (s : State) (e : EntryId) (f : Entry → Entry) : State := (s.leaveList e).modEntry e f

/-- The set of an entry's line. -/
def State.setOf (s : State) (e : EntryId) : SetIdx := LineAddr.set (s.entry e).line

/-- The oldest seeker of a set (R79). -/
def State.oldestSeeker (s : State) (k : SetIdx) : Option Member :=
  s.wayWait.find? (fun m => m.cond.seeks && decide (s.setOf m.entry = k))

/-- The PIN members of a set that wait for way w, in order of joining (R80). -/
def State.pinWaiters (s : State) (k : SetIdx) (w : WayNo) : List EntryId :=
  (s.wayWait.filter (fun m => decide (s.setOf m.entry = k)
    && match m.cond with
      | .pin ws => ws.contains w
      | .behind => false
      | .blocked => false
      | .stalled => false
      | .recalling => false)).map Member.entry

/-- The seekers of set k other than e stand BEHIND it (R82; log 17). -/
def State.demoteOthers (s : State) (k : SetIdx) (e : EntryId) : State :=
  { s with wayWait := s.wayWait.map (fun m =>
      if m.cond.seeks ∧ m.entry ≠ e ∧ s.setOf m.entry = k then { m with cond := .behind } else m) }

/-- The running recall of which e is the beneficiary, if any. -/
def State.recallFor (s : State) (e : EntryId) : Option EntryId :=
  allEntries.find? (fun f => (s.entry f).inUse && decide ((s.entry f).kind = .recall)
    && decide ((s.entry f).beneficiary = some e))

/-- A recall running for e loses its beneficiary (R88). -/
def State.dropBeneficiary (s : State) (e : EntryId) : State :=
  match s.recallFor e with
  | some f => s.modEntry f (fun x => { x with beneficiary := none })
  | none => s

/-- The kind needs a way on a miss (R39, R69). -/
def WorkKind.needsWay : WorkKind → Bool
  | .fetchS => true
  | .fetchH => true
  | .upgrade => true
  | .flush => false
  | .plainRead => false
  | .plainWrite => false
  | .returnD => false
  | .returnC => false
  | .recall => false

/-- The kind after a read that decides it: an UPGRADE stays one only over SHARED naming its node, or HELD by it
(R55). -/
def decidedKind (k : WorkKind) (n : NodeId) (d : Snapshot) : WorkKind :=
  match k, d with
  | .upgrade, .miss => .fetchH
  | .upgrade, .hit .shared t => if NodeSet.has t n then .upgrade else .fetchH
  | .upgrade, .hit .held t => if NodeSet.holder t = n then .upgrade else .fetchH
  | k, _ => k

/-- Entry e takes the snapshot d of the read it acts on, with its way, leaves the list and enters GATHER (R24,
R39). -/
def State.beginWork (s : State) (e : EntryId) (d : Snapshot) (w : Option WayNo) : State :=
  (s.leaveWait e (fun x => { x with
    phase := .gather, snapshot := some d, way := w, kind := decidedKind x.kind x.originNode d })).startWork e

/-! ## The RECALL entries (R83, R84) -/

/-- The DEPART node for which the walker stands for a RECALL entry, if it does (R146, R151). -/
def Stall.reserving : Stall → Option NodeId
  | .reserve d => some d
  | .none => .none
  | .way _ => .none
  | .write => .none

/-- A RECALL entry is free (R20, R84). -/
def State.recallAvailable (s : State) : Bool :=
  decide (s.recallsInUse < Config.recallLimit) && s.freeEntry.isSome

/-- The entry record of a recall at its creation (R83). -/
def recallEntry (k : SetIdx) (w : WayNo) (r : Record) (scope : Scope) (b : Option EntryId) : Entry :=
  { Entry.free with
    phase := .queued, kind := .recall, line := lineOf r.tag k, way := some w, scope := some scope, beneficiary := b
    creation := some r, admitted := .recall }

/-- A recall is created in entry f on way w of set k, whose record the creating read returned as r: the way is
pinned to it, the arbiter's mark names the party, and it joins its line's chain, directly behind an active entry if
there is one; else it activates with the creating read as its activation read (R23, R83 to R87). -/
def State.createRecall (s : State) (f : EntryId) (k : SetIdx) (w : WayNo) (r : Record) (scope : Scope)
    (b : Option EntryId) (party : Party) : State :=
  let before := s.activeOn (lineOf r.tag k)
  let s := { (s.setEntry f (recallEntry k w r scope b)).setPin k w (.entry f) with recallMark := party }
  match before with
  | none => (s.modEntry f (fun x => { x with snapshot := some (.hit r.state r.sharers) })).enterGather f
  | some a =>
    (s.modEntry f (fun x => { x with successor := (s.entry a).successor })).modEntry a
      (fun x => { x with successor := some f })

/-! ## Walk records (R146 to R148, R152) -/

/-- The walk record of node n, if any. -/
def Walker.record (x : Walker) (n : NodeId) : Option WalkRec := tget x.records n

/-- The walker with node n's record replaced. -/
def Walker.setRecord (x : Walker) (n : NodeId) (r : Option WalkRec) : Walker :=
  { x with records := tset x.records n r }

/-- The state with node n's walk record replaced. -/
def State.setRecord (s : State) (n : NodeId) (r : Option WalkRec) : State :=
  { s with walker := s.walker.setRecord n r }

/-- The record is applied to the set the walker is in: it has sets remaining and is not joining (R147, R152). -/
def WalkRec.applied (r : WalkRec) : Bool := decide (r.remaining ≠ 0) && !r.joining

/-- The walker is within a set: some record is applied to it (R147, R152). -/
def Walker.walks (x : Walker) : Bool :=
  allNodes.any (fun n => match x.record n with | some r => r.applied | none => false)

/-- The nodes with an applied record of a mode. -/
def Walker.nodesIn (x : Walker) (mode : WalkMode) : NodeSet :=
  allNodes.foldl
    (fun acc n => match x.record n with
      | some r => if r.applied ∧ r.mode = mode then NodeSet.with acc n else acc
      | none => acc)
    0

/-- A record is started: at once at the pointer with position 0 where the walker walks no set, else among the
joining records (R147). -/
def State.startRecord (s : State) (n : NodeId) (mode : WalkMode) (tag : Tag) : State :=
  let joining := s.walker.walks
  let r : WalkRec := { mode := mode, remaining := 16384, recalls := 0, leaveTag := tag, joining := joining }
  let s := s.setRecord n (some r)
  if joining then s else { s with walker := { s.walker with position := 0 } }

/-- The record of a lost node: its DEPART record becomes LOSS, or a LOSS record starts (R142, R147, R148). -/
def State.recordLoss (s : State) (n : NodeId) : State :=
  match s.walker.record n with
  | some r => s.setRecord n (some { r with mode := .loss })
  | none => s.startRecord n .loss 0

/-- Node n's record finishes where it has no sets and no recalls left: a DEPART record queues the DONE to its LEAVE,
a LOSS record makes the node ABSENT, and the record is removed (R141, R152). -/
def State.finishRecord (s : State) (n : NodeId) : State :=
  match s.walker.record n with
  | none => s
  | some r =>
    if r.remaining = 0 ∧ r.recalls = 0 then
      let s := match r.mode with
        | .depart => s.send n (.done r.leaveTag .request false true)
        | .loss => s.modNode n (fun x => { x with membership := .absent })
      s.setRecord n none
    else s

/-- A recall of node n's record has completed (R151, R152). -/
def State.recallReturned (s : State) (n : NodeId) : State :=
  match s.walker.record n with
  | none => s
  | some r => (s.setRecord n (some { r with recalls := r.recalls - 1 })).finishRecord n

/-- A record as a finished set leaves it: an applied one has one set less, a joining one has joined (R147, R152). -/
def WalkRec.afterSet (r : WalkRec) : WalkRec :=
  if r.joining then { r with joining := false } else { r with remaining := r.remaining - 1 }

/-- The set is finished: records count down and join, the pointer advances, and records that are done finish
(R152). -/
def State.finishSet (s : State) : State :=
  let x := s.walker
  let s := { s with walker := { x with
    pointer := x.pointer + 1, position := 0, records := x.records.map (Option.map WalkRec.afterSet) } }
  allNodes.foldl State.finishRecord s

/-- The walker moves to the next way, or finishes the set (R149, R152). -/
def State.nextWay (s : State) : State :=
  if s.walker.position = 7 then s.finishSet
  else { s with walker := { s.walker with position := s.walker.position + 1 } }

/-- The walker stalls, or its stall ends (R146). -/
def State.setStall (s : State) (x : Stall) : State := { s with walker := { s.walker with stall := x } }

end Sys2Proof.Machine
end

