-- ==== Sys2Proof/Machine/Cascade.lean ====
section
/-! DEFINITION. What one event sets going inside one step: activation, service of the way-wait list, the walker's
examination of a way, the end of GATHER and of FINISH, completion and its notices, run until nothing remains (R22 to
R26, R79 to R91, R149 to R152). -/

namespace Sys2Proof.Machine

/-- A piece of work that remains within the step. -/
inductive Task where
  /-- Entry e becomes the active entry of its line (R24). -/
  | activate (e : EntryId)
  /-- GATHER of entry e ends if nothing remains to gather (R25). -/
  | checkGather (e : EntryId)
  /-- FINISH of entry e ends if nothing remains to wait for (R25). -/
  | checkFinish (e : EntryId)
  /-- Steps 5 to 7 of a completion (R26). -/
  | completeTail (e : EntryId) (unpinned handed : Bool)
  /-- The re-read of a PIN member for way w (R80). -/
  | reread (e : EntryId) (w : WayNo)
  /-- The service of a set's oldest seeker on an unpinning (R81). -/
  | serveOldest (k : SetIdx)
  /-- The walker is told of an unpinning (R13, R149). -/
  | tellWalker (k : SetIdx) (w : WayNo)
  /-- The arbiter offers a free RECALL entry (R84). -/
  | offerRecall
deriving DecidableEq, Repr

/-- A notice, acted on once the completion that gave it is whole (R26 step 5, R81). -/
inductive Notice where
  /-- A way became unpinned, and its pin passed to nobody. -/
  | unpinned (k : SetIdx) (w : WayNo)
  /-- A RECALL entry became free. -/
  | recallFree
  /-- The oldest seeker of a set ceased to be one. -/
  | oldestLeft (k : SetIdx)
deriving DecidableEq, Repr

/-- A state within a step: the work that remains, next first, and the notices that wait, in order. -/
structure Work where
  s       : State
  stack   : List Task
  notices : List Notice
deriving DecidableEq, Repr

/-- A state at rest. -/
def Work.of (s : State) : Work := ⟨s, [], []⟩

/-- Tasks to be done before those that remain. -/
def Work.push (k : Work) (ts : List Task) : Work := { k with stack := ts ++ k.stack }

/-- Notices given. -/
def Work.note (k : Work) (ns : List Notice) : Work := { k with notices := k.notices ++ ns }

/-- The state changed. -/
def Work.mod (k : Work) (f : State → State) : Work := { k with s := f k.s }

/-! ## Leaving WAYWAIT and joining it -/

/-- The entry enters GATHER with a snapshot and a way. -/
def Work.begin (k : Work) (e : EntryId) (d : Snapshot) (w : Option WayNo) : Work :=
  (k.mod (fun s => s.beginWork e d w)).push [.checkGather e]

/-- Refusal with DIRFAULT: the entry leaves the list, a recall running for it loses its beneficiary, REFUSE and its
REFUSAL event go out, in that order and before what its completion then queues, which is the model's choice (log 14), and
it passes to FINISH (R90). -/
def Work.dirFault (k : Work) (e : EntryId) : Work :=
  let x := k.s.entry e
  let n := x.originNode
  (k.mod (fun s =>
    let s := ((s.leaveWait e (fun x => { x with phase := .finish })).dropBeneficiary e).send n
      (.refuse x.originTag .dirFault)
    s.raise .refusal { node := some n, tag := some x.originTag, kind := some x.admitted.msgKind
                       place := some (.line x.line), detail := some (.reason .dirFault) })).push [.checkFinish e]

/-- A recall for seeker e on victim w of set k, in the lowest-numbered FREE entry (R83). -/
def Work.recall (k : Work) (set : SetIdx) (w : WayNo) (r : Record) (scope : Scope) (b : Option EntryId)
    (party : Party) : Work :=
  match k.s.freeEntry with
  | none => k
  | some f => (k.mod (fun s => s.createRecall f set w r scope b party)).push [.checkGather f]

/-- The service of seeker e on a read of its set, by the six cases of R82. -/
def Work.serve (k : Work) (e : EntryId) (rd : SetRead) : Work :=
  let set := k.s.setOf e
  let order := (k.s.dirSet set).order
  if rd.unreadable ≠ [] then
    (k.mod (fun s => (s.wait e (.pin rd.unreadable)).dropBeneficiary e)).note [.oldestLeft set]
  else if rd.allQuarantined then (k.dirFault e).note [.oldestLeft set]
  else
    match rd.freeWay order with
    | some w =>
      ((k.mod (fun s => (s.dropBeneficiary e).setPin set w (.entry e))).begin e .miss (some w)).note [.oldestLeft set]
    | none =>
      if (k.s.recallFor e).isSome then k.mod (fun s => s.wait e .recalling)
      else
        match rd.victim order with
        | some (w, r) =>
          if k.s.recallAvailable then
            (k.mod (fun s => s.wait e .recalling)).recall set w r .all (some e) .wayWait
          else k.mod (fun s => s.wait e .stalled)
        | none => k.mod (fun s => s.wait e .blocked)

/-- Entry e, whose read found nothing to hit and which needs a way, is a seeker: served at once with this read if it
is the oldest of its set, else BEHIND (R79 to R81). -/
def Work.seek (k : Work) (e : EntryId) (rd : SetRead) : Work :=
  let set := k.s.setOf e
  let k := k.mod (fun s => s.wait e .behind)
  if (k.s.oldestSeeker set).map Member.entry = some e then (k.mod (fun s => s.demoteOthers set e)).serve e rd else k

/-- What an entry does on its activation read, or a PIN member on its re-read (R24, R80). A read that finds no HIT makes
the snapshot miss, also where the entry then waits, and a seeker's stays so (R24, R82). A HIT pinned by whomever sends it
to wait for that way, its snapshot left as it was (log 18). -/
def Work.afterRead (k : Work) (e : EntryId) (rd : SetRead) : Work :=
  let x := k.s.entry e
  match rd.hit (LineAddr.tag x.line) with
  | some (w, r, .none) =>
    (k.mod (fun s => s.setPin (s.setOf e) w (.entry e))).begin e (.hit r.state r.sharers) (some w)
  | some (w, _, _) => k.mod (fun s => s.wait e (.pin [w]))
  | none =>
    if rd.unreadable ≠ [] then
      k.mod (fun s => (s.modEntry e (fun x => { x with snapshot := some .miss })).wait e (.pin rd.unreadable))
    else if x.kind.needsWay then
      let k := k.mod (fun s => s.modEntry e (fun x =>
        { x with kind := decidedKind x.kind x.originNode .miss, snapshot := some .miss }))
      if rd.allQuarantined then k.dirFault e else k.seek e rd
    else k.begin e .miss none

/-- A set read within the step. Its events record the kind the entry has as it reads, UPGRADE where this read converts
it (R55), which is the model's choice (log 21). -/
def Work.read (k : Work) (e : EntryId) (reader : Reader) : Work × SetRead :=
  let (s, rd) := k.s.readSet (k.s.setOf e) reader (k.s.entry e).kind.msgKind
  ({ k with s := s }, rd)

/-- The snapshot of a recall that activates after its creation: its own way's record, or the creation record where
that way cannot be read (R85), or where it is misread as VACANT, which is the model's choice (log 36). -/
def recallSnapshot (x : Entry) (rd : SetRead) : Snapshot :=
  match x.way.map (fun w => (tget rd w).1), x.creation with
  | some (.record r), _ => .hit r.state r.sharers
  | _, some r => .hit r.state r.sharers
  | _, none => .miss

/-- Activation (R24). -/
def Work.activate (k : Work) (e : EntryId) : Work :=
  let x := k.s.entry e
  if x.kind.plain then (k.mod (fun s => s.enterGather e)).push [.checkGather e]
  else
    let (k, rd) := k.read e .activation
    if x.kind = .recall then
      ((k.mod (fun s => (s.modEntry e (fun x => { x with snapshot := some (recallSnapshot x rd) })).enterGather
        e))).push [.checkGather e]
    else k.afterRead e rd

/-- The oldest seeker of a set is served with a fresh read, where its condition is one that p admits (R81). -/
def Work.serveFresh (k : Work) (set : SetIdx) (p : WaitCond → Bool) : Work :=
  match k.s.oldestSeeker set with
  | none => k
  | some m =>
    if p m.cond then
      let (k, rd) := k.read m.entry .wayWait
      k.serve m.entry rd
    else k

/-- A seeker that waits for its set to change or for its recall (R81, second row). -/
def WaitCond.stands : WaitCond → Bool
  | .blocked => true
  | .stalled => true
  | .recalling => true
  | .behind => false
  | .pin _ => false

/-- A seeker that waited to become the oldest (R81, third row). -/
def WaitCond.isBehind : WaitCond → Bool
  | .behind => true
  | .blocked => false
  | .stalled => false
  | .recalling => false
  | .pin _ => false

/-- A PIN member is re-read for way w, if it still waits for it (R80). -/
def Work.reread (k : Work) (e : EntryId) (w : WayNo) : Work :=
  match k.s.condOf e with
  | some (.pin ws) =>
    if ws.contains w then
      let (k, rd) := k.read e .wayWait
      k.afterRead e rd
    else k
  | _ => k

/-! ## The walker's examination (R149 to R151) -/

/-- The walker pins a way HELD by a lost node, issues its poison write and stalls (R150). The write carries 64 bytes of
zero beside its poison, which is the model's choice (log 39). -/
def State.issuePoison (s : State) (set : SetIdx) (w : WayNo) (r : Record) : State :=
  ((s.setPin set w .walker).issue { owner := .walker, line := lineOf r.tag set, write := some ⟨0, true⟩ }).setStall
    .write

/-- The departure recall of DEPART node d is created on a way: the node's record counts it, and the walker moves on, or
stalls at the way where it names another DEPART node (R87, R151). -/
def Work.departRecall (k : Work) (set : SetIdx) (w : WayNo) (r : Record) (departing : NodeSet) (d : NodeId) : Work :=
  let k := k.recall set w r (.only d) none .walker
  k.mod (fun s =>
    let s := match s.walker.record d with
      | some x => s.setRecord d (some { x with recalls := x.recalls + 1 })
      | none => s
    if NodeSet.without departing d = 0 then s.nextWay else s.setStall (.way w))

/-- The walker reads the set at its pointer and acts on the way at its position (R149): `depart` says what it does over
an unpinned record that names DEPART nodes, and `rest` is what remains to be done after any other action. -/
def Work.examineBy (k : Work) (depart : Work → SetIdx → WayNo → Record → NodeSet → Work) (rest : List Task) : Work :=
  let set := k.s.walker.pointer
  let w := k.s.walker.position
  let (s, rd) := k.s.readSet set .walker .walker
  let k : Work := { k with s := s }
  let acts (f : State → State) : Work := (k.mod f).push rest
  match tget rd w with
  | (.quarantined, _) => acts State.nextWay
  | (.unreadable, _) => acts (fun s => s.setStall (.way w))
  | (.vacant, .none) => acts State.nextWay
  | (.vacant, _) => acts (fun s => s.setStall (.way w))
  | (.record r, .none) =>
    let lost := r.sharers &&& s.walker.nodesIn .loss
    let departing := r.sharers &&& s.walker.nodesIn .depart
    if lost ≠ 0 then
      match r.state with
      | .shared => acts (fun s => s.writeWay set w (some { r with sharers := r.sharers &&& ~~~lost }) .walker)
      | .held => acts (fun s => s.issuePoison set w r)
    else if departing ≠ 0 then depart k set w r departing
    else acts State.nextWay
  | (.record _, _) => acts (fun s => s.setStall (.way w))

/-- The walker, given a RECALL entry for DEPART node d, reads the way again: the recall is created where the way still
calls for one for d; else the entry is not used, and the walker acts on the way as it now reads, standing for a RECALL
entry again where the way names another DEPART node (R151). -/
def Work.examineGiven (k : Work) (d : NodeId) (rest : List Task) : Work :=
  k.examineBy
    (fun k set w r departing =>
      if NodeSet.has departing d then k.departRecall set w r departing d
      else (k.mod (fun s => s.setStall (.reserve (NodeSet.holder departing)))).push rest)
    rest

/-- A way names DEPART nodes: the walker asks for a RECALL entry for the lowest-numbered of them (log 22), reads the
way again where one is free, and stalls RESERVE where none is (R84, R151). -/
def Work.departWay (k : Work) (departing : NodeSet) : Work :=
  let d := NodeSet.holder departing
  if k.s.recallAvailable then k.examineGiven d [.offerRecall] else k.mod (fun s => s.setStall (.reserve d))

/-- The walker examines the way at its position (R149). -/
def Work.examine (k : Work) : Work := k.examineBy (fun k _ _ _ departing => k.departWay departing) []

/-- The walker stood still for the way now unpinned: its stall ends and it reads the way again (R13, R149). -/
def Work.tellWalker (k : Work) (set : SetIdx) (w : WayNo) : Work :=
  if k.s.walker.pointer = set ∧ k.s.walker.stall = .way w then (k.mod (fun s => s.setStall .none)).examine else k

/-! ## Completion (R26) -/

/-- Step 3 of a completion: the pin passes to the beneficiary of a recall, which enters GATHER with snapshot miss, or
is released (R13, R26, R88). -/
def State.passPin (s : State) (e : EntryId) (w : WayNo) : State :=
  let set := s.setOf e
  match (s.entry e).kind, (s.entry e).beneficiary with
  | .recall, some b => (s.setPin set w (.entry b)).beginWork b .miss (some w)
  | _, _ => s.setPin set w .none

/-- The entry that takes a completing recall's way over, if any (R88). -/
def Entry.heir (x : Entry) : Option EntryId := if x.kind = .recall then x.beneficiary else none

/-- Steps 1 to 4 of a completion: the directory write, the recency update, the pin, and the successor's activation;
the rest follows them (R26). -/
def Work.complete (k : Work) (e : EntryId) : Work :=
  let x := k.s.entry e
  let set := k.s.setOf e
  let k := match x.way with
    | none => k
    | some w =>
      k.mod (fun s => ((s.writeWay set w (x.finalRecord s.lostNodes) x.kind.msgKind).touch set w).passPin e w)
  let heir := if x.way.isSome then x.heir else none
  k.push ((heir.map Task.checkGather).toList ++ (x.successor.map Task.activate).toList
    ++ [.completeTail e (x.way.isSome && !heir.isSome) heir.isSome])

/-- Step 6 of a posted entry's completion: the posted count falls, and the entry leaves its node's order slot, whose
DONE is queued when it empties (R99, R101). -/
def State.postedDone (s : State) (e : EntryId) : State :=
  let n := (s.entry e).originNode
  let s := s.modNode n (fun x => { x with posted := x.posted - 1 })
  match (s.node n).orderSlot with
  | none => s
  | some o =>
    let waiting := o.waiting.filter (fun f => decide (f ≠ e))
    if waiting ≠ [] then s.modNode n (fun x => { x with orderSlot := some { o with waiting := waiting } })
    else if o.waiting = [] then s
    else (s.modNode n (fun x => { x with orderSlot := none })).doneRequest n o.tag false

/-- The node whose walk record counts the recall x, if any (R151). -/
def Entry.walkNode (x : Entry) : Option NodeId :=
  match x.kind, x.scope with
  | .recall, some (.only d) => some d
  | _, _ => none

/-- Steps 5 to 7 of a completion: notices, the arbiter's first (R84); the posted write; the entry is FREE (R26). A
departure recall counts down at its node's walk record here (R151, R152), so the DONE to a LEAVE that its completion
queues stands behind what the successor's activation queued for that node, which is the model's choice (log 14). -/
def Work.completeTail (k : Work) (e : EntryId) (unpinned handed : Bool) : Work :=
  let x := k.s.entry e
  let set := k.s.setOf e
  let k := k.note ((if x.kind = .recall then [.recallFree] else [])
    ++ (match x.way with | some w => if unpinned then [.unpinned set w] else [] | none => [])
    ++ (if handed then [.oldestLeft set] else []))
  k.mod (fun s =>
    let s := match x.walkNode with | some d => s.recallReturned d | none => s
    let s := if x.posted then s.postedDone e else s
    s.freeUp e)

/-- A STALLED seeker is given a RECALL entry: it is served with a fresh read (R84). -/
def Work.giveSeeker (k : Work) (e : EntryId) : Work :=
  let (k, rd) := k.read e .wayWait
  k.serve e rd

/-- The walker, which stood for a RECALL entry for node d, is given one: it reads its way again (R151). -/
def Work.giveWalker (k : Work) (d : NodeId) : Work := (k.mod (fun s => s.setStall .none)).examineGiven d []

/-- The arbiter offers a free RECALL entry to whoever waits for one, and offers it again while one is free and wanted
(R84). -/
def Work.offer (k : Work) : Work :=
  if k.s.recallAvailable then
    let again := k.push [.offerRecall]
    match k.s.wayWait.find? (fun m => decide (m.cond = .stalled)), k.s.walker.stall.reserving with
    | none, none => k
    | some m, none => again.giveSeeker m.entry
    | none, some d => again.giveWalker d
    | some m, some d =>
      match k.s.recallMark with
      | .walker => again.giveSeeker m.entry
      | .wayWait => again.giveWalker d
  else k

/-! ## Running a step to rest -/

/-- One task done. Each check of a phase asks for that phase; a completing entry is in FINISH until it is FREE. -/
def Work.task (k : Work) : Task → Work
  | .activate e => k.activate e
  | .checkGather e =>
    if (k.s.entry e).phase = .gather ∧ (k.s.entry e).gatherDone then
      (k.mod (fun s => s.endGather e)).push [.checkFinish e]
    else k
  | .checkFinish e =>
    if (k.s.entry e).phase = .finish ∧ (k.s.entry e).finishDone then k.complete e else k
  | .completeTail e unpinned handed =>
    if (k.s.entry e).phase = .finish then k.completeTail e unpinned handed else k
  | .reread e w => k.reread e w
  | .serveOldest set => k.serveFresh set WaitCond.stands
  | .tellWalker set w => k.tellWalker set w
  | .offerRecall => k.offer

/-- One notice acted on (R80, R81, R84). -/
def Work.notice (k : Work) : Notice → Work
  | .unpinned set w =>
    k.push ((k.s.pinWaiters set w).map (fun e => .reread e w) ++ [.serveOldest set, .tellWalker set w])
  | .recallFree => k.push [.offerRecall]
  | .oldestLeft set => k.serveFresh set WaitCond.isBehind

/-- One move of a step: the next task, else the next notice; nothing where neither remains. -/
def Work.move (k : Work) : Option Work :=
  match k.stack, k.notices with
  | t :: ts, _ => some ({ k with stack := ts }.task t)
  | [], n :: ns => some ({ k with notices := ns }.notice n)
  | [], [] => none

/-- At most `fuel` moves, until none remains. -/
def Work.run : Nat → Work → Option State
  | 0, k => match k.move with | none => some k.s | some _ => none
  | fuel + 1, k => match k.move with | none => some k.s | some k' => Work.run fuel k'

/-- The outcome of a step whose work is k (log 16). -/
def settle (k : Work) : Host.Outcome State Fault Refusal :=
  match Work.run Config.settleBound k with
  | some s => .next s
  | none => .fault .unsettled

end Sys2Proof.Machine
end

