-- ==== Sys2Proof/Machine/Loss.lean ====
section
/-! DEFINITION. The loss of a node: what every owner does in the one step of the loss (R38, R102, R128, R142 to
R145, R148). Entries are taken in ascending order, but for the activation of the
successors of removed WAYWAIT entries (log 29). -/

namespace Sys2Proof.Machine

/-- The entry is a REQUEST entry of node n in a phase p (R143). -/
def Entry.requestIn (x : Entry) (n : NodeId) (p : Phase) : Bool :=
  decide (x.phase = p) && decide (x.kind.cls = .request) && x.isFrom n

/-- A QUEUED REQUEST entry of the lost node is removed: unlinked, its posted write no longer counted, FREE (R27,
R99, R143). -/
def State.removeQueued (n : NodeId) (s : State) (e : EntryId) : State :=
  if (s.entry e).requestIn n .queued then
    let s := if (s.entry e).posted then s.modNode n (fun x => { x with posted := x.posted - 1 }) else s
    (s.unlink e).freeUp e
  else s

/-- A WAYWAIT REQUEST entry of the lost node is removed: it leaves the list, a recall running for it loses its
beneficiary, its successor is to activate, and its set may have a new oldest seeker (R27, R81, R143). Where one loss removes several,
the successor of the highest-numbered activates first and that of the lowest-numbered last, which is the model's choice
(log 29). -/
def Work.removeWaiting (n : NodeId) (k : Work) (e : EntryId) : Work :=
  if (k.s.entry e).requestIn n .wayWait then
    let seeks := match k.s.condOf e with | some c => c.seeks | none => false
    let tasks := ((k.s.entry e).successor.map Task.activate).toList
    let set := k.s.setOf e
    let k := k.mod (fun s => (s.leaveWait e (fun _ => Entry.free)).dropBeneficiary e)
    (if seeks then k.note [.oldestLeft set] else k).push tasks
  else k

/-- The entry is orphaned by the loss of its origin n (R143). -/
def Entry.orphans (x : Entry) (n : NodeId) : Bool :=
  x.isFrom n && ((decide (x.kind.cls = .request) && (decide (x.phase = .gather) || decide (x.phase = .finish)))
    || (decide (x.kind.cls = .ret) && x.inUse))

/-- An entry of the lost node that goes on is orphaned: a confirm awaited is taken as received, a coherent read that
waits to issue is withdrawn, and in FINISH a pool-stale buffer is written unless its write is already there (R38,
R105, R143, R144). -/
def State.orphan (n : NodeId) (s : State) (e : EntryId) : State :=
  if (s.entry e).orphans n then
    let s := s.modEntry e (fun x => { x with
      orphaned := true
      confirm := if x.confirm = .awaited n then .received else x.confirm
      confirmTimer := .stopped })
    let x := s.entry e
    if x.kind.coherent ∧ x.phase = .gather ∧ x.poolOp = .waiting then s.withdraw e
    else if x.phase = .finish ∧ x.poolStale ∧ x.poolOp = .none then
      match x.buffer with
      | some b => s.issueWrite e b
      | none => s
    else s
  else s

/-- The lost node's record of one entry's probe: an unanswered probe takes its LOST answer, a straggler wait ends
(R38, R145). -/
def State.probeLost (n : NodeId) (s : State) (e : EntryId) : State :=
  let p := (s.entry e).probe n
  if p.unanswered then
    let s := s.modEntry e (fun x => x.setProbe n { p with status := .lost, timer := .stopped })
    match p.kind with
    | some k => s.lostAnswer e n k
    | none => s
  else if p.straggling then
    s.modEntry e (fun x => x.setProbe n { p with timer := .stopped, waitEnded := true })
  else s

/-- A return awaited from the lost node: the wait ends with the LOST answer (R38, R145). -/
def State.waitLost (n : NodeId) (s : State) (e : EntryId) : State :=
  if (s.entry e).awaited = some n then
    (s.modEntry e (fun x => { x with awaited := none, returnTimer := .stopped })).settleLost e
  else s

/-- The records and fields of one entry aimed at the lost node (R38). -/
def State.aimedLost (n : NodeId) (s : State) (e : EntryId) : State :=
  if (s.entry e).inUse then State.waitLost n (State.probeLost n s e) e else s

/-- What the loss does to the Node Link Controller and the Admission Unit of node n, with its NODE-LOST event (R102,
R128, R135, R136, R142). The link goes DOWN, with the alert test of R159, before the event is raised, which is the
model's choice (log 14). -/
def State.nodeGone (s : State) (n : NodeId) (c : LossCause) : State :=
  let s := (s.modNode n (fun x => { x with
    membership := .lost, orderSlot := none, patience := 0, urgent := false })).linkDown n
  s.raise .nodeLost { node := some n, detail := some (.cause c) }

/-- Every entry whose work may end on account of the loss. -/
def endChecks : List Task := allEntries.flatMap (fun e => [.checkGather e, .checkFinish e])

/-- Node n becomes LOST, unless it is neither MEMBER nor LEAVING (R136, R142). The link goes DOWN and the NODE-LOST event
is raised, each with its alert test, before the removals, the orphaning, the LOST answers and the walk record, and so
before every grant, probe or other message that these queue; R142 and R139 give no order, and this one is the model's
choice (log 14). The successors of removed WAYWAIT entries activate after the orphaning, the LOST answers and the walk
record, and before the checks which GATHER or FINISH is over, which is the model's choice (log 29). -/
def Work.loseNode (k : Work) (n : NodeId) (c : LossCause) : Work :=
  if (k.s.node n).joined then
    let k := (k.mod (fun s => s.nodeGone n c)).mod (fun s => allEntries.foldl (State.removeQueued n) s)
    let k := allEntries.foldl (Work.removeWaiting n) k
    let k := k.mod (fun s => allEntries.foldl (State.orphan n) s)
    let k := k.mod (fun s => (allEntries.foldl (State.aimedLost n) s).recordLoss n)
    { k with stack := k.stack ++ endChecks }
  else k

end Sys2Proof.Machine
end

