-- ==== Sys2Proof/Machine/Registers.lean ====
section
/-! DEFINITION. The Configuration Space: the register map, what each register reads as, the checks on a write and the
effect of a write (chapter 12). -/

namespace Sys2Proof.Machine

/-- The registers of R164. -/
inductive Reg where
  | id
  | hubStatus
  | hubControl
  | poolSize
  | probeTiming
  | relinkTimeout
  | validCount
  | quarCount
  | nodeControl (n : NodeId)
  | nodeStatus (n : NodeId)
  | nodeCommand (n : NodeId)
  | base (r : RegionNo)
  | limit (r : RegionNo)
  | attr (r : RegionNo)
  | enable (r : RegionNo)
  | errorPending
  | errorAck
  | alertMask
  | alertControl
  | alertClear
  | alertStatus
  | errorCount (c : Fin 10)
  | errorRecord (c : Fin 10) (word : Fin 4)
  | walkStatus
  | walkRecord (n : NodeId)
deriving DecidableEq, Repr

/-- The index of one of k registers that stand `step` bytes apart from `first` on. -/
def bank (k : Nat) [NeZero k] (first step a : Nat) : Option (Fin k) :=
  if first ≤ a ∧ a < first + k * step ∧ (a - first) % step = 0 then some (Fin.ofNat k ((a - first) / step)) else none

/-- The register at an aligned address below 0x100 (R164). -/
def lowReg (a : Nat) : Option Reg :=
  match a with
  | 0x000 => some .id
  | 0x004 => some .hubStatus
  | 0x008 => some .hubControl
  | 0x00C => some .poolSize
  | 0x010 => some .probeTiming
  | 0x014 => some .relinkTimeout
  | 0x018 => some .validCount
  | 0x01C => some .quarCount
  | _ =>
    ((bank 4 0x020 4 a).map Reg.nodeControl).orElse (fun _ => ((bank 4 0x030 4 a).map Reg.nodeStatus).orElse
      (fun _ => (bank 4 0x040 4 a).map Reg.nodeCommand))

/-- The region register at an address (R162, R164). -/
def regionReg (a : Nat) : Option Reg :=
  ((bank 8 0x100 16 a).map Reg.base).orElse (fun _ => ((bank 8 0x104 16 a).map Reg.limit).orElse
    (fun _ => ((bank 8 0x108 16 a).map Reg.attr).orElse (fun _ => (bank 8 0x10C 16 a).map Reg.enable)))

/-- The register at an aligned address from 0x200 on (R164). -/
def highReg (a : Nat) : Option Reg :=
  match a with
  | 0x200 => some .errorPending
  | 0x204 => some .errorAck
  | 0x208 => some .alertMask
  | 0x20C => some .alertControl
  | 0x210 => some .alertClear
  | 0x214 => some .alertStatus
  | 0x400 => some .walkStatus
  | _ =>
    ((bank 10 0x240 4 a).map Reg.errorCount).orElse (fun _ =>
      ((bank 40 0x300 4 a).map (fun i =>
        Reg.errorRecord (Fin.ofNat 10 (i.val / 4)) (Fin.ofNat 4 (i.val % 4)))).orElse
      (fun _ => (bank 4 0x404 4 a).map Reg.walkRecord))

/-- The register an offset names: none where it is not a multiple of 4 or no register occupies it (R161 checks 1 and
2, R164). -/
def regAt (o : Offset) : Option Reg :=
  let a := o.toNat
  if a % 4 ≠ 0 then none
  else if a < 0x100 then lowReg a
  else if a < 0x200 then regionReg a
  else highReg a

/-! ## Codes of register fields (R164) -/

/-- A register field: a value at its lowest bit. -/
def regField (value low : Nat) : RegValue := BitVec.ofNat 32 (value <<< low)

/-- A register flag at its bit. -/
def regFlag (b : Bool) (bit : Nat) : RegValue := regField b.toNat bit

/-- The code of a link state. -/
def LinkState.code : LinkState → Nat
  | .down => 0
  | .training => 1
  | .active => 2
  | .retraining => 3

/-- The code of a membership. -/
def Membership.code : Membership → Nat
  | .absent => 0
  | .member => 1
  | .leaving => 2
  | .lost => 3

/-- Target lanes in NODE-CONTROL: 0 for 8, 1 for 16. -/
def lanesCode : Lanes → Nat
  | .x8 => 0
  | .x16 => 1

/-- Target grade in NODE-CONTROL: 0 for 1, 1 for 2, 2 for 4. -/
def gradeCode : Grade → Nat
  | .g1 => 0
  | .g2 => 1
  | .g4 => 2

/-- The grade a NODE-CONTROL field names; 3 names none (R164). -/
def gradeOf (v : BitVec 2) : Option Grade :=
  if v = 0 then some .g1 else if v = 1 then some .g2 else if v = 2 then some .g4 else none

/-- The code of a region kind. -/
def RegionKind.code : RegionKind → Nat
  | .coherent => 0
  | .plain => 1
  | .plainPosted => 2

/-- The region kind an ATTR field names; 3 names none (R164). -/
def regionKindOf (v : BitVec 2) : Option RegionKind :=
  if v = 0 then some .coherent else if v = 1 then some .plain else if v = 2 then some .plainPosted else none

/-! ## Reading (R161, R164, R165) -/

/-- NODE-CONTROL of a node. -/
def Node.controlValue (x : Node) : RegValue :=
  regFlag x.enable 0 ||| regField (lanesCode x.target.lanes) 1 ||| regField (gradeCode x.target.grade) 2
    ||| regField x.priority.toNat 4 ||| regField x.patienceLimit.toNat 8

/-- NODE-STATUS of a node; credits outstanding read 0 unless it is MEMBER or LEAVING (R138). -/
def Node.statusValue (x : Node) : RegValue :=
  regField x.link.code 0 ||| regField x.membership.code 2
    ||| (match x.agreed with
      | none => 0
      | some t => regField (lanesCode t.lanes + 1) 4 ||| regField (gradeCode t.grade + 1) 6)
    ||| regFlag x.mismatch 8 ||| regField x.posted 9
    ||| (if x.joined then regField (16 - x.reqCredits) 16 ||| regField (8 - x.retCredits) 24 else 0)

/-- ATTR of a region. -/
def Region.attrValue (x : Region) : RegValue :=
  regField x.kind.code 0 ||| regField x.readSet.toNat 8 ||| regField x.writeSet.toNat 12

/-- The place of an error record (R165). -/
def Place.value : Place → RegValue
  | .line l => regField l.toNat 0
  | .way k w => regField k.toNat 0 ||| regField w.val 16

/-- A word of the ERROR-RECORD of a class: 0 while the class is not pending (R154, R165). -/
def ClassState.recordWord (x : ClassState) (word : Fin 4) : RegValue :=
  if !x.pending then 0
  else
    let r : ErrRec := x.first.getD {}
    match word with
    | 0 => regFlag x.pending 0 ||| regFlag x.further 1 ||| regFlag r.node.isSome 4 ||| regFlag r.tag.isSome 5
        ||| regFlag r.kind.isSome 6 ||| regFlag r.place.isSome 7 ||| regFlag r.detail.isSome 8
    | 1 => regField ((r.node.map Fin.val).getD 0) 0 ||| regField ((r.tag.map BitVec.toNat).getD 0) 8
        ||| regField ((r.kind.map (fun k => k.code.toNat)).getD 0) 16
    | 2 => (r.place.map Place.value).getD 0
    | 3 => regField ((r.detail.map Detail.code).getD 0) 0

/-- WALK-STATUS, the record of a node. -/
def WalkRec.value (r : WalkRec) : RegValue :=
  regFlag true 0 ||| regFlag (decide (r.mode = .loss)) 1 ||| regField r.recalls 4 ||| regField r.remaining 16

/-- What a register reads as; write-only registers read as 0 (R161, R163, R164). -/
def State.regValue (s : State) : Reg → RegValue
  | .id => 0x0D440001
  | .hubStatus => regFlag (decide (s.status = .ready)) 0 ||| regField s.inUse 8 ||| regField s.recallsInUse 16
  | .hubControl => regFlag s.promote 0 ||| regFlag s.correctWb 1
  | .poolSize => regField s.poolSize.toNat 0
  | .probeTiming => regField s.probeTimeout.toNat 0 ||| regField s.retries.toNat 16
  | .relinkTimeout => regField s.relinkTimeout.toNat 0
  | .validCount => regField s.dir.validCount 0
  | .quarCount => regField s.dir.quarCount 0
  | .nodeControl n => (s.node n).controlValue
  | .nodeStatus n => (s.node n).statusValue
  | .nodeCommand _ => 0
  | .base r => regField (tget s.regions r).base.toNat 0
  | .limit r => regField (tget s.regions r).limit.toNat 0
  | .attr r => (tget s.regions r).attrValue
  | .enable r => regFlag (tget s.regions r).enabled 0
  | .errorPending => regField s.pendingSet.toNat 0
  | .errorAck => 0
  | .alertMask => regField s.alertMask.toNat 0
  | .alertControl => regField s.alertTarget.val 0 ||| regFlag s.pinEnable 8
  | .alertClear => 0
  | .alertStatus =>
    match s.alert with
    | .idle => 0
    | .sent n => regFlag true 0 ||| regField n.val 4 ||| regFlag s.alertLeft 8
  | .errorCount c => regField (s.cls c).count 0
  | .errorRecord c word => (s.cls c).recordWord word
  | .walkStatus => regFlag s.walkerBusy 0 ||| regField s.walker.pointer.toNat 16
  | .walkRecord n => ((s.walker.record n).map WalkRec.value).getD 0

/-! ## Writing (R113, R161, R162, R164) -/

/-- The registers marked RO. -/
def Reg.readOnly : Reg → Bool
  | .id => true
  | .hubStatus => true
  | .validCount => true
  | .quarCount => true
  | .nodeStatus _ => true
  | .errorPending => true
  | .alertStatus => true
  | .errorRecord _ _ => true
  | .walkStatus => true
  | .walkRecord _ => true
  | .hubControl => false
  | .poolSize => false
  | .probeTiming => false
  | .relinkTimeout => false
  | .nodeControl _ => false
  | .nodeCommand _ => false
  | .base _ => false
  | .limit _ => false
  | .attr _ => false
  | .enable _ => false
  | .errorAck => false
  | .alertMask => false
  | .alertControl => false
  | .alertClear => false
  | .errorCount _ => false

/-- A value puts some field of the register outside its range (R161 check 4, R164). Only the field's own bits count;
the others are ignored. -/
def Reg.outOfRange (g : Reg) (v : RegValue) : Bool :=
  match g with
  | .probeTiming => decide (v.extractLsb' 0 16 = 0)
  | .relinkTimeout => decide (v.extractLsb' 0 16 = 0)
  | .poolSize => decide (64 < (v.extractLsb' 0 7).toNat)
  | .nodeControl _ => decide (v.extractLsb' 2 2 = 3)
  | .attr _ => decide (v.extractLsb' 0 2 = 3)
  | _ => false

/-- Some region is enabled (R113). -/
def State.anyEnabled (s : State) : Bool := (List.finRange 8).any (fun r => (tget s.regions r).enabled)

/-- The GiB a MiB lies in: its number divided by 1024 (R162). -/
def DirTag.gib (t : BitVec 16) : BitVec 6 := t.extractLsb' 10 6

/-- A write that R113 or R162 refuses with REGION-BUSY (R161 check 5). -/
def State.regionBusy (s : State) (g : Reg) (v : RegValue) : Bool :=
  match g with
  | .poolSize => s.anyEnabled
  | .base r => (tget s.regions r).enabled
  | .limit r => (tget s.regions r).enabled
  | .attr r => (tget s.regions r).enabled
  | .enable r =>
    !(tget s.regions r).enabled && v.getLsbD 0
      && !(decide (0 < s.poolSize.toNat)
        && decide ((DirTag.gib (tget s.regions r).limit).toNat < s.poolSize.toNat))
  | _ => false

/-- The reason a write of a value to a register is refused, if it is (R161 checks 3 to 5). -/
def State.writeRefusal (s : State) (g : Reg) (v : RegValue) : Option Reason :=
  if g.readOnly then some .configOffset
  else if g.outOfRange v then some .configOffset
  else if s.regionBusy g v then some .regionBusy
  else none

/-- The state with region r changed. -/
def State.modRegion (s : State) (r : RegionNo) (f : Region → Region) : State :=
  { s with regions := tset s.regions r (f (tget s.regions r)) }

/-- NODE-CONTROL written (R164); the counter and the urgent flag stay (R123). -/
def Node.control (x : Node) (v : RegValue) : Node :=
  { x with enable := v.getLsbD 0
           target := ⟨if v.getLsbD 1 then .x16 else .x8, (gradeOf (v.extractLsb' 2 2)).getD x.target.grade⟩
           priority := v.extractLsb' 4 2, patienceLimit := v.extractLsb' 8 8 }

/-- The classes a 32-bit value names in its low ten bits. -/
def classesOf (v : RegValue) : ClassSet := v.extractLsb' 0 10

/-- The register takes a value that passed the checks. A register that starts a command holds nothing: its effect is
the command's (R163, R164). -/
def State.writeReg (s : State) (g : Reg) (v : RegValue) : State :=
  match g with
  | .hubControl => { s with promote := v.getLsbD 0, correctWb := v.getLsbD 1 }
  | .poolSize => { s with poolSize := v.extractLsb' 0 7 }
  | .probeTiming => { s with probeTimeout := v.extractLsb' 0 16, retries := v.extractLsb' 16 2 }
  | .relinkTimeout => { s with relinkTimeout := v.extractLsb' 0 16 }
  | .nodeControl n => s.modNode n (fun x => x.control v)
  | .base r => s.modRegion r (fun x => { x with base := v.extractLsb' 0 16 })
  | .limit r => s.modRegion r (fun x => { x with limit := v.extractLsb' 0 16 })
  | .attr r => s.modRegion r (fun x => { x with
      kind := (regionKindOf (v.extractLsb' 0 2)).getD x.kind, readSet := v.extractLsb' 8 4
      writeSet := v.extractLsb' 12 4 })
  | .enable r => s.modRegion r (fun x => { x with enabled := v.getLsbD 0 })
  | .alertMask => { s with alertMask := classesOf v }.alertTest
  | .alertControl => { s with alertTarget := Fin.ofNat 4 (v.extractLsb' 0 2).toNat, pinEnable := v.getLsbD 8 }.alertTest
  | .errorAck => s.acknowledge (classesOf v)
  | .alertClear => s.alertClear
  | .errorCount c =>
    if v.extractLsb' 0 16 = 0 then { s with errors := tset s.errors c { s.cls c with count := 0 } } else s
  | .id => s
  | .hubStatus => s
  | .validCount => s
  | .quarCount => s
  | .nodeStatus _ => s
  | .nodeCommand _ => s
  | .errorPending => s
  | .alertStatus => s
  | .errorRecord _ _ => s
  | .walkStatus => s
  | .walkRecord _ => s

end Sys2Proof.Machine
end

