-- ==== Sys2Proof/Machine/Admission.lean ====
section
/-! DEFINITION. The Admission Unit: decode, eligibility, the arbiter, and what an admission does (chapter 8, R92, R94,
R98 to R101, R126, R127). -/

namespace Sys2Proof.Machine

/-! ## Decode (R115 to R117) -/

/-- The record covers the line (R115). -/
def Region.covers (x : Region) (l : LineAddr) : Bool :=
  x.enabled && decide (x.base ≤ LineAddr.tag l) && decide (LineAddr.tag l ≤ x.limit)

/-- The deciding region of a line: the lowest-numbered that covers it, where the line is below the installed size
(R116). -/
def State.decidingRegion (s : State) (l : LineAddr) : Option Region :=
  if s.beyondSize l then none
  else ((List.finRange 8).find? (fun r => (tget s.regions r).covers l)).map (fun r => tget s.regions r)

/-- The line a request names, if it names one. -/
def ReqBody.line : ReqBody → Option LineAddr
  | .fetchS l => some l
  | .fetchH l => some l
  | .upgrade l => some l
  | .flush l => some l
  | .plainRead l => some l
  | .plainWrite l _ _ => some l
  | .order => none
  | .leave => none
  | .configRead _ => none
  | .configWrite _ _ => none

/-- The message kind of a request (R166). -/
def ReqBody.msgKind : ReqBody → MsgKind
  | .fetchS _ => .fetchS
  | .fetchH _ => .fetchH
  | .upgrade _ => .upgrade
  | .flush _ => .flush
  | .plainRead _ => .plainRead
  | .plainWrite _ _ _ => .plainWrite
  | .order => .order
  | .leave => .leave
  | .configRead _ => .configRead
  | .configWrite _ _ => .configWrite

/-- The request reaches the Configuration Space, which decode does not check (R117). -/
def ReqBody.isConfig : ReqBody → Bool
  | .configRead _ => true
  | .configWrite _ _ => true
  | .fetchS _ => false
  | .fetchH _ => false
  | .upgrade _ => false
  | .flush _ => false
  | .plainRead _ => false
  | .plainWrite _ _ _ => false
  | .order => false
  | .leave => false

/-- The request is a plain one (R117 check 3). -/
def ReqBody.isPlain : ReqBody → Bool
  | .plainRead _ => true
  | .plainWrite _ _ _ => true
  | .fetchS _ => false
  | .fetchH _ => false
  | .upgrade _ => false
  | .flush _ => false
  | .order => false
  | .leave => false
  | .configRead _ => false
  | .configWrite _ _ => false

/-- The request needs read permission; the other requests that name a line need write permission (R117 check 4). -/
def ReqBody.reads : ReqBody → Bool
  | .fetchS _ => true
  | .plainRead _ => true
  | .fetchH _ => false
  | .upgrade _ => false
  | .flush _ => false
  | .plainWrite _ _ _ => false
  | .order => false
  | .leave => false
  | .configRead _ => false
  | .configWrite _ _ => false

/-- Checks 3 and 4 against the deciding region (R117). -/
def Region.refusal (g : Region) (n : NodeId) (b : ReqBody) : Option Reason :=
  if decide (g.kind = .coherent) = b.isPlain then some .kind
  else if NodeSet.has (if b.reads then g.readSet else g.writeSet) n then none
  else some .denied

/-- The reason decode refuses a request of node n, if it does (R117). -/
def State.decodeRefusal (s : State) (n : NodeId) (b : ReqBody) : Option Reason :=
  if b.isConfig then none
  else if (s.node n).membership = .leaving then some .leaving
  else
    match b.line with
    | none => none
    | some l =>
      match s.decidingRegion l with
      | none => some .noRegion
      | some g => g.refusal n b

/-! ## Candidates and eligibility (R119, R120) -/

/-- Node n offers candidates (R119). -/
def State.offers (s : State) (n : NodeId) : Bool := (s.node n).linked && (s.node n).joined

/-- An entry may be allocated for a request or a return (R20; log 23). -/
def State.roomForWork (s : State) : Bool := decide (s.workInUse < Config.workLimit) && s.freeEntry.isSome

/-- A REQUEST entry of node n other than a posted write is in the table (R120). -/
def State.hasUnposted (s : State) (n : NodeId) : Bool :=
  allEntries.any (fun e => (s.entry e).inUse && decide ((s.entry e).kind.cls = .request) && (s.entry e).isFrom n
    && !(s.entry e).posted)

/-- A request that passes decode is eligible (R120). -/
def State.ready (s : State) (n : NodeId) (b : ReqBody) : Bool :=
  match b with
  | .configRead _ => true
  | .configWrite _ _ => true
  | .order => (s.node n).orderSlot.isNone
  | .leave => (s.node n).orderSlot.isNone && !s.hasUnposted n
  | .plainWrite _ mask _ => decide (mask = 0) || s.roomForWork
  | .fetchS _ => s.roomForWork
  | .fetchH _ => s.roomForWork
  | .upgrade _ => s.roomForWork
  | .flush _ => s.roomForWork
  | .plainRead _ => s.roomForWork

/-- Node n's eligible request head, if it has one (R119, R120). -/
def State.eligibleRequest (s : State) (n : NodeId) : Option ReqMsg :=
  if s.offers n then
    match (s.node n).requestQ with
    | [] => none
    | r :: _ => if (s.decodeRefusal n r.body).isSome ∨ s.ready n r.body then some r else none
  else none

/-- Node n's eligible return head, if it has one (R119, R120). -/
def State.eligibleReturn (s : State) (n : NodeId) : Option RetMsg :=
  if s.offers n then
    match (s.node n).returnQ with
    | [] => none
    | r :: _ => if (s.mergeTarget n r.line).isSome ∨ s.roomForWork then some r else none
  else none

/-! ## The arbiter (R121 to R123) -/

/-- What the arbiter admits next. -/
inductive Choice where
  | ret (n : NodeId) (r : RetMsg)
  | request (n : NodeId) (r : ReqMsg)
deriving DecidableEq, Repr

/-- The highest effective priority among the nodes with an eligible request head (R122). -/
def State.topPriority (s : State) : Nat :=
  allNodes.foldl
    (fun m n => if (s.eligibleRequest n).isSome then max m (s.node n).effectivePriority else m) 0

/-- The candidate the arbiter chooses, if any is eligible (R121, R122). -/
def State.choice (s : State) : Option Choice :=
  match firstFrom s.returnPtr (fun n => (s.eligibleReturn n).map (Choice.ret n)) with
  | some c => some c
  | none =>
    firstFrom s.requestPtr (fun n =>
      if (s.node n).effectivePriority = s.topPriority then (s.eligibleRequest n).map (Choice.request n) else none)

/-- A return head is taken from its queue, and the return pointer moves (R121, R124). -/
def State.takeReturn (s : State) (n : NodeId) : State :=
  { s.modNode n (fun x => { x with returnQ := x.returnQ.tail }) with returnPtr := n + 1 }

/-- A request head is taken from its queue: every other node with an eligible head is passed over, the winner's
patience is cleared, and the request pointer moves (R122 to R124). -/
def State.takeRequest (s : State) (n : NodeId) : State :=
  let passed (m : NodeId) (x : Node) : Node :=
    if m = n then { x.served with requestQ := x.requestQ.tail }
    else if (s.eligibleRequest m).isSome then x.passedOver else x
  { s with nodes := Vector.ofFn (fun m => passed m (s.node m)), requestPtr := n + 1 }

/-! ## Refusals (R118, R161) -/

/-- A request is refused: REFUSE is queued, and a REFUSAL event raised (R118, R161). -/
def State.refuse (s : State) (n : NodeId) (tag : Tag) (kind : MsgKind) (line : Option LineAddr) (r : Reason) : State :=
  (s.send n (.refuse tag r)).raise .refusal
    { node := some n, tag := some tag, kind := some kind, place := line.map Place.line, detail := some (.reason r) }

/-! ## Entries allocated (R20, R23, R125) -/

/-- A new entry is placed in e: behind the last entry of its line's chain, or active at once (R23, R125). -/
def State.enter (s : State) (e : EntryId) (x : Entry) : Work :=
  match s.activeOn x.line with
  | some a =>
    let last := s.chainTail a
    Work.of ((s.setEntry e x).modEntry last (fun y => { y with successor := some e }))
  | none => (Work.of (s.setEntry e x)).push [.activate e]

/-- The entry record of a request (R21, R92). -/
def requestEntry (kind : WorkKind) (n : NodeId) (tag : Tag) (line : LineAddr) (posted : Bool) (mask : ByteMask)
    (data : LineData) : Entry :=
  { Entry.free with
    phase := .queued, kind := kind, admitted := kind, origin := some ⟨n, tag⟩, line := line, posted := posted
    mask := mask, writeData := data }

/-- The entry record of a return (R21, R69). -/
def returnEntry (n : NodeId) (r : RetMsg) : Entry :=
  { Entry.free with
    phase := .queued, kind := if r.data.isSome then .returnD else .returnC
    admitted := if r.data.isSome then .returnD else .returnC, origin := some ⟨n, r.tag⟩, line := r.line
    buffer := r.data }

/-- An entry is allocated for x, in the lowest-numbered FREE entry (R20, R125). -/
def State.allocate (s : State) (x : Entry) : Work :=
  match s.freeEntry with
  | none => Work.of s
  | some e => s.enter e x

/-! ## Admission of a request (R118, R124) -/

/-- The request the arbiter chooses, with what decode says of it. -/
def State.chosenRequest (s : State) : Option (NodeId × ReqMsg × Option Reason) :=
  match s.choice with
  | some (.request n r) => some (n, r, s.decodeRefusal n r.body)
  | some (.ret _ _) => none
  | none => none

/-- The admission of a request head to which `work` gives its meaning once decode has passed it. Where the arbiter
chooses another candidate, nothing is admitted (log 2, log 9). -/
def State.admitRequest (s : State) (work : State → NodeId → Tag → ReqBody → Option Work) :
    Host.Outcome State Fault Refusal :=
  match s.chosenRequest with
  | none => .next s
  | some (n, r, refusal) =>
    match work (s.takeRequest n) n r.tag r.body with
    | none => .next s
    | some k =>
      match refusal with
      | some reason => .next ((s.takeRequest n).refuse n r.tag r.body.msgKind r.body.line reason)
      | none => settle k

/-- A request without write data is given an entry (R92, R124). -/
def State.admitLine (s : State) (n : NodeId) (tag : Tag) (kind : WorkKind) (line : LineAddr) : Work :=
  s.allocate (requestEntry kind n tag line false 0 0)

/-- The region that decides a line is PLAIN-POSTED (R98). -/
def State.postsTo (s : State) (l : LineAddr) : Bool :=
  match s.decidingRegion l with
  | some g => decide (g.kind = .plainPosted)
  | none => false

/-- A PLAIN-WRITE that passes decode: DONE at once for an empty mask; else an entry, posted with its DONE and its
count where the region posts (R94, R98, R99). -/
def State.admitPlainWrite (s : State) (n : NodeId) (tag : Tag) (l : LineAddr) (mask : ByteMask) (data : LineData) :
    Work :=
  if mask = 0 then Work.of (s.doneRequest n tag false)
  else
    let posted := s.postsTo l
    let s := if posted then
        (s.doneRequest n tag false).modNode n (fun x => { x with posted := x.posted + 1 })
      else s
    s.allocate (requestEntry .plainWrite n tag l posted mask data)

/-- The posted entries of node n (R100). -/
def State.postedEntries (s : State) (n : NodeId) : List EntryId :=
  allEntries.filter (fun e => (s.entry e).inUse && (s.entry e).posted && (s.entry e).isFrom n)

/-- An ORDER that passes decode: DONE at once with no posted write, else the slot is occupied (R100). -/
def State.admitOrder (s : State) (n : NodeId) (tag : Tag) : State :=
  if (s.node n).posted = 0 then s.doneRequest n tag false
  else s.modNode n (fun x => { x with orderSlot := some ⟨tag, s.postedEntries n⟩ })

/-- A LEAVE that passes decode: the node is LEAVING and a DEPART record starts (R126). -/
def State.admitLeave (s : State) (n : NodeId) (tag : Tag) : State :=
  (s.modNode n (fun x => { x with membership := .leaving })).startRecord n .depart tag

/-! ## Admission of a return (R63, R64, R69, R124) -/

/-- A return merges, or takes a RETURN entry. -/
def State.admitReturn (s : State) (n : NodeId) (r : RetMsg) : Work :=
  match s.mergeTarget n r.line with
  | some e => ((Work.of s).mod (fun s => s.mergeReturn e n r)).push [.checkGather e]
  | none => s.allocate (returnEntry n r)

/-! ## Admission of a configuration request (R127, R161) -/

/-- A CONFIG-READ is answered (R161). -/
def State.admitConfigRead (s : State) (n : NodeId) (tag : Tag) (o : Offset) : State :=
  match regAt o with
  | some g => s.send n (.configData tag (s.regValue g))
  | none => s.refuse n tag .configRead none .configOffset

/-- A CONFIG-WRITE to a register is checked and answered, and takes effect whole (R161). -/
def State.admitRegWrite (s : State) (n : NodeId) (tag : Tag) (g : Reg) (v : RegValue) : State :=
  match s.writeRefusal g v with
  | some reason => s.refuse n tag .configWrite none reason
  | none => (s.doneRequest n tag false).writeReg g v

/-- A CONFIG-WRITE to an offset at which no register stands is refused (R161 checks 1 and 2). -/
def State.admitConfigWrite (s : State) (n : NodeId) (tag : Tag) (o : Offset) (v : RegValue) : State :=
  match regAt o with
  | some g => s.admitRegWrite n tag g v
  | none => s.refuse n tag .configWrite none .configOffset

/-- RELINK bit of a NODE-COMMAND value (R163). -/
def commandsRelink (v : RegValue) : Bool := v.getLsbD 0

/-- FORCE-LOST bit of a NODE-COMMAND value (R163). -/
def commandsLoss (v : RegValue) : Bool := v.getLsbD 1

/-- A CONFIG-WRITE is the command of a row of its own in the table, whatever answer it gets (log 10). -/
def hasOwnRow (o : Offset) (v : RegValue) : Bool :=
  match regAt o with
  | some (.nodeCommand _) => commandsRelink v || commandsLoss v
  | some .errorAck => true
  | some .alertClear => true
  | some (.errorCount _) => true
  | some .poolSize => true
  | some (.enable _) => true
  | some (.base _) => true
  | some (.limit _) => true
  | some (.attr _) => true
  | _ => false

/-- The admission of a CONFIG-WRITE to a register that p admits. -/
def State.admitWriteRow (s : State) (p : Reg → Bool) : Host.Outcome State Fault Refusal :=
  s.admitRequest (fun s n tag b =>
    match b with
    | .configWrite o v =>
      match regAt o with
      | some g => if p g then some (Work.of (s.admitRegWrite n tag g v)) else none
      | none => none
    | _ => none)

end Sys2Proof.Machine
end

