-- ==== Sys2Proof/Machine/ArrivalCommands.lean ====
section
/-! DEFINITION. The arrival of requests, returns and answers (R31 to R34, R137). Requests and
returns arrive only while the link is ACTIVE; answers are taken while it is RETRAINING too (R37; log 40). -/

namespace Sys2Proof.Machine

/-- REQUEST_ARRIVAL (R137). -/
def execRequestArrival (n : NodeId) (m : WireMsg) (s : State) : Host.Outcome State Fault Refusal :=
  .next (if (s.node n).link = .active then (s.frameAccepted n).requestArrives n m else s)

/-- RETURN_ARRIVAL (R137). -/
def execReturnArrival (n : NodeId) (m : WireMsg) (s : State) : Host.Outcome State Fault Refusal :=
  .next (if (s.node n).link = .active then (s.frameAccepted n).returnArrives n m else s)

/-- An answer to a probe is matched against the entry it names (R31). -/
def State.matchAnswer (s : State) (n : NodeId) (k : AnswerKind) (m : WireMsg) : Work :=
  match (entryNamed m.entryNo).filter (fun e => (s.entry e).accepts n m.line) with
  | some e => (Work.of (s.acceptAnswer e n k m)).push [.checkGather e, .checkFinish e]
  | none => Work.of (s.raise .protocol (answerEvent n k.msgKind m.line m.entryNo))

/-- A CONFIRM is matched against the entry it names (R34). -/
def State.matchConfirm (s : State) (n : NodeId) (m : WireMsg) : Work :=
  match (entryNamed m.entryNo).filter (fun e => (s.entry e).confirms n m.line) with
  | some e =>
    (Work.of (s.modEntry e (fun x => { x with confirm := .received, confirmTimer := .stopped }))).push
      [.checkFinish e]
  | none =>
    Work.of (s.raise .protocol { node := some n, kind := some .confirm, place := some (.line m.line) })

/-- An answer is matched by its kind (R31, R34). -/
def State.matchKind (s : State) (n : NodeId) (m : WireMsg) : AnswerKind → Work
  | .confirm => s.matchConfirm n m
  | .ackClean => s.matchAnswer n .ackClean m
  | .ackData => s.matchAnswer n .ackData m
  | .miss => s.matchAnswer n .miss m

/-- An answer of one kind: a message of another of the channel's kinds is another command's, and one the channel does
not carry is discarded (R137; log 26). While the link is RETRAINING an answer is taken as at any other time (R37), of a
frame accepted before (log 40). -/
def State.answerRow (s : State) (n : NodeId) (k : AnswerKind) (m : WireMsg) : Host.Outcome State Fault Refusal :=
  match (s.node n).link, m.answer with
  | .active, none => .next ((s.frameAccepted n).raise .protocol (arrivalEvent n .kind))
  | .active, some k' => if k' = k then settle ((s.frameAccepted n).matchKind n m k) else .next s
  | .retraining, some k' => if k' = k then settle (s.matchKind n m k) else .next s
  | .retraining, none => .next s
  | .training, _ => .next s
  | .down, _ => .next s

/-- ACK_CLEAN (R31, R41, R42). -/
def execAckClean (n : NodeId) (m : WireMsg) (upsets : List DirUpset) (s : State) :
    Host.Outcome State Fault Refusal :=
  (s.damaged upsets).answerRow n .ackClean m

/-- ACK_DATA (R31, R41, R42, R76). -/
def execAckData (n : NodeId) (m : WireMsg) (upsets : List DirUpset) (s : State) :
    Host.Outcome State Fault Refusal :=
  (s.damaged upsets).answerRow n .ackData m

/-- MISS (R31, R41, R43). -/
def execMiss (n : NodeId) (m : WireMsg) (upsets : List DirUpset) (s : State) : Host.Outcome State Fault Refusal :=
  (s.damaged upsets).answerRow n .miss m

/-- CONFIRM (R34). -/
def execConfirm (n : NodeId) (m : WireMsg) (upsets : List DirUpset) (s : State) :
    Host.Outcome State Fault Refusal :=
  (s.damaged upsets).answerRow n .confirm m

end Sys2Proof.Machine
end

