-- ==== Sys2Proof/Machine/ConfigCommands.lean ====
section
/-! DEFINITION. The admission of configuration requests (chapter 12, R127). A CONFIG-WRITE is the command of the row
that names its register, else of CONFIG_WRITE (log 10). Its answer is queued before its effects (log 14). -/

namespace Sys2Proof.Machine

/-- CONFIG_READ (R161, R164, R165). -/
def execConfigRead (s : State) : Host.Outcome State Fault Refusal :=
  s.admitRequest (fun s n tag b =>
    match b with
    | .configRead o => some (Work.of (s.admitConfigRead n tag o))
    | _ => none)

/-- RELINK: a NODE-COMMAND write with RELINK and without FORCE-LOST (R132, R163). -/
def execRelink (s : State) : Host.Outcome State Fault Refusal :=
  s.admitRequest (fun s n tag b =>
    match b with
    | .configWrite o v =>
      match regAt o with
      | some (.nodeCommand m) =>
        if commandsRelink v && !commandsLoss v then
          let s := s.doneRequest n tag false
          some (Work.of (if (s.node m).link = .active then s.enterRetraining m .retrainCommand else s))
        else none
      | _ => none
    | _ => none)

/-- FORCE_LOST: a NODE-COMMAND write with FORCE-LOST (R127, R142, R163). -/
def execForceLost (upsets : List DirUpset) (s : State) : Host.Outcome State Fault Refusal :=
  (s.damaged upsets).admitRequest (fun s n tag b =>
    match b with
    | .configWrite o v =>
      match regAt o with
      | some (.nodeCommand m) =>
        if commandsLoss v then some ((Work.of (s.doneRequest n tag false)).loseNode m .forced) else none
      | _ => none
    | _ => none)

/-- ERROR_ACK (R156). -/
def execErrorAck (s : State) : Host.Outcome State Fault Refusal := s.admitWriteRow (fun g => decide (g = .errorAck))

/-- ALERT_CLEAR (R158). -/
def execAlertClear (s : State) : Host.Outcome State Fault Refusal :=
  s.admitWriteRow (fun g => decide (g = .alertClear))

/-- ERROR_COUNT (R155). -/
def execErrorCount (s : State) : Host.Outcome State Fault Refusal :=
  s.admitWriteRow (fun g => match g with | .errorCount _ => true | _ => false)

/-- POOL_SIZE (R113). -/
def execPoolSize (s : State) : Host.Outcome State Fault Refusal := s.admitWriteRow (fun g => decide (g = .poolSize))

/-- ENABLE (R162). -/
def execEnable (s : State) : Host.Outcome State Fault Refusal :=
  s.admitWriteRow (fun g => match g with | .enable _ => true | _ => false)

/-- BASE (R162). -/
def execBase (s : State) : Host.Outcome State Fault Refusal :=
  s.admitWriteRow (fun g => match g with | .base _ => true | _ => false)

/-- LIMIT (R162). -/
def execLimit (s : State) : Host.Outcome State Fault Refusal :=
  s.admitWriteRow (fun g => match g with | .limit _ => true | _ => false)

/-- ATTR (R162). -/
def execAttr (s : State) : Host.Outcome State Fault Refusal :=
  s.admitWriteRow (fun g => match g with | .attr _ => true | _ => false)

/-- CONFIG_WRITE: every write that is no other row's (R161). -/
def execConfigWrite (s : State) : Host.Outcome State Fault Refusal :=
  s.admitRequest (fun s n tag b =>
    match b with
    | .configWrite o v => if hasOwnRow o v then none else some (Work.of (s.admitConfigWrite n tag o v))
    | _ => none)

end Sys2Proof.Machine
end

