-- ==== Sys2Proof/Machine/FrameCommands.lean ====
section
/-! DEFINITION. The commands of frames sent and received (R132, R138, R140). They act while the link is ACTIVE. -/

namespace Sys2Proof.Machine

/-- FRAME_SEND: the next `count` messages not yet sent go out in a frame, which starts its acknowledgement time (R132,
R140; log 11). -/
def execFrameSend (n : NodeId) (count : Nat) (s : State) : Host.Outcome State Fault Refusal :=
  let x := s.node n
  .next (if x.link = .active ∧ 1 ≤ count ∧ x.sentCount + count ≤ x.outQ.length then
      s.modNode n (fun x => { x with
        frames := x.frames ++ [{ messages := count, resends := 0, ackTimer := some Config.ackSpan }] })
    else s)

/-- FRAME_ACKNOWLEDGED: the `count` oldest unacknowledged frames are acknowledged (R140). -/
def execFrameAcknowledged (n : NodeId) (count : Nat) (s : State) : Host.Outcome State Fault Refusal :=
  .next (if (s.node n).link = .active ∧ count ≤ (s.node n).frames.length then State.framesAcked n count s else s)

/-- ACK_TIMEOUT: the acknowledgement of a frame has not come in time (R132). -/
def execAckTimeout (n : NodeId) (frame : Nat) (s : State) : Host.Outcome State Fault Refusal :=
  .next (if (s.node n).link = .active then
      match (s.node n).frames[frame]? with
      | some f =>
        if f.ackTimer = some 0 then
          if Config.retryLimit ≤ f.resends then s.enterRetraining n .retrainRetry
          else s.modNode n (fun x => x.resendFrom frame)
        else s
      | none => s
    else s)

/-- DAMAGE_REPORTED: the partner reports a frame damaged; it and every frame after it are sent again (R132,
log 11). -/
def execDamageReported (n : NodeId) (frame : Nat) (s : State) : Host.Outcome State Fault Refusal :=
  .next (if (s.node n).link = .active then
      match (s.node n).frames[frame]? with
      | some _ => s.modNode n (fun x => x.resendFrom frame)
      | none => s
    else s)

/-- The number of times in a row that frame `number` has now been received damaged (R129, R132; log 12). -/
def Node.damagedRun (x : Node) (number : Nat) : Nat :=
  if x.damagedFrame = number then min Config.retryLimit (x.damagedCount + 1) else 1

/-- FRAME_RECEIVED_DAMAGED: the eighth damaged receipt of one frame in a row starts retraining (R132). -/
def execFrameReceivedDamaged (n : NodeId) (number : Nat) (s : State) : Host.Outcome State Fault Refusal :=
  .next (if (s.node n).link = .active then
      let run := (s.node n).damagedRun number
      let s := s.modNode n (fun x => { x with damagedCount := run, damagedFrame := number })
      if Config.retryLimit ≤ run then s.enterRetraining n .retrainRetry else s
    else s)

end Sys2Proof.Machine
end

