-- ==== Sys2Proof/Machine/LinkCommands.lean ====
section
/-! DEFINITION. The commands of training, retraining and presence (R129 to R134). A command whose event cannot come
about as the link stands leaves the state as it is (log 2). -/

namespace Sys2Proof.Machine

/-- TRAINING_START: with training offered, the partner begins the base phase (R130, R131). -/
def execTrainingStart (n : NodeId) (s : State) : Host.Outcome State Fault Refusal :=
  .next (if s.offersTraining n then
      s.modNode n (fun x => { x with link := .training, training := .base Config.trainingSpan })
    else s)

/-- The link trains or retrains (R131, R133). -/
def Node.inTraining (x : Node) : Bool := decide (x.link = .training) || decide (x.link = .retraining)

/-- BASE_PHASE_COMPLETE, in TRAINING or RETRAINING (R131, R133). -/
def execBasePhaseComplete (n : NodeId) (partner : Targets) (s : State) : Host.Outcome State Fault Refusal :=
  .next (if (s.node n).inTraining then
      match (s.node n).training with
      | .base _ => s.baseComplete n partner
      | .stepUp _ _ => s
      | .idle => s
    else s)

/-- STEP_UP_COMPLETE, in TRAINING or RETRAINING (R131, R133). -/
def execStepUpComplete (n : NodeId) (s : State) : Host.Outcome State Fault Refusal :=
  .next (match (s.node n).training with
    | .stepUp t _ => s.linkUp n t
    | .base _ => s
    | .idle => s)

/-- TRAINING_FAILED: a phase of TRAINING has used its time (R131). -/
def execTrainingFailed (n : NodeId) (s : State) : Host.Outcome State Fault Refusal :=
  .next (if (s.node n).link = .training ∧ (s.node n).training.remaining = some 0 then
      s.trainingEnds n .trainingFailed
    else s)

/-- PARTNER_GONE: the presence signal is withdrawn (R131, R134). -/
def execPartnerGone (n : NodeId) (upsets : List DirUpset) (s : State) : Host.Outcome State Fault Refusal :=
  let s := (s.damaged upsets).modNode n (fun x => { x with presence := false })
  match (s.node n).link with
  | .down => .next s
  | .training => .next (s.trainingEnds n .partnerGone)
  | .active => settle ((Work.of (s.raise .link (linkEvent n .partnerGone))).loseNode n .partnerGone)
  | .retraining => settle ((Work.of (s.raise .link (linkEvent n .partnerGone))).loseNode n .partnerGone)

/-- RETRAIN_PARTNER: the partner begins retraining (R132). -/
def execRetrainPartner (n : NodeId) (s : State) : Host.Outcome State Fault Refusal :=
  .next (if (s.node n).link = .active then s.enterRetraining n .retrainPartner else s)

/-- The whole of a retraining attempt that succeeds: from its base phase the targets are exchanged and the link comes
up at the pair agreed on, or at base; from its step-up it comes up at that pair (R131, R133; log 13). -/
def State.retrained (s : State) (n : NodeId) (partner : Targets) : State :=
  match (s.node n).training with
  | .base _ =>
    (s.exchange n partner).retrainSucceed n ((stepUpTargets (s.node n).target partner).getD baseTargets)
  | .stepUp t _ => s.retrainSucceed n t
  | .idle => s

/-- RETRAINING_SUCCESS (R133). -/
def execRetrainingSuccess (n : NodeId) (partner : Targets) (s : State) : Host.Outcome State Fault Refusal :=
  .next (if (s.node n).link = .retraining then s.retrained n partner else s)

/-- RETRAIN_ATTEMPT_FAILED: an attempt has used its time, and another starts at once (R133). -/
def execRetrainAttemptFailed (n : NodeId) (s : State) : Host.Outcome State Fault Refusal :=
  .next (if (s.node n).link = .retraining ∧ (s.node n).training.remaining = some 0 then
      s.modNode n (fun x => { x with training := .base Config.trainingSpan })
    else s)

/-- RELINK_EXPIRED: the relink timer has run out in RETRAINING (R133, R136). -/
def execRelinkExpired (n : NodeId) (upsets : List DirUpset) (s : State) : Host.Outcome State Fault Refusal :=
  let s := s.damaged upsets
  if (s.node n).link = .retraining ∧ (s.node n).relinkTimer = some 0 then
    settle ((Work.of (s.raise .link (linkEvent n .relinkExpired))).loseNode n .relinkExpired)
  else .next s

/-- PRESENCE_ASSERTED (R130). -/
def execPresenceAsserted (n : NodeId) (s : State) : Host.Outcome State Fault Refusal :=
  .next (s.modNode n (fun x => { x with presence := true }))

end Sys2Proof.Machine
end

