-- ==== Sys2Proof/Machine/PoolCommands.lean ====
section
/-! DEFINITION. The completion of pool operations (R44, R60, R93, R95 to R97, R106 to R111, R150). A completion comes
about only for an accepted operation with none accepted earlier on its line (R106). -/

namespace Sys2Proof.Machine

/-- The read entry x's owner waited for has delivered data with a result: a partial PLAIN-WRITE merges, the others
take the data (R44, R60, R93, R96). -/
def Entry.takeRead (x : Entry) (r : ReadResult) (d : LineData) (correctWb : Bool) : Entry :=
  if x.kind = .plainWrite then
    { x with buffer := some ⟨mergeBytes x.mask d x.writeData, r.poison⟩, poolStale := false }
  else
    { x with buffer := some ⟨d, r.poison⟩, poolStale := false, owesWriteBack := r.isCorrected && correctWb }

/-- A READ completes for entry e: its event, the data and result to the entry, and POSTED-MERGE where a posted write
merged into data that cannot be trusted (R97, R106, R110, R111). An ALERT of its event stands before the reply that the
end of GATHER then queues, and its event comes before POSTED-MERGE, which is DEDUCED (log 14). -/
def State.readCompletes (s : State) (e : EntryId) (l : LineAddr) : State :=
  let (r, d) := s.poolRead l
  let s := (s.retireOp (.entry e)).readEvent e r
  let s := s.modEntry e (fun x => x.takeRead r d s.correctWb)
  if (s.entry e).kind = .plainWrite ∧ (s.entry e).posted ∧ r.poison then
    s.raise .poolUncorrected (s.entryEvent e (some .postedMerge))
  else s

/-- POOL_READ_COMPLETE. -/
def execPoolReadComplete (e : EntryId) (words : List WordUpset) (upsets : List DirUpset) (s : State) :
    Host.Outcome State Fault Refusal :=
  let s := s.damaged upsets
  match s.completable (.entry e) with
  | some ⟨_, l, none⟩ =>
    settle ((Work.of ((s.poolDamaged l words).readCompletes e l)).push [.checkGather e])
  | some ⟨_, _, some _⟩ => .next s
  | none => .next s

/-- The DONE an entry owes when its pool write completes, if any (R58, R70, R95 to R98). -/
def Entry.writeReply (x : Entry) : Option OutMsg :=
  if x.orphaned then none
  else
    match x.kind with
    | .flush => some (.done x.originTag .request false false)
    | .returnD => some (.done x.originTag .ret false false)
    | .plainWrite =>
      if x.posted then none
      else some (.done x.originTag .request ((x.buffer.map Buffer.poison).getD false) false)
    | _ => none

/-- A WRITE completes for entry e: the line is stored, pool-stale is cleared, and the DONE due is queued (R59, R106,
R108). -/
def State.writeCompletes (s : State) (e : EntryId) (l : LineAddr) (b : Buffer) : State :=
  let s := ((s.poolWrite l b).retireOp (.entry e)).modEntry e (fun x => { x with poolStale := false })
  match (s.entry e).writeReply with
  | some m => s.send (s.entry e).originNode m
  | none => s

/-- POOL_WRITE_COMPLETE. -/
def execPoolWriteComplete (e : EntryId) (upsets : List DirUpset) (s : State) : Host.Outcome State Fault Refusal :=
  let s := s.damaged upsets
  match s.completable (.entry e) with
  | some ⟨_, l, some b⟩ => settle ((Work.of (s.writeCompletes e l b)).push [.checkFinish e])
  | some ⟨_, _, none⟩ => .next s
  | none => .next s

/-- The walker's poison write is done: it writes its way VACANT, unpins it, and moves to the next way (R150). -/
def State.poisonDone (s : State) : State :=
  let set := s.walker.pointer
  let w := s.walker.position
  (((s.writeWay set w none .walker).setPin set w .none).setStall .none).nextWay

/-- POISON_WRITE_COMPLETE. The walker's move to the next way, with the end of the set and of records that are done (R150,
R152), comes before the way-wait members are served on the unpinning, which is the model's choice (log 15). -/
def execPoisonWriteComplete (upsets : List DirUpset) (s : State) : Host.Outcome State Fault Refusal :=
  let s := s.damaged upsets
  match s.walker.stall, s.completable .walker with
  | .write, some ⟨_, l, some b⟩ =>
    settle ((Work.of ((s.poolWrite l b).retireOp .walker).poisonDone).note
      [.unpinned s.walker.pointer s.walker.position])
  | _, _ => .next s

end Sys2Proof.Machine
end

