-- ==== Sys2Proof/Machine/RequestCommands.lean ====
section
/-! DEFINITION. The admission of request and return heads (chapter 8). Each acts where the arbiter's choice is a head
of its kind (log 9). -/

namespace Sys2Proof.Machine

/-- FETCH_S (R46 to R49, R124). -/
def execFetchS (upsets : List DirUpset) (s : State) : Host.Outcome State Fault Refusal :=
  (s.damaged upsets).admitRequest (fun s n tag b =>
    match b with
    | .fetchS l => some (s.admitLine n tag .fetchS l)
    | _ => none)

/-- FETCH_H (R50 to R53, R124). -/
def execFetchH (upsets : List DirUpset) (s : State) : Host.Outcome State Fault Refusal :=
  (s.damaged upsets).admitRequest (fun s n tag b =>
    match b with
    | .fetchH l => some (s.admitLine n tag .fetchH l)
    | _ => none)

/-- UPGRADE (R54 to R56, R124). -/
def execUpgrade (upsets : List DirUpset) (s : State) : Host.Outcome State Fault Refusal :=
  (s.damaged upsets).admitRequest (fun s n tag b =>
    match b with
    | .upgrade l => some (s.admitLine n tag .upgrade l)
    | _ => none)

/-- FLUSH (R57, R58, R124). -/
def execFlush (upsets : List DirUpset) (s : State) : Host.Outcome State Fault Refusal :=
  (s.damaged upsets).admitRequest (fun s n tag b =>
    match b with
    | .flush l => some (s.admitLine n tag .flush l)
    | _ => none)

/-- PLAIN_READ (R92, R93, R124). -/
def execPlainRead (s : State) : Host.Outcome State Fault Refusal :=
  s.admitRequest (fun s n tag b =>
    match b with
    | .plainRead l => some (s.admitLine n tag .plainRead l)
    | _ => none)

/-- PLAIN_WRITE (R94 to R99, R124). -/
def execPlainWrite (s : State) : Host.Outcome State Fault Refusal :=
  s.admitRequest (fun s n tag b =>
    match b with
    | .plainWrite l mask data => some (s.admitPlainWrite n tag l mask data)
    | _ => none)

/-- ORDER (R100). -/
def execOrder (s : State) : Host.Outcome State Fault Refusal :=
  s.admitRequest (fun s n tag b =>
    match b with
    | .order => some (Work.of (s.admitOrder n tag))
    | _ => none)

/-- LEAVE (R126). -/
def execLeave (s : State) : Host.Outcome State Fault Refusal :=
  s.admitRequest (fun s n tag b =>
    match b with
    | .leave => some (Work.of (s.admitLeave n tag))
    | _ => none)

/-- The admission of a return head, where the arbiter's choice is one with data, or one without. -/
def State.admitReturnRow (s : State) (withData : Bool) : Host.Outcome State Fault Refusal :=
  match s.choice with
  | some (.ret n r) => if r.data.isSome = withData then settle ((s.takeReturn n).admitReturn n r) else .next s
  | some (.request _ _) => .next s
  | none => .next s

/-- RETURN_D (R63 to R70, R124). -/
def execReturnD (upsets : List DirUpset) (s : State) : Host.Outcome State Fault Refusal :=
  (s.damaged upsets).admitReturnRow true

/-- RETURN_C (R63 to R70, R124). -/
def execReturnC (upsets : List DirUpset) (s : State) : Host.Outcome State Fault Refusal :=
  (s.damaged upsets).admitReturnRow false

end Sys2Proof.Machine
end

