-- ==== Sys2Proof/Machine/ResetCommands.lean ====
section
/-! DEFINITION. COLD_RESET and INIT_SWEEP (R16, R17, R106, R114 and the tables of state after cold reset). -/

namespace Sys2Proof.Machine

/-- The contents of a line whose WRITE a reset abandoned are unknown from then on (R106, R114). -/
def Pool.abandon (p : Pool) (seed : Nat) (l : LineAddr) : Pool := p.putLine l (PoolLine.unknown seed)

/-- The lines whose accepted WRITE a reset abandons; an operation beyond the installed size is not sent to the pool
(R106, R107, R114). -/
def State.writtenLines (s : State) : List LineAddr :=
  (s.poolQueue.filter (fun op => op.write.isSome && !s.beyondSize op.line)).map PoolOp.line

/-- The pool as a cold reset leaves it: unknown throughout after power-on; else kept, but for the lines whose WRITE
was abandoned (R114, log 5). -/
def State.poolAfterReset (s : State) (powerOn : Bool) : Pool :=
  if powerOn then { lines := [], seed := s.freeSeed }
  else s.writtenLines.foldl (fun p l => p.abandon s.freeSeed l) s.pool

/-- A node after a cold reset; its presence signal is an input and stays as it is (log 28). -/
def Node.afterReset (x : Node) : Node := { Node.reset with presence := x.presence }

/-- The hub after a cold reset (R16): everything at its reset value but the pool, the presence signals and the
waiting commands; the directory's records are undefined afresh (log 4). -/
def State.coldReset (s : State) (powerOn : Bool) : State :=
  { State.reset with
    nodes := s.nodes.map Node.afterReset, pool := s.poolAfterReset powerOn
    dir := { State.reset.dir with seed := s.freeSeed }, freeSeed := s.freeSeed + 1, pending := s.pending }

/-- COLD_RESET. -/
def execColdReset (powerOn : Bool) (s : State) : Host.Outcome State Fault Refusal := .next (s.coldReset powerOn)

/-- The sweep writes the set at its pointer and moves on; after the last set the hub is READY (R16, R17). -/
def State.sweepSet (s : State) : State :=
  let k := s.walker.pointer
  { s.putDirSet k DirSet.vacant with
    walker := { s.walker with pointer := k + 1 }
    status := if k = 16383 then .ready else s.status }

/-- INIT_SWEEP, while the sweep runs. -/
def execInitSweep (s : State) : Host.Outcome State Fault Refusal :=
  .next (if s.status = .init then s.sweepSet else s)

end Sys2Proof.Machine
end

