-- ==== Sys2Proof/Machine/TimerCommands.lean ====
section
/-! DEFINITION. The expiry of the Line Transaction Table's timers (R30, R34, R35). An expiry acts where the timer has
run out (log 3). -/

namespace Sys2Proof.Machine

/-- A new copy of entry e's probe to n is queued, and a PROBE-RETRY event raised (R30). The copy stands before an ALERT of
that event in the outbound queue, which is the model's choice (log 14). -/
def State.probeAgain (s : State) (e : EntryId) (n : NodeId) (k : ProbeKind) : State :=
  let x := s.entry e
  let p := x.probe n
  let s := (s.setEntry e (x.setProbe n { p with status := .queuedOut, sends := p.sends + 1, timer := .stopped })).send n
    (.probe k e x.line)
  s.raise .probeRetry
    { node := some n, kind := some k.msgKind, place := some (.line x.line), detail := some (.probe k) }

/-- PROBE_TIMER_EXPIRY: the record is judged by its answers and sends (R30). -/
def execProbeTimerExpiry (e : EntryId) (n : NodeId) (upsets : List DirUpset) (s : State) :
    Host.Outcome State Fault Refusal :=
  let s := s.damaged upsets
  let p := (s.entry e).probe n
  if p.timer = .running 0 then
    match p.kind with
    | none => .next s
    | some k =>
      if p.answers = 0 ∧ p.sends ≤ s.retries.toNat then .next (s.probeAgain e n k)
      else if p.answers < p.sends then settle ((Work.of s).loseNode n .probeTimeout)
      else .next s
  else .next s

/-- CONFIRM_TIMER_EXPIRY: the grantee is lost (R34). -/
def execConfirmTimerExpiry (e : EntryId) (upsets : List DirUpset) (s : State) : Host.Outcome State Fault Refusal :=
  let s := s.damaged upsets
  match (s.entry e).confirm, (s.entry e).confirmTimer with
  | .awaited n, .running 0 => settle ((Work.of s).loseNode n .confirmTimeout)
  | _, _ => .next s

/-- RETURN_WAIT_EXPIRY: the awaited node is lost (R35). -/
def execReturnWaitExpiry (e : EntryId) (upsets : List DirUpset) (s : State) : Host.Outcome State Fault Refusal :=
  let s := s.damaged upsets
  match (s.entry e).awaited, (s.entry e).returnTimer with
  | some n, .running 0 => settle ((Work.of s).loseNode n .returnTimeout)
  | _, _ => .next s

end Sys2Proof.Machine
end

