-- ==== Sys2Proof/Machine/WalkerCommands.lean ====
section
/-! DEFINITION. The walker's examination of a way (R149 to R152). -/

namespace Sys2Proof.Machine

/-- WALKER_EXAMINE_WAY: the walker examines the way at its position, where it walks a set and does not stand
still. -/
def execWalkerExamineWay (upsets : List DirUpset) (s : State) : Host.Outcome State Fault Refusal :=
  let s := s.damaged upsets
  if s.status = .ready ∧ s.walker.stall = .none ∧ s.walker.walks then settle (Work.of s).examine else .next s

end Sys2Proof.Machine
end

