-- ==== Sys2Proof/Machine/Dispatch.lean ====
section
/-! DEFINITION. The meaning of every command. -/

namespace Sys2Proof.Machine

/-- The effect of a command on everything but the queue of commands. -/
def exec (i : Instr) (s : State) : Host.Outcome State Fault Refusal :=
  match i with
  | .coldReset powerOn => Sys2Proof.Machine.execColdReset powerOn s
  | .initSweep => Sys2Proof.Machine.execInitSweep s
  | .trainingStart n => Sys2Proof.Machine.execTrainingStart n s
  | .basePhaseComplete n partner => Sys2Proof.Machine.execBasePhaseComplete n partner s
  | .stepUpComplete n => Sys2Proof.Machine.execStepUpComplete n s
  | .trainingFailed n => Sys2Proof.Machine.execTrainingFailed n s
  | .partnerGone n upsets => Sys2Proof.Machine.execPartnerGone n upsets s
  | .retrainPartner n => Sys2Proof.Machine.execRetrainPartner n s
  | .retrainingSuccess n partner => Sys2Proof.Machine.execRetrainingSuccess n partner s
  | .retrainAttemptFailed n => Sys2Proof.Machine.execRetrainAttemptFailed n s
  | .relinkExpired n upsets => Sys2Proof.Machine.execRelinkExpired n upsets s
  | .frameSend n count => Sys2Proof.Machine.execFrameSend n count s
  | .frameAcknowledged n count => Sys2Proof.Machine.execFrameAcknowledged n count s
  | .ackTimeout n frame => Sys2Proof.Machine.execAckTimeout n frame s
  | .damageReported n frame => Sys2Proof.Machine.execDamageReported n frame s
  | .frameReceivedDamaged n number => Sys2Proof.Machine.execFrameReceivedDamaged n number s
  | .requestArrival n m => Sys2Proof.Machine.execRequestArrival n m s
  | .returnArrival n m => Sys2Proof.Machine.execReturnArrival n m s
  | .ackClean n m upsets => Sys2Proof.Machine.execAckClean n m upsets s
  | .ackData n m upsets => Sys2Proof.Machine.execAckData n m upsets s
  | .miss n m upsets => Sys2Proof.Machine.execMiss n m upsets s
  | .confirm n m upsets => Sys2Proof.Machine.execConfirm n m upsets s
  | .probeTimerExpiry e n upsets => Sys2Proof.Machine.execProbeTimerExpiry e n upsets s
  | .confirmTimerExpiry e upsets => Sys2Proof.Machine.execConfirmTimerExpiry e upsets s
  | .returnWaitExpiry e upsets => Sys2Proof.Machine.execReturnWaitExpiry e upsets s
  | .poolReadComplete e words upsets => Sys2Proof.Machine.execPoolReadComplete e words upsets s
  | .poolWriteComplete e upsets => Sys2Proof.Machine.execPoolWriteComplete e upsets s
  | .poisonWriteComplete upsets => Sys2Proof.Machine.execPoisonWriteComplete upsets s
  | .fetchS upsets => Sys2Proof.Machine.execFetchS upsets s
  | .fetchH upsets => Sys2Proof.Machine.execFetchH upsets s
  | .upgrade upsets => Sys2Proof.Machine.execUpgrade upsets s
  | .flush upsets => Sys2Proof.Machine.execFlush upsets s
  | .plainRead => Sys2Proof.Machine.execPlainRead s
  | .plainWrite => Sys2Proof.Machine.execPlainWrite s
  | .order => Sys2Proof.Machine.execOrder s
  | .leave => Sys2Proof.Machine.execLeave s
  | .configRead => Sys2Proof.Machine.execConfigRead s
  | .returnD upsets => Sys2Proof.Machine.execReturnD upsets s
  | .returnC upsets => Sys2Proof.Machine.execReturnC upsets s
  | .relink => Sys2Proof.Machine.execRelink s
  | .forceLost upsets => Sys2Proof.Machine.execForceLost upsets s
  | .errorAck => Sys2Proof.Machine.execErrorAck s
  | .alertClear => Sys2Proof.Machine.execAlertClear s
  | .errorCount => Sys2Proof.Machine.execErrorCount s
  | .poolSize => Sys2Proof.Machine.execPoolSize s
  | .enable => Sys2Proof.Machine.execEnable s
  | .base => Sys2Proof.Machine.execBase s
  | .limit => Sys2Proof.Machine.execLimit s
  | .attr => Sys2Proof.Machine.execAttr s
  | .configWrite => Sys2Proof.Machine.execConfigWrite s
  | .walkerExamineWay upsets => Sys2Proof.Machine.execWalkerExamineWay upsets s
  | .presenceAsserted n => Sys2Proof.Machine.execPresenceAsserted n s

end Sys2Proof.Machine
end

