-- ==== Sys2Proof/Safety.lean ====
section
/-! DEFINITION. The laws the handbook says the hub keeps, as properties of a state, and the relation of a state with
the states one plain change away. -/

namespace Sys2Proof.Machine

/-! ## Laws -/

/-- A link that is DOWN has empty queues, no unacknowledged frames, no credits, no agreed values and no relink timer
(R135). -/
def Node.downLaw (x : Node) : Prop :=
  x.link = .down → x.requestQ = [] ∧ x.returnQ = [] ∧ x.outQ = [] ∧ x.frames = [] ∧ x.reqCredits = 0
    ∧ x.retCredits = 0 ∧ x.agreed = none ∧ x.relinkTimer = none

/-- The ranges of a node's counters: patience 0 to 255 (R123), damaged count 0 to 8 and resend counts 0 to 8
(R129). -/
def Node.rangeLaw (x : Node) : Prop :=
  x.patience ≤ 255 ∧ x.damagedCount ≤ 8 ∧ ∀ f ∈ x.frames, f.resends ≤ 8

/-- An error class: its count stops at 65 535, its first record is there exactly while it is pending, and its further
flag is set only while it is (R153 to R156). -/
def ClassState.law (x : ClassState) : Prop :=
  x.count ≤ 65535 ∧ x.first.isSome = x.pending ∧ (x.further = true → x.pending = true)

/-- A recency order lists the eight ways without repetition (R15). -/
def DirSet.ordered (x : DirSet) : Prop := x.order.Perm [0, 1, 2, 3, 4, 5, 6, 7]

/-- The pool and the directory are in canonical form. -/
def State.canonical (s : State) : Prop := Memory.wf s.pool ∧ Directory.wf s.dir

/-- R135's law for every node. -/
def State.downLaw (s : State) : Prop := ∀ n, (s.node n).downLaw

/-- The ranges of every node's counters. -/
def State.rangeLaw (s : State) : Prop := ∀ n, (s.node n).rangeLaw

/-- The law of every error class. -/
def State.errorLaw (s : State) : Prop := ∀ c, (s.cls c).law

/-- Every listed set has a recency order of its eight ways. -/
def State.orderLaw (s : State) : Prop := ∀ c ∈ s.dir.sets, DirSet.ordered c.2

/-- A member of the way-wait list with condition c fits its entry x: x is of a kind that may wait, and one that seeks a
way is a FETCH-S or a FETCH-H (R24, R39, R79). -/
def Entry.mayWait (x : Entry) (c : WaitCond) : Prop :=
  x.kind.plain = false ∧ x.kind ≠ .recall ∧ (c.seeks = true → x.kind = .fetchS ∨ x.kind = .fetchH)

/-- Of two members that seek a way of one set, the later one stands BEHIND (R79, R81). -/
def State.behindLaw (s : State) (a b : Member) : Prop :=
  a.cond.seeks = true → b.cond.seeks = true → s.setOf a.entry = s.setOf b.entry → b.cond = .behind

/-- The way-wait list: no entry stands in it twice; its members are the entries in WAYWAIT; each fits its entry; and of
the seekers of a set only the oldest is not BEHIND (R27, R79, R81). -/
def State.waitLaw (s : State) : Prop :=
  (s.wayWait.map Member.entry).Nodup ∧ (∀ e, (s.entry e).phase = .wayWait ↔ ∃ m ∈ s.wayWait, m.entry = e)
  ∧ (∀ m ∈ s.wayWait, (s.entry m.entry).mayWait m.cond) ∧ s.wayWait.Pairwise s.behindLaw

/-! ## Plain changes -/

/-- A node may become y: whichever of a node's laws held still holds. -/
def NodeMove (x y : Node) : Prop := (x.downLaw → y.downLaw) ∧ (x.rangeLaw → y.rangeLaw)

/-- One plain change of the state, of a kind the hub's work is made of. -/
inductive Move : State → State → Prop where
  /-- Nodes change, each as a node may. -/
  | nodes (s : State) (ns : Vector Node 4) (h : ∀ n, NodeMove (s.node n) (tget ns n)) : Move s { s with nodes := ns }
  /-- Error classes change, each keeping its law. -/
  | errors (s : State) (es : Vector ClassState 10) (h : ∀ c, (s.cls c).law → (tget es c).law) :
      Move s { s with errors := es }
  /-- A set of the directory is replaced, its order still an order. -/
  | dirSet (s : State) (k : SetIdx) (x : DirSet) (h : DirSet.ordered (s.dirSet k) → DirSet.ordered x) :
      Move s (s.putDirSet k x)
  /-- A line of the pool is replaced. -/
  | line (s : State) (l : LineAddr) (x : PoolLine) : Move s { s with pool := s.pool.putLine l x }
  /-- Anything changes but nodes, error classes, directory sets and pool, the law of the way-wait list still held. -/
  | rest (s t : State) (nodes : t.nodes = s.nodes) (errors : t.errors = s.errors) (sets : t.dir.sets = s.dir.sets)
      (pool : t.pool = s.pool) (waits : s.waitLaw → t.waitLaw) : Move s t
  /-- A cold reset. -/
  | reset (s : State) (powerOn : Bool) : Move s (s.coldReset powerOn)

/-- Any number of plain changes. -/
def Moves : State → State → Prop := Relation.ReflTransGen Move

/-! ## Words the statements are written in -/

/-- No entry's GATHER or FINISH is over: one that is over passes on in the same step (R22, R25). -/
def Entry.standing (x : Entry) : Prop :=
  (x.phase = .gather → x.gatherDone = false) ∧ (x.phase = .finish → x.finishDone = false)

/-- The loss of node n does not concern the entry: its origin is another, and nothing of it is aimed at n (R38,
R143). -/
def Entry.unconcerned (x : Entry) (n : NodeId) : Prop :=
  x.inUse = true → x.isFrom n = false ∧ (x.probe n).unanswered = false ∧ (x.probe n).straggling = false
    ∧ x.awaited ≠ some n

/-- y is x, but for one ALERT that may have joined its outbound queue (R157). -/
def sameButAlert (x y : Node) : Prop := y = x ∨ ∃ classes, y = { x with outQ := x.outQ ++ [.alert classes] }

/-- The record a lost node has in the walker afterwards: its DEPART record in LOSS mode, or a fresh LOSS record (R147,
R148). -/
def Walker.afterLoss (x : Walker) (n : NodeId) : WalkRec :=
  match x.record n with
  | some r => { r with mode := .loss }
  | none => { mode := .loss, remaining := 16384, recalls := 0, leaveTag := 0, joining := x.walks }

/-- The state as node n becomes y, whose link is DOWN: an ALERT outstanding to n is outstanding no more, any other stands,
and the condition of R157 is tested (R135, R159). -/
def State.afterDown (s : State) (n : NodeId) (y : Node) : State :=
  { s with nodes := tset s.nodes n y, alert := if s.alert = AlertState.sent n then .idle else s.alert }.alertTest

/-- t is s after the loss of node n for cause c, as far as the Node Link Controllers, the Admission Unit, the Error and
Alert Unit, the walker, the directory, the pool and the registers go (R135, R142, R159). The condition for an ALERT is
tested as the link goes DOWN and again at the NODE-LOST event after it (log 14). What happens to the Line Transaction
Table and to pool operations is left open. -/
def LostIn (s t : State) (n : NodeId) (c : LossCause) : Prop :=
  t.node n = { s.node n with
    link := .down, membership := .lost, agreed := none, requestQ := [], returnQ := [], outQ := [], frames := []
    reqCredits := 0, retCredits := 0, relinkTimer := none, training := .idle, damagedCount := 0, patience := 0
    urgent := false, orderSlot := none }
  ∧ (∀ m, m ≠ n → sameButAlert (s.node m) (t.node m))
  ∧ (let seen := (s.afterDown n (t.node n)).raise .nodeLost { node := some n, detail := some (.cause c) }
     t.alert = seen.alert ∧ t.nodes = seen.nodes)
  ∧ t.errors = tset s.errors 8 ((s.cls 8).capture { node := some n, detail := some (.cause c) })
  ∧ t.walker.record n = some (s.walker.afterLoss n)
  ∧ (∀ m, m ≠ n → t.walker.record m = s.walker.record m)
  ∧ t.walker.pointer = s.walker.pointer ∧ t.walker.stall = s.walker.stall
  ∧ { t with nodes := s.nodes, entries := s.entries, poolQueue := s.poolQueue, issueWait := s.issueWait
             walker := s.walker, errors := s.errors, alert := s.alert } = s

/-- Nothing stored in the set differs from what was last written, and every record is as R2's law has it. -/
def DirSet.sound (x : DirSet) : Prop :=
  ∀ w, (tget x.ways w).damage = .intact ∧ ∀ r, (tget x.ways w).written = some r → r.wellFormed = true

/-- Way w of the set is the unpinned HIT for a tag, with the record r (R4). -/
def DirSet.hitAt (x : DirSet) (w : WayNo) (r : Record) : Prop :=
  (tget x.ways w).written = some r ∧ (tget x.ways w).quarantined = false ∧ (tget x.ways w).pin = .none
    ∧ ∀ v, v ≠ w → (tget x.ways v).quarantined = true ∨ ∀ q, (tget x.ways v).written = some q → q.tag ≠ r.tag

/-- Way w of the set is the HIT for a tag, with the record r, and the walker has it pinned (R4, R24). -/
def DirSet.walkerHit (x : DirSet) (w : WayNo) (r : Record) : Prop :=
  (tget x.ways w).written = some r ∧ (tget x.ways w).quarantined = false ∧ (tget x.ways w).pin = .walker
    ∧ ∀ v, v ≠ w → (tget x.ways v).quarantined = true ∨ ∀ q, (tget x.ways v).written = some q → q.tag ≠ r.tag

/-- Way w of the set is pinned and cannot be read; every other way is as it was last written, and none of them gives a HIT
for a tag (R4, R8). -/
def DirSet.unreadableAt (x : DirSet) (w : WayNo) (t : DirTag) : Prop :=
  (tget x.ways w).quarantined = false ∧ (tget x.ways w).pin ≠ .none ∧ (tget x.ways w).damage = .twoBits
    ∧ ∀ v, v ≠ w → (tget x.ways v).damage = .intact ∧ (∀ r, (tget x.ways v).written = some r → r.wellFormed = true)
      ∧ ((tget x.ways v).quarantined = true ∨ ∀ q, (tget x.ways v).written = some q → q.tag ≠ t)

/-- No way of the set gives a HIT for a tag (R4). -/
def DirSet.misses (x : DirSet) (t : DirTag) : Prop :=
  ∀ v, (tget x.ways v).quarantined = true ∨ ∀ q, (tget x.ways v).written = some q → q.tag ≠ t

/-- Way w is the least recent of the ways of the set that are as p has it (R15, R82, R83). -/
def DirSet.first (x : DirSet) (p : Way → Prop) (w : WayNo) : Prop :=
  p (tget x.ways w) ∧ ∃ before after, x.order = before ++ w :: after ∧ ∀ v ∈ before, ¬p (tget x.ways v)

/-- The way is VACANT, unpinned and unmarked: a seeker may take it (R82). -/
def Way.free (x : Way) : Prop := x.quarantined = false ∧ x.pin = .none ∧ x.written = none

/-- The way is valid, unpinned and unmarked: a recall may be made on it (R83). -/
def Way.recallable (x : Way) : Prop := x.quarantined = false ∧ x.pin = .none ∧ x.written ≠ none

/-- The arbiter chooses the request b of node n, decode passes it, and entry e is the one it takes; no entry is active
on the line l, nobody stands in the way-wait list as e, and no recall runs for e. -/
def State.admits (s : State) (n : NodeId) (tag : Tag) (b : ReqBody) (l : LineAddr) (e : EntryId) : Prop :=
  s.choice = some (.request n ⟨tag, b⟩) ∧ s.decodeRefusal n b = none ∧ s.freeEntry = some e ∧ s.activeOn l = none
  ∧ (∀ m ∈ s.wayWait, m.entry ≠ e) ∧ ∀ f, (s.entry f).phase ≠ .free → (s.entry f).kind = .recall →
    (s.entry f).beneficiary ≠ some e

/-- The coherent requests of a line: the command that admits each, the request, and the kind of its work (R39). -/
def coherentRequests (l : LineAddr) : List (Instr × ReqBody × WorkKind) :=
  [(.fetchS [], .fetchS l, .fetchS), (.fetchH [], .fetchH l, .fetchH), (.upgrade [], .upgrade l, .upgrade),
    (.flush [], .flush l, .flush)]

/-- An entry's record of a request of node n for a line, before its work begins (R21). -/
def Entry.asked (kind : WorkKind) (n : NodeId) (tag : Tag) (l : LineAddr) : Entry :=
  { Entry.free with kind := kind, admitted := kind, origin := some ⟨n, tag⟩, line := l }

/-- Every node of a set may be probed: it is MEMBER or LEAVING, and its link is not DOWN (R40). -/
def State.reaches (s : State) (t : NodeSet) : Prop :=
  ∀ m, NodeSet.has t m = true → (s.node m).joined = true ∧ (s.node m).link ≠ .down

/-- Entry e holds x with a probe of one kind to each node of a set, and each of them has it in its outbound queue
(R29, R40). -/
def State.probing (s : State) (e : EntryId) (x : Entry) (k : ProbeKind) (t : NodeSet) : State :=
  { s with
    nodes := Vector.ofFn (fun m => if NodeSet.has t m then
      { s.node m with outQ := (s.node m).outQ ++ [.probe k e x.line] } else s.node m)
    entries := tset s.entries e { x with probes := Vector.ofFn (fun m => if NodeSet.has t m then
      { kind := some k, status := .queuedOut, sends := 1, answers := 0, timer := .stopped, waitEnded := false }
      else x.probe m) } }

/-- Nobody waits for way w of set k to be unpinned: no member of the way-wait list is of that set, and the walker does
not stand still for the way (R13). -/
def State.quiet (s : State) (k : SetIdx) (w : WayNo) : Prop :=
  (∀ m ∈ s.wayWait, s.setOf m.entry ≠ k) ∧ s.walker.stall ≠ .way w

/-- t is s after the completion of entry e, which wrote the record r into way w of set k: the way is unpinned and the
most recent of its set, the two counts follow, the entry is FREE, and nothing else changes (R13, R14, R18, R26). -/
def CompletedIn (s t : State) (e : EntryId) (k : SetIdx) (w : WayNo) (r : Option Record) : Prop :=
  t.entries = tset s.entries e Entry.free
  ∧ t.way k w = { written := r, damage := .intact, pin := .none, quarantined := false }
  ∧ (t.dirSet k).order = recent (s.dirSet k).order w
  ∧ (∀ v, v ≠ w → t.way k v = s.way k v) ∧ (∀ j, j ≠ k → t.dirSet j = s.dirSet j)
  ∧ t.dir.validCount = s.dir.validCount + r.isSome.toNat - (s.way k w).counted.toNat
  ∧ t.dir.quarCount = s.dir.quarCount - (s.way k w).quarantined.toNat ∧ t.dir.seed = s.dir.seed
  ∧ { t with entries := s.entries, dir := s.dir } = s

/-- t is s after the walker finished the set it was in: the pointer has advanced and the position is 0; a joining record
has joined, every other has one set less; and a record with no sets and no recalls left is removed, a DEPART record with
the DONE to its LEAVE, the leave mark set, in its node's outbound queue, a LOSS record with its node ABSENT (R141, R147,
R152). -/
def FinishedSet (s t : State) : Prop :=
  t.walker.pointer = s.walker.pointer + 1 ∧ t.walker.position = 0 ∧ t.walker.stall = s.walker.stall
  ∧ (∀ n, s.walker.record n = none → t.walker.record n = none ∧ t.node n = s.node n)
  ∧ (∀ n r, s.walker.record n = some r →
      (r.joining = true → r.remaining ≠ 0 →
        t.walker.record n = some { r with joining := false } ∧ t.node n = s.node n)
      ∧ (r.joining = false → 1 < r.remaining ∨ r.recalls ≠ 0 →
        t.walker.record n = some { r with remaining := r.remaining - 1 } ∧ t.node n = s.node n)
      ∧ (r.joining = false → r.remaining = 1 → r.recalls = 0 → t.walker.record n = none
        ∧ (r.mode = .depart → (s.node n).link ≠ .down → t.node n = { s.node n with
            outQ := (s.node n).outQ ++ [.done r.leaveTag .request false true] })
        ∧ (r.mode = .loss → t.node n = { s.node n with membership := .absent })))
  ∧ { t with nodes := s.nodes, walker := s.walker } = s

/-- An operation that is issued now is accepted at once (R104). -/
def State.portFree (s : State) : Prop := s.poolQueue.length < 32 ∧ s.issueWait = []

/-- The state of a link as it enters RETRAINING from ACTIVE, with its LINK event (R37, R131, R132). -/
def enteredRetraining (s : State) (n : NodeId) (d : LinkDetail) : State :=
  { s with
    nodes := tset s.nodes n { s.node n with
      link := .retraining, relinkTimer := some (s.relinkTimeout.toNat * 100), training := .base 10000
      frames := (s.node n).frames.map (fun f : Frame => { f with ackTimer := none }) }
    entries := s.entries.map (fun x : Entry => { x with
      probes := tset x.probes n { x.probe n with timer := (x.probe n).timer.freeze }
      confirmTimer := if x.confirm = Confirm.awaited n then x.confirmTimer.freeze else x.confirmTimer
      returnTimer := if x.awaited = some n then x.returnTimer.freeze else x.returnTimer }) }.raise .link
    { node := some n, detail := some (.link d) }

/-- An entry of node N that gathers over a line HELD by M, and whose PROBE-YIELD to M is SENT once and all it waits
for. -/
def WaitsForHolder (x : Entry) (N M : NodeId) : Prop :=
  x.phase = .gather ∧ x.kind = .fetchS ∧ x.origin.map Origin.node = some N ∧ x.orphaned = false ∧ N ≠ M
  ∧ x.snapshot = some (.hit .held (NodeSet.single M)) ∧ (x.probe M).kind = some .yield ∧ (x.probe M).status = .sent
  ∧ (x.probe M).sends = 1 ∧ (x.probe M).answers = 0 ∧ x.mark M = .none ∧ x.awaited = none ∧ x.poolOp = .none
  ∧ x.confirm = .notNeeded ∧ ∀ k, k ≠ M → (x.probe k).unanswered = false

/-- The offset of a register (R164). -/
def Reg.offset : Reg → Offset
  | .id => 0x000
  | .hubStatus => 0x004
  | .hubControl => 0x008
  | .poolSize => 0x00C
  | .probeTiming => 0x010
  | .relinkTimeout => 0x014
  | .validCount => 0x018
  | .quarCount => 0x01C
  | .nodeControl n => BitVec.ofNat 12 (0x020 + 4 * n.val)
  | .nodeStatus n => BitVec.ofNat 12 (0x030 + 4 * n.val)
  | .nodeCommand n => BitVec.ofNat 12 (0x040 + 4 * n.val)
  | .base r => BitVec.ofNat 12 (0x100 + 16 * r.val)
  | .limit r => BitVec.ofNat 12 (0x104 + 16 * r.val)
  | .attr r => BitVec.ofNat 12 (0x108 + 16 * r.val)
  | .enable r => BitVec.ofNat 12 (0x10C + 16 * r.val)
  | .errorPending => 0x200
  | .errorAck => 0x204
  | .alertMask => 0x208
  | .alertControl => 0x20C
  | .alertClear => 0x210
  | .alertStatus => 0x214
  | .errorCount c => BitVec.ofNat 12 (0x240 + 4 * c.val)
  | .errorRecord c word => BitVec.ofNat 12 (0x300 + 16 * c.val + 4 * word.val)
  | .walkStatus => 0x400
  | .walkRecord n => BitVec.ofNat 12 (0x404 + 4 * n.val)

/-- The row of the table that a CONFIG-WRITE of value v to register g is, but for NODE-COMMAND writes that command
something (log 10). -/
def rowOfWrite (g : Reg) (v : RegValue) : Option Instr :=
  match g with
  | .nodeCommand _ => if v.getLsbD 0 || v.getLsbD 1 then none else some .configWrite
  | .errorAck => some .errorAck
  | .alertClear => some .alertClear
  | .errorCount _ => some .errorCount
  | .poolSize => some .poolSize
  | .enable _ => some .enable
  | .base _ => some .base
  | .limit _ => some .limit
  | .attr _ => some .attr
  | _ => some .configWrite

end Sys2Proof.Machine
end

