-- ==== Sys2Proof/Certificates/Slice0/Obligations.lean ====
section
/-! DEFINITION. The statements to be proved. -/

open Sys2Proof Sys2Proof.Machine

/-! ## Steps -/

/-- A step takes the command at the front of the queue and executes it on the state with the queue's rest. -/
def Obligations.StepRunsTheFrontCommand : Prop :=
  ∀ (s : State) (c : Instr) (rest : List Instr), s.pending = c :: rest → step s = exec c { s with pending := rest }

/-- On an empty queue one microsecond passes, which is the model's choice (log 3): every running timer of the table, of
a training phase, of a relink timer and of a frame loses one and stops at 0, frozen and stopped ones stay, and nothing
else changes. -/
def Obligations.EmptyQueuePassesOneMicrosecond : Prop :=
  ∀ s : State, s.pending = [] → ∃ t, step s = .next t
    ∧ { t with nodes := s.nodes, entries := s.entries } = s
    ∧ (∀ n, t.node n = { s.node n with
        relinkTimer := (s.node n).relinkTimer.map (· - 1)
        training := match (s.node n).training with
          | .idle => .idle
          | .base r => .base (r - 1)
          | .stepUp a r => .stepUp a (r - 1)
        frames := (s.node n).frames.map (fun f : Frame => { f with ackTimer := f.ackTimer.map (· - 1) }) })
    ∧ (∀ e, { t.entry e with
        probes := (s.entry e).probes, confirmTimer := (s.entry e).confirmTimer
        returnTimer := (s.entry e).returnTimer } = s.entry e)
    ∧ (∀ e n, { (t.entry e).probe n with timer := ((s.entry e).probe n).timer } = (s.entry e).probe n)
    ∧ ∀ (old new : Timer), (∃ e, (old = (s.entry e).confirmTimer ∧ new = (t.entry e).confirmTimer)
          ∨ (old = (s.entry e).returnTimer ∧ new = (t.entry e).returnTimer)
          ∨ ∃ n, old = ((s.entry e).probe n).timer ∧ new = ((t.entry e).probe n).timer) →
        (∀ r, old = .running r → new = .running (r - 1)) ∧ (∀ r, old = .frozen r → new = .frozen r)
          ∧ (old = .stopped → new = .stopped)

/-! ## Reset -/

/-- The hub right after reset: INIT with the sweep at set 0, links DOWN, nodes ABSENT, queues empty, no entry in use,
no region enabled, the registers at their reset values, no event pending, alerts IDLE, no pool operation. Kind, line,
mask and write data of a FREE entry, which stand in Entry.free, and the queue of waiting commands, empty, are the
model's (logs 24 and 35). -/
def Obligations.ResetStateIsAsStated : Prop :=
  State.reset.status = .init ∧ State.reset.walker.pointer = 0 ∧ (∀ n, State.reset.walker.record n = none)
  ∧ (∀ n, (State.reset.node n).link = .down ∧ (State.reset.node n).membership = .absent
      ∧ (State.reset.node n).agreed = none ∧ (State.reset.node n).mismatch = false
      ∧ (State.reset.node n).requestQ = [] ∧ (State.reset.node n).returnQ = [] ∧ (State.reset.node n).outQ = []
      ∧ (State.reset.node n).frames = [] ∧ (State.reset.node n).reqCredits = 0 ∧ (State.reset.node n).retCredits = 0
      ∧ (State.reset.node n).relinkTimer = none ∧ (State.reset.node n).damagedCount = 0
      ∧ (State.reset.node n).enable = true ∧ (State.reset.node n).target = ⟨.x16, .g2⟩
      ∧ (State.reset.node n).priority = 0 ∧ (State.reset.node n).patienceLimit = 32
      ∧ (State.reset.node n).patience = 0 ∧ (State.reset.node n).urgent = false
      ∧ (State.reset.node n).orderSlot = none ∧ (State.reset.node n).posted = 0)
  ∧ (∀ e, State.reset.entry e = Entry.free) ∧ State.reset.wayWait = []
  ∧ (∀ r, (tget State.reset.regions r).enabled = false ∧ (tget State.reset.regions r).base = 0
      ∧ (tget State.reset.regions r).limit = 0 ∧ (tget State.reset.regions r).kind = .coherent
      ∧ (tget State.reset.regions r).readSet = 0 ∧ (tget State.reset.regions r).writeSet = 0)
  ∧ State.reset.returnPtr = 0 ∧ State.reset.requestPtr = 0
  ∧ State.reset.promote = false ∧ State.reset.correctWb = true ∧ State.reset.poolSize = 0
  ∧ State.reset.probeTimeout = 500 ∧ State.reset.retries = 2 ∧ State.reset.relinkTimeout = 200
  ∧ State.reset.dir.validCount = 0 ∧ State.reset.dir.quarCount = 0
  ∧ (∀ k w, (State.reset.way k w).pin = .none ∧ (State.reset.way k w).quarantined = false)
  ∧ (∀ k, (State.reset.dirSet k).order = [0, 1, 2, 3, 4, 5, 6, 7])
  ∧ State.reset.poolQueue = [] ∧ State.reset.issueWait = []
  ∧ (∀ c, (State.reset.cls c).pending = false ∧ (State.reset.cls c).further = false ∧ (State.reset.cls c).count = 0
      ∧ (State.reset.cls c).first = none)
  ∧ State.reset.alertMask = 0 ∧ State.reset.alertTarget = 0 ∧ State.reset.pinEnable = false
  ∧ State.reset.alert = .idle ∧ State.reset.recallMark = .walker ∧ State.reset.pending = []

/-- The laws that every step keeps hold right after reset, the law of the way-wait list among them. -/
def Obligations.ResetStateMeetsTheLaws : Prop :=
  State.reset.canonical ∧ State.reset.downLaw ∧ State.reset.rangeLaw ∧ State.reset.errorLaw ∧ State.reset.orderLaw
  ∧ State.reset.waitLaw

/-- COLD_RESET: everything takes its reset value but the presence signals and the waiting commands (log 28); the
directory's records are undefined afresh (log 4); the pool keeps its lines where the supplies stayed up, but for the
lines whose accepted WRITE was abandoned, and is unknown throughout after power-on (log 5). -/
def Obligations.ColdResetTakesEverythingToReset : Prop :=
  ∀ (s : State) (powerOn : Bool), ∃ t, exec (.coldReset powerOn) s = .next t
    ∧ { t with nodes := State.reset.nodes, pool := State.reset.pool, dir := State.reset.dir
               freeSeed := State.reset.freeSeed, pending := [] } = State.reset
    ∧ t.pending = s.pending
    ∧ (∀ n, t.node n = { Node.reset with presence := (s.node n).presence })
    ∧ t.dir.validCount = 0 ∧ t.dir.quarCount = 0
    ∧ (∀ k w, t.way k w = { written := Config.undefinedRecord s.freeSeed k w
                            damage := Config.undefinedDamage s.freeSeed k w, pin := .none, quarantined := false })
    ∧ (∀ k, (t.dirSet k).order = [0, 1, 2, 3, 4, 5, 6, 7])
    ∧ (powerOn = true → ∀ l, t.pool.line l = PoolLine.unknown s.freeSeed)
    ∧ (powerOn = false → Memory.wf s.pool → ∀ l, t.pool.line l =
        if ∃ op ∈ s.poolQueue, op.line = l ∧ op.write.isSome = true ∧ s.beyondSize l = false
        then PoolLine.unknown s.freeSeed else s.pool.line l)

/-- INIT_SWEEP, while the hub is INIT: the set at the pointer gets eight VACANT ways with good check bits, unpinned and
unmarked, in the order 0 to 7, and every other set stays; the pointer moves on; after set 16 383 it is 0 and the hub
READY; nothing else changes. -/
def Obligations.SweepWritesOneSet : Prop :=
  ∀ s : State, s.status = .init → Directory.wf s.dir → ∃ t, exec .initSweep s = .next t
    ∧ (∀ w, t.way s.walker.pointer w = { written := none, damage := .intact, pin := .none, quarantined := false })
    ∧ (t.dirSet s.walker.pointer).order = [0, 1, 2, 3, 4, 5, 6, 7]
    ∧ (∀ k, k ≠ s.walker.pointer → t.dirSet k = s.dirSet k)
    ∧ (s.walker.pointer.toNat < 16383 → t.status = .init ∧ t.walker.pointer.toNat = s.walker.pointer.toNat + 1)
    ∧ (s.walker.pointer.toNat = 16383 → t.status = .ready ∧ t.walker.pointer = 0)
    ∧ { t with dir := { t.dir with sets := s.dir.sets }, status := s.status
               walker := { t.walker with pointer := s.walker.pointer } } = s

/-! ## Links -/

/-- TRAINING_START: a link enters TRAINING where it is DOWN and offers training, which takes the hub READY, the node
enabled, present and ABSENT, and no RETURN entry of the node in the table (R129, R130); the base phase then has
10 000 µs (R131). That the command changes nothing elsewhere is the model's choice (log 2). -/
def Obligations.TrainingStartsWhereOffered : Prop :=
  ∀ (s : State) (n : NodeId),
    let offered := s.status = .ready ∧ (s.node n).enable = true ∧ (s.node n).presence = true
      ∧ (s.node n).membership = .absent
      ∧ ∀ e, (s.entry e).phase ≠ .free → (s.entry e).kind = .returnD ∨ (s.entry e).kind = .returnC →
          (s.entry e).origin.map Origin.node ≠ some n
    ((s.node n).link = .down ∧ offered → exec (.trainingStart n) s = .next { s with
      nodes := tset s.nodes n { s.node n with link := .training, training := .base 10000 } })
    ∧ (¬((s.node n).link = .down ∧ offered) → exec (.trainingStart n) s = .next s)

/-- BASE_PHASE_COMPLETE in TRAINING, by the three rows of R131: equal targets at base and different targets bring the
link up at base with the node a MEMBER of 16 request and 8 return credits, different ones with mismatch set and a LINK
event first; equal targets other than base begin the step-up. STEP_UP_COMPLETE in TRAINING: the link is ACTIVE at the
pair agreed on, and the node a MEMBER with 16 request and 8 return credits. -/
def Obligations.TrainingSucceedsByPhase : Prop :=
  (∀ (s : State) (n : NodeId) (partner : Targets) (r : Nat),
    (s.node n).link = .training → (s.node n).training = .base r →
    let up (x : Node) : Node := { x with
      link := .active, agreed := some ⟨.x8, .g1⟩, training := .idle, membership := .member, reqCredits := 16
      retCredits := 8 }
    ((s.node n).target = partner → partner = ⟨.x8, .g1⟩ → exec (.basePhaseComplete n partner) s = .next
        { s with nodes := tset s.nodes n (up { s.node n with mismatch := false }) }.alertTest)
    ∧ ((s.node n).target = partner → partner ≠ ⟨.x8, .g1⟩ → exec (.basePhaseComplete n partner) s = .next
        { s with nodes := tset s.nodes n { s.node n with mismatch := false, training := .stepUp partner 10000 } })
    ∧ ((s.node n).target ≠ partner →
        let u := { s with nodes := tset s.nodes n { s.node n with mismatch := true } }.raise .link
          { node := some n, detail := some (.link .mismatch) }
        exec (.basePhaseComplete n partner) s = .next { u with nodes := tset u.nodes n (up (u.node n)) }.alertTest))
  ∧ (∀ (s : State) (n : NodeId) (pair : Targets) (r : Nat),
    (s.node n).link = .training → (s.node n).training = .stepUp pair r →
    exec (.stepUpComplete n) s = .next { s with nodes := tset s.nodes n { s.node n with
      link := .active, agreed := some pair, training := .idle, membership := .member, reqCredits := 16
      retCredits := 8 } }.alertTest)

/-- A training that fails, by TRAINING_FAILED with a phase's time used up or by PARTNER_GONE: the link returns to DOWN
with its LINK event and no agreed values, and the membership stays. The presence signal: PRESENCE_ASSERTED sets it and
changes nothing else; PARTNER_GONE on a link that is DOWN clears it and changes nothing else. -/
def Obligations.PartnerGoneBeforeActive : Prop :=
  (∀ (s : State) (n : NodeId), (s.node n).link = .training →
    let fallen (x : Node) : Node := { x with
      link := .down, agreed := none, requestQ := [], returnQ := [], outQ := [], frames := [], reqCredits := 0
      retCredits := 0, relinkTimer := none, training := .idle, damagedCount := 0 }
    (((s.node n).training = .base 0 ∨ ∃ pair, (s.node n).training = .stepUp pair 0) →
      exec (.trainingFailed n) s = .next ({ s with nodes := tset s.nodes n (fallen (s.node n)) }.raise .link
        { node := some n, detail := some (.link .trainingFailed) }))
    ∧ ∀ us, exec (.partnerGone n us) s = .next
        ({ s.damaged us with nodes := tset s.nodes n (fallen { s.node n with presence := false }) }.raise .link
          { node := some n, detail := some (.link .partnerGone) }))
  ∧ (∀ (s : State) (n : NodeId),
    exec (.presenceAsserted n) s = .next { s with nodes := tset s.nodes n { s.node n with presence := true } }
    ∧ ((s.node n).link = .down → ∀ us, exec (.partnerGone n us) s = .next
        { s.damaged us with nodes := tset s.nodes n { s.node n with presence := false } }))

/-- PARTNER_GONE in ACTIVE or RETRAINING, and RELINK_EXPIRED: a LINK event is raised, and a MEMBER or LEAVING node is
LOST with its cause. Where the loss concerns no entry, the table and the pool's operations stay as they are. That the
LINK event is raised and tested for an ALERT before the loss and its NODE-LOST event, so that an ALERT it causes does
not carry NODE-LOST, and that the condition is tested again as the link goes DOWN, is the model's choice (log 14). Where it concerns a REQUEST entry of the node alone: a QUEUED one
is unlinked, its predecessor taking its successor, and FREE, a posted one off the posted count; a WAYWAIT one leaves
the way-wait list and is FREE, a recall running for it loses its beneficiary, and its successor, if any, activates:
shown for a FETCH or UPGRADE that misses and finds nothing to take or recall, which joins the list as BLOCKED. -/
def Obligations.LinkLossLosesTheNode : Prop :=
  (∀ (s : State) (n : NodeId) (us : List DirUpset),
    (s.node n).membership = .member ∨ (s.node n).membership = .leaving →
    (∀ e, (s.entry e).unconcerned n ∧ (s.entry e).standing) →
    ((s.node n).link = .active ∨ (s.node n).link = .retraining → ∃ t, exec (.partnerGone n us) s = .next t
        ∧ LostIn ({ s.damaged us with nodes := tset s.nodes n { s.node n with presence := false } }.raise .link
            { node := some n, detail := some (.link .partnerGone) }) t n .partnerGone
        ∧ t.entries = s.entries ∧ t.poolQueue = s.poolQueue ∧ t.issueWait = s.issueWait)
    ∧ ((s.node n).link = .retraining → (s.node n).relinkTimer = some 0 → ∃ t, exec (.relinkExpired n us) s = .next t
        ∧ LostIn ((s.damaged us).raise .link { node := some n, detail := some (.link .relinkExpired) }) t n
            .relinkExpired
        ∧ t.entries = s.entries ∧ t.poolQueue = s.poolQueue ∧ t.issueWait = s.issueWait))
  ∧ (∀ (s : State) (n : NodeId) (us : List DirUpset) (e : EntryId) (r : Entry),
    (s.node n).membership = .member ∨ (s.node n).membership = .leaving →
    (s.node n).link = .active ∨ (s.node n).link = .retraining →
    (∀ f, f ≠ e → (s.entry f).unconcerned n ∧ (s.entry f).standing) → s.entry e = r → r.kind.cls = .request →
    r.origin.map Origin.node = some n →
    let told : State := { s.damaged us with nodes := tset s.nodes n { s.node n with presence := false } }.raise .link
      { node := some n, detail := some (.link .partnerGone) }
    let lost (base : State) (E : Vector Entry 48) : Prop := ∃ t, exec (.partnerGone n us) s = .next t
      ∧ LostIn base t n .partnerGone ∧ t.entries = E ∧ t.poolQueue = s.poolQueue ∧ t.issueWait = s.issueWait
    (∀ p, r.phase = .queued → p ≠ e → (∀ g, (s.entry g).successor = some e ∧ (s.entry g).phase ≠ .free ↔ g = p) →
      lost (if r.posted then { told with nodes := tset told.nodes n { told.node n with
          posted := (told.node n).posted - 1 } } else told)
        (tset (tset s.entries p { s.entry p with successor := r.successor }) e Entry.free))
    ∧ (r.phase = .wayWait →
      let served (g : EntryId) : Bool := decide ((s.entry g).phase ≠ .free ∧ (s.entry g).kind = .recall
        ∧ (s.entry g).beneficiary = some e)
      let others := s.wayWait.filter (fun m => decide (m.entry ≠ e))
      let bare : Vector Entry 48 := Vector.ofFn (fun g => if g = e then Entry.free
        else if served g then { s.entry g with beneficiary := none } else s.entry g)
      (∀ g h, served g = true → served h = true → g = h) →
      (r.successor = none → (∀ m ∈ others, s.setOf m.entry = LineAddr.set r.line → m.cond ≠ .behind) →
        lost { told with wayWait := others } bare)
      ∧ ∀ f y k, r.successor = some f → f ≠ e → s.entry f = y → y.phase = .queued → y.line = r.line →
        (y.kind = .fetchS ∧ k = .fetchS) ∨ ((y.kind = .fetchH ∨ y.kind = .upgrade) ∧ k = .fetchH) →
        s.status = .ready →
        let set := LineAddr.set r.line
        let u := s.damaged us
        (∀ m ∈ others, m.entry ≠ f ∧ (m.cond.seeks = true → s.setOf m.entry ≠ set)) →
        (∀ g, (s.entry g).phase ≠ .free → (s.entry g).kind = .recall → (s.entry g).beneficiary ≠ some f) →
        (u.dirSet set).sound → (u.dirSet set).misses (LineAddr.tag r.line) → (∃ v, (u.way set v).quarantined = false) →
        (∀ v, ¬(u.way set v).free ∧ ¬(u.way set v).recallable) →
        lost { told with wayWait := others ++ [⟨f, .blocked⟩] }
          (tset bare f { y with phase := .wayWait, kind := k, snapshot := some .miss })))

/-- RETRAIN_PARTNER on an ACTIVE link: it enters RETRAINING; its relink timer starts at RELINK-TIMEOUT times 100 µs, the
timers aimed at the node freeze with what they have left, and a LINK event is raised. That the link has left ACTIVE
when the event's alert test is made is the model's choice (log 14). That the command changes nothing in any other link
state is the model's choice (log 2). -/
def Obligations.PartnerStartsRetraining : Prop :=
  ∀ (s : State) (n : NodeId),
    ((s.node n).link = .active →
      exec (.retrainPartner n) s = .next (enteredRetraining s n .retrainPartner))
    ∧ ((s.node n).link ≠ .active → exec (.retrainPartner n) s = .next s)
    ∧ ∀ r, Timer.freeze (.running r) = .frozen r ∧ Timer.freeze (.frozen r) = .frozen r
        ∧ Timer.freeze .stopped = .stopped

/-- RETRAINING_SUCCESS, a whole attempt that succeeds (log 13): targets are exchanged as in training where the base
phase ran; the relink timer stops, the link is ACTIVE at the values reached with its queues and credits as they were,
resend counts and damaged count are 0, every unacknowledged frame has 2 µs from here (log 30), and the timers aimed at
the node run on from what they had left. RETRAIN_ATTEMPT_FAILED: an attempt that has used its time starts another at
once, and nothing else changes: no event, and the relink timer runs on. -/
def Obligations.RetrainingEndsOrTriesAgain : Prop :=
  (∀ (s : State) (n : NodeId) (partner : Targets), (s.node n).link = .retraining →
    let up (u : State) (pair : Targets) : State := { u with
      nodes := tset u.nodes n { u.node n with
        link := .active, agreed := some pair, training := .idle, relinkTimer := none, damagedCount := 0
        frames := (u.node n).frames.map (fun f : Frame => { f with resends := 0, ackTimer := some 2 }) }
      entries := u.entries.map (fun x : Entry => { x with
        probes := tset x.probes n { x.probe n with timer := (x.probe n).timer.resume }
        confirmTimer := if x.confirm = Confirm.awaited n then x.confirmTimer.resume else x.confirmTimer
        returnTimer := if x.awaited = some n then x.returnTimer.resume else x.returnTimer }) }.alertTest
    (∀ r, (s.node n).training = .base r → (s.node n).target = partner →
      exec (.retrainingSuccess n partner) s = .next
        (up { s with nodes := tset s.nodes n { s.node n with mismatch := false } } partner))
    ∧ (∀ r, (s.node n).training = .base r → (s.node n).target ≠ partner →
      exec (.retrainingSuccess n partner) s = .next
        (up ({ s with nodes := tset s.nodes n { s.node n with mismatch := true } }.raise .link
          { node := some n, detail := some (.link .mismatch) }) ⟨.x8, .g1⟩))
    ∧ (∀ pair r, (s.node n).training = .stepUp pair r → exec (.retrainingSuccess n partner) s = .next (up s pair))
    ∧ ∀ r, Timer.resume (.frozen r) = .running r ∧ Timer.resume (.running r) = .running r
        ∧ Timer.resume .stopped = .stopped)
  ∧ (∀ (s : State) (n : NodeId), (s.node n).link = .retraining →
    ((s.node n).training = .base 0 ∨ ∃ pair, (s.node n).training = .stepUp pair 0) →
    exec (.retrainAttemptFailed n) s = .next { s with
      nodes := tset s.nodes n { s.node n with training := .base 10000 } })

/-! ## Frames -/

/-- FRAME_SEND on an ACTIVE link with that many messages not yet sent: a frame is added to those unacknowledged, and
the outbound queue and all else stay. In another link state nothing is sent. FRAME_ACKNOWLEDGED: while the link is
ACTIVE the frames acknowledged are taken one by one, each frame's messages in queue order; while it is not, nothing
leaves. -/
def Obligations.FramesAreSentAndAcknowledged : Prop :=
  (∀ (s : State) (n : NodeId) (k : Nat),
    ((s.node n).link = .active → 1 ≤ k → ((s.node n).frames.map Frame.messages).sum + k ≤ (s.node n).outQ.length →
      exec (.frameSend n k) s = .next { s with nodes := tset s.nodes n { s.node n with
        frames := (s.node n).frames ++ [{ messages := k, resends := 0, ackTimer := some 2 }] } })
    ∧ ((s.node n).link ≠ .active → exec (.frameSend n k) s = .next s))
  ∧ (∀ (s : State) (n : NodeId) (k : Nat),
    ((s.node n).link ≠ .active → exec (.frameAcknowledged n k) s = .next s)
    ∧ ((s.node n).link = .active → ∀ f rest, (s.node n).frames = f :: rest → k ≤ rest.length →
        exec (.frameAcknowledged n (k + 1)) s = .next (State.framesAcked n k (State.headsLeave n f.messages
          { s with nodes := tset s.nodes n { s.node n with frames := rest } })))
    ∧ (∀ m queue, (s.node n).outQ = m :: queue → State.headsLeave n (k + 1) s = State.headsLeave n k
        (State.left { s with nodes := tset s.nodes n { s.node n with outQ := queue } } n m)))

/-- What the leaving of each message does, shown for FRAME_ACKNOWLEDGED of a frame of one message: a reply gives back
its credit; a grant starts the confirm timer of the entry that awaits its CONFIRM; a copy of the entry's probe that is
QUEUED-OUT becomes SENT with its timer running, and one that leaves after an answer was accepted leaves the record
ANSWERED and starts its timer while answers are fewer than sends; poisoned grants and DATA raise POISON-SENT; the DONE
answering a LEAVE, which carries a mark in the outbound queue (log 27), makes the node ABSENT and takes its link DOWN,
and an ALERT outstanding to it is outstanding no more and the condition for another is tested. -/
def Obligations.LeavingMessagesAct : Prop :=
  ∀ (s : State) (n : NodeId) (m : OutMsg) (queue : List OutMsg) (f : Frame) (rest : List Frame),
    (s.node n).link = .active → (s.node n).frames = f :: rest → f.messages = 1 → (s.node n).outQ = m :: queue →
    let x : Node := { s.node n with frames := rest, outQ := queue }
    let left (y : Node) : State := { s with nodes := tset s.nodes n y }
    let credited : Node := { x with reqCredits := x.reqCredits + 1 }
    let answer := exec (.frameAcknowledged n 1) s
    (∀ tag poison, m = .done tag .request poison false → answer = .next (left credited))
    ∧ (∀ tag reason, m = .refuse tag reason → answer = .next (left credited))
    ∧ (∀ tag value, m = .configData tag value → answer = .next (left credited))
    ∧ (∀ tag poison mark, m = .done tag .ret poison mark →
        answer = .next (left { x with retCredits := x.retCredits + 1 }))
    ∧ (∀ tag line b, m = .data tag line b → b.poison = false → answer = .next (left credited))
    ∧ (∀ tag line b, m = .data tag line b → b.poison = true → answer = .next ((left credited).raise .poisonSent
        { node := some n, tag := some tag, kind := some .plainRead, place := some (.line line) }))
    ∧ (∀ tag e line b, m = .grantS tag e line b → (s.entry e).confirm = .awaited n → b.poison = false →
        answer = .next { left credited with entries := tset s.entries e { s.entry e with
          confirmTimer := .running (s.probeTimeout.toNat * (s.retries.toNat + 1)) } })
    ∧ (∀ tag e line b, m = .grantS tag e line b → (s.entry e).confirm = .awaited n → b.poison = true →
        answer = .next ({ left credited with entries := tset s.entries e { s.entry e with
          confirmTimer := .running (s.probeTimeout.toNat * (s.retries.toNat + 1)) } }.raise .poisonSent
          { node := some n, tag := some tag, kind := some .grantS, place := some (.line line) }))
    ∧ (∀ tag e line b, m = .grantH tag e line b → (s.entry e).confirm = .awaited n →
        (b = none ∨ ∃ d, b = some ⟨d, false⟩) →
        answer = .next { left credited with entries := tset s.entries e { s.entry e with
          confirmTimer := .running (s.probeTimeout.toNat * (s.retries.toNat + 1)) } })
    ∧ (∀ tag e line d, m = .grantH tag e line (some ⟨d, true⟩) → (s.entry e).confirm = .awaited n →
        answer = .next ({ left credited with entries := tset s.entries e { s.entry e with
          confirmTimer := .running (s.probeTimeout.toNat * (s.retries.toNat + 1)) } }.raise .poisonSent
          { node := some n, tag := some tag, kind := some .grantH, place := some (.line line) }))
    ∧ (∀ k e p, m = .probe k e (s.entry e).line → (s.entry e).probe n = p → p.kind = some k → p.answers < p.sends →
        p.waitEnded = false →
        let marked (st : ProbeStatus) : State := { left x with
          entries := tset s.entries e ((s.entry e).setProbe n
            { p with status := st, timer := .running s.probeTimeout.toNat }) }
        (p.status = .queuedOut → answer = .next (marked .sent))
        ∧ (p.status = .answered → answer = .next (marked .answered)))
    ∧ (∀ classes, m = .alert classes → answer = .next (left x).alertTest)
    ∧ (∀ tag poison, m = .done tag .request poison true →
        let gone : Node := { x with
          membership := .absent, patience := 0, urgent := false, link := .down, agreed := none, requestQ := []
          returnQ := [], outQ := [], frames := [], reqCredits := 0, retCredits := 0, relinkTimer := none
          training := .idle, damagedCount := 0 }
        answer = .next (s.afterDown n gone)
        ∧ (s.afterDown n gone).node n = gone
        ∧ (∀ k, k ≠ n → sameButAlert (s.node k) ((s.afterDown n gone).node k))
        ∧ { s.afterDown n gone with nodes := s.nodes, alert := s.alert } = s)

/-- ACK_TIMEOUT of a frame whose 2 µs are over, and DAMAGE_REPORTED: the frame and every frame after it are sent
again, which counts a resending and starts 2 µs afresh for each of them that has been sent again fewer than 8 times
(for one at 8 the time of its eighth resending runs on: log 11); the timeout of a frame sent again 8 times starts
retraining. That an ACK_TIMEOUT before the 2 µs are over changes nothing is the model's choice (log 2). FRAME_RECEIVED_DAMAGED on an ACTIVE link: the run of damaged receipts of the same frame grows, that of
another frame starts at 1, and the eighth starts retraining; that the run is of one frame, whose number the model
keeps, is the model's choice (log 12). That a link entering RETRAINING has left ACTIVE when the alert test of its
LINK event is made is the model's choice (log 14). -/
def Obligations.LinkRetryResendsAndCounts : Prop :=
  (∀ (s : State) (n : NodeId) (i : Nat) (f : Frame), (s.node n).link = .active → (s.node n).frames[i]? = some f →
    let again : State := { s with nodes := tset s.nodes n { s.node n with
      frames := (s.node n).frames.take i ++ ((s.node n).frames.drop i).map (fun g : Frame =>
        if g.resends < 8 then { g with resends := g.resends + 1, ackTimer := some 2 } else g) } }
    exec (.damageReported n i) s = .next again
    ∧ (f.resends < 8 → f.ackTimer = some 0 → exec (.ackTimeout n i) s = .next again)
    ∧ (8 ≤ f.resends → f.ackTimer = some 0 →
        exec (.ackTimeout n i) s = .next (enteredRetraining s n .retrainRetry))
    ∧ (f.ackTimer ≠ some 0 → exec (.ackTimeout n i) s = .next s))
  ∧ (∀ (s : State) (n : NodeId) (i : Nat), (s.node n).link = .active →
    let counted (k : Nat) : State := { s with nodes := tset s.nodes n { s.node n with
      damagedCount := k, damagedFrame := i } }
    ((s.node n).damagedFrame ≠ i → exec (.frameReceivedDamaged n i) s = .next (counted 1))
    ∧ ((s.node n).damagedFrame = i → (s.node n).damagedCount + 1 < 8 →
        exec (.frameReceivedDamaged n i) s = .next (counted ((s.node n).damagedCount + 1)))
    ∧ ((s.node n).damagedFrame = i → 8 ≤ (s.node n).damagedCount + 1 →
        exec (.frameReceivedDamaged n i) s = .next (enteredRetraining (counted 8) n .retrainRetry)))

/-! ## Arrivals -/

/-- REQUEST_ARRIVAL on an ACTIVE link: with a credit the request joins the tail of the request queue and the credit is
spent; without one, and for a kind the channel does not carry, it is discarded with a PROTOCOL event and the credits
stay. While the link is not ACTIVE nothing arrives. RETURN_ARRIVAL: as for requests, with the return queue and the
return credits. The frame received ends the run of damaged receipts (log 12). -/
def Obligations.MessagesArriveOnCredit : Prop :=
  (∀ (s : State) (n : NodeId) (m : WireMsg),
    let u : State := { s with nodes := tset s.nodes n { s.node n with damagedCount := 0 } }
    ((s.node n).link ≠ .active → exec (.requestArrival n m) s = .next s)
    ∧ ((s.node n).link = .active →
      (∀ r, m.request = some r → 0 < (s.node n).reqCredits → exec (.requestArrival n m) s = .next { s with
        nodes := tset s.nodes n { s.node n with
          damagedCount := 0, reqCredits := (s.node n).reqCredits - 1, requestQ := (s.node n).requestQ ++ [r] } })
      ∧ (∀ r, m.request = some r → (s.node n).reqCredits = 0 → exec (.requestArrival n m) s = .next
          (u.raise .protocol { node := some n, detail := some .credit }))
      ∧ (m.request = none → exec (.requestArrival n m) s = .next
          (u.raise .protocol { node := some n, detail := some .kind }))))
  ∧ (∀ (s : State) (n : NodeId) (m : WireMsg),
    let u : State := { s with nodes := tset s.nodes n { s.node n with damagedCount := 0 } }
    ((s.node n).link ≠ .active → exec (.returnArrival n m) s = .next s)
    ∧ ((s.node n).link = .active →
      (∀ r, m.ret = some r → 0 < (s.node n).retCredits → exec (.returnArrival n m) s = .next { s with
        nodes := tset s.nodes n { s.node n with
          damagedCount := 0, retCredits := (s.node n).retCredits - 1, returnQ := (s.node n).returnQ ++ [r] } })
      ∧ (∀ r, m.ret = some r → (s.node n).retCredits = 0 → exec (.returnArrival n m) s = .next
          (u.raise .protocol { node := some n, detail := some .credit }))
      ∧ (m.ret = none → exec (.returnArrival n m) s = .next
          (u.raise .protocol { node := some n, detail := some .kind }))))

/-- The fields of a message lie where R166 puts them. What a request, a return and an answer of each kind carries is
read back from a header built of those fields. Every message the hub sends, grants, DATA, DONE on each channel, REFUSE
by its reason, CONFIG-DATA, ALERT and the three probes, has its header built of those fields, with a body exactly
where it carries data. The kind codes are R166's. -/
def Obligations.RequestFieldsAreRead : Prop :=
  (∀ (kind : BitVec 8) (tag : Tag) (line : LineAddr) (offset : Offset) (value : RegValue) (mask : ByteMask)
      (data : LineData) (b : ReqBody),
    (kind, b) ∈ [(0x01#8, ReqBody.fetchS line), (0x02#8, .fetchH line), (0x03#8, .upgrade line),
      (0x04#8, .flush line), (0x05#8, .plainRead line), (0x07#8, .order), (0x0A#8, .leave)] →
    WireMsg.request ⟨(0#14 ++ line ++ 0#6 ++ tag ++ kind : BitVec 64), mask, data⟩ = some ⟨tag, b⟩
    ∧ WireMsg.request ⟨(0#11 ++ 1#1 ++ 0#2 ++ line ++ 0#6 ++ tag ++ 0x06#8 : BitVec 64), mask, data⟩
        = some ⟨tag, .plainWrite line mask data⟩
    ∧ WireMsg.request ⟨(0#32 ++ offset ++ 0#6 ++ tag ++ 0x08#8 : BitVec 64), mask, data⟩
        = some ⟨tag, .configRead offset⟩
    ∧ WireMsg.request ⟨(value ++ offset ++ 0#6 ++ tag ++ 0x09#8 : BitVec 64), mask, data⟩
        = some ⟨tag, .configWrite offset value⟩)
  ∧ (∀ (tag : Tag) (line : LineAddr) (entry : BitVec 6) (poison keep : Bool) (mask : ByteMask) (data : LineData),
    WireMsg.ret ⟨(0#11 ++ 1#1 ++ 0#1 ++ BitVec.ofBool poison ++ line ++ 0#6 ++ tag ++ 0x0B#8 : BitVec 64), mask, data⟩
      = some ⟨tag, line, some ⟨data, poison⟩⟩
    ∧ WireMsg.ret ⟨(0#14 ++ line ++ 0#6 ++ tag ++ 0x0C#8 : BitVec 64), mask, data⟩ = some ⟨tag, line, none⟩
    ∧ ∀ (m : WireMsg) (k : AnswerKind),
      (m.header, k) ∈ [((0#12 ++ BitVec.ofBool keep ++ 0#1 ++ line ++ entry ++ 0#6 ++ 0x0D#8 : BitVec 64), AnswerKind.ackClean),
        ((0#11 ++ 1#1 ++ BitVec.ofBool keep ++ BitVec.ofBool poison ++ line ++ entry ++ 0#6 ++ 0x0E#8 : BitVec 64), .ackData),
        ((0#14 ++ line ++ entry ++ 0#6 ++ 0x0F#8 : BitVec 64), .miss),
        ((0#14 ++ line ++ entry ++ 0#6 ++ 0x10#8 : BitVec 64), .confirm)] →
      m.answer = some k ∧ m.line = line ∧ m.entryNo = entry
      ∧ (k = .ackClean ∨ k = .ackData → m.keep = keep) ∧ (k = .ackData → m.poison = poison))
  ∧ (∀ (tag : Tag) (e : EntryId) (line : LineAddr) (d : Buffer) (value : RegValue) (classes : ClassSet) (poison mark : Bool)
      (n : BitVec 6),
    n = BitVec.ofNat 6 e.val →
    (OutMsg.grantS tag e line d).header = (0#11 ++ 1#1 ++ 0#1 ++ BitVec.ofBool d.poison ++ line ++ n ++ tag ++ 0x11#8 : BitVec 64)
    ∧ (OutMsg.grantH tag e line (some d)).header
      = (0#11 ++ 1#1 ++ 0#1 ++ BitVec.ofBool d.poison ++ line ++ n ++ tag ++ 0x12#8 : BitVec 64)
    ∧ (OutMsg.grantH tag e line none).header = (0#14 ++ line ++ n ++ tag ++ 0x12#8 : BitVec 64)
    ∧ (OutMsg.data tag line d).header = (0#11 ++ 1#1 ++ 0#1 ++ BitVec.ofBool d.poison ++ line ++ 0#6 ++ tag ++ 0x13#8 : BitVec 64)
    ∧ (OutMsg.done tag .request poison mark).header = (0#13 ++ BitVec.ofBool poison ++ 0#36 ++ tag ++ 0x14#8 : BitVec 64)
    ∧ (OutMsg.done tag .ret poison mark).header
      = (0#10 ++ 1#1 ++ 0#2 ++ BitVec.ofBool poison ++ 0#36 ++ tag ++ 0x14#8 : BitVec 64)
    ∧ (∀ r code, (r, code) ∈ [(Reason.noRegion, 1#4), (.denied, 2#4), (.kind, 3#4), (.leaving, 4#4), (.dirFault, 5#4), (.state, 6#4),
        (.configOffset, 7#4), (.regionBusy, 8#4)] →
      (OutMsg.refuse tag r).header = (0#4 ++ code ++ 0#42 ++ tag ++ 0x15#8 : BitVec 64))
    ∧ (OutMsg.configData tag value).header = (value ++ 0#18 ++ tag ++ 0x16#8 : BitVec 64)
    ∧ (OutMsg.alert classes).header = (0#34 ++ classes ++ 0#12 ++ 0x17#8 : BitVec 64)
    ∧ (∀ k code, (k, code) ∈ [(ProbeKind.drop, 0x1A#8), (.yield, 0x1B#8), (.surrender, 0x1C#8)] →
      (OutMsg.probe k e line).header = (0#14 ++ line ++ n ++ 0#6 ++ code : BitVec 64)
      ∧ (OutMsg.probe k e line).body = none)
    ∧ (OutMsg.grantS tag e line d).body = some d.data ∧ (OutMsg.grantH tag e line (some d)).body = some d.data
    ∧ (OutMsg.grantH tag e line none).body = none ∧ (OutMsg.data tag line d).body = some d.data
    ∧ (∀ c, (OutMsg.done tag c poison mark).body = none) ∧ (∀ r, (OutMsg.refuse tag r).body = none)
    ∧ (OutMsg.configData tag value).body = none ∧ (OutMsg.alert classes).body = none)
  ∧ ∀ p ∈ [(MsgKind.fetchS, 0x01#8), (.fetchH, 0x02), (.upgrade, 0x03), (.flush, 0x04), (.plainRead, 0x05),
      (.plainWrite, 0x06), (.order, 0x07), (.configRead, 0x08), (.configWrite, 0x09), (.leave, 0x0A),
      (.returnD, 0x0B), (.returnC, 0x0C), (.ackClean, 0x0D), (.ackData, 0x0E), (.miss, 0x0F), (.confirm, 0x10),
      (.grantS, 0x11), (.grantH, 0x12), (.data, 0x13), (.done, 0x14), (.refuse, 0x15), (.configData, 0x16),
      (.alert, 0x17), (.recall, 0x18), (.walker, 0x19), (.probeDrop, 0x1A), (.probeYield, 0x1B),
      (.probeSurrender, 0x1C)], p.1.code = p.2

/-- An entry accepts an answer as R31 says: it is not FREE, its line is the answer's, and its record for the node is
SENT, or QUEUED-OUT with an earlier copy gone, or ANSWERED with fewer answers than sends. A node's answer to a probe,
or its CONFIRM, that no entry accepts is discarded with a PROTOCOL event and no other effect but that the frame
received ends the run of damaged receipts (log 12). On a RETRAINING link answers are matched as at any other time, of a
frame received before (log 40). -/
def Obligations.AnswersAreAcceptedOrDiscarded : Prop :=
  (∀ (x : Entry) (n : NodeId) (l : LineAddr), x.accepts n l = true ↔
    x.phase ≠ .free ∧ x.line = l ∧ ((x.probe n).status = .sent
      ∨ ((x.probe n).status = .queuedOut ∧ 2 ≤ (x.probe n).sends)
      ∨ ((x.probe n).status = .answered ∧ (x.probe n).answers < (x.probe n).sends)))
  ∧ (∀ (s : State) (n : NodeId) (m : WireMsg) (us : List DirUpset) (u : State),
    ((s.node n).link = .active ∧ u = { s.damaged us with nodes := tset s.nodes n { s.node n with damagedCount := 0 } })
      ∨ ((s.node n).link = .retraining ∧ u = s.damaged us) →
    let answered (kind : MsgKind) : State := u.raise .protocol
      { node := some n, kind := some kind, place := some (.line m.line), detail := some (.entryNumber m.entryNo) }
    ((∀ e : EntryId, m.entryNo = entryCode e → (s.entry e).accepts n m.line = false) →
      (m.answer = some .ackClean → exec (.ackClean n m us) s = .next (answered .ackClean))
      ∧ (m.answer = some .ackData → exec (.ackData n m us) s = .next (answered .ackData))
      ∧ (m.answer = some .miss → exec (.miss n m us) s = .next (answered .miss)))
    ∧ ((∀ e : EntryId, m.entryNo = entryCode e → (s.entry e).confirms n m.line = false) →
      m.answer = some .confirm → exec (.confirm n m us) s = .next (u.raise .protocol
        { node := some n, kind := some .confirm, place := some (.line m.line) })))

/-- The first answer of a sharer to its PROBE-DROP, while the entry waits for another: ACK-CLEAN and MISS are counted,
the record is ANSWERED and its timer stops with the last copy's answer; ACK-DATA does the same with a PROTOCOL event,
its data discarded. Nothing else changes. A copy's answer is counted and otherwise discarded silently, whatever its
kind, while the entry waits for another node's answer. The last ACK-CLEAN a recall waits for over a SHARED line: the
recall completes. One made for a seeker hands its way over, VACANT and most recent, with its pin; the seeker leaves the
list and gathers with snapshot miss and its READ out. A departure recall leaves SHARED without its node, or VACANT, and
counts down at the node's walk record, which ends where it was the last, with the DONE to the LEAVE. A RECALL entry
that is free goes to the first STALLED seeker or to the walker that waits for the reserve for a node, by the arbiter's
mark where both wait, else to neither. The frame received ends the run of damaged receipts (log 12); the notices of a
completion follow log 15. -/
def Obligations.SharersAndCopiesAnswer : Prop :=
  (∀ (s : State) (n other : NodeId) (m : WireMsg) (us : List DirUpset) (e : EntryId) (p : Probe),
    (s.node n).link = .active → m.entryNo = entryCode e → (s.entry e).accepts n m.line = true →
    (s.entry e).phase = .gather → (s.entry e).probe n = p → p.kind = some .drop → p.status ≠ .answered →
    (s.entry e).mark n = .none → other ≠ n → ((s.entry e).probe other).unanswered = true →
    let u : State := { s.damaged us with
      nodes := tset s.nodes n { s.node n with damagedCount := 0 }
      entries := tset s.entries e ((s.entry e).setProbe n { p with
        status := .answered, answers := p.answers + 1
        timer := if p.answers + 1 = p.sends then .stopped else p.timer }) }
    (m.answer = some .ackClean → exec (.ackClean n m us) s = .next u)
    ∧ (m.answer = some .miss → exec (.miss n m us) s = .next u)
    ∧ (m.answer = some .ackData → exec (.ackData n m us) s = .next (u.raise .protocol
        { node := some n, kind := some .ackData, place := some (.line m.line)
          detail := some (.entryNumber (entryCode e)) })))
  ∧ (∀ (s : State) (n other : NodeId) (m : WireMsg) (us : List DirUpset) (e : EntryId) (p : Probe),
    (s.node n).link = .active → m.entryNo = entryCode e → (s.entry e).accepts n m.line = true →
    (s.entry e).phase = .gather → (s.entry e).probe n = p → p.status = .answered →
    other ≠ n → ((s.entry e).probe other).unanswered = true →
    let u : State := { s.damaged us with
      nodes := tset s.nodes n { s.node n with damagedCount := 0 }
      entries := tset s.entries e ((s.entry e).setProbe n { p with
        answers := p.answers + 1, timer := if p.answers + 1 = p.sends then .stopped else p.timer }) }
    (m.answer = some .ackClean → exec (.ackClean n m us) s = .next u)
    ∧ (m.answer = some .miss → exec (.miss n m us) s = .next u)
    ∧ (m.answer = some .ackData → exec (.ackData n m us) s = .next u))
  ∧ (∀ (s : State) (n : NodeId) (m : WireMsg) (f b : EntryId) (w : WayNo) (T : NodeSet) (x y : Entry),
    s.entry f = x → s.entry b = y → f ≠ b → s.status = .ready → Directory.wf s.dir → (s.node n).link = .active →
    m.entryNo = entryCode f → m.answer = some .ackClean → x.line = m.line → x.kind = .recall → x.scope = some .all →
    x.phase = .gather → x.way = some w → x.snapshot = some (.hit .shared T) → x.beneficiary = some b →
    x.successor = none → x.posted = false → x.poolOp = .none → x.awaited = none → x.poolStale = false →
    x.owesWriteBack = false → x.confirm = .notNeeded → x.mark n = .none → (x.probe n).kind = some .drop →
    (x.probe n).status = .sent → (x.probe n).sends = 1 → (x.probe n).answers = 0 →
    (∀ k, k ≠ n → (x.probe k).unanswered = false ∧ (x.probe k).straggling = false) →
    y.kind = .fetchS ∨ y.kind = .fetchH → s.portFree →
    (∀ k ∈ s.wayWait, k.entry ≠ b → s.setOf k.entry ≠ LineAddr.set m.line) → (∀ k ∈ s.wayWait, k.cond ≠ .stalled) →
    s.walker.stall.reserving = none →
    let set := LineAddr.set m.line
    ∃ t, exec (.ackClean n m []) s = .next t
      ∧ t.entries = tset (tset s.entries f Entry.free) b { y with
          phase := .gather, snapshot := some .miss, way := some w, poolOp := .readOut }
      ∧ t.wayWait = s.wayWait.filter (fun k => decide (k.entry ≠ b))
      ∧ t.poolQueue = s.poolQueue ++ [⟨.entry b, y.line, none⟩]
      ∧ t.way set w = { written := none, damage := .intact, pin := .entry b, quarantined := false }
      ∧ (t.dirSet set).order = recent (s.dirSet set).order w
      ∧ (∀ v, v ≠ w → t.way set v = s.way set v) ∧ (∀ j, j ≠ set → t.dirSet j = s.dirSet j)
      ∧ t.dir.validCount = s.dir.validCount - (s.way set w).counted.toNat
      ∧ t.dir.quarCount = s.dir.quarCount - (s.way set w).quarantined.toNat ∧ t.dir.seed = s.dir.seed
      ∧ { t with entries := s.entries, wayWait := s.wayWait, poolQueue := s.poolQueue, dir := s.dir } = { s with
          nodes := tset s.nodes n { s.node n with damagedCount := 0 } })
  ∧ (∀ (s : State) (n : NodeId) (m : WireMsg) (f : EntryId) (w : WayNo) (T : NodeSet) (x : Entry) (r : WalkRec),
    s.entry f = x → s.status = .ready → Directory.wf s.dir → (s.node n).link = .active →
    m.entryNo = entryCode f → m.answer = some .ackClean → x.line = m.line → x.kind = .recall →
    x.scope = some (.only n) → x.phase = .gather → x.way = some w → x.snapshot = some (.hit .shared T) →
    NodeSet.has T n = true → NodeSet.without T n &&& s.lostNodes = 0 → x.beneficiary = none → x.successor = none →
    x.posted = false → x.poolOp = .none → x.awaited = none → x.poolStale = false → x.owesWriteBack = false →
    x.orphaned = false → x.confirm = .notNeeded → x.mark n = .none → (x.probe n).kind = some .drop →
    (x.probe n).status = .sent → (x.probe n).sends = 1 → (x.probe n).answers = 0 →
    (∀ k, k ≠ n → (x.probe k).unanswered = false ∧ (x.probe k).straggling = false) →
    s.quiet (LineAddr.set m.line) w → (∀ k ∈ s.wayWait, k.cond ≠ .stalled) → s.walker.stall.reserving = none →
    s.walker.record n = some r →
    let heard : Node := { s.node n with damagedCount := 0 }
    let left : Option Record :=
      if NodeSet.without T n = 0 then none else some ⟨LineAddr.tag m.line, .shared, NodeSet.without T n⟩
    let after (y : Node) (q : Option WalkRec) : State := { s with
      nodes := tset s.nodes n y, walker := { s.walker with records := tset s.walker.records n q } }
    (1 < r.recalls ∨ r.remaining ≠ 0 → ∃ t, exec (.ackClean n m []) s = .next t
      ∧ CompletedIn (after heard (some { r with recalls := r.recalls - 1 })) t f (LineAddr.set m.line) w left)
    ∧ (r.recalls = 1 → r.remaining = 0 → r.mode = .depart → ∃ t, exec (.ackClean n m []) s = .next t
      ∧ CompletedIn (after { heard with outQ := heard.outQ ++ [.done r.leaveTag .request false true] } none) t f
        (LineAddr.set m.line) w left))
  ∧ (∀ (k : Work),
    let seeker := k.s.wayWait.find? (fun m => decide (m.cond = .stalled))
    (4 ≤ k.s.recallsInUse ∨ (∀ g, (k.s.entry g).phase ≠ .free) → k.offer = k)
    ∧ (∀ g, k.s.recallsInUse < 4 → (k.s.entry g).phase = .free →
      (∀ m, seeker = some m → k.s.walker.stall.reserving = none ∨ k.s.recallMark = .walker →
        k.offer = (k.push [.offerRecall]).giveSeeker m.entry)
      ∧ (∀ d, k.s.walker.stall = .reserve d → seeker = none ∨ k.s.recallMark = .wayWait →
        k.offer = (k.push [.offerRecall]).giveWalker d)
      ∧ (seeker = none → k.s.walker.stall.reserving = none → k.offer = k)))

/-- ACK_DATA from the holder of a line that a FETCH-S asks for: the data goes to the origin in a GRANT-S and to the
pool in a WRITE, the outcome is SHARED by the origin, and by the holder too where it keeps its copy, and the entry
waits in FINISH for the CONFIRM. The frame received ends the run of damaged receipts (log 12). -/
def Obligations.HolderGivesDataToFetchS : Prop :=
  ∀ (s : State) (N M : NodeId) (m : WireMsg) (us : List DirUpset) (e : EntryId),
    WaitsForHolder (s.entry e) N M → (s.entry e).line = m.line → (s.node M).link = .active →
    (s.node N).link ≠ .down → s.portFree → m.entryNo = entryCode e → m.answer = some .ackData →
    ∃ t, exec (.ackData M m us) s = .next t
      ∧ t.node N = { s.node N with
          outQ := (s.node N).outQ ++ [OutMsg.grantS (s.entry e).originTag e m.line ⟨m.data, m.poison⟩] }
      ∧ t.node M = { s.node M with damagedCount := 0 }
      ∧ (∀ k, k ≠ N → k ≠ M → t.node k = s.node k)
      ∧ t.entry e = { (s.entry e).setProbe M { (s.entry e).probe M with
            status := .answered, answers := 1, timer := .stopped } with
          holderKept := m.keep, buffer := some ⟨m.data, m.poison⟩, poolStale := true
          outcome := .record .shared (if m.keep then NodeSet.with (NodeSet.single N) M else NodeSet.single N)
          confirm := .awaited N, phase := .finish, poolOp := .writeOut }
      ∧ (∀ f, f ≠ e → t.entry f = s.entry f)
      ∧ t.poolQueue = s.poolQueue ++ [{ owner := .entry e, line := m.line, write := some ⟨m.data, m.poison⟩ }]
      ∧ { t with nodes := s.nodes, entries := s.entries, poolQueue := s.poolQueue } = s.damaged us

/-- ACK_CLEAN from that holder: the pool holds the newest data, so a READ of the line is issued. MISS from that holder,
with no return of it merged: where none is queued in the line's chain, its return is awaited, with the return-wait
timer started; where one is, the oldest in the chain merges at once, is answered DONE, leaves the chain and its entry
is FREE: a RETURN-D gives the data, which goes out with the GRANT-S to be confirmed and to the pool, a RETURN-C has the
READ of the line issued. A MISS taken while the link is RETRAINING starts the timer frozen with its full span (log 40
for its arrival). The frame received ends the run of damaged receipts (log 12). -/
def Obligations.HolderSettlesWithoutData : Prop :=
  (∀ (s : State) (N M : NodeId) (m : WireMsg) (us : List DirUpset) (e : EntryId),
    WaitsForHolder (s.entry e) N M → (s.entry e).line = m.line → (s.node M).link = .active →
    s.portFree → m.entryNo = entryCode e → m.answer = some .ackClean →
    exec (.ackClean M m us) s = .next { s.damaged us with
      nodes := tset s.nodes M { s.node M with damagedCount := 0 }
      entries := tset s.entries e { (s.entry e).setProbe M { (s.entry e).probe M with
          status := .answered, answers := 1, timer := .stopped } with
        holderKept := m.keep, poolOp := .readOut }
      poolQueue := s.poolQueue ++ [{ owner := .entry e, line := m.line, write := none }] })
  ∧ (∀ (s : State) (N M : NodeId) (m : WireMsg) (us : List DirUpset) (e : EntryId),
    WaitsForHolder (s.entry e) N M → (s.entry e).line = m.line → (s.node M).link = .active →
    (∀ f ∈ s.chainAfter 48 e, (s.entry f).isFrom M = false) → m.entryNo = entryCode e →
    m.answer = some .miss →
    exec (.miss M m us) s = .next { s.damaged us with
      nodes := tset s.nodes M { s.node M with damagedCount := 0 }
      entries := tset s.entries e { (s.entry e).setProbe M { (s.entry e).probe M with
          status := .answered, answers := 1, timer := .stopped } with
        awaited := some M, returnTimer := .running (s.probeTimeout.toNat * (s.retries.toNat + 1)) } })
  ∧ (∀ (s : State) (N M : NodeId) (m : WireMsg) (us : List DirUpset) (e : EntryId),
    WaitsForHolder (s.entry e) N M → (s.entry e).line = m.line → (s.node M).link = .retraining →
    (∀ f ∈ s.chainAfter 48 e, (s.entry f).isFrom M = false) → m.entryNo = entryCode e →
    m.answer = some .miss →
    exec (.miss M m us) s = .next { s.damaged us with
      entries := tset s.entries e { (s.entry e).setProbe M { (s.entry e).probe M with
          status := .answered, answers := 1, timer := .stopped } with
        awaited := some M, returnTimer := .frozen (s.probeTimeout.toNat * (s.retries.toNat + 1)) } })
  ∧ (∀ (s : State) (N M : NodeId) (m : WireMsg) (us : List DirUpset) (e f p : EntryId) (before after : List EntryId)
      (r : Entry),
    WaitsForHolder (s.entry e) N M → (s.entry e).holderKept = false → (s.entry e).line = m.line →
    (s.node M).link = .active → (s.node N).link ≠ .down → s.portFree → m.entryNo = entryCode e →
    m.answer = some .miss → s.chainAfter 48 e = before ++ f :: after →
    (∀ g ∈ before, ¬((s.entry g).phase = .queued ∧ (s.entry g).kind.cls = .ret ∧ (s.entry g).isFrom M = true)) →
    s.entry f = r → r.phase = .queued → r.isFrom M = true → f ≠ e → p ≠ f →
    (∀ g, (s.entry g).successor = some f ∧ (s.entry g).phase ≠ .free ↔ g = p) →
    let answered : Entry := { (s.entry e).setProbe M { (s.entry e).probe M with
        status := .answered, answers := 1, timer := .stopped } with
      successor := if p = e then r.successor else (s.entry e).successor }
    let merged (x : Entry) (q : List PoolOp) : State := { s.damaged us with
      nodes := tset s.nodes M { s.node M with
        damagedCount := 0, outQ := (s.node M).outQ ++ [OutMsg.done r.originTag .ret false false] }
      entries := tset (tset (tset s.entries p { s.entry p with successor := r.successor }) f Entry.free) e x
      poolQueue := s.poolQueue ++ q }
    (∀ b, r.kind = .returnD → r.buffer = some b →
      let t := merged { answered.setMark M .returnD with
          buffer := some b, poolStale := true, outcome := .record .shared (NodeSet.single N), confirm := .awaited N
          phase := .finish, poolOp := .writeOut } [⟨.entry e, m.line, some b⟩]
      exec (.miss M m us) s = .next { t with nodes := tset t.nodes N { s.node N with
        outQ := (s.node N).outQ ++ [OutMsg.grantS (s.entry e).originTag e m.line b] } })
    ∧ (r.kind = .returnC → exec (.miss M m us) s
        = .next (merged { answered.setMark M .returnC with poolOp := .readOut } [⟨.entry e, m.line, none⟩])))

/-- CONFIRM from the grantee, once its grant has left, while the entry's pool write is out: the confirm is received
and its timer stops; nothing else changes. CONFIRM that ends FINISH: the entry completes. Its way is written with the
outcome, moves to the most recent place and is unpinned; the entry is FREE. So for a grant entry with no successor, a
SHARED or HELD outcome naming no lost node, and nobody waiting for a way of its set. With a successor, the successor
activates after the write: shown for a FLUSH and for a FETCH-S over SHARED, which hit the way just written, take its pin
with the record as their snapshot, and send their probes or issue their READ. The frame received ends the run of damaged
receipts (log 12). -/
def Obligations.ConfirmEndsTheWait : Prop :=
  (∀ (s : State) (n : NodeId) (m : WireMsg) (us : List DirUpset) (e : EntryId), (s.node n).link = .active →
    m.entryNo = entryCode e → m.answer = some .confirm → (s.entry e).phase = .finish →
    (s.entry e).line = m.line → (s.entry e).confirm = .awaited n → (s.entry e).confirmTimer ≠ .stopped →
    (s.entry e).poolOp = .writeOut →
    exec (.confirm n m us) s = .next { s.damaged us with
      nodes := tset s.nodes n { s.node n with damagedCount := 0 }
      entries := tset s.entries e { s.entry e with confirm := .received, confirmTimer := .stopped } })
  ∧ (∀ (s : State) (n : NodeId) (m : WireMsg) (e : EntryId) (w : WayNo) (st : DirState) (T : NodeSet),
    s.status = .ready → Directory.wf s.dir → (s.node n).link = .active → m.entryNo = entryCode e →
    m.answer = some .confirm → (s.entry e).phase = .finish → (s.entry e).line = m.line →
    (s.entry e).confirm = .awaited n → (s.entry e).confirmTimer ≠ .stopped → (s.entry e).poolOp = .none →
    (∀ k, ((s.entry e).probe k).straggling = false) → (s.entry e).way = some w →
    (s.entry e).outcome = .record st T → (s.entry e).orphaned = false →
    ((s.entry e).kind = .fetchS ∨ (s.entry e).kind = .fetchH ∨ (s.entry e).kind = .upgrade) →
    (st = .shared → T ≠ 0) → (st = .held → (NodeSet.members T).length = 1) → T &&& s.lostNodes = 0 →
    (s.entry e).successor = none → (s.entry e).posted = false →
    (∀ k ∈ s.wayWait, LineAddr.set (s.entry k.entry).line ≠ LineAddr.set m.line) → s.walker.stall ≠ .way w →
    ∃ t, exec (.confirm n m []) s = .next t
      ∧ t.entry e = Entry.free ∧ (∀ f, f ≠ e → t.entry f = s.entry f)
      ∧ t.way (LineAddr.set m.line) w = { written := some ⟨LineAddr.tag m.line, st, T⟩, damage := .intact
                                          pin := .none, quarantined := false }
      ∧ (t.dirSet (LineAddr.set m.line)).order = recent (s.dirSet (LineAddr.set m.line)).order w
      ∧ (∀ v, v ≠ w → t.way (LineAddr.set m.line) v = s.way (LineAddr.set m.line) v)
      ∧ (∀ k, k ≠ LineAddr.set m.line → t.dirSet k = s.dirSet k)
      ∧ t.dir.validCount = s.dir.validCount + 1 - (s.way (LineAddr.set m.line) w).counted.toNat
      ∧ t.dir.quarCount = s.dir.quarCount - (s.way (LineAddr.set m.line) w).quarantined.toNat
      ∧ t.dir.seed = s.dir.seed
      ∧ { t with nodes := s.nodes, entries := s.entries, dir := s.dir } = s
      ∧ t.nodes = tset s.nodes n { s.node n with damagedCount := 0 })
  ∧ (∀ (s : State) (n : NodeId) (m : WireMsg) (e f : EntryId) (w : WayNo) (st : DirState) (T : NodeSet) (x y : Entry),
    s.entry e = x → s.entry f = y → s.status = .ready → Directory.wf s.dir → (s.node n).link = .active →
    m.entryNo = entryCode e → m.answer = some .confirm → x.phase = .finish → x.line = m.line →
    x.confirm = .awaited n → x.confirmTimer ≠ .stopped → x.poolOp = .none → (∀ k, (x.probe k).straggling = false) →
    x.way = some w → x.outcome = .record st T → x.orphaned = false →
    x.kind = .fetchS ∨ x.kind = .fetchH ∨ x.kind = .upgrade → (⟨0, st, T⟩ : Record).wellFormed = true →
    T &&& s.lostNodes = 0 → x.posted = false → x.successor = some f → f ≠ e → y.phase = .queued → y.line = m.line →
    let set := LineAddr.set m.line
    s.quiet set w → (∀ v, v ≠ w → (s.way set v).damage = .intact ∧ (∀ r, (s.way set v).written = some r →
      r.wellFormed = true) ∧ ((s.way set v).quarantined = true
        ∨ ∀ r, (s.way set v).written = some r → r.tag ≠ LineAddr.tag m.line)) →
    let base : State := { s with nodes := tset s.nodes n { s.node n with damagedCount := 0 } }
    let begun : Entry := { y with phase := .gather, way := some w, snapshot := some (.hit st T) }
    ∃ z, CompletedIn base z e set w (some ⟨LineAddr.tag m.line, st, T⟩)
      ∧ (y.kind = .flush → s.reaches T → exec (.confirm n m []) s = .next ((z.setPin set w (.entry f)).probing f begun
          (match st with | .shared => .drop | .held => .surrender) T))
      ∧ (y.kind = .fetchS → st = .shared → s.portFree → exec (.confirm n m []) s = .next
          { z.setPin set w (.entry f) with
            entries := tset z.entries f { begun with poolOp := .readOut }
            poolQueue := s.poolQueue ++ [⟨.entry f, m.line, none⟩] }))

/-! ## Timers -/

/-- PROBE_TIMER_EXPIRY with no answer and no more sends than the retry count: a new copy joins the node's outbound
queue, sends rise by one, the record is QUEUED-OUT with its timer stopped, and a PROBE-RETRY event is raised. That its
record bears the probe's message kind as kind is the model's choice (log 21), and so is that the copy stands before an
ALERT of the event (log 14). -/
def Obligations.UnansweredProbeIsSentAgain : Prop :=
  ∀ (s : State) (e : EntryId) (n : NodeId) (us : List DirUpset) (p : Probe) (k : ProbeKind),
    (s.entry e).probe n = p → p.timer = .running 0 → p.kind = some k → p.answers = 0 → p.sends ≤ s.retries.toNat →
    (s.node n).link ≠ .down →
    exec (.probeTimerExpiry e n us) s = .next ({ s.damaged us with
      entries := tset s.entries e ((s.entry e).setProbe n { p with
        status := .queuedOut, sends := p.sends + 1, timer := .stopped })
      nodes := tset s.nodes n { s.node n with
        outQ := (s.node n).outQ ++ [OutMsg.probe k e (s.entry e).line] } }.raise .probeRetry
      { node := some n, kind := some k.msgKind, place := some (.line (s.entry e).line), detail := some (.probe k) })

/-- PROBE_TIMER_EXPIRY where the node has answered nothing and the sends exceed the retry count, or has answered fewer
copies than were sent: the node is LOST for PROBE-TIMEOUT. Shown where the probe is one PROBE-DROP of an entry that
still waits for its READ and nothing else concerns the node: an unanswered probe takes its LOST answer, a straggler
wait ends. That the condition for an ALERT is tested as the link goes DOWN, before the NODE-LOST event, is the model's
choice (log 14). -/
def Obligations.SilentNodeIsLost : Prop :=
  ∀ (s : State) (e : EntryId) (n : NodeId) (us : List DirUpset) (p : Probe),
    (s.node n).membership = .member ∨ (s.node n).membership = .leaving →
    (s.entry e).probe n = p → p.timer = .running 0 → p.kind = some .drop → (s.entry e).phase = .gather →
    (s.entry e).poolOp = .readOut → (s.entry e).isFrom n = false → (s.entry e).awaited = none → p.waitEnded = false →
    (∀ f, f ≠ e → (s.entry f).unconcerned n ∧ (s.entry f).standing) →
    (p.answers = 0 → s.retries.toNat < p.sends → p.status = .sent → ∃ t, exec (.probeTimerExpiry e n us) s = .next t
      ∧ LostIn (s.damaged us) t n .probeTimeout ∧ t.poolQueue = s.poolQueue ∧ t.issueWait = s.issueWait
      ∧ t.entries = tset s.entries e ((s.entry e).setProbe n { p with status := .lost, timer := .stopped }))
    ∧ (0 < p.answers → p.answers < p.sends → p.status = .answered → ∃ t,
      exec (.probeTimerExpiry e n us) s = .next t
      ∧ LostIn (s.damaged us) t n .probeTimeout ∧ t.poolQueue = s.poolQueue ∧ t.issueWait = s.issueWait
      ∧ t.entries = tset s.entries e ((s.entry e).setProbe n { p with timer := .stopped, waitEnded := true }))

/-- CONFIRM_TIMER_EXPIRY with the confirm awaited: the grantee is LOST for CONFIRM-TIMEOUT. Shown where its entry has
its pool write out and nothing else concerns the node: the entry is orphaned, its confirm is taken as received, and its
write goes on. That the condition for an ALERT is tested as the link goes DOWN, before the NODE-LOST event, is the
model's choice (log 14). -/
def Obligations.GranteeThatDoesNotConfirmIsLost : Prop :=
  ∀ (s : State) (e : EntryId) (n : NodeId) (us : List DirUpset),
    (s.node n).membership = .member ∨ (s.node n).membership = .leaving →
    (s.entry e).phase = .finish → (s.entry e).kind.coherent = true → (s.entry e).isFrom n = true →
    (s.entry e).confirm = .awaited n → (s.entry e).confirmTimer = .running 0 → (s.entry e).poolOp = .writeOut →
    (s.entry e).awaited = none →
    (∀ k, ((s.entry e).probe k).unanswered = false ∧ ((s.entry e).probe k).straggling = false) →
    (∀ f, f ≠ e → (s.entry f).unconcerned n ∧ (s.entry f).standing) →
    ∃ t, exec (.confirmTimerExpiry e us) s = .next t
      ∧ LostIn (s.damaged us) t n .confirmTimeout ∧ t.poolQueue = s.poolQueue ∧ t.issueWait = s.issueWait
      ∧ t.entries = tset s.entries e { s.entry e with
          orphaned := true, confirm := .received, confirmTimer := .stopped }

/-- RETURN_WAIT_EXPIRY with the return still awaited: the node is LOST for RETURN-TIMEOUT, and the wait ends with its
LOST answer. Shown for a FLUSH of another node: the part settles with 64 zero bytes of poison, the outcome is VACANT,
and the poison goes to the pool in FINISH before any DONE. That the condition for an ALERT is tested as the link goes
DOWN, before the NODE-LOST event, is the model's choice (log 14). -/
def Obligations.AwaitedReturnEndsInLoss : Prop :=
  ∀ (s : State) (e : EntryId) (n : NodeId) (us : List DirUpset) (T : NodeSet),
    (s.node n).membership = .member ∨ (s.node n).membership = .leaving →
    (s.entry e).phase = .gather → (s.entry e).kind = .flush → (s.entry e).snapshot = some (.hit .held T) →
    (s.entry e).isFrom n = false → (s.entry e).awaited = some n → (s.entry e).returnTimer = .running 0 →
    (s.entry e).poolOp = .none → (s.entry e).orphaned = false →
    (∀ k, ((s.entry e).probe k).unanswered = false) → ((s.entry e).probe n).straggling = false →
    (∀ f, f ≠ e → (s.entry f).unconcerned n ∧ (s.entry f).standing) → s.portFree →
    ∃ t, exec (.returnWaitExpiry e us) s = .next t
      ∧ LostIn (s.damaged us) t n .returnTimeout ∧ t.issueWait = []
      ∧ t.poolQueue = s.poolQueue ++ [{ owner := .entry e, line := (s.entry e).line, write := some ⟨0, true⟩ }]
      ∧ t.entries = tset s.entries e { s.entry e with
          awaited := none, returnTimer := .stopped, buffer := some ⟨0, true⟩, poolStale := true
          settledByLoss := true, outcome := .vacant, phase := .finish, poolOp := .writeOut }

/-! ## The pool -/

/-- The result of a READ by the first row of R110 that applies to its eight word conditions, the poison flag the owner
takes, the data and poison flag the owner's buffer takes (a partial write's with its bytes merged in), and the data of
a corrected write-back. The event of a READ: none for CLEAN and POISONED, POOL-CORRECTED or POOL-UNCORRECTED with the
number of words, POOL-UNCORRECTED with BEYOND-SIZE, each with the node, tag, kind and line of its entry. -/
def Obligations.ReadResultByWordConditions : Prop :=
  (∀ cs : List WordCond, cs.length = 8 →
    (cs.count .uncorrectable ≠ 0 → readResult cs = .uncorrectable (cs.count .uncorrectable))
    ∧ (cs.count .uncorrectable = 0 → cs.count .marked ≠ 0 → readResult cs = .poisoned)
    ∧ ((∀ c ∈ cs, c = .clean ∨ c = .corrected) → cs.count .corrected ≠ 0 →
        readResult cs = .corrected (cs.count .corrected) ∧ cs.count .corrected ≤ 8)
    ∧ ((∀ c ∈ cs, c = .clean) → readResult cs = .clean))
  ∧ (∀ k, (ReadResult.uncorrectable k).poison = true ∧ (ReadResult.corrected k).poison = false)
  ∧ ReadResult.poisoned.poison = true ∧ ReadResult.clean.poison = false
  ∧ (∀ (s : State) (l : LineAddr), s.beyondSize l = false → ∃ cs : Vector (WordCond × WordData) 8,
      (∀ k, tget cs k = (tget (s.pool.line l) k).read l k)
      ∧ (s.poolRead l).1 = readResult (cs.toList.map Prod.fst)
      ∧ ∀ k, LineData.word (s.poolRead l).2 k = (tget cs k).2)
  ∧ (∀ (x : Entry) (r : ReadResult) (d : LineData) (wb : Bool),
      (x.kind ≠ .plainWrite → (x.takeRead r d wb).buffer = some ⟨d, r.poison⟩)
      ∧ (x.kind ≠ .plainWrite → ∀ k, (x.takeRead (.corrected k) d true).finishWrite = some ⟨d, false⟩)
      ∧ (x.kind = .plainWrite → (x.takeRead r d wb).buffer = some ⟨mergeBytes x.mask d x.writeData, r.poison⟩))
  ∧ ∀ (s : State) (e : EntryId) (N : NodeId) (tag : Tag), (s.entry e).origin = some ⟨N, tag⟩ →
      let event (d : Detail) : ErrRec := { node := some N, tag := some tag, kind := some (s.entry e).kind.msgKind
                                           place := some (.line (s.entry e).line), detail := some d }
      s.readEvent e .clean = s ∧ s.readEvent e .poisoned = s
      ∧ (∀ k, s.readEvent e (.corrected k) = s.raise .poolCorrected (event (.words k)))
      ∧ (∀ k, s.readEvent e (.uncorrectable k) = s.raise .poolUncorrected (event (.words k)))
      ∧ s.readEvent e .beyondSize = s.raise .poolUncorrected (event .beyondSize)

/-- The condition in which a READ finds a word of known contents, by the wrong bits in it, and the word it delivers. A
write replaces the whole line: with poison clear word k holds bytes 8k to 8k + 7 with good check bits, with poison set
every word is the marker; a read of it afterwards is CLEAN with the data, or POISONED with zeros; other lines stay. At
or above the installed size nothing is stored, and a READ there is BEYOND-SIZE with 64 zero bytes. Every byte of a
partial write whose flag is set is the write's, every other the line's. -/
def Obligations.WordsReadAsWritten : Prop :=
  (∀ (l : LineAddr) (k : WordNo) (w flips : WordData),
    StoredWord.read ⟨.data w, .intact⟩ l k = (.clean, w) ∧ StoredWord.read ⟨.data w, .oneBit⟩ l k = (.corrected, w)
    ∧ StoredWord.read ⟨.data w, .twoBits flips⟩ l k = (.uncorrectable, w ^^^ flips)
    ∧ StoredWord.read ⟨.marker, .intact⟩ l k = (.marked, 0) ∧ StoredWord.read ⟨.marker, .oneBit⟩ l k = (.marked, 0)
    ∧ (StoredWord.read ⟨.marker, .twoBits flips⟩ l k).1 = .uncorrectable)
  ∧ (∀ (s : State) (l : LineAddr) (b : Buffer), Memory.wf s.pool →
    (s.poolSize.toNat * 16777216 ≤ l.toNat → s.poolWrite l b = s ∧ s.poolRead l = (.beyondSize, 0))
    ∧ (l.toNat < s.poolSize.toNat * 16777216 →
        (∀ k, tget ((s.poolWrite l b).pool.line l) k =
          if b.poison then ⟨.marker, .intact⟩ else ⟨.data (LineData.word b.data k), .intact⟩)
        ∧ (s.poolWrite l b).poolRead l = (if b.poison then (.poisoned, 0) else (.clean, b.data))
        ∧ (∀ j, j ≠ l → (s.poolWrite l b).pool.line j = s.pool.line j)
        ∧ Memory.wf (s.poolWrite l b).pool ∧ { s.poolWrite l b with pool := s.pool } = s))
  ∧ (∀ (mask : ByteMask) (old new : LineData) (k : Nat), k < 64 →
    LineData.byte (mergeBytes mask old new) k
      = if mask.getLsbD k then LineData.byte new k else LineData.byte old k)

/-- POOL_READ_COMPLETE for a FETCH-S or a FETCH-H: GATHER ends, the grant goes out with the data delivered, its
outcome is fixed, and the CONFIRM is awaited. FETCH-S: GRANT-S, with SHARED by the origin alone on a miss with PROMOTE
clear, by the origin and the sharers over SHARED, by the origin over HELD, and by the holder too where it kept its
copy. FETCH-H, and FETCH-S on a miss with PROMOTE set: GRANT-H, with HELD by the origin. A CORRECTED read with
CORRECT-WB set issues the corrected write-back, and another leaves no pool operation. Shown with nobody waiting to
issue. That an ALERT of the READ's event stands before the grant is the model's inference (log 14). -/
def Obligations.ReadCompletesForSharedFetchS : Prop :=
  ∀ (s : State) (e : EntryId) (l : LineAddr) (words : List WordUpset) (us : List DirUpset) (N : NodeId)
      (r : ReadResult) (d : LineData) (kind : WorkKind) (snap : Snapshot) (grant : OutMsg) (st : DirState) (A : NodeSet),
    let v := (s.damaged us).poolDamaged l words
    let tag := (s.entry e).originTag
    s.completable (.entry e) = some ⟨.entry e, l, none⟩ → s.issueWait = [] → s.poolQueue.length ≤ 32 →
    (s.entry e).phase = .gather → (s.entry e).kind = kind → (s.entry e).snapshot = some snap →
    (s.entry e).line = l → (s.entry e).origin.map Origin.node = some N → (s.entry e).orphaned = false →
    (s.entry e).awaited = none → (∀ k, ((s.entry e).probe k).unanswered = false) →
    (s.node N).link ≠ .down → v.poolRead l = (r, d) →
    (kind = .fetchS ∧ grant = .grantS tag e l ⟨d, r.poison⟩ ∧ st = .shared
        ∧ ((snap = .miss ∧ s.promote = false ∧ A = NodeSet.single N)
          ∨ (∃ T, snap = .hit .shared T ∧ A = NodeSet.with T N)
          ∨ ∃ M, snap = .hit .held (NodeSet.single M)
            ∧ A = if M ≠ N ∧ (s.entry e).holderKept then NodeSet.with (NodeSet.single N) M else NodeSet.single N))
      ∨ (((kind = .fetchS ∧ snap = .miss ∧ s.promote = true) ∨ kind = .fetchH)
        ∧ grant = .grantH tag e l (some ⟨d, r.poison⟩) ∧ st = .held ∧ A = NodeSet.single N) →
    let rest := s.poolQueue.filter (fun op => decide (op.owner ≠ .entry e))
    let u := { v with poolQueue := rest, entries := tset s.entries e { s.entry e with poolOp := .none } }.readEvent e r
    let wb := r.isCorrected && s.correctWb
    exec (.poolReadComplete e words us) s = .next { u with
      nodes := tset u.nodes N { u.node N with outQ := (u.node N).outQ ++ [grant] }
      entries := tset s.entries e { s.entry e with
        phase := .finish, buffer := some ⟨d, r.poison⟩, poolStale := false, outcome := .record st A
        confirm := .awaited N, owesWriteBack := wb, poolOp := if wb then .writeOut else .none }
      poolQueue := if wb then rest ++ [⟨.entry e, l, some ⟨d, false⟩⟩] else rest }

/-- POOL_READ_COMPLETE for a PLAIN-READ, whatever the result: its event is raised, DATA goes to the origin with the
result's poison flag, and the entry, which holds no way, completes, the head of the issue-wait list accepted into the
freed place; a CORRECTED read with CORRECT-WB set issues the corrected write-back instead and stays in FINISH. That an ALERT of
the READ's event stands before the DATA is the model's inference (log 14). For a partial PLAIN-WRITE: the bytes are merged, the WRITE is issued, and a posted one with poison raises POOL-UNCORRECTED
POSTED-MERGE, after the READ's own event, which is the model's inference too (log 14). -/
def Obligations.ReadCompletesForPlainRead : Prop :=
  (∀ (s : State) (e : EntryId) (l : LineAddr) (words : List WordUpset) (us : List DirUpset) (N : NodeId) (tag : Tag)
      (r : ReadResult) (d : LineData),
    let v := (s.damaged us).poolDamaged l words
    s.completable (.entry e) = some ⟨.entry e, l, none⟩ →
    (s.entry e).phase = .gather → (s.entry e).kind = .plainRead → (s.entry e).line = l → (s.entry e).way = none →
    (s.entry e).origin = some ⟨N, tag⟩ → (s.entry e).orphaned = false → (s.entry e).awaited = none →
    (s.entry e).confirm = .notNeeded →
    (∀ k, ((s.entry e).probe k).unanswered = false ∧ ((s.entry e).probe k).straggling = false) →
    (s.entry e).successor = none → (s.entry e).posted = false → (s.node N).link ≠ .down →
    v.poolRead l = (r, d) →
    let wb := r.isCorrected && s.correctWb
    let rest := s.poolQueue.filter (fun op => decide (op.owner ≠ .entry e))
    let event := v.readEvent e r
    let answered : State := { event with nodes := tset event.nodes N { event.node N with
      outQ := (event.node N).outQ ++ [OutMsg.data tag l ⟨d, r.poison⟩] } }
    (wb = false → s.issueWait = [] → exec (.poolReadComplete e words us) s = .next { answered with
      entries := tset s.entries e Entry.free, poolQueue := rest })
    ∧ (wb = false → ∀ op waiting, s.issueWait = op :: waiting → op.owner ≠ .entry e →
      exec (.poolReadComplete e words us) s = .next { answered with
        entries := tset (match op.owner with
          | .entry f => tset s.entries f { s.entry f with
              poolOp := if op.write.isSome then .writeOut else .readOut }
          | .walker => s.entries) e Entry.free
        poolQueue := rest ++ [op], issueWait := waiting })
    ∧ (wb = true → s.issueWait = [] → s.poolQueue.length ≤ 32 →
      exec (.poolReadComplete e words us) s = .next { answered with
        entries := tset s.entries e { s.entry e with
          phase := .finish, buffer := some ⟨d, r.poison⟩, poolStale := false, owesWriteBack := true, outcome := .noChange
          poolOp := .writeOut }
        poolQueue := rest ++ [⟨.entry e, l, some ⟨d, false⟩⟩] }))
  ∧ (∀ (s : State) (e : EntryId) (l : LineAddr) (words : List WordUpset) (us : List DirUpset) (N : NodeId) (tag : Tag)
      (r : ReadResult) (d : LineData),
    let v := (s.damaged us).poolDamaged l words
    s.completable (.entry e) = some ⟨.entry e, l, none⟩ → s.issueWait = [] → s.poolQueue.length ≤ 32 →
    (s.entry e).phase = .gather → (s.entry e).kind = .plainWrite → (s.entry e).line = l →
    (s.entry e).mask ≠ BitVec.allOnes 64 → (s.entry e).origin = some ⟨N, tag⟩ → (s.entry e).awaited = none →
    (∀ k, ((s.entry e).probe k).unanswered = false) → v.poolRead l = (r, d) →
    let merged : Buffer := ⟨mergeBytes (s.entry e).mask d (s.entry e).writeData, r.poison⟩
    let rest := s.poolQueue.filter (fun op => decide (op.owner ≠ .entry e))
    let event := v.readEvent e r
    let events := if (s.entry e).posted = true ∧ r.poison = true then event.raise .poolUncorrected
      { node := some N, tag := some tag, kind := some .plainWrite, place := some (.line l), detail := some .postedMerge }
      else event
    exec (.poolReadComplete e words us) s = .next { events with
      entries := tset s.entries e { s.entry e with
        phase := .finish, buffer := some merged, poolStale := false, outcome := .noChange, poolOp := .writeOut }
      poolQueue := rest ++ [⟨.entry e, l, some merged⟩] })

/-- POOL_WRITE_COMPLETE for a PLAIN-WRITE: the line is stored; a write that is not posted has its DONE queued, with
poison where the buffer is poisoned; a posted one lowers its node's posted count, and where it is the last an ORDER
waits for the slot empties and the ORDER's DONE is queued. The entry completes. For a FETCH: the line is stored, and
the entry waits on for its CONFIRM, or completes where that has come, with its outcome written. For a FLUSH and a
RETURN-D whose outcome is VACANT: the DONE is queued, on the request or the return channel, and the entry completes;
an orphan's completes without a DONE. -/
def Obligations.WriteCompletesForPlainWrite : Prop :=
  (∀ (s : State) (e : EntryId) (l : LineAddr) (b : Buffer) (us : List DirUpset) (N : NodeId),
    s.completable (.entry e) = some ⟨.entry e, l, some b⟩ → s.issueWait = [] →
    (s.entry e).phase = .finish → (s.entry e).kind = .plainWrite → (s.entry e).way = none →
    (s.entry e).origin.map Origin.node = some N → (s.entry e).orphaned = false → (s.entry e).confirm = .notNeeded →
    (∀ k, ((s.entry e).probe k).straggling = false) → (s.entry e).successor = none → (s.node N).link ≠ .down →
    let u : State := { (s.damaged us).poolWrite l b with
      entries := tset s.entries e Entry.free
      poolQueue := s.poolQueue.filter (fun op => decide (op.owner ≠ .entry e)) }
    let done (tag : Tag) (poison : Bool) (x : Node) : Node := { x with
      outQ := x.outQ ++ [OutMsg.done tag .request poison false] }
    let fewer : Node := { s.node N with posted := (s.node N).posted - 1 }
    ((s.entry e).posted = false → exec (.poolWriteComplete e us) s = .next { u with
      nodes := tset s.nodes N
        (done (s.entry e).originTag (((s.entry e).buffer.map Buffer.poison).getD false) (s.node N)) })
    ∧ ((s.entry e).posted = true → (s.node N).orderSlot = none →
        exec (.poolWriteComplete e us) s = .next { u with nodes := tset s.nodes N fewer })
    ∧ ((s.entry e).posted = true → ∀ tag, (s.node N).orderSlot = some ⟨tag, [e]⟩ →
        exec (.poolWriteComplete e us) s = .next { u with
          nodes := tset s.nodes N (done tag false { fewer with orderSlot := none }) })
    ∧ ((s.entry e).posted = true → ∀ tag waiting, (s.node N).orderSlot = some ⟨tag, waiting⟩ →
        (∃ f ∈ waiting, f ≠ e) → exec (.poolWriteComplete e us) s = .next { u with
          nodes := tset s.nodes N
            { fewer with orderSlot := some ⟨tag, waiting.filter (fun f => decide (f ≠ e))⟩ } }))
  ∧ (∀ (s : State) (e : EntryId) (l : LineAddr) (b : Buffer) (us : List DirUpset),
    s.completable (.entry e) = some ⟨.entry e, l, some b⟩ → s.issueWait = [] → (s.entry e).phase = .finish →
    let stored : State := { (s.damaged us).poolWrite l b with
      entries := tset s.entries e { s.entry e with poolStale := false, poolOp := .none }
      poolQueue := s.poolQueue.filter (fun op => decide (op.owner ≠ .entry e)) }
    ((s.entry e).kind = .fetchS ∨ (s.entry e).kind = .fetchH →
      (∀ n, (s.entry e).confirm = .awaited n → exec (.poolWriteComplete e us) s = .next stored))
    ∧ ∀ w, s.status = .ready → Directory.wf s.dir → (s.entry e).way = some w → s.quiet (LineAddr.set (s.entry e).line) w →
      (s.entry e).successor = none → (s.entry e).posted = false → (∀ k, ((s.entry e).probe k).straggling = false) →
      (∀ st T, (s.entry e).kind = .fetchS ∨ (s.entry e).kind = .fetchH → (s.entry e).confirm = .received →
        (s.entry e).orphaned = false → (s.entry e).outcome = .record st T → (st = .shared → T ≠ 0) →
        (st = .held → (NodeSet.members T).length = 1) → T &&& s.lostNodes = 0 → ∃ t,
        exec (.poolWriteComplete e us) s = .next t
          ∧ CompletedIn stored t e (LineAddr.set (s.entry e).line) w (some ⟨LineAddr.tag (s.entry e).line, st, T⟩))
      ∧ (∀ N tag channel, ((s.entry e).kind = .flush ∧ channel = .request) ∨ ((s.entry e).kind = .returnD ∧ channel = .ret) →
        (s.entry e).confirm = .notNeeded → (s.entry e).outcome = .vacant → (s.entry e).origin = some ⟨N, tag⟩ →
        ((s.entry e).orphaned = false → (s.node N).link ≠ .down → ∃ t, exec (.poolWriteComplete e us) s = .next t
          ∧ CompletedIn { stored with nodes := tset s.nodes N { s.node N with
              outQ := (s.node N).outQ ++ [OutMsg.done tag channel false false] } } t e (LineAddr.set (s.entry e).line) w none)
        ∧ ((s.entry e).orphaned = true → ∃ t, exec (.poolWriteComplete e us) s = .next t
          ∧ CompletedIn stored t e (LineAddr.set (s.entry e).line) w none)))

/-! ## Admission -/

/-- The deciding region is the lowest-numbered enabled region with base ≤ MiB number ≤ limit, for a line below the
installed size; there is none at or above it. Decode by the four checks of R117, in their order: LEAVING, NO-REGION,
KIND, DENIED. ORDER and LEAVE meet the first check alone, CONFIG-READ and CONFIG-WRITE none. -/
def Obligations.DecodeByTheDecidingRegion : Prop :=
  (∀ (s : State) (l : LineAddr),
    let covers (r : RegionNo) : Prop := (tget s.regions r).enabled = true
      ∧ (tget s.regions r).base.toNat ≤ l.toNat / 16384 ∧ l.toNat / 16384 ≤ (tget s.regions r).limit.toNat
    (s.poolSize.toNat * 16777216 ≤ l.toNat → s.decidingRegion l = none)
    ∧ (l.toNat < s.poolSize.toNat * 16777216 →
        (∀ r, covers r → (∀ q, q < r → ¬covers q) → s.decidingRegion l = some (tget s.regions r))
        ∧ ((∀ r, ¬covers r) → s.decidingRegion l = none)))
  ∧ (∀ (s : State) (n : NodeId) (b : ReqBody) (l : LineAddr) (plain reads : Bool),
    (b, plain, reads) ∈ [(ReqBody.fetchS l, false, true), (.fetchH l, false, false), (.upgrade l, false, false),
      (.flush l, false, false), (.plainRead l, true, true)]
      ∨ (∃ mask data, b = .plainWrite l mask data ∧ plain = true ∧ reads = false) →
    ((s.node n).membership = .leaving → s.decodeRefusal n b = some .leaving)
    ∧ ((s.node n).membership ≠ .leaving →
      (s.decidingRegion l = none → s.decodeRefusal n b = some .noRegion)
      ∧ ∀ g, s.decidingRegion l = some g →
        ((g.kind = .coherent ↔ plain = true) → s.decodeRefusal n b = some .kind)
        ∧ (¬(g.kind = .coherent ↔ plain = true) →
            (NodeSet.has (if reads then g.readSet else g.writeSet) n = false → s.decodeRefusal n b = some .denied)
            ∧ (NodeSet.has (if reads then g.readSet else g.writeSet) n = true → s.decodeRefusal n b = none))))
  ∧ ∀ (s : State) (n : NodeId),
    (∀ o, s.decodeRefusal n (.configRead o) = none) ∧ (∀ o v, s.decodeRefusal n (.configWrite o v) = none)
    ∧ ((s.node n).membership = .leaving →
      s.decodeRefusal n .order = some .leaving ∧ s.decodeRefusal n .leave = some .leaving)
    ∧ ((s.node n).membership ≠ .leaving → s.decodeRefusal n .order = none ∧ s.decodeRefusal n .leave = none)

/-- The arbiter takes an eligible return head where there is one, of the first such node from the return pointer
upward; else an eligible request head of the highest effective priority, of the first such node from the request
pointer upward; nothing where no head is eligible. A request admission takes the head from its queue, clears the
winner's patience counter and urgent flag, and moves the request pointer to the node after it; every other node whose
head was eligible is passed over: its counter rises, stopping at 255, and makes it urgent on reaching a limit other
than 0. A head is eligible where its node's link is ACTIVE or RETRAINING and the node MEMBER or LEAVING, and it is to
be refused or there is room for it: a FREE entry with fewer than 44 in use besides recalls (log 23), an empty order
slot, no open request for a LEAVE, or no need of either; a return that merges needs no room. A return merges into its
line's active entry where that has an unanswered probe to the node or awaits its return, and none is merged yet. An
urgent node has priority 4. -/
def Obligations.ArbiterChoosesAndCounts : Prop :=
  (∀ s : State,
    (∀ k n r, n = s.returnPtr + k → s.eligibleReturn n = some r →
      (∀ j, j < k → s.eligibleReturn (s.returnPtr + j) = none) → s.choice = some (.ret n r))
    ∧ ((∀ n, s.eligibleReturn n = none) →
      (∀ k n r, n = s.requestPtr + k → s.eligibleRequest n = some r →
        (∀ m, (s.eligibleRequest m).isSome → (s.node m).effectivePriority ≤ (s.node n).effectivePriority) →
        (∀ j, j < k → s.eligibleRequest (s.requestPtr + j) = none
          ∨ (s.node (s.requestPtr + j)).effectivePriority < (s.node n).effectivePriority) →
        s.choice = some (.request n r))
      ∧ ((∀ n, s.eligibleRequest n = none) → s.choice = none)))
  ∧ (∀ (s : State) (n : NodeId),
    (s.takeRequest n).requestPtr = n + 1
    ∧ (s.takeRequest n).node n = { s.node n with requestQ := (s.node n).requestQ.tail, patience := 0, urgent := false }
    ∧ (∀ m, m ≠ n → s.eligibleRequest m = none → (s.takeRequest n).node m = s.node m)
    ∧ (∀ m, m ≠ n → (s.eligibleRequest m).isSome → (s.node m).patience < 255 →
        (s.takeRequest n).node m = { s.node m with
          patience := (s.node m).patience + 1
          urgent := (s.node m).urgent || (decide ((s.node m).patienceLimit ≠ 0)
            && decide ((s.node m).patienceLimit.toNat ≤ (s.node m).patience + 1)) })
    ∧ (∀ m, m ≠ n → (s.node m).patience = 255 → (s.takeRequest n).node m = s.node m)
    ∧ { s.takeRequest n with nodes := s.nodes, requestPtr := s.requestPtr } = s)
  ∧ ∀ (s : State) (n : NodeId),
    let work := (List.finRange 48).countP (fun e => decide ((s.entry e).phase ≠ .free ∧ (s.entry e).kind ≠ .recall))
    let room := work < 44 ∧ ∃ e, (s.entry e).phase = .free
    let offers := ((s.node n).link = .active ∨ (s.node n).link = .retraining)
      ∧ ((s.node n).membership = .member ∨ (s.node n).membership = .leaving)
    let fits : ReqBody → Prop := fun b => match b with
      | .configRead _ => True
      | .configWrite _ _ => True
      | .order => (s.node n).orderSlot = none
      | .leave => (s.node n).orderSlot = none ∧ ∀ e, (s.entry e).phase ≠ .free → (s.entry e).kind.cls = .request →
          (s.entry e).origin.map Origin.node = some n → (s.entry e).posted = true
      | .plainWrite _ mask _ => mask = 0 ∨ room
      | _ => room
    (∀ r, s.eligibleRequest n = some r ↔
      offers ∧ (s.node n).requestQ.head? = some r ∧ (s.decodeRefusal n r.body ≠ none ∨ fits r.body))
    ∧ (∀ r, s.eligibleReturn n = some r ↔
      offers ∧ (s.node n).returnQ.head? = some r ∧ (s.mergeTarget n r.line ≠ none ∨ room))
    ∧ (∀ l e, s.mergeTarget n l = some e ↔ s.activeOn l = some e ∧ (s.entry e).mark n = .none
        ∧ (((s.entry e).probe n).status = .queuedOut ∨ ((s.entry e).probe n).status = .sent
          ∨ (s.entry e).awaited = some n))
    ∧ (∀ l e, (s.activeOn l = some e → (s.entry e).line = l ∧ (s.entry e).phase ≠ .free ∧ (s.entry e).phase ≠ .queued)
        ∧ ((s.entry e).line = l → (s.entry e).phase ≠ .free → (s.entry e).phase ≠ .queued → s.activeOn l ≠ none))
    ∧ (s.node n).effectivePriority = (if (s.node n).urgent then 4 else (s.node n).priority.toNat)
    ∧ ∀ k : WorkKind, k.cls = .request ↔ k ≠ .returnD ∧ k ≠ .returnC ∧ k ≠ .recall

/-- A request that decode refuses is admitted as a refusal: it leaves its queue, REFUSE with its tag and the reason
joins the node's outbound queue, and a REFUSAL event is raised. A coherent request that needs a way of a set whose
eight ways are quarantined is refused the same way with DIRFAULT, and its entry is FREE again. That the REFUSE is
queued before an ALERT the event may queue is the model's choice (log 14). -/
def Obligations.RefusedRequestsAreAnswered : Prop :=
  (∀ (s : State) (us : List DirUpset) (n : NodeId) (tag : Tag) (c : Instr) (b : ReqBody) (kind : MsgKind)
      (place : Option Place) (reason : Reason),
    ((us = [] ∧ ((c = .order ∧ b = .order ∧ kind = .order ∧ place = none)
        ∨ (c = .leave ∧ b = .leave ∧ kind = .leave ∧ place = none)
        ∨ ∃ l, place = some (.line l) ∧ ((c = .plainRead ∧ b = .plainRead l ∧ kind = .plainRead)
          ∨ ∃ mask data, c = .plainWrite ∧ b = .plainWrite l mask data ∧ kind = .plainWrite)))
      ∨ ∃ l, place = some (.line l) ∧ ((c = .fetchS us ∧ b = .fetchS l ∧ kind = .fetchS)
          ∨ (c = .fetchH us ∧ b = .fetchH l ∧ kind = .fetchH) ∨ (c = .upgrade us ∧ b = .upgrade l ∧ kind = .upgrade)
          ∨ (c = .flush us ∧ b = .flush l ∧ kind = .flush))) →
    let u := s.damaged us
    u.choice = some (.request n ⟨tag, b⟩) → u.decodeRefusal n b = some reason →
    let taken := u.takeRequest n
    exec c s = .next ({ taken with nodes := tset taken.nodes n { taken.node n with
        outQ := (taken.node n).outQ ++ [OutMsg.refuse tag reason] } }.raise .refusal
      { node := some n, tag := some tag, kind := some kind, place := place, detail := some (.reason reason) }))
  ∧ (∀ (s : State) (n : NodeId) (tag : Tag) (l : LineAddr) (e : EntryId)
      (c : Instr) (b : ReqBody) (kind : WorkKind),
    (c, b, kind) ∈ coherentRequests l → kind ≠ .flush → s.admits n tag b l e → s.entry e = Entry.free →
    (s.dirSet (LineAddr.set l)).sound → (∀ w, (s.way (LineAddr.set l) w).quarantined = true) →
    let taken := s.takeRequest n
    exec c s = .next ({ taken with nodes := tset taken.nodes n { taken.node n with
        outQ := (taken.node n).outQ ++ [OutMsg.refuse tag .dirFault] } }.raise .refusal
      { node := some n, tag := some tag, kind := some kind.msgKind, place := some (.line l)
        detail := some (.reason .dirFault) }))

/-- A request that passes decode for a line another entry is active on takes the lowest-numbered FREE entry and is
QUEUED there behind the last of the line's chain; a posted PLAIN-WRITE with its DONE at admission and the posted count
raised; a return that does not merge, with its data in the buffer. A FETCH or UPGRADE that misses, no way free to take,
joins the way-wait list with snapshot miss: BEHIND an older seeker of its set; as the oldest, BLOCKED with no way to
recall, STALLED with no RECALL entry to be had, else RECALLING: the victim is the least recent unpinned way with a
record, pinned to a new RECALL entry made for the seeker, the arbiter's mark is set, and the recall probes the record's
nodes. A return that activates: RETURN-D from the holder pins the way and issues its WRITE; another of a node recorded
takes the node off the record, or changes nothing, and completes with DONE, a RETURN-D discarded with a PROTOCOL event;
on a miss the same with no way. The event, and an ALERT it may queue, come before that DONE: the model's choice
(log 14). A FETCH, UPGRADE, FLUSH or return whose HIT the walker pins waits for it with condition PIN, its snapshot left
absent (log 18); one whose set has an UNREADABLE way waits for that way, with snapshot miss and the read's event. A PIN
member told of a way it waits for reads its set again: the hit is taken, pinned ways are waited for again, a miss
begins, seeks or is refused; told of another way it does nothing. -/
def Obligations.EntriesQueueBehindTheActiveEntry : Prop :=
  (∀ (s : State) (us : List DirUpset) (n : NodeId) (tag : Tag) (l : LineAddr) (c : Instr) (b : ReqBody)
      (kind : WorkKind) (mask : ByteMask) (data : LineData) (e a last : EntryId),
    ((mask = 0 ∧ data = 0 ∧ ((c = .fetchS us ∧ b = .fetchS l ∧ kind = .fetchS)
        ∨ (c = .fetchH us ∧ b = .fetchH l ∧ kind = .fetchH) ∨ (c = .upgrade us ∧ b = .upgrade l ∧ kind = .upgrade)
        ∨ (c = .flush us ∧ b = .flush l ∧ kind = .flush)
        ∨ (us = [] ∧ c = .plainRead ∧ b = .plainRead l ∧ kind = .plainRead)))
      ∨ (us = [] ∧ mask ≠ 0 ∧ s.postsTo l = false ∧ c = .plainWrite ∧ b = .plainWrite l mask data
        ∧ kind = .plainWrite)) →
    let u := s.damaged us
    u.choice = some (.request n ⟨tag, b⟩) → u.decodeRefusal n b = none →
    s.freeEntry = some e → s.activeOn l = some a → s.chainTail a = last → last ≠ e →
    exec c s = .next { u.takeRequest n with
      entries := tset (tset s.entries e { Entry.free with
        phase := .queued, kind := kind, admitted := kind, origin := some ⟨n, tag⟩, line := l, mask := mask
        writeData := data }) last { s.entry last with successor := some e } })
  ∧ (∀ (s : State) (n : NodeId) (tag : Tag) (l : LineAddr) (mask : ByteMask) (data : LineData) (e a last : EntryId),
    mask ≠ 0 → s.postsTo l = true → s.choice = some (.request n ⟨tag, .plainWrite l mask data⟩) →
    s.decodeRefusal n (.plainWrite l mask data) = none → s.freeEntry = some e → s.activeOn l = some a →
    s.chainTail a = last → last ≠ e →
    let taken := s.takeRequest n
    exec .plainWrite s = .next { taken with
      nodes := tset taken.nodes n { taken.node n with
        outQ := (taken.node n).outQ ++ [OutMsg.done tag .request false false], posted := (taken.node n).posted + 1 }
      entries := tset (tset s.entries e { Entry.asked .plainWrite n tag l with
        phase := .queued, posted := true, mask := mask, writeData := data }) last
        { s.entry last with successor := some e } })
  ∧ (∀ (s : State) (us : List DirUpset) (n : NodeId) (r : RetMsg) (e a last : EntryId),
    let u := s.damaged us
    u.choice = some (.ret n r) → s.mergeTarget n r.line = none → s.freeEntry = some e →
    s.activeOn r.line = some a → s.chainTail a = last → last ≠ e →
    let entered (kind : WorkKind) : State := { u with
      returnPtr := n + 1
      nodes := tset s.nodes n { s.node n with returnQ := (s.node n).returnQ.tail }
      entries := tset (tset s.entries e { Entry.free with
        phase := .queued, kind := kind, admitted := kind, origin := some ⟨n, r.tag⟩, line := r.line
        buffer := r.data }) last { s.entry last with successor := some e } }
    (r.data.isSome → exec (.returnD us) s = .next (entered .returnD))
    ∧ (r.data = none → exec (.returnC us) s = .next (entered .returnC)))
  ∧ (∀ (s : State) (n : NodeId) (tag : Tag) (l : LineAddr) (e : EntryId)
      (c : Instr) (b : ReqBody) (kind k : WorkKind),
    (c, b, kind) ∈ coherentRequests l → (kind = .fetchS ∧ k = .fetchS) ∨ ((kind = .fetchH ∨ kind = .upgrade) ∧ k = .fetchH) →
    s.admits n tag b l e → (s.dirSet (LineAddr.set l)).sound →
    (s.dirSet (LineAddr.set l)).misses (LineAddr.tag l) → (∃ v, (s.way (LineAddr.set l) v).quarantined = false) →
    let set := LineAddr.set l
    let taken := s.takeRequest n
    let waiting (x : WaitCond) : State := { taken with
      entries := tset s.entries e { Entry.asked kind n tag l with phase := .wayWait, kind := k, snapshot := some .miss }
      wayWait := s.wayWait ++ [⟨e, x⟩] }
    ((∃ m ∈ s.wayWait, m.cond.seeks = true ∧ s.setOf m.entry = set) → exec c s = .next (waiting .behind))
    ∧ ((∀ m ∈ s.wayWait, m.cond.seeks = true → s.setOf m.entry ≠ set) → (∀ v, ¬(s.way set v).free) →
      ((∀ v, ¬(s.way set v).recallable) → exec c s = .next (waiting .blocked))
      ∧ ∀ v r, (s.dirSet set).first Way.recallable v → (s.way set v).written = some r →
        (4 ≤ s.recallsInUse ∨ (∀ f, f ≠ e → (s.entry f).phase ≠ .free) → exec c s = .next (waiting .stalled))
        ∧ ∀ f, s.recallsInUse < 4 → f ≠ e → (s.entry f).phase = .free →
          (∀ g, g < f → g ≠ e → (s.entry g).phase ≠ .free) → s.activeOn (lineOf r.tag set) = none → s.reaches r.sharers →
          exec c s = .next ({ (waiting .recalling).setPin set v (.entry f) with recallMark := .wayWait }.probing f
            { Entry.free with
              phase := .gather, kind := .recall, admitted := .recall, line := lineOf r.tag set, way := some v
              scope := some .all, beneficiary := some e, creation := some r
              snapshot := some (.hit r.state r.sharers) }
            (match r.state with | .shared => .drop | .held => .surrender) r.sharers)))
  ∧ (∀ (s : State) (n : NodeId) (r : RetMsg) (e : EntryId) (w : WayNo) (st : DirState) (T : NodeSet),
    s.choice = some (.ret n r) → s.mergeTarget n r.line = none → s.freeEntry = some e → s.activeOn r.line = none →
    (∀ m ∈ s.wayWait, m.entry ≠ e) → (s.dirSet (LineAddr.set r.line)).sound →
    let set := LineAddr.set r.line
    let tag := LineAddr.tag r.line
    let taken : State := { s with
      returnPtr := n + 1, nodes := tset s.nodes n { s.node n with returnQ := (s.node n).returnQ.tail } }
    let done (u : State) : State := { u with nodes := tset u.nodes n { u.node n with
      outQ := (u.node n).outQ ++ [OutMsg.done r.tag .ret false false] } }
    let event : ErrRec := { node := some n, tag := some r.tag, kind := some .returnD, place := some (.line r.line) }
    ((s.dirSet set).hitAt w ⟨tag, st, T⟩ →
      let pinned := taken.setPin set w (.entry e)
      (∀ b, r.data = some b → st = .held → T = NodeSet.single n → s.portFree →
        exec (.returnD []) s = .next { pinned with
          entries := tset s.entries e { Entry.free with
            phase := .finish, kind := .returnD, admitted := .returnD, origin := some ⟨n, r.tag⟩, line := r.line
            way := some w, snapshot := some (.hit .held T), buffer := some b, poolStale := true, outcome := .vacant
            poolOp := .writeOut }
          poolQueue := s.poolQueue ++ [⟨.entry e, r.line, some b⟩] })
      ∧ (s.status = .ready → Directory.wf s.dir → s.quiet set w → (st = .shared → T &&& s.lostNodes = 0) →
        let left : Option Record := match st with
          | .held => if T = NodeSet.single n then none else some ⟨tag, .held, T⟩
          | .shared => if NodeSet.without T n = 0 then none else some ⟨tag, .shared, NodeSet.without T n⟩
        (r.data = none → ∃ t, exec (.returnC []) s = .next t ∧ CompletedIn (done pinned) t e set w left)
        ∧ (r.data.isSome = true → ¬(st = .held ∧ T = NodeSet.single n) → ∃ t, exec (.returnD []) s = .next t
          ∧ CompletedIn (done (pinned.raise .protocol event)) t e set w left)))
    ∧ ((s.dirSet set).misses tag → s.entry e = Entry.free →
      (r.data = none → exec (.returnC []) s = .next (done taken))
      ∧ (r.data.isSome = true → exec (.returnD []) s = .next (done (taken.raise .protocol event)))))
  ∧ (∀ (s u : State) (l : LineAddr) (c : Instr) (e : EntryId) (w : WayNo) (x : Entry),
    (∃ n tag b, (c, b, x.kind) ∈ coherentRequests l ∧ s.admits n tag b l e ∧ x = Entry.asked x.kind n tag l
        ∧ u = s.takeRequest n)
      ∨ (∃ n r, s.choice = some (.ret n r) ∧ s.mergeTarget n r.line = none ∧ s.freeEntry = some e
        ∧ s.activeOn r.line = none ∧ (∀ m ∈ s.wayWait, m.entry ≠ e) ∧ r.line = l
        ∧ (r.data = none ∧ c = .returnC [] ∧ x.kind = .returnC ∨ r.data.isSome = true ∧ c = .returnD [] ∧ x.kind = .returnD)
        ∧ x = { Entry.asked x.kind n r.tag l with buffer := r.data }
        ∧ u = { s with
            returnPtr := n + 1, nodes := tset s.nodes n { s.node n with returnQ := (s.node n).returnQ.tail } }) →
    let set := LineAddr.set l
    let waiting (v : State) (d : Option Snapshot) : State := { v with
      entries := tset s.entries e { x with phase := .wayWait, snapshot := d }
      wayWait := s.wayWait ++ [⟨e, .pin [w]⟩] }
    (∀ st T, (s.dirSet set).sound → (s.dirSet set).walkerHit w ⟨LineAddr.tag l, st, T⟩ →
      exec c s = .next (waiting u none))
    ∧ ((s.dirSet set).unreadableAt w (LineAddr.tag l) →
      exec c s = .next (waiting (u.raise .dirUncorrected
        { kind := some x.kind.msgKind, place := some (.way set w), detail := some (.reader .activation) }) (some .miss))))
  ∧ (∀ (k : Work) (e : EntryId) (w : WayNo) (ws : List WayNo) (x : Entry),
    k.s.wayWait.find? (fun m => decide (m.entry = e)) = some ⟨e, .pin ws⟩ → k.s.entry e = x →
    let set := LineAddr.set x.line
    let tag := LineAddr.tag x.line
    (w ∉ ws → k.reread e w = k)
    ∧ (w ∈ ws → (k.s.dirSet set).sound →
      (∀ v st T, (k.s.dirSet set).hitAt v ⟨tag, st, T⟩ →
        k.reread e w = (k.mod (fun s => s.setPin set v (.entry e))).begin e (.hit st T) (some v))
      ∧ (∀ v st T, (k.s.dirSet set).walkerHit v ⟨tag, st, T⟩ → k.reread e w = k.mod (fun s => s.wait e (.pin [v])))
      ∧ ((k.s.dirSet set).misses tag →
        let sought : Work := k.mod (fun s => s.modEntry e (fun x =>
          { x with kind := if x.kind = .upgrade then .fetchH else x.kind, snapshot := some .miss }))
        (x.kind.needsWay = false → k.reread e w = k.begin e .miss none)
        ∧ (x.kind.needsWay = true →
          ((∀ v, (k.s.way set v).quarantined = true) → k.reread e w = sought.dirFault e)
          ∧ ((∃ v, (k.s.way set v).quarantined = false) →
            k.reread e w = sought.seek e (k.s.readSet set .wayWait x.kind.msgKind).2))))
    ∧ (w ∈ ws → ∀ v, (k.s.dirSet set).unreadableAt v tag →
      k.reread e w = (k.mod (fun s => s.raise .dirUncorrected
        { kind := some x.kind.msgKind, place := some (.way set v), detail := some (.reader .wayWait) })).mod
        (fun s => (s.modEntry e (fun x => { x with snapshot := some .miss })).wait e (.pin [v]))))

/-- FETCH_S of a line with no active entry, over a sound set with an unpinned SHARED hit: the entry pins the way and
gathers with the record as its snapshot and a READ of the line out. FETCH_H over SHARED by its own node alone does the
same. PLAIN_READ: the entry gathers at once, with no snapshot and no way, and a READ of the line is out. Over other
hits: FETCH_H, and UPGRADE of a node not recorded, read the pool and PROBE-DROP the other sharers, UPGRADE of a sharer
only drops, FLUSH drops all; a holder is asked to YIELD for FETCH_S, else to SURRENDER; a node that fetches what it
holds waits for its own return. On a miss the entry takes the least recent free way, an UPGRADE becoming a FETCH-H.
With the pool port full the READ joins the issue-wait list. -/
def Obligations.FetchesAndPlainReadsReadThePool : Prop :=
  (∀ (s : State) (n : NodeId) (tag : Tag) (l : LineAddr) (e : EntryId) (w : WayNo) (T : NodeSet) (c : Instr)
      (b : ReqBody) (kind : WorkKind),
    (c = .fetchS [] ∧ b = .fetchS l ∧ kind = .fetchS)
      ∨ (c = .fetchH [] ∧ b = .fetchH l ∧ kind = .fetchH ∧ T = NodeSet.single n) →
    s.choice = some (.request n ⟨tag, b⟩) → s.decodeRefusal n b = none →
    s.freeEntry = some e → s.activeOn l = none → s.portFree → (s.dirSet (LineAddr.set l)).sound →
    (s.dirSet (LineAddr.set l)).hitAt w ⟨LineAddr.tag l, .shared, T⟩ →
    (∀ k ∈ s.wayWait, k.entry ≠ e) →
    exec c s = .next { (s.takeRequest n).setPin (LineAddr.set l) w (.entry e) with
      entries := tset s.entries e { Entry.free with
        phase := .gather, kind := kind, admitted := kind, origin := some ⟨n, tag⟩, line := l, way := some w
        snapshot := some (.hit .shared T), poolOp := .readOut }
      poolQueue := s.poolQueue ++ [⟨.entry e, l, none⟩] })
  ∧ (∀ (s : State) (n : NodeId) (tag : Tag) (l : LineAddr) (e : EntryId),
    s.choice = some (.request n ⟨tag, .plainRead l⟩) → s.decodeRefusal n (.plainRead l) = none →
    s.freeEntry = some e → s.activeOn l = none → s.portFree →
    exec .plainRead s = .next { s.takeRequest n with
      entries := tset s.entries e { Entry.free with
        phase := .gather, kind := .plainRead, admitted := .plainRead, origin := some ⟨n, tag⟩, line := l
        poolOp := .readOut }
      poolQueue := s.poolQueue ++ [⟨.entry e, l, none⟩] })
  ∧ (∀ (s : State) (n h : NodeId) (tag : Tag) (l : LineAddr) (e : EntryId) (w : WayNo) (st : DirState) (T : NodeSet)
      (c : Instr) (b : ReqBody) (kind : WorkKind),
    (c, b, kind) ∈ coherentRequests l → s.admits n tag b l e → (s.dirSet (LineAddr.set l)).sound →
    (s.dirSet (LineAddr.set l)).hitAt w ⟨LineAddr.tag l, st, T⟩ →
    let taken := (s.takeRequest n).setPin (LineAddr.set l) w (.entry e)
    let x (k : WorkKind) : Entry := { Entry.asked kind n tag l with
      phase := .gather, kind := k, way := some w, snapshot := some (.hit st T) }
    let others := NodeSet.without T n
    (st = .shared → s.reaches T →
      (kind = .fetchH ∨ (kind = .upgrade ∧ NodeSet.has T n = false) → s.portFree →
        exec c s = .next { taken.probing e { x .fetchH with poolOp := .readOut } .drop others with
          poolQueue := s.poolQueue ++ [⟨.entry e, l, none⟩] })
      ∧ (kind = .upgrade → NodeSet.has T n = true → others ≠ 0 → exec c s = .next (taken.probing e (x .upgrade) .drop others))
      ∧ (kind = .flush → T ≠ 0 → exec c s = .next (taken.probing e (x .flush) .drop T)))
    ∧ (st = .held → T = NodeSet.single h →
      (h ≠ n → s.reaches T →
        (kind = .fetchS → exec c s = .next (taken.probing e (x .fetchS) .yield T))
        ∧ (kind = .fetchH ∨ kind = .upgrade → exec c s = .next (taken.probing e (x .fetchH) .surrender T)))
      ∧ (s.reaches T → kind = .flush → exec c s = .next (taken.probing e (x .flush) .surrender T))
      ∧ (h = n → kind = .fetchS ∨ kind = .fetchH → exec c s = .next { taken with
          entries := tset s.entries e { x kind with
            awaited := some n
            returnTimer := if (s.node n).link = .retraining then .frozen s.waitSpan else .running s.waitSpan } })))
  ∧ (∀ (s : State) (n : NodeId) (tag : Tag) (l : LineAddr) (e : EntryId) (w : WayNo)
      (c : Instr) (b : ReqBody) (kind k : WorkKind),
    (c, b, kind) ∈ coherentRequests l → (kind = .fetchS ∧ k = .fetchS) ∨ ((kind = .fetchH ∨ kind = .upgrade) ∧ k = .fetchH) →
    s.admits n tag b l e → s.portFree → (s.dirSet (LineAddr.set l)).sound →
    (s.dirSet (LineAddr.set l)).misses (LineAddr.tag l) → (s.dirSet (LineAddr.set l)).first Way.free w →
    (∀ m ∈ s.wayWait, m.cond.seeks = true → s.setOf m.entry ≠ LineAddr.set l) →
    exec c s = .next { (s.takeRequest n).setPin (LineAddr.set l) w (.entry e) with
      entries := tset s.entries e { Entry.asked kind n tag l with
        phase := .gather, kind := k, way := some w, snapshot := some .miss, poolOp := .readOut }
      poolQueue := s.poolQueue ++ [⟨.entry e, l, none⟩] })
  ∧ (∀ (s : State) (n : NodeId) (tag : Tag) (l : LineAddr) (e : EntryId), ¬s.portFree →
    let waiting (u : State) (x : Entry) : State := { u with
      entries := tset s.entries e { x with poolOp := .waiting }
      issueWait := s.issueWait ++ [⟨.entry e, l, none⟩] }
    (s.choice = some (.request n ⟨tag, .plainRead l⟩) → s.decodeRefusal n (.plainRead l) = none →
      s.freeEntry = some e → s.activeOn l = none →
      exec .plainRead s = .next (waiting (s.takeRequest n)
        { Entry.free with
          phase := .gather, kind := .plainRead, admitted := .plainRead, origin := some ⟨n, tag⟩, line := l }))
    ∧ ∀ w T c b kind, (c, b, kind) ∈ coherentRequests l → s.admits n tag b l e →
      kind = .fetchS ∨ (kind = .fetchH ∧ T = NodeSet.single n) → (s.dirSet (LineAddr.set l)).sound →
      (s.dirSet (LineAddr.set l)).hitAt w ⟨LineAddr.tag l, .shared, T⟩ →
      exec c s = .next (waiting ((s.takeRequest n).setPin (LineAddr.set l) w (.entry e))
        { Entry.asked kind n tag l with phase := .gather, way := some w, snapshot := some (.hit .shared T) }))

/-- UPGRADE over a sound set with an unpinned hit SHARED by its own node alone: no probe and no READ; GRANT-H without
data goes out at once, the outcome is HELD by the node, and the entry waits in FINISH for the CONFIRM. FLUSH of a line
that its sound set misses: activated, answered DONE and completed as one step, the directory and the table as they
were. UPGRADE over HELD by its own node: a PROTOCOL event with STATE, REFUSE STATE, and the entry completes with the
record as it was; that the event comes before the REFUSE is the model's choice (log 14). -/
def Obligations.UpgradeAndFlushAnsweredAtOnce : Prop :=
  (∀ (s : State) (n : NodeId) (tag : Tag) (l : LineAddr) (e : EntryId) (w : WayNo),
    s.choice = some (.request n ⟨tag, .upgrade l⟩) →
    s.decodeRefusal n (.upgrade l) = none → s.freeEntry = some e → s.activeOn l = none →
    (s.dirSet (LineAddr.set l)).sound →
    (s.dirSet (LineAddr.set l)).hitAt w ⟨LineAddr.tag l, .shared, NodeSet.single n⟩ →
    (∀ k ∈ s.wayWait, k.entry ≠ e) →
    let taken := (s.takeRequest n).setPin (LineAddr.set l) w (.entry e)
    exec (.upgrade []) s = .next { taken with
      nodes := tset taken.nodes n { taken.node n with outQ := (taken.node n).outQ ++ [OutMsg.grantH tag e l none] }
      entries := tset s.entries e { Entry.free with
        phase := .finish, kind := .upgrade, admitted := .upgrade, origin := some ⟨n, tag⟩, line := l, way := some w
        snapshot := some (.hit .shared (NodeSet.single n)), outcome := .record .held (NodeSet.single n)
        confirm := .awaited n } })
  ∧ (∀ (s : State) (n : NodeId) (tag : Tag) (l : LineAddr) (e : EntryId),
    s.choice = some (.request n ⟨tag, .flush l⟩) → s.decodeRefusal n (.flush l) = none →
    s.freeEntry = some e → s.entry e = Entry.free → s.activeOn l = none → (s.dirSet (LineAddr.set l)).sound →
    (s.dirSet (LineAddr.set l)).misses (LineAddr.tag l) → (∀ k ∈ s.wayWait, k.entry ≠ e) →
    let taken := s.takeRequest n
    exec (.flush []) s = .next { taken with nodes := tset taken.nodes n { taken.node n with
      outQ := (taken.node n).outQ ++ [OutMsg.done tag .request false false] } })
  ∧ (∀ (s : State) (n : NodeId) (tag : Tag) (l : LineAddr) (e : EntryId) (w : WayNo),
    s.status = .ready → Directory.wf s.dir → s.admits n tag (.upgrade l) l e → (s.dirSet (LineAddr.set l)).sound →
    (s.dirSet (LineAddr.set l)).hitAt w ⟨LineAddr.tag l, .held, NodeSet.single n⟩ → s.quiet (LineAddr.set l) w →
    let u := ((s.takeRequest n).setPin (LineAddr.set l) w (.entry e)).raise .protocol
      { node := some n, tag := some tag, kind := some .upgrade, place := some (.line l), detail := some .state }
    ∃ t, exec (.upgrade []) s = .next t
      ∧ CompletedIn { u with nodes := tset u.nodes n { u.node n with
          outQ := (u.node n).outQ ++ [OutMsg.refuse tag .state] } } t e (LineAddr.set l) w
        (some ⟨LineAddr.tag l, .held, NodeSet.single n⟩))

/-- PLAIN_WRITE by its mask and its region: an empty mask is answered DONE with no entry; a full one issues its WRITE at
once, a partial one its READ; in a PLAIN-POSTED region the DONE goes out at admission and the posted count rises. -/
def Obligations.PlainWriteByMaskAndRegion : Prop :=
  ∀ (s : State) (n : NodeId) (tag : Tag) (l : LineAddr) (mask : ByteMask) (data : LineData) (e : EntryId),
    s.choice = some (.request n ⟨tag, .plainWrite l mask data⟩) → s.decodeRefusal n (.plainWrite l mask data) = none →
    s.freeEntry = some e → s.activeOn l = none → s.portFree →
    let taken := s.takeRequest n
    let answered (x : Node) : Node := { x with outQ := x.outQ ++ [OutMsg.done tag .request false false] }
    let posted := s.postsTo l
    let fresh : Entry := { Entry.free with
      kind := .plainWrite, admitted := .plainWrite, origin := some ⟨n, tag⟩, line := l, posted := posted, mask := mask
      writeData := data }
    let counted : State := if posted then { taken with
      nodes := tset taken.nodes n
        { answered (taken.node n) with posted := (taken.node n).posted + 1 } } else taken
    (mask = 0 → exec .plainWrite s = .next { taken with nodes := tset taken.nodes n (answered (taken.node n)) })
    ∧ (mask = BitVec.allOnes 64 → exec .plainWrite s = .next { counted with
        entries := tset s.entries e { fresh with phase := .finish, poolOp := .writeOut }
        poolQueue := s.poolQueue ++ [⟨.entry e, l, some ⟨data, false⟩⟩] })
    ∧ (mask ≠ 0 → mask ≠ BitVec.allOnes 64 → exec .plainWrite s = .next { counted with
        entries := tset s.entries e { fresh with phase := .gather, poolOp := .readOut }
        poolQueue := s.poolQueue ++ [⟨.entry e, l, none⟩] })

/-- ORDER that passes decode: with no posted write it is answered DONE at once; else the slot takes its tag and every
posted entry of the node, and nothing is answered. -/
def Obligations.OrderWaitsForPostedWrites : Prop :=
  ∀ (s : State) (n : NodeId) (tag : Tag),
    s.choice = some (.request n ⟨tag, .order⟩) → s.decodeRefusal n .order = none →
    let taken := s.takeRequest n
    ((s.node n).posted = 0 → exec .order s = .next { taken with nodes := tset taken.nodes n { taken.node n with
        outQ := (taken.node n).outQ ++ [OutMsg.done tag .request false false] } })
    ∧ ((s.node n).posted ≠ 0 → ∃ waiting : List EntryId,
        exec .order s = .next { taken with nodes := tset taken.nodes n { taken.node n with
          orderSlot := some ⟨tag, waiting⟩ } }
        ∧ waiting.Nodup ∧ ∀ e, e ∈ waiting ↔ (s.entry e).phase ≠ .free ∧ (s.entry e).posted = true
          ∧ (s.entry e).origin.map Origin.node = some n)

/-- LEAVE that passes decode: the node is LEAVING, and a DEPART record with its tag and all 16 384 sets to go is
started, at once with position 0 where the walker walks no set, else among the joining records. -/
def Obligations.LeaveStartsTheDepartureWalk : Prop :=
  ∀ (s : State) (n : NodeId) (tag : Tag),
    s.choice = some (.request n ⟨tag, .leave⟩) → s.decodeRefusal n .leave = none →
    let taken := s.takeRequest n
    exec .leave s = .next { taken with
      nodes := tset taken.nodes n { taken.node n with membership := .leaving }
      walker := { s.walker with
        position := if s.walker.walks then s.walker.position else 0
        records := tset s.walker.records n (some { mode := .depart, remaining := 16384, recalls := 0, leaveTag := tag
                                                   joining := s.walker.walks }) } }

/-- A return that merges: it leaves its queue, is answered DONE on the return channel and marks the entry. Merged into
a probe: RETURN-D gives its data to the buffer, newer than the pool, unless the node was asked to DROP, where its data
is discarded with a PROTOCOL event and the mark is RETURN-C; the probe's answer is still waited for. Awaited: it is
awaited no more and its timer stops. RETURN-D then ends GATHER: GRANT-S or GRANT-H goes out with its data, FLUSH and
RECALL write it to the pool. RETURN-C: a FETCH issues its READ; a FLUSH, with its DONE, and a RECALL complete, the way
VACANT. That the DONE of a return is queued before an ALERT its event may queue is the model's choice (log 14), and so
is that an orphaned FETCH issues its READ too (log 20). -/
def Obligations.ReturnsMerge : Prop :=
  ∀ (s : State) (us : List DirUpset) (n : NodeId) (r : RetMsg) (e : EntryId),
    let u := s.damaged us
    let x := s.entry e
    u.choice = some (.ret n r) → s.mergeTarget n r.line = some e →
    let v : State := { u with
      returnPtr := n + 1
      nodes := tset s.nodes n { s.node n with
        returnQ := (s.node n).returnQ.tail, outQ := (s.node n).outQ ++ [OutMsg.done r.tag .ret false false] } }
    (x.awaited ≠ some n →
      (∀ b, r.data = some b → (x.probe n).kind = some .drop →
        exec (.returnD us) s = .next { v.raise .protocol { node := some n, tag := some r.tag, kind := some .returnD
                                                           place := some (.line r.line) } with
          entries := tset s.entries e (x.setMark n .returnC) })
      ∧ (∀ b, r.data = some b → (x.probe n).kind ≠ some .drop →
        exec (.returnD us) s = .next { v with entries := tset s.entries e { x.setMark n .returnD with
          buffer := some b, poolStale := true } })
      ∧ (r.data = none →
        exec (.returnC us) s = .next { v with entries := tset s.entries e (x.setMark n .returnC) }))
    ∧ (x.awaited = some n → x.phase = .gather → x.line = r.line → x.snapshot = some (.hit .held (NodeSet.single n)) →
      x.poolOp = .none → (∀ k, (x.probe k).unanswered = false) → x.confirm = .notNeeded → s.portFree →
      (∀ b, r.data = some b →
        let y : Entry := { x.setMark n .returnD with
          awaited := none, returnTimer := .stopped, buffer := some b, poolStale := true, phase := .finish }
        let granted (N : NodeId) (m : OutMsg) : State := { v with nodes := tset v.nodes N { v.node N with
          outQ := (v.node N).outQ ++ [m] } }
        let stored := s.poolQueue ++ [⟨.entry e, r.line, some b⟩]
        (∀ N, x.origin.map Origin.node = some N → x.orphaned = false → (s.node N).link ≠ .down → 
          (x.kind = .fetchS → x.holderKept = false →
            exec (.returnD us) s = .next { granted N (.grantS x.originTag e r.line b) with
              entries := tset s.entries e { y with
                outcome := .record .shared (NodeSet.single N), confirm := .awaited N, poolOp := .writeOut }
              poolQueue := stored })
          ∧ (x.kind = .fetchH → x.settledByLoss = false → x.owesWriteBack = false →
            exec (.returnD us) s = .next { granted N (.grantH x.originTag e r.line (some b)) with
              entries := tset s.entries e { y with
                outcome := .record .held (NodeSet.single N), confirm := .awaited N } }))
        ∧ (x.kind = .flush ∨ x.kind = .recall → exec (.returnD us) s = .next { v with
            entries := tset s.entries e { y with outcome := .vacant, poolOp := .writeOut }, poolQueue := stored }))
      ∧ (r.data = none →
        (x.kind = .fetchS ∨ x.kind = .fetchH → exec (.returnC us) s = .next { v with
          entries := tset s.entries e { x.setMark n .returnC with
            awaited := none, returnTimer := .stopped, poolOp := .readOut }
          poolQueue := s.poolQueue ++ [⟨.entry e, r.line, none⟩] })
        ∧ ∀ w, s.status = .ready → Directory.wf u.dir → x.way = some w → s.quiet (LineAddr.set r.line) w →
          x.successor = none → x.posted = false → x.poolStale = false → x.owesWriteBack = false →
          (∀ k, (x.probe k).straggling = false) →
          (∀ N, x.kind = .flush → x.origin.map Origin.node = some N → x.orphaned = false → (s.node N).link ≠ .down →
            ∃ t, exec (.returnC us) s = .next t ∧ CompletedIn { v with nodes := tset v.nodes N { v.node N with
              outQ := (v.node N).outQ ++ [OutMsg.done x.originTag .request false false] } } t e (LineAddr.set r.line)
              w none)
          ∧ (x.kind = .recall → x.scope = some .all → x.beneficiary = none → (∀ m ∈ s.wayWait, m.cond ≠ .stalled) →
            s.walker.stall.reserving = none → ∃ t, exec (.returnC us) s = .next t
              ∧ CompletedIn v t e (LineAddr.set r.line) w none)))

/-! ## The Configuration Space -/

/-- The register map: a register is found at its own offset and nowhere else, and an offset that no register occupies,
or that is not a multiple of 4, names none. -/
def Obligations.RegistersStandAtTheirOffsets : Prop :=
  (∀ g : Reg, regAt g.offset = some g) ∧ ∀ (o : Offset) (g : Reg), regAt o = some g → o = g.offset

/-- CONFIG_READ: CONFIG-DATA with the tag and the register's value as it stands at the admission, or, where no
register stands at the offset, REFUSE CONFIG-OFFSET with a REFUSAL event that names no place; that the REFUSE is
queued before an ALERT the event may queue is the model's choice (log 14). The value of each register, field by field
as R164 and R165 lay it out: counts as numbers, 0 for the registers that are written only, an ERROR-RECORD by its
class's first record and 0 where nothing is pending, credits outstanding 0 outside MEMBER and LEAVING (R138). That
ALERT-STATUS reads 0 whole while the alert is IDLE, and the WALK-STATUS word of a node 0 whole where it has no walk
record, is the model's choice (log 34). What the absent fields of a pending class's record read as is the model's too
(log 34) and is not stated. -/
def Obligations.ConfigReadIsAnswered : Prop :=
  (∀ (s : State) (n : NodeId) (tag : Tag) (o : Offset), s.choice = some (.request n ⟨tag, .configRead o⟩) →
    let taken := s.takeRequest n
    let sent (m : OutMsg) : State := { taken with nodes := tset taken.nodes n { taken.node n with
      outQ := (taken.node n).outQ ++ [m] } }
    (∀ g, regAt o = some g → exec .configRead s = .next (sent (.configData tag (taken.regValue g))))
    ∧ (regAt o = none → exec .configRead s = .next ((sent (.refuse tag .configOffset)).raise .refusal
        { node := some n, tag := some tag, kind := some .configRead, detail := some (.reason .configOffset) })))
  ∧ (∀ s : State,
    let used := (List.finRange 48).countP (fun e => decide ((s.entry e).phase ≠ .free))
    let recalls := (List.finRange 48).countP
      (fun e => decide ((s.entry e).phase ≠ .free ∧ (s.entry e).kind = .recall))
    s.regValue .id = 0x0D440001
    ∧ (recalls ≤ 4 → s.regValue .hubStatus = (0#13 ++ BitVec.ofNat 3 recalls ++ 0#2 ++ BitVec.ofNat 6 used ++ 0#7
        ++ BitVec.ofBool (decide (s.status = .ready)) : BitVec 32))
    ∧ s.regValue .hubControl = (0#30 ++ BitVec.ofBool s.correctWb ++ BitVec.ofBool s.promote : BitVec 32)
    ∧ s.regValue .poolSize = (0#25 ++ s.poolSize : BitVec 32)
    ∧ s.regValue .probeTiming = (0#14 ++ s.retries ++ s.probeTimeout : BitVec 32)
    ∧ s.regValue .relinkTimeout = (0#16 ++ s.relinkTimeout : BitVec 32)
    ∧ (s.dir.validCount < 2 ^ 18 → (s.regValue .validCount).toNat = s.dir.validCount)
    ∧ (s.dir.quarCount < 2 ^ 18 → (s.regValue .quarCount).toNat = s.dir.quarCount)
    ∧ s.regValue .errorAck = 0 ∧ s.regValue .alertClear = 0
    ∧ (∀ i, (s.regValue .errorPending).getLsbD i = true ↔ ∃ c : Fin 10, i = c.val ∧ (s.cls c).pending = true)
    ∧ s.regValue .alertMask = (0#22 ++ s.alertMask : BitVec 32)
    ∧ s.regValue .alertControl = (0#23 ++ BitVec.ofBool s.pinEnable ++ 0#6 ++ BitVec.ofNat 2 s.alertTarget.val : BitVec 32)
    ∧ (s.alert = .idle → s.regValue .alertStatus = 0)
    ∧ (∀ a, s.alert = .sent a → ∃ left : Bool, (left = true ↔ ∀ classes, OutMsg.alert classes ∉ (s.node a).outQ)
        ∧ s.regValue .alertStatus = (0#23 ++ BitVec.ofBool left ++ 0#2 ++ BitVec.ofNat 2 a.val ++ 0#3 ++ 1#1 : BitVec 32))
    ∧ (∃ busy : Bool, (busy = true ↔ s.status = .init ∨ ∃ n, s.walker.record n ≠ none)
        ∧ s.regValue .walkStatus = (0#2 ++ s.walker.pointer ++ 0#15 ++ BitVec.ofBool busy : BitVec 32)))
  ∧ (∀ (s : State) (n : NodeId) (r : RegionNo),
    (∀ x, s.node n = x →
      s.regValue (.nodeControl n) = (0#16 ++ x.patienceLimit ++ 0#2 ++ x.priority
        ++ (match x.target.grade with | .g1 => 0#2 | .g2 => 1#2 | .g4 => 2#2)
        ++ (match x.target.lanes with | .x8 => 0#1 | .x16 => 1#1) ++ BitVec.ofBool x.enable : BitVec 32)
      ∧ (x.posted < 64 → s.regValue (.nodeStatus n) =
        let joined := x.membership = .member ∨ x.membership = .leaving
        (0#4 ++ (if joined then BitVec.ofNat 4 (8 - x.retCredits) else 0#4) ++ 0#3
          ++ (if joined then BitVec.ofNat 5 (16 - x.reqCredits) else 0#5) ++ 0#1 ++ BitVec.ofNat 6 x.posted
          ++ BitVec.ofBool x.mismatch
          ++ (match x.agreed with | none => 0#2 | some ⟨_, .g1⟩ => 1#2 | some ⟨_, .g2⟩ => 2#2 | some ⟨_, .g4⟩ => 3#2)
          ++ (match x.agreed with | none => 0#2 | some ⟨.x8, _⟩ => 1#2 | some ⟨.x16, _⟩ => 2#2)
          ++ (match x.membership with | .absent => 0#2 | .member => 1#2 | .leaving => 2#2 | .lost => 3#2)
          ++ (match x.link with | .down => 0#2 | .training => 1#2 | .active => 2#2 | .retraining => 3#2) : BitVec 32)))
    ∧ s.regValue (.nodeCommand n) = 0
    ∧ (∀ g, tget s.regions r = g →
      s.regValue (.base r) = (0#16 ++ g.base : BitVec 32) ∧ s.regValue (.limit r) = (0#16 ++ g.limit : BitVec 32)
      ∧ s.regValue (.attr r) = (0#16 ++ g.writeSet ++ g.readSet ++ 0#6
        ++ (match g.kind with | .coherent => 0#2 | .plain => 1#2 | .plainPosted => 2#2) : BitVec 32)
      ∧ s.regValue (.enable r) = (0#31 ++ BitVec.ofBool g.enabled : BitVec 32))
    ∧ (s.walker.record n = none → s.regValue (.walkRecord n) = 0)
    ∧ ∀ x, s.walker.record n = some x → x.remaining < 2 ^ 15 → x.recalls < 8 → s.regValue (.walkRecord n) =
        (0#1 ++ BitVec.ofNat 15 x.remaining ++ 0#9 ++ BitVec.ofNat 3 x.recalls ++ 0#2
          ++ (match x.mode with | .depart => 0#1 | .loss => 1#1) ++ 1#1 : BitVec 32))
  ∧ ∀ (s : State) (c : Fin 10),
    (∀ w, (s.cls c).pending = false → s.regValue (.errorRecord c w) = 0)
    ∧ ((s.cls c).count < 2 ^ 16 → (s.regValue (.errorCount c)).toNat = (s.cls c).count)
    ∧ ∀ r, (s.cls c).pending = true → (s.cls c).first = some r →
      s.regValue (.errorRecord c 0) = (0#23 ++ BitVec.ofBool r.detail.isSome ++ BitVec.ofBool r.place.isSome
        ++ BitVec.ofBool r.kind.isSome ++ BitVec.ofBool r.tag.isSome ++ BitVec.ofBool r.node.isSome ++ 0#2
        ++ BitVec.ofBool (s.cls c).further ++ 1#1 : BitVec 32)
      ∧ (∃ (kind : BitVec 8) (tag : BitVec 6) (node : BitVec 2),
        s.regValue (.errorRecord c 1) = (0#8 ++ kind ++ 0#2 ++ tag ++ 0#6 ++ node : BitVec 32)
        ∧ (∀ k, r.kind = some k → kind = k.code) ∧ (∀ x, r.tag = some x → tag = x)
        ∧ ∀ x, r.node = some x → node = BitVec.ofNat 2 x.val)
      ∧ (∀ l, r.place = some (.line l) → s.regValue (.errorRecord c 2) = (0#2 ++ l : BitVec 32))
      ∧ (∀ k w, r.place = some (.way k w) →
        s.regValue (.errorRecord c 2) = (0#13 ++ BitVec.ofNat 3 w.val ++ 0#2 ++ k : BitVec 32))
      ∧ ∀ x code, r.detail = some x → (x, code) ∈ [(Detail.reason .noRegion, 1#32), (.reason .denied, 2),
          (.reason .kind, 3), (.reason .leaving, 4), (.reason .dirFault, 5), (.reason .state, 6),
          (.reason .configOffset, 7), (.reason .regionBusy, 8), (.state, 0x101), (.credit, 0x102), (.kind, 0x103),
          (.beyondSize, 0x100), (.postedMerge, 0x101), (.reader .activation, 1), (.reader .wayWait, 2),
          (.reader .walker, 3), (.malformedWrite, 5), (.probe .drop, 0x1A), (.probe .yield, 0x1B),
          (.probe .surrender, 0x1C), (.cause .relinkExpired, 1), (.cause .partnerGone, 2), (.cause .probeTimeout, 3),
          (.cause .confirmTimeout, 4), (.cause .returnTimeout, 5), (.cause .forced, 6), (.link .mismatch, 1),
          (.link .trainingFailed, 2), (.link .partnerGone, 3), (.link .retrainRetry, 4), (.link .retrainCommand, 5),
          (.link .retrainPartner, 6), (.link .relinkExpired, 7)]
          ∨ (∃ e : BitVec 6, x = .entryNumber e ∧ code = 0#26 ++ e)
          ∨ (∃ k, k ≤ 8 ∧ x = .words k ∧ code = BitVec.ofNat 32 k) → s.regValue (.errorRecord c 3) = code

/-- A CONFIG-WRITE, as the row that names its register or as CONFIG_WRITE (log 10): refused by the first of the five
checks it fails, with no field changed; else answered DONE and taking effect whole. NODE-COMMAND writes that command
something are the statements of RELINK and FORCE_LOST. That a reply is queued before an ALERT the refusal's event or
the write may queue is the model's choice (log 14). -/
def Obligations.ConfigWritesAreCheckedAndAnswered : Prop :=
  ∀ (s : State) (n : NodeId) (tag : Tag) (o : Offset) (v : RegValue),
    s.choice = some (.request n ⟨tag, .configWrite o v⟩) →
    let taken := s.takeRequest n
    let sent (m : OutMsg) : State := { taken with nodes := tset taken.nodes n { taken.node n with
      outQ := (taken.node n).outQ ++ [m] } }
    let refused (reason : Reason) : State := (sent (.refuse tag reason)).raise .refusal
      { node := some n, tag := some tag, kind := some .configWrite, detail := some (.reason reason) }
    (regAt o = none → exec .configWrite s = .next (refused .configOffset))
    ∧ ∀ g c, regAt o = some g → rowOfWrite g v = some c →
        (g.readOnly = true → exec c s = .next (refused .configOffset))
        ∧ (g.readOnly = false → g.outOfRange v = true → exec c s = .next (refused .configOffset))
        ∧ (g.readOnly = false → g.outOfRange v = false → taken.regionBusy g v = true →
            exec c s = .next (refused .regionBusy))
        ∧ (g.readOnly = false → g.outOfRange v = false → taken.regionBusy g v = false →
            exec c s = .next ((sent (.done tag .request false false)).writeReg g v))

/-- What a write that passed the checks does to each register that holds what is written; the alert condition is
tested on a write of the mask or of the target. Writes to a region's registers and to POOL-SIZE by the region's and
the size's state: BASE, LIMIT and ATTR are refused with REGION-BUSY while it is enabled; ENABLE with bit 0 set on a
disabled region needs a size above 0 and a limit below the size's MiB; the size changes only with every region
disabled. No other write is busy. The registers that are read only, and the values out of range: a probe or relink
time of 0, a size above 64 GiB, a grade code or a region kind of 3. That each is judged on its field's own bits is the
model's reading (log 33). -/
def Obligations.RegistersTakeTheirFieldsUnlessBusy : Prop :=
  (∀ (s : State) (v : RegValue) (n : NodeId) (r : RegionNo),
    s.writeReg .hubControl v = { s with promote := v.getLsbD 0, correctWb := v.getLsbD 1 }
    ∧ s.writeReg .poolSize v = { s with poolSize := v.extractLsb' 0 7 }
    ∧ s.writeReg .probeTiming v = { s with probeTimeout := v.extractLsb' 0 16, retries := v.extractLsb' 16 2 }
    ∧ s.writeReg .relinkTimeout v = { s with relinkTimeout := v.extractLsb' 0 16 }
    ∧ (∀ grade, gradeOf (v.extractLsb' 2 2) = some grade →
        s.writeReg (.nodeControl n) v = { s with nodes := tset s.nodes n { s.node n with
          enable := v.getLsbD 0, target := ⟨if v.getLsbD 1 then .x16 else .x8, grade⟩, priority := v.extractLsb' 4 2
          patienceLimit := v.extractLsb' 8 8 } })
    ∧ s.writeReg (.base r) v = { s with
        regions := tset s.regions r { tget s.regions r with base := v.extractLsb' 0 16 } }
    ∧ s.writeReg (.limit r) v = { s with
        regions := tset s.regions r { tget s.regions r with limit := v.extractLsb' 0 16 } }
    ∧ (∀ kind, regionKindOf (v.extractLsb' 0 2) = some kind →
        s.writeReg (.attr r) v = { s with regions := tset s.regions r { tget s.regions r with
          kind := kind, readSet := v.extractLsb' 8 4, writeSet := v.extractLsb' 12 4 } })
    ∧ s.writeReg (.enable r) v = { s with
        regions := tset s.regions r { tget s.regions r with enabled := v.getLsbD 0 } }
    ∧ s.writeReg .alertMask v = { s with alertMask := v.extractLsb' 0 10 }.alertTest
    ∧ s.writeReg .alertControl v = { s with
        alertTarget := Fin.ofNat 4 (v.extractLsb' 0 2).toNat, pinEnable := v.getLsbD 8 }.alertTest)
  ∧ (∀ (s : State) (r : RegionNo) (v : RegValue),
    (s.regionBusy (.base r) v = true ↔ (tget s.regions r).enabled = true)
    ∧ (s.regionBusy (.limit r) v = true ↔ (tget s.regions r).enabled = true)
    ∧ (s.regionBusy (.attr r) v = true ↔ (tget s.regions r).enabled = true)
    ∧ (s.regionBusy (.enable r) v = true ↔ (tget s.regions r).enabled = false ∧ v.getLsbD 0 = true
        ∧ ¬(0 < s.poolSize.toNat ∧ (tget s.regions r).limit.toNat < s.poolSize.toNat * 1024))
    ∧ (s.regionBusy .poolSize v = true ↔ ∃ q, (tget s.regions q).enabled = true))
  ∧ (∀ g : Reg, g.readOnly = true ↔
    g ∈ [Reg.id, .hubStatus, .validCount, .quarCount, .errorPending, .alertStatus, .walkStatus]
    ∨ (∃ n, g = .nodeStatus n ∨ g = .walkRecord n) ∨ ∃ c w, g = .errorRecord c w)
  ∧ (∀ (g : Reg) (v : RegValue), g.outOfRange v = true ↔
    ((g = .probeTiming ∨ g = .relinkTimeout) ∧ v.extractLsb' 0 16 = 0)
    ∨ (g = .poolSize ∧ 64 < (v.extractLsb' 0 7).toNat) ∨ (∃ n, g = .nodeControl n ∧ v.extractLsb' 2 2 = 3)
    ∨ ∃ r, g = .attr r ∧ v.extractLsb' 0 2 = 3)
  ∧ ∀ (s : State) (g : Reg) (v : RegValue), s.regionBusy g v = true →
    g = .poolSize ∨ ∃ q, g = .base q ∨ g = .limit q ∨ g = .attr q ∨ g = .enable q

/-- RELINK, a NODE-COMMAND write with bit 0 set and bit 1 clear: answered DONE; node m's link enters RETRAINING if it
is ACTIVE, and nothing else happens in another link state. That the DONE is queued before an ALERT the LINK event may
queue is the model's choice (log 14). -/
def Obligations.RelinkRetrainsAnActiveLink : Prop :=
  ∀ (s : State) (n m : NodeId) (tag : Tag) (o : Offset) (v : RegValue),
    s.choice = some (.request n ⟨tag, .configWrite o v⟩) → regAt o = some (.nodeCommand m) →
    v.getLsbD 0 = true → v.getLsbD 1 = false →
    let taken := s.takeRequest n
    let sent : State := { taken with nodes := tset taken.nodes n { taken.node n with
      outQ := (taken.node n).outQ ++ [OutMsg.done tag .request false false] } }
    ((s.node m).link = .active → exec .relink s = .next (enteredRetraining sent m .retrainCommand))
    ∧ ((s.node m).link ≠ .active → exec .relink s = .next sent)

/-- FORCE_LOST, a NODE-COMMAND write with bit 1 set: answered DONE; a node that is ABSENT or LOST is left alone; a
MEMBER or LEAVING node is LOST for cause FORCED, a writer that names itself losing its DONE with its outbound queue.
That the DONE of another writer is queued before an ALERT of the loss's NODE-LOST event, and that the condition for an
ALERT is tested as the link goes DOWN and then at that event, is the model's choice (log 14).
Shown where the loss concerns no entry, and where it orphans one entry whose READ waits to issue: the READ is
withdrawn and the entry gathers on. -/
def Obligations.ForceLostLosesAMember : Prop :=
  (∀ (s : State) (us : List DirUpset) (n m : NodeId) (tag : Tag) (o : Offset) (v : RegValue),
    let u := s.damaged us
    u.choice = some (.request n ⟨tag, .configWrite o v⟩) → regAt o = some (.nodeCommand m) → v.getLsbD 1 = true →
    let taken := u.takeRequest n
    let sent : State := { taken with nodes := tset taken.nodes n { taken.node n with
      outQ := (taken.node n).outQ ++ [OutMsg.done tag .request false false] } }
    ((s.node m).membership = .absent ∨ (s.node m).membership = .lost → exec (.forceLost us) s = .next sent)
    ∧ ((s.node m).membership = .member ∨ (s.node m).membership = .leaving →
        (∀ e, (s.entry e).unconcerned m ∧ (s.entry e).standing) → ∃ t, exec (.forceLost us) s = .next t
          ∧ LostIn sent t m .forced ∧ t.entries = s.entries ∧ t.poolQueue = s.poolQueue
          ∧ t.issueWait = s.issueWait))
  ∧ (∀ (s : State) (us : List DirUpset) (n m o : NodeId) (tag : Tag) (off : Offset) (v : RegValue) (e : EntryId),
    let u := s.damaged us
    u.choice = some (.request n ⟨tag, .configWrite off v⟩) → regAt off = some (.nodeCommand m) → v.getLsbD 1 = true →
    ((s.node m).membership = .member ∨ (s.node m).membership = .leaving) →
    (∀ f, f ≠ e → (s.entry f).unconcerned m ∧ (s.entry f).standing) →
    (s.entry e).kind.coherent = true → (s.entry e).phase = .gather → (s.entry e).poolOp = .waiting →
    (s.entry e).isFrom m = true → (s.entry e).confirm = .notNeeded → (s.entry e).awaited ≠ some m →
    ((s.entry e).probe m).unanswered = false → ((s.entry e).probe m).straggling = false →
    ((s.entry e).probe o).unanswered = true →
    let taken := u.takeRequest n
    let sent : State := { taken with nodes := tset taken.nodes n { taken.node n with
      outQ := (taken.node n).outQ ++ [OutMsg.done tag .request false false] } }
    ∃ t, exec (.forceLost us) s = .next t ∧ LostIn sent t m .forced ∧ t.poolQueue = s.poolQueue
      ∧ t.issueWait = s.issueWait.filter (fun op => decide (op.owner ≠ .entry e))
      ∧ t.entries = tset s.entries e
        { s.entry e with orphaned := true, confirmTimer := .stopped, poolOp := .none })

/-! ## Errors and alerts -/

/-- An event is captured by its class alone: with the pending flag clear the record is taken and the flag set, with it
set the further flag is set and the record kept; the count rises by one and stops at 65 535; then the alert condition
is tested. -/
def Obligations.EventsAreCapturedByTheirClass : Prop :=
  ∀ (s : State) (c : ErrClass) (r : ErrRec),
    ((s.cls c.index).pending = false → s.raise c r = { s with
      errors := tset s.errors c.index
        { pending := true, further := false, count := min 65535 ((s.cls c.index).count + 1)
          first := some r } }.alertTest)
    ∧ ((s.cls c.index).pending = true → s.raise c r = { s with
      errors := tset s.errors c.index
        { pending := true, further := true, count := min 65535 ((s.cls c.index).count + 1)
          first := (s.cls c.index).first } }.alertTest)

/-- The test of R157: in IDLE, with some class pending and unmasked, the target MEMBER or LEAVING with its link ACTIVE
and no ALERT in any outbound queue, an ALERT with exactly those classes joins the target's queue and the state is SENT
to it; else nothing changes. -/
def Obligations.AlertIsSentUnderItsCondition : Prop :=
  ∀ s : State,
    let ready := s.alert = .idle ∧ (∃ c, (s.cls c).pending = true ∧ s.alertMask.getLsbD c.val = true)
      ∧ ((s.node s.alertTarget).membership = .member ∨ (s.node s.alertTarget).membership = .leaving)
      ∧ (s.node s.alertTarget).link = .active ∧ ∀ n classes, OutMsg.alert classes ∉ (s.node n).outQ
    (ready → ∃ classes : ClassSet,
      s.alertTest = { s with
        alert := .sent s.alertTarget
        nodes := tset s.nodes s.alertTarget { s.node s.alertTarget with
          outQ := (s.node s.alertTarget).outQ ++ [OutMsg.alert classes] } }
      ∧ ∀ c : Fin 10, classes.getLsbD c.val = ((s.cls c).pending && s.alertMask.getLsbD c.val))
    ∧ (¬ready → s.alertTest = s)

/-- A class's count (R155): it records every event up to 65 535, where an event still sets the pending or further flag;
ERROR-COUNT c at 0x240 + 4c reads as it; a CONFIG-WRITE of 0 in its field (log 33) clears it and one of another value
leaves it, both answered DONE and neither touching flags or record; a clear before an event leaves 1, an event before a
clear 0; and an acknowledgement leaves the count. -/
def Obligations.ErrorCountsRecordEvents : Prop :=
  (∀ (s : State) (c : ErrClass) (r : ErrRec),
    ((s.cls c.index).count < 65535 → ((s.raise c r).cls c.index).count = (s.cls c.index).count + 1)
    ∧ ((s.cls c.index).count = 65535 → ((s.raise c r).cls c.index).count = 65535)
    ∧ ((s.raise c r).cls c.index).pending = true
    ∧ ((s.cls c.index).pending = true → ((s.raise c r).cls c.index).further = true)
    ∧ (((s.writeReg (.errorCount c.index) 0).raise c r).cls c.index).count = 1
    ∧ (((s.raise c r).writeReg (.errorCount c.index) 0).cls c.index).count = 0)
  ∧ (∀ (s : State) (c : Fin 10), regAt (BitVec.ofNat 12 (0x240 + 4 * c.val)) = some (.errorCount c)
      ∧ ((s.cls c).count ≤ 65535 → (s.regValue (.errorCount c)).toNat = (s.cls c).count))
  ∧ (∀ (s : State) (n : NodeId) (tag : Tag) (c : Fin 10) (v : RegValue),
      s.choice = some (.request n ⟨tag, .configWrite (BitVec.ofNat 12 (0x240 + 4 * c.val)) v⟩) →
      let taken := s.takeRequest n
      let sent : State := { taken with nodes := tset taken.nodes n { taken.node n with
        outQ := (taken.node n).outQ ++ [OutMsg.done tag .request false false] } }
      (v.extractLsb' 0 16 = 0 → exec .errorCount s = .next { sent with
        errors := tset s.errors c { s.cls c with count := 0 } })
      ∧ (v.extractLsb' 0 16 ≠ 0 → exec .errorCount s = .next sent))
  ∧ ∀ (s : State) (named : ClassSet) (c : Fin 10), ((s.acknowledge named).cls c).count = (s.cls c).count

/-- A CONFIG-WRITE to ERROR-ACK (R156): each class named has its pending and further flags cleared and its record
emptied, the others stay, and the answer is DONE. An event taken before the acknowledgement survives only in the count;
one taken after it is the new first record. The acknowledgement that clears the last pending unmasked class deasserts
ALERT_N, and the alert state stays. -/
def Obligations.AcknowledgementClearsNamedClasses : Prop :=
  (∀ (s : State) (n : NodeId) (tag : Tag) (v : RegValue),
    s.choice = some (.request n ⟨tag, .configWrite 0x204#12 v⟩) →
    let taken := s.takeRequest n
    exec .errorAck s = .next { taken with
      nodes := tset taken.nodes n { taken.node n with
        outQ := (taken.node n).outQ ++ [OutMsg.done tag .request false false] }
      errors := Vector.ofFn (fun c : Fin 10 => if v.getLsbD c.val then
        { s.cls c with pending := false, further := false, first := none } else s.cls c) })
  ∧ ∀ (s : State) (named : ClassSet),
      (∀ (c : ErrClass) (r : ErrRec), named.getLsbD c.index.val = true →
        ((s.raise c r).acknowledge named).cls c.index
          = { pending := false, further := false, count := min 65535 ((s.cls c.index).count + 1), first := none }
        ∧ ((s.acknowledge named).raise c r).cls c.index = { pending := true, further := false
                                                            count := min 65535 ((s.cls c.index).count + 1)
                                                            first := some r })
      ∧ ((∀ c : Fin 10, (s.cls c).pending = true → s.alertMask.getLsbD c.val = true → named.getLsbD c.val = true) →
          (s.acknowledge named).alertN = false)
      ∧ (s.acknowledge named).alert = s.alert

/-- A CONFIG-WRITE to ALERT-CLEAR: answered DONE. In IDLE it changes nothing more. In SENT an ALERT that no frame has
carried is withdrawn from the addressee's queue, one that a frame has carried stays, the state becomes IDLE, and the
condition is tested at once. That the DONE is queued before the new ALERT which that test may queue, both to the writer
where it is the target, is the model's choice (log 14). -/
def Obligations.AlertClearEndsTheAlert : Prop :=
  ∀ (s : State) (n : NodeId) (tag : Tag) (v : RegValue),
    s.choice = some (.request n ⟨tag, .configWrite 0x210#12 v⟩) →
    let taken := s.takeRequest n
    let sent : State := { taken with nodes := tset taken.nodes n { taken.node n with
      outQ := (taken.node n).outQ ++ [OutMsg.done tag .request false false] } }
    (s.alert = .idle → exec .alertClear s = .next sent)
    ∧ (∀ a, s.alert = .sent a →
        let carried := ((sent.node a).frames.map Frame.messages).sum
        exec .alertClear s = .next { sent with
          alert := .idle
          nodes := tset sent.nodes a { sent.node a with
            outQ := (sent.node a).outQ.take carried
              ++ ((sent.node a).outQ.drop carried).filter (fun m : OutMsg => !m.isAlert) } }.alertTest)

/-- ALERT_N (R160): driven low exactly while the pin enable is on and at least one class is pending and unmasked,
whatever the alert state, the target and the memberships; high after cold reset and through the init sweep; low after an
unmasked event that follows an acknowledgement of its class, high after the acknowledgement that follows the event where
nothing else is pending and unmasked. -/
def Obligations.AlertPinFollowsItsCondition : Prop :=
  (∀ s : State, s.alertN = true ↔
    s.pinEnable = true ∧ ∃ c : Fin 10, (s.cls c).pending = true ∧ s.alertMask.getLsbD c.val = true)
  ∧ (∀ s t : State, s.pinEnable = t.pinEnable → s.errors = t.errors → s.alertMask = t.alertMask → s.alertN = t.alertN)
  ∧ State.reset.pinEnable = false
  ∧ (∀ (s t : State) (powerOn : Bool), exec (.coldReset powerOn) s = .next t → t.pinEnable = false ∧ t.alertN = false)
  ∧ (∀ s t : State, exec .initSweep s = .next t → t.alertN = s.alertN)
  ∧ ∀ (s : State) (c : ErrClass) (r : ErrRec) (named : ClassSet), s.pinEnable = true →
      s.alertMask.getLsbD c.index.val = true → named.getLsbD c.index.val = true →
      ((s.acknowledge named).raise c r).alertN = true
      ∧ ((∀ d : Fin 10, d ≠ c.index → (s.cls d).pending = true → s.alertMask.getLsbD d.val = true →
            named.getLsbD d.val = true) → ((s.raise c r).acknowledge named).alertN = false)

/-! ## The directory and the walker -/

/-- The check of a way by the wrong bits in it: none is CLEAN, one CORRECTED with the record as written, two
UNCORRECTABLE; a record that breaks R2 is UNCORRECTABLE. The read of one way: QUARANTINED is not checked; a clean way
is returned as it is; a corrected one is returned with its record and an event, and rewritten where it is unpinned,
both counts left as they are; an uncorrectable one is quarantined with an event where it is unpinned, the valid count
falling by one where the way was valid and the quarantined count rising by one, and UNREADABLE with an event, the way
and both counts left as they are, where it is pinned. -/
def Obligations.WaysAreCheckedAndRead : Prop :=
  (∀ (x : Way),
    (x.damage = .twoBits → x.check = (.uncorrectable, none))
    ∧ (∀ q, x.written = some q → q.wellFormed = false → x.damage = .intact ∨ x.damage = .oneBit →
        x.check = (.uncorrectable, none))
    ∧ ((∀ q, x.written = some q → q.wellFormed = true) →
        (x.damage = .intact → x.check = (.clean, x.written))
        ∧ (x.damage = .oneBit → x.check = (.corrected, x.written)))
    ∧ ∀ q : Record, q.wellFormed = true ↔
        (q.state = .shared ∧ q.sharers ≠ 0) ∨ (q.state = .held ∧ ∃ n, q.sharers = NodeSet.single n))
  ∧ (∀ (s : State) (k : SetIdx) (w : WayNo) (reader : Reader) (kind : MsgKind) (x : Way), s.way k w = x →
    let seen (o : Option Record) : WayRead := match o with | some q => .record q | none => .vacant
    let event : ErrRec := { kind := some kind, place := some (.way k w), detail := some (.reader reader) }
    (x.quarantined = true → s.readWay k w reader kind = (s, .quarantined))
    ∧ (x.quarantined = false →
      (∀ o, x.check = (.clean, o) → s.readWay k w reader kind = (s, seen o))
      ∧ (∀ o, x.check = (.corrected, o) → x.pin ≠ .none →
          s.readWay k w reader kind = (s.raise .dirCorrected event, seen o))
      ∧ (∀ o, x.check = (.corrected, o) → x.pin = .none →
          s.readWay k w reader kind
            = ((s.putWay k w { x with written := o, damage := .intact }).raise .dirCorrected event, seen o))
      ∧ (∀ o, x.check = (.uncorrectable, o) → x.pin ≠ .none →
          s.readWay k w reader kind = (s.raise .dirUncorrected event, .unreadable))
      ∧ (∀ o, x.check = (.uncorrectable, o) → x.pin = .none →
          let marked := s.putWay k w { x with quarantined := true }
          s.readWay k w reader kind = ({ marked with dir := { marked.dir with
            validCount := s.dir.validCount - x.written.isSome.toNat
            quarCount := s.dir.quarCount + 1 } }.raise .dirUncorrected event, .quarantined))))

/-- A full write of a way: the record whole with good check bits and no quarantine mark, the pin as it was; SHARED
with no node makes the way VACANT; HELD with other than one node makes it VACANT with a MALFORMED-WRITE event. The
valid and quarantined counts follow exactly; no other way and no recency order changes. A way moved to the most recent
place: the ways that stood after it move one place, those before it stay; an order of the eight ways stays one. -/
def Obligations.WaysAreWrittenWholeAndMadeRecent : Prop :=
  (∀ (s : State) (k : SetIdx) (w : WayNo) (r : Option Record) (kind : MsgKind), s.status = .ready →
    Directory.wf s.dir → (s.way k w).counted.toNat ≤ s.dir.validCount →
    (s.way k w).quarantined.toNat ≤ s.dir.quarCount →
    let t := s.writeWay k w r kind
    let stored (o : Option Record) : Prop := t.way k w
      = { written := o, damage := .intact, pin := (s.way k w).pin, quarantined := false }
    (∀ q, r = some q → q.wellFormed = true → stored r)
    ∧ (r = none → stored none)
    ∧ (∀ q, r = some q → q.wellFormed = false → stored none)
    ∧ (∀ q, r = some q → q.wellFormed = false → q.state = .held →
        t.errors = tset s.errors 6 ((s.cls 6).capture
          { kind := some kind, place := some (.way k w), detail := some .malformedWrite }))
    ∧ ((∀ q, r = some q → q.wellFormed = true ∨ q.state = .shared) → t.errors = s.errors ∧ t.nodes = s.nodes)
    ∧ (∀ v, v ≠ w → t.way k v = s.way k v) ∧ (∀ j, j ≠ k → t.dirSet j = s.dirSet j)
    ∧ (t.dirSet k).order = (s.dirSet k).order
    ∧ t.dir.validCount = s.dir.validCount - (s.way k w).counted.toNat + (t.way k w).counted.toNat
    ∧ t.dir.quarCount = s.dir.quarCount - (s.way k w).quarantined.toNat)
  ∧ (∀ (before after : List WayNo) (w : WayNo), (before ++ w :: after).Perm [0, 1, 2, 3, 4, 5, 6, 7] →
    recent (before ++ w :: after) w = before ++ after ++ [w]
    ∧ (recent (before ++ w :: after) w).Perm [0, 1, 2, 3, 4, 5, 6, 7])

/-- WALKER_EXAMINE_WAY over a sound set: a quarantined or VACANT way, and a record that names no node of an applied
walk, are passed; a pinned way stalls the walker there; a SHARED way loses its LOSS nodes and is examined again; a way
HELD by a LOSS node is pinned, its poison write issued, with zero data (log 39), and the walker stalled for it; a way
naming a DEPART node with no RECALL entry to be had stalls the walker for the reserve, for its lowest-numbered DEPART
node d. Given an entry for a node, the walker reads the way again: the recall is made where the way still names the
node; where it names only other DEPART nodes it stands for the reserve for the lowest-numbered, where none it moves on,
and the rest of the work (the unused entry's new offer) follows (R84, R151). With one free, a departure recall is made
for the lowest-numbered DEPART node of the way (log 22): the way is pinned to it, the arbiter's mark names the walker,
the node's record counts it, and the recall probes the node; the walker moves on, or stands still for the way where
another DEPART node is named. Past way 7 the set is finished: the pointer advances, joining records join, applied ones
have one set less, and a record with no sets and no recalls left ends, DEPART with the DONE to its LEAVE, LOSS with its
node ABSENT. -/
def Obligations.WalkerActsOnTheWay : Prop :=
  ∀ (s : State) (k : SetIdx) (p : WayNo) (x : Way),
    s.status = .ready → s.walker.stall = .none → s.walker.walks = true → s.walker.pointer = k →
    s.walker.position = p → (s.dirSet k).sound → s.way k p = x →
    let lost := s.walker.nodesIn .loss
    let departing := s.walker.nodesIn .depart
    let stalled (z : Stall) : State := { s with walker := { s.walker with stall := z } }
    (x.quarantined = true ∨ (x.pin = .none ∧ (x.written = none
        ∨ ∃ q, x.written = some q ∧ q.sharers &&& lost = 0 ∧ q.sharers &&& departing = 0)) →
      (p ≠ 7 → exec (.walkerExamineWay []) s = .next { s with walker := { s.walker with position := p + 1 } })
      ∧ (p = 7 → ∃ t, exec (.walkerExamineWay []) s = .next t ∧ FinishedSet s t))
    ∧ (x.quarantined = false → x.pin ≠ .none → exec (.walkerExamineWay []) s = .next (stalled (.way p)))
    ∧ (x.quarantined = false → x.pin = .none → ∀ q, x.written = some q → q.sharers &&& lost ≠ 0 →
        (q.state = .shared → exec (.walkerExamineWay []) s
          = .next (s.writeWay k p (some { q with sharers := q.sharers &&& ~~~lost }) .walker))
        ∧ (q.state = .held → s.portFree → exec (.walkerExamineWay []) s = .next { (stalled .write).setPin k p .walker
            with poolQueue := s.poolQueue ++ [⟨.walker, lineOf q.tag k, some ⟨0, true⟩⟩] }))
    ∧ (x.quarantined = false → x.pin = .none → ∀ q, x.written = some q → q.sharers &&& lost = 0 →
        q.sharers &&& departing ≠ 0 → s.recallAvailable = false →
        exec (.walkerExamineWay []) s = .next (stalled (.reserve (NodeSet.holder (q.sharers &&& departing)))))
    ∧ (x.quarantined = false → x.pin = .none → ∀ q, x.written = some q → q.sharers &&& lost = 0 → ∀ d f r,
        let leaving := q.sharers &&& departing
        NodeSet.has leaving d = true → (∀ m, m < d → NodeSet.has leaving m = false) → s.walker.record d = some r →
        s.recallsInUse < 4 → (s.entry f).phase = .free → (∀ g, g < f → (s.entry g).phase ≠ .free) →
        s.activeOn (lineOf q.tag k) = none → (s.node d).joined = true → (s.node d).link ≠ .down →
        let counted : Walker := { s.walker with
          records := tset s.walker.records d (some { r with recalls := r.recalls + 1 }) }
        let made (y : Walker) : State := { s.setPin k p (.entry f) with recallMark := .walker, walker := y }.probing f
          { Entry.free with
            phase := .gather, kind := .recall, admitted := .recall, line := lineOf q.tag k, way := some p
            scope := some (.only d), creation := some q, snapshot := some (.hit q.state q.sharers) }
          (match q.state with | .shared => .drop | .held => .surrender) (NodeSet.single d)
        (NodeSet.without leaving d ≠ 0 →
          exec (.walkerExamineWay []) s = .next (made { counted with stall := .way p }))
        ∧ (NodeSet.without leaving d = 0 → p ≠ 7 →
          exec (.walkerExamineWay []) s = .next (made { counted with position := p + 1 }))
        ∧ (NodeSet.without leaving d = 0 → p = 7 →
          ∃ t, exec (.walkerExamineWay []) s = .next t ∧ FinishedSet (made counted) t))
    ∧ (x.quarantined = false → x.pin = .none → ∀ q, x.written = some q → q.sharers &&& lost = 0 →
        ∀ (j : Work) (d : NodeId) (rest : List Task), j.s = s →
        let leaving := q.sharers &&& departing
        (NodeSet.has leaving d = true → j.examineGiven d rest = j.departRecall k p q leaving d)
        ∧ (NodeSet.has leaving d = false → leaving ≠ 0 →
          j.examineGiven d rest = (j.mod (fun s => s.setStall (.reserve (NodeSet.holder leaving)))).push rest)
        ∧ (leaving = 0 → j.examineGiven d rest = (j.mod State.nextWay).push rest))

/-- POISON_WRITE_COMPLETE: the line's words are poison markers, the walker's way is VACANT and unpinned, the valid
count falls by one where it held a record, the recency order stays, the stall ends and the walker moves to the next
way, past way 7 finishing the set. Shown with nobody waiting for a way of the set, and, before the last way, with one
BLOCKED or STALLED seeker of the set, or one PIN member that waits for the way and finds no hit: served with a fresh
read it takes the way, leaves the list and gathers with snapshot miss and its READ out, an UPGRADE as a FETCH-H. The
order of the notices is the model's choice (log 15). -/
def Obligations.PoisonWriteFreesTheWay : Prop :=
  ∀ (s : State) (us : List DirUpset) (l : LineAddr) (b : Buffer) (k : SetIdx) (p : WayNo),
    let u := s.damaged us
    s.status = .ready → Directory.wf s.dir → s.walker.stall = .write → s.walker.pointer = k →
    s.walker.position = p → s.completable .walker = some ⟨.walker, l, some b⟩ → s.issueWait = [] → ∃ z : State,
      z.way k p = { written := none, damage := .intact, pin := .none, quarantined := false }
      ∧ (∀ v, v ≠ p → z.way k v = u.way k v) ∧ (∀ j, j ≠ k → z.dirSet j = u.dirSet j)
      ∧ (z.dirSet k).order = (u.dirSet k).order
      ∧ z.dir.validCount = s.dir.validCount - (u.way k p).counted.toNat
      ∧ z.pool = (s.poolWrite l b).pool
      ∧ z.poolQueue = s.poolQueue.filter (fun op => decide (op.owner ≠ .walker))
      ∧ z.walker = { s.walker with stall := .none }
      ∧ { z with dir := s.dir, pool := s.pool, poolQueue := s.poolQueue, walker := s.walker } = s
      ∧ ((∀ m ∈ s.wayWait, s.setOf m.entry ≠ k) →
        (p ≠ 7 → exec (.poisonWriteComplete us) s = .next { z with walker := { z.walker with position := p + 1 } })
        ∧ (p = 7 → ∃ t, exec (.poisonWriteComplete us) s = .next t ∧ FinishedSet z t))
      ∧ ∀ e c x kind, s.wayWait.filter (fun m => decide (s.setOf m.entry = k)) = [⟨e, c⟩] → s.entry e = x →
        (c = .blocked ∨ c = .stalled) ∧ (x.kind = .fetchS ∨ x.kind = .fetchH) ∧ kind = x.kind
          ∨ (∃ ws, c = .pin ws ∧ p ∈ ws) ∧ (kind = .fetchS ∧ x.kind = .fetchS
              ∨ kind = .fetchH ∧ (x.kind = .fetchH ∨ x.kind = .upgrade))
            ∧ (∀ v, v ≠ p → (u.way k v).quarantined = true
              ∨ ∀ q, (u.way k v).written = some q → q.tag ≠ LineAddr.tag x.line) →
        x.poolOp = .none →
        (∀ f, (s.entry f).phase ≠ .free → (s.entry f).kind = .recall → (s.entry f).beneficiary ≠ some e) →
        (u.dirSet k).sound → p ∈ (u.dirSet k).order → (∀ v, v ≠ p → ¬(u.way k v).free) →
        s.poolQueue.length ≤ 32 → p ≠ 7 →
        let zp : State := { z with walker := { z.walker with position := p + 1 } }
        exec (.poisonWriteComplete us) s = .next { zp.setPin k p (.entry e) with
          entries := tset s.entries e { x with
            phase := .gather, kind := kind, snapshot := some .miss, way := some p, poolOp := .readOut }
          wayWait := s.wayWait.filter (fun m => decide (m.entry ≠ e))
          poolQueue := z.poolQueue ++ [⟨.entry e, x.line, none⟩] }

/-! ## What every step keeps -/

/-- The canonical form of the pool's and the directory's storage is kept by every step. -/
def Obligations.StepKeepsMemoryCanonical : Prop :=
  ∀ s t : State, s.canonical → step s = .next t → t.canonical

/-- A node whose link is DOWN has empty queues, no frames, no credits, no agreed values and no relink timer: kept by
every step. -/
def Obligations.StepKeepsDownLinksEmpty : Prop :=
  ∀ s t : State, s.downLaw → step s = .next t → t.downLaw

/-- Every recency order lists the eight ways without repetition: kept by every step. A class's count stays within 65
535, its record is there exactly while it is pending, and its further flag is set only then: kept by every step. The
patience counter stays within 255, the damaged count and every resend count within 8: kept by every step. The way-wait
list names each entry once and exactly those in WAYWAIT, each of a kind that may wait, and of a set's seekers all but
the oldest are BEHIND: kept by every step. -/
def Obligations.StepKeepsOrdersClassesAndCounters : Prop :=
  (∀ s t : State, s.orderLaw → step s = .next t → t.orderLaw)
  ∧ (∀ s t : State, s.errorLaw → step s = .next t → t.errorLaw)
  ∧ (∀ s t : State, s.rangeLaw → step s = .next t → t.rangeLaw)
  ∧ (∀ s t : State, s.waitLaw → step s = .next t → t.waitLaw)
end

