-- ==== Sys2Proof/Laws/State.lean ====
section
/-! SUPPORT. Reading a field of the state after each plain update: one lemma for each field that the update leaves
alone, and what is read where it writes. -/

namespace Sys2Proof.Machine

-- One proof at a time: many at once reserve more stacks than the memory limit allows.
set_option Elab.async false


/-! ## setNode -/

@[simp] theorem setNode_status (s : State) (n : NodeId) (x : Node) : (s.setNode n x).status = s.status := rfl
@[simp] theorem setNode_promote (s : State) (n : NodeId) (x : Node) : (s.setNode n x).promote = s.promote := rfl
@[simp] theorem setNode_correctWb (s : State) (n : NodeId) (x : Node) : (s.setNode n x).correctWb = s.correctWb := rfl
@[simp] theorem setNode_poolSize (s : State) (n : NodeId) (x : Node) : (s.setNode n x).poolSize = s.poolSize := rfl
@[simp] theorem setNode_probeTimeout (s : State) (n : NodeId) (x : Node) : (s.setNode n x).probeTimeout = s.probeTimeout := rfl
@[simp] theorem setNode_retries (s : State) (n : NodeId) (x : Node) : (s.setNode n x).retries = s.retries := rfl
@[simp] theorem setNode_relinkTimeout (s : State) (n : NodeId) (x : Node) : (s.setNode n x).relinkTimeout = s.relinkTimeout := rfl
@[simp] theorem setNode_regions (s : State) (n : NodeId) (x : Node) : (s.setNode n x).regions = s.regions := rfl
@[simp] theorem setNode_returnPtr (s : State) (n : NodeId) (x : Node) : (s.setNode n x).returnPtr = s.returnPtr := rfl
@[simp] theorem setNode_requestPtr (s : State) (n : NodeId) (x : Node) : (s.setNode n x).requestPtr = s.requestPtr := rfl
@[simp] theorem setNode_dir (s : State) (n : NodeId) (x : Node) : (s.setNode n x).dir = s.dir := rfl
@[simp] theorem setNode_entries (s : State) (n : NodeId) (x : Node) : (s.setNode n x).entries = s.entries := rfl
@[simp] theorem setNode_wayWait (s : State) (n : NodeId) (x : Node) : (s.setNode n x).wayWait = s.wayWait := rfl
@[simp] theorem setNode_recallMark (s : State) (n : NodeId) (x : Node) : (s.setNode n x).recallMark = s.recallMark := rfl
@[simp] theorem setNode_pool (s : State) (n : NodeId) (x : Node) : (s.setNode n x).pool = s.pool := rfl
@[simp] theorem setNode_poolQueue (s : State) (n : NodeId) (x : Node) : (s.setNode n x).poolQueue = s.poolQueue := rfl
@[simp] theorem setNode_issueWait (s : State) (n : NodeId) (x : Node) : (s.setNode n x).issueWait = s.issueWait := rfl
@[simp] theorem setNode_walker (s : State) (n : NodeId) (x : Node) : (s.setNode n x).walker = s.walker := rfl
@[simp] theorem setNode_errors (s : State) (n : NodeId) (x : Node) : (s.setNode n x).errors = s.errors := rfl
@[simp] theorem setNode_alertMask (s : State) (n : NodeId) (x : Node) : (s.setNode n x).alertMask = s.alertMask := rfl
@[simp] theorem setNode_alertTarget (s : State) (n : NodeId) (x : Node) : (s.setNode n x).alertTarget = s.alertTarget := rfl
@[simp] theorem setNode_pinEnable (s : State) (n : NodeId) (x : Node) : (s.setNode n x).pinEnable = s.pinEnable := rfl
@[simp] theorem setNode_alert (s : State) (n : NodeId) (x : Node) : (s.setNode n x).alert = s.alert := rfl
@[simp] theorem setNode_freeSeed (s : State) (n : NodeId) (x : Node) : (s.setNode n x).freeSeed = s.freeSeed := rfl
@[simp] theorem setNode_pending (s : State) (n : NodeId) (x : Node) : (s.setNode n x).pending = s.pending := rfl

/-! ## modNode -/

@[simp] theorem modNode_status (s : State) (n : NodeId) (f : Node → Node) : (s.modNode n f).status = s.status := rfl
@[simp] theorem modNode_promote (s : State) (n : NodeId) (f : Node → Node) : (s.modNode n f).promote = s.promote := rfl
@[simp] theorem modNode_correctWb (s : State) (n : NodeId) (f : Node → Node) : (s.modNode n f).correctWb = s.correctWb := rfl
@[simp] theorem modNode_poolSize (s : State) (n : NodeId) (f : Node → Node) : (s.modNode n f).poolSize = s.poolSize := rfl
@[simp] theorem modNode_probeTimeout (s : State) (n : NodeId) (f : Node → Node) : (s.modNode n f).probeTimeout = s.probeTimeout := rfl
@[simp] theorem modNode_retries (s : State) (n : NodeId) (f : Node → Node) : (s.modNode n f).retries = s.retries := rfl
@[simp] theorem modNode_relinkTimeout (s : State) (n : NodeId) (f : Node → Node) : (s.modNode n f).relinkTimeout = s.relinkTimeout := rfl
@[simp] theorem modNode_regions (s : State) (n : NodeId) (f : Node → Node) : (s.modNode n f).regions = s.regions := rfl
@[simp] theorem modNode_returnPtr (s : State) (n : NodeId) (f : Node → Node) : (s.modNode n f).returnPtr = s.returnPtr := rfl
@[simp] theorem modNode_requestPtr (s : State) (n : NodeId) (f : Node → Node) : (s.modNode n f).requestPtr = s.requestPtr := rfl
@[simp] theorem modNode_dir (s : State) (n : NodeId) (f : Node → Node) : (s.modNode n f).dir = s.dir := rfl
@[simp] theorem modNode_entries (s : State) (n : NodeId) (f : Node → Node) : (s.modNode n f).entries = s.entries := rfl
@[simp] theorem modNode_wayWait (s : State) (n : NodeId) (f : Node → Node) : (s.modNode n f).wayWait = s.wayWait := rfl
@[simp] theorem modNode_recallMark (s : State) (n : NodeId) (f : Node → Node) : (s.modNode n f).recallMark = s.recallMark := rfl
@[simp] theorem modNode_pool (s : State) (n : NodeId) (f : Node → Node) : (s.modNode n f).pool = s.pool := rfl
@[simp] theorem modNode_poolQueue (s : State) (n : NodeId) (f : Node → Node) : (s.modNode n f).poolQueue = s.poolQueue := rfl
@[simp] theorem modNode_issueWait (s : State) (n : NodeId) (f : Node → Node) : (s.modNode n f).issueWait = s.issueWait := rfl
@[simp] theorem modNode_walker (s : State) (n : NodeId) (f : Node → Node) : (s.modNode n f).walker = s.walker := rfl
@[simp] theorem modNode_errors (s : State) (n : NodeId) (f : Node → Node) : (s.modNode n f).errors = s.errors := rfl
@[simp] theorem modNode_alertMask (s : State) (n : NodeId) (f : Node → Node) : (s.modNode n f).alertMask = s.alertMask := rfl
@[simp] theorem modNode_alertTarget (s : State) (n : NodeId) (f : Node → Node) : (s.modNode n f).alertTarget = s.alertTarget := rfl
@[simp] theorem modNode_pinEnable (s : State) (n : NodeId) (f : Node → Node) : (s.modNode n f).pinEnable = s.pinEnable := rfl
@[simp] theorem modNode_alert (s : State) (n : NodeId) (f : Node → Node) : (s.modNode n f).alert = s.alert := rfl
@[simp] theorem modNode_freeSeed (s : State) (n : NodeId) (f : Node → Node) : (s.modNode n f).freeSeed = s.freeSeed := rfl
@[simp] theorem modNode_pending (s : State) (n : NodeId) (f : Node → Node) : (s.modNode n f).pending = s.pending := rfl

/-! ## setEntry -/

@[simp] theorem setEntry_status (s : State) (e : EntryId) (x : Entry) : (s.setEntry e x).status = s.status := rfl
@[simp] theorem setEntry_promote (s : State) (e : EntryId) (x : Entry) : (s.setEntry e x).promote = s.promote := rfl
@[simp] theorem setEntry_correctWb (s : State) (e : EntryId) (x : Entry) : (s.setEntry e x).correctWb = s.correctWb := rfl
@[simp] theorem setEntry_poolSize (s : State) (e : EntryId) (x : Entry) : (s.setEntry e x).poolSize = s.poolSize := rfl
@[simp] theorem setEntry_probeTimeout (s : State) (e : EntryId) (x : Entry) : (s.setEntry e x).probeTimeout = s.probeTimeout := rfl
@[simp] theorem setEntry_retries (s : State) (e : EntryId) (x : Entry) : (s.setEntry e x).retries = s.retries := rfl
@[simp] theorem setEntry_relinkTimeout (s : State) (e : EntryId) (x : Entry) : (s.setEntry e x).relinkTimeout = s.relinkTimeout := rfl
@[simp] theorem setEntry_nodes (s : State) (e : EntryId) (x : Entry) : (s.setEntry e x).nodes = s.nodes := rfl
@[simp] theorem setEntry_regions (s : State) (e : EntryId) (x : Entry) : (s.setEntry e x).regions = s.regions := rfl
@[simp] theorem setEntry_returnPtr (s : State) (e : EntryId) (x : Entry) : (s.setEntry e x).returnPtr = s.returnPtr := rfl
@[simp] theorem setEntry_requestPtr (s : State) (e : EntryId) (x : Entry) : (s.setEntry e x).requestPtr = s.requestPtr := rfl
@[simp] theorem setEntry_dir (s : State) (e : EntryId) (x : Entry) : (s.setEntry e x).dir = s.dir := rfl
@[simp] theorem setEntry_wayWait (s : State) (e : EntryId) (x : Entry) : (s.setEntry e x).wayWait = s.wayWait := rfl
@[simp] theorem setEntry_recallMark (s : State) (e : EntryId) (x : Entry) : (s.setEntry e x).recallMark = s.recallMark := rfl
@[simp] theorem setEntry_pool (s : State) (e : EntryId) (x : Entry) : (s.setEntry e x).pool = s.pool := rfl
@[simp] theorem setEntry_poolQueue (s : State) (e : EntryId) (x : Entry) : (s.setEntry e x).poolQueue = s.poolQueue := rfl
@[simp] theorem setEntry_issueWait (s : State) (e : EntryId) (x : Entry) : (s.setEntry e x).issueWait = s.issueWait := rfl
@[simp] theorem setEntry_walker (s : State) (e : EntryId) (x : Entry) : (s.setEntry e x).walker = s.walker := rfl
@[simp] theorem setEntry_errors (s : State) (e : EntryId) (x : Entry) : (s.setEntry e x).errors = s.errors := rfl
@[simp] theorem setEntry_alertMask (s : State) (e : EntryId) (x : Entry) : (s.setEntry e x).alertMask = s.alertMask := rfl
@[simp] theorem setEntry_alertTarget (s : State) (e : EntryId) (x : Entry) : (s.setEntry e x).alertTarget = s.alertTarget := rfl
@[simp] theorem setEntry_pinEnable (s : State) (e : EntryId) (x : Entry) : (s.setEntry e x).pinEnable = s.pinEnable := rfl
@[simp] theorem setEntry_alert (s : State) (e : EntryId) (x : Entry) : (s.setEntry e x).alert = s.alert := rfl
@[simp] theorem setEntry_freeSeed (s : State) (e : EntryId) (x : Entry) : (s.setEntry e x).freeSeed = s.freeSeed := rfl
@[simp] theorem setEntry_pending (s : State) (e : EntryId) (x : Entry) : (s.setEntry e x).pending = s.pending := rfl

/-! ## modEntry -/

@[simp] theorem modEntry_status (s : State) (e : EntryId) (f : Entry → Entry) : (s.modEntry e f).status = s.status := rfl
@[simp] theorem modEntry_promote (s : State) (e : EntryId) (f : Entry → Entry) : (s.modEntry e f).promote = s.promote := rfl
@[simp] theorem modEntry_correctWb (s : State) (e : EntryId) (f : Entry → Entry) : (s.modEntry e f).correctWb = s.correctWb := rfl
@[simp] theorem modEntry_poolSize (s : State) (e : EntryId) (f : Entry → Entry) : (s.modEntry e f).poolSize = s.poolSize := rfl
@[simp] theorem modEntry_probeTimeout (s : State) (e : EntryId) (f : Entry → Entry) : (s.modEntry e f).probeTimeout = s.probeTimeout := rfl
@[simp] theorem modEntry_retries (s : State) (e : EntryId) (f : Entry → Entry) : (s.modEntry e f).retries = s.retries := rfl
@[simp] theorem modEntry_relinkTimeout (s : State) (e : EntryId) (f : Entry → Entry) : (s.modEntry e f).relinkTimeout = s.relinkTimeout := rfl
@[simp] theorem modEntry_nodes (s : State) (e : EntryId) (f : Entry → Entry) : (s.modEntry e f).nodes = s.nodes := rfl
@[simp] theorem modEntry_regions (s : State) (e : EntryId) (f : Entry → Entry) : (s.modEntry e f).regions = s.regions := rfl
@[simp] theorem modEntry_returnPtr (s : State) (e : EntryId) (f : Entry → Entry) : (s.modEntry e f).returnPtr = s.returnPtr := rfl
@[simp] theorem modEntry_requestPtr (s : State) (e : EntryId) (f : Entry → Entry) : (s.modEntry e f).requestPtr = s.requestPtr := rfl
@[simp] theorem modEntry_dir (s : State) (e : EntryId) (f : Entry → Entry) : (s.modEntry e f).dir = s.dir := rfl
@[simp] theorem modEntry_wayWait (s : State) (e : EntryId) (f : Entry → Entry) : (s.modEntry e f).wayWait = s.wayWait := rfl
@[simp] theorem modEntry_recallMark (s : State) (e : EntryId) (f : Entry → Entry) : (s.modEntry e f).recallMark = s.recallMark := rfl
@[simp] theorem modEntry_pool (s : State) (e : EntryId) (f : Entry → Entry) : (s.modEntry e f).pool = s.pool := rfl
@[simp] theorem modEntry_poolQueue (s : State) (e : EntryId) (f : Entry → Entry) : (s.modEntry e f).poolQueue = s.poolQueue := rfl
@[simp] theorem modEntry_issueWait (s : State) (e : EntryId) (f : Entry → Entry) : (s.modEntry e f).issueWait = s.issueWait := rfl
@[simp] theorem modEntry_walker (s : State) (e : EntryId) (f : Entry → Entry) : (s.modEntry e f).walker = s.walker := rfl
@[simp] theorem modEntry_errors (s : State) (e : EntryId) (f : Entry → Entry) : (s.modEntry e f).errors = s.errors := rfl
@[simp] theorem modEntry_alertMask (s : State) (e : EntryId) (f : Entry → Entry) : (s.modEntry e f).alertMask = s.alertMask := rfl
@[simp] theorem modEntry_alertTarget (s : State) (e : EntryId) (f : Entry → Entry) : (s.modEntry e f).alertTarget = s.alertTarget := rfl
@[simp] theorem modEntry_pinEnable (s : State) (e : EntryId) (f : Entry → Entry) : (s.modEntry e f).pinEnable = s.pinEnable := rfl
@[simp] theorem modEntry_alert (s : State) (e : EntryId) (f : Entry → Entry) : (s.modEntry e f).alert = s.alert := rfl
@[simp] theorem modEntry_freeSeed (s : State) (e : EntryId) (f : Entry → Entry) : (s.modEntry e f).freeSeed = s.freeSeed := rfl
@[simp] theorem modEntry_pending (s : State) (e : EntryId) (f : Entry → Entry) : (s.modEntry e f).pending = s.pending := rfl

/-! ## freeUp -/

@[simp] theorem freeUp_status (s : State) (e : EntryId) : (s.freeUp e).status = s.status := rfl
@[simp] theorem freeUp_promote (s : State) (e : EntryId) : (s.freeUp e).promote = s.promote := rfl
@[simp] theorem freeUp_correctWb (s : State) (e : EntryId) : (s.freeUp e).correctWb = s.correctWb := rfl
@[simp] theorem freeUp_poolSize (s : State) (e : EntryId) : (s.freeUp e).poolSize = s.poolSize := rfl
@[simp] theorem freeUp_probeTimeout (s : State) (e : EntryId) : (s.freeUp e).probeTimeout = s.probeTimeout := rfl
@[simp] theorem freeUp_retries (s : State) (e : EntryId) : (s.freeUp e).retries = s.retries := rfl
@[simp] theorem freeUp_relinkTimeout (s : State) (e : EntryId) : (s.freeUp e).relinkTimeout = s.relinkTimeout := rfl
@[simp] theorem freeUp_nodes (s : State) (e : EntryId) : (s.freeUp e).nodes = s.nodes := rfl
@[simp] theorem freeUp_regions (s : State) (e : EntryId) : (s.freeUp e).regions = s.regions := rfl
@[simp] theorem freeUp_returnPtr (s : State) (e : EntryId) : (s.freeUp e).returnPtr = s.returnPtr := rfl
@[simp] theorem freeUp_requestPtr (s : State) (e : EntryId) : (s.freeUp e).requestPtr = s.requestPtr := rfl
@[simp] theorem freeUp_dir (s : State) (e : EntryId) : (s.freeUp e).dir = s.dir := rfl
@[simp] theorem freeUp_wayWait (s : State) (e : EntryId) : (s.freeUp e).wayWait = s.wayWait := rfl
@[simp] theorem freeUp_recallMark (s : State) (e : EntryId) : (s.freeUp e).recallMark = s.recallMark := rfl
@[simp] theorem freeUp_pool (s : State) (e : EntryId) : (s.freeUp e).pool = s.pool := rfl
@[simp] theorem freeUp_poolQueue (s : State) (e : EntryId) : (s.freeUp e).poolQueue = s.poolQueue := rfl
@[simp] theorem freeUp_issueWait (s : State) (e : EntryId) : (s.freeUp e).issueWait = s.issueWait := rfl
@[simp] theorem freeUp_walker (s : State) (e : EntryId) : (s.freeUp e).walker = s.walker := rfl
@[simp] theorem freeUp_errors (s : State) (e : EntryId) : (s.freeUp e).errors = s.errors := rfl
@[simp] theorem freeUp_alertMask (s : State) (e : EntryId) : (s.freeUp e).alertMask = s.alertMask := rfl
@[simp] theorem freeUp_alertTarget (s : State) (e : EntryId) : (s.freeUp e).alertTarget = s.alertTarget := rfl
@[simp] theorem freeUp_pinEnable (s : State) (e : EntryId) : (s.freeUp e).pinEnable = s.pinEnable := rfl
@[simp] theorem freeUp_alert (s : State) (e : EntryId) : (s.freeUp e).alert = s.alert := rfl
@[simp] theorem freeUp_freeSeed (s : State) (e : EntryId) : (s.freeUp e).freeSeed = s.freeSeed := rfl
@[simp] theorem freeUp_pending (s : State) (e : EntryId) : (s.freeUp e).pending = s.pending := rfl

/-! ## unlink -/

@[simp] theorem unlink_status (s : State) (e : EntryId) : (s.unlink e).status = s.status := rfl
@[simp] theorem unlink_promote (s : State) (e : EntryId) : (s.unlink e).promote = s.promote := rfl
@[simp] theorem unlink_correctWb (s : State) (e : EntryId) : (s.unlink e).correctWb = s.correctWb := rfl
@[simp] theorem unlink_poolSize (s : State) (e : EntryId) : (s.unlink e).poolSize = s.poolSize := rfl
@[simp] theorem unlink_probeTimeout (s : State) (e : EntryId) : (s.unlink e).probeTimeout = s.probeTimeout := rfl
@[simp] theorem unlink_retries (s : State) (e : EntryId) : (s.unlink e).retries = s.retries := rfl
@[simp] theorem unlink_relinkTimeout (s : State) (e : EntryId) : (s.unlink e).relinkTimeout = s.relinkTimeout := rfl
@[simp] theorem unlink_nodes (s : State) (e : EntryId) : (s.unlink e).nodes = s.nodes := rfl
@[simp] theorem unlink_regions (s : State) (e : EntryId) : (s.unlink e).regions = s.regions := rfl
@[simp] theorem unlink_returnPtr (s : State) (e : EntryId) : (s.unlink e).returnPtr = s.returnPtr := rfl
@[simp] theorem unlink_requestPtr (s : State) (e : EntryId) : (s.unlink e).requestPtr = s.requestPtr := rfl
@[simp] theorem unlink_dir (s : State) (e : EntryId) : (s.unlink e).dir = s.dir := rfl
@[simp] theorem unlink_wayWait (s : State) (e : EntryId) : (s.unlink e).wayWait = s.wayWait := rfl
@[simp] theorem unlink_recallMark (s : State) (e : EntryId) : (s.unlink e).recallMark = s.recallMark := rfl
@[simp] theorem unlink_pool (s : State) (e : EntryId) : (s.unlink e).pool = s.pool := rfl
@[simp] theorem unlink_poolQueue (s : State) (e : EntryId) : (s.unlink e).poolQueue = s.poolQueue := rfl
@[simp] theorem unlink_issueWait (s : State) (e : EntryId) : (s.unlink e).issueWait = s.issueWait := rfl
@[simp] theorem unlink_walker (s : State) (e : EntryId) : (s.unlink e).walker = s.walker := rfl
@[simp] theorem unlink_errors (s : State) (e : EntryId) : (s.unlink e).errors = s.errors := rfl
@[simp] theorem unlink_alertMask (s : State) (e : EntryId) : (s.unlink e).alertMask = s.alertMask := rfl
@[simp] theorem unlink_alertTarget (s : State) (e : EntryId) : (s.unlink e).alertTarget = s.alertTarget := rfl
@[simp] theorem unlink_pinEnable (s : State) (e : EntryId) : (s.unlink e).pinEnable = s.pinEnable := rfl
@[simp] theorem unlink_alert (s : State) (e : EntryId) : (s.unlink e).alert = s.alert := rfl
@[simp] theorem unlink_freeSeed (s : State) (e : EntryId) : (s.unlink e).freeSeed = s.freeSeed := rfl
@[simp] theorem unlink_pending (s : State) (e : EntryId) : (s.unlink e).pending = s.pending := rfl

/-! ## mapTimers -/

@[simp] theorem mapTimers_status (s : State) (n : NodeId) (f : Timer → Timer) : (s.mapTimers n f).status = s.status := rfl
@[simp] theorem mapTimers_promote (s : State) (n : NodeId) (f : Timer → Timer) : (s.mapTimers n f).promote = s.promote := rfl
@[simp] theorem mapTimers_correctWb (s : State) (n : NodeId) (f : Timer → Timer) : (s.mapTimers n f).correctWb = s.correctWb := rfl
@[simp] theorem mapTimers_poolSize (s : State) (n : NodeId) (f : Timer → Timer) : (s.mapTimers n f).poolSize = s.poolSize := rfl
@[simp] theorem mapTimers_probeTimeout (s : State) (n : NodeId) (f : Timer → Timer) : (s.mapTimers n f).probeTimeout = s.probeTimeout := rfl
@[simp] theorem mapTimers_retries (s : State) (n : NodeId) (f : Timer → Timer) : (s.mapTimers n f).retries = s.retries := rfl
@[simp] theorem mapTimers_relinkTimeout (s : State) (n : NodeId) (f : Timer → Timer) : (s.mapTimers n f).relinkTimeout = s.relinkTimeout := rfl
@[simp] theorem mapTimers_nodes (s : State) (n : NodeId) (f : Timer → Timer) : (s.mapTimers n f).nodes = s.nodes := rfl
@[simp] theorem mapTimers_regions (s : State) (n : NodeId) (f : Timer → Timer) : (s.mapTimers n f).regions = s.regions := rfl
@[simp] theorem mapTimers_returnPtr (s : State) (n : NodeId) (f : Timer → Timer) : (s.mapTimers n f).returnPtr = s.returnPtr := rfl
@[simp] theorem mapTimers_requestPtr (s : State) (n : NodeId) (f : Timer → Timer) : (s.mapTimers n f).requestPtr = s.requestPtr := rfl
@[simp] theorem mapTimers_dir (s : State) (n : NodeId) (f : Timer → Timer) : (s.mapTimers n f).dir = s.dir := rfl
@[simp] theorem mapTimers_wayWait (s : State) (n : NodeId) (f : Timer → Timer) : (s.mapTimers n f).wayWait = s.wayWait := rfl
@[simp] theorem mapTimers_recallMark (s : State) (n : NodeId) (f : Timer → Timer) : (s.mapTimers n f).recallMark = s.recallMark := rfl
@[simp] theorem mapTimers_pool (s : State) (n : NodeId) (f : Timer → Timer) : (s.mapTimers n f).pool = s.pool := rfl
@[simp] theorem mapTimers_poolQueue (s : State) (n : NodeId) (f : Timer → Timer) : (s.mapTimers n f).poolQueue = s.poolQueue := rfl
@[simp] theorem mapTimers_issueWait (s : State) (n : NodeId) (f : Timer → Timer) : (s.mapTimers n f).issueWait = s.issueWait := rfl
@[simp] theorem mapTimers_walker (s : State) (n : NodeId) (f : Timer → Timer) : (s.mapTimers n f).walker = s.walker := rfl
@[simp] theorem mapTimers_errors (s : State) (n : NodeId) (f : Timer → Timer) : (s.mapTimers n f).errors = s.errors := rfl
@[simp] theorem mapTimers_alertMask (s : State) (n : NodeId) (f : Timer → Timer) : (s.mapTimers n f).alertMask = s.alertMask := rfl
@[simp] theorem mapTimers_alertTarget (s : State) (n : NodeId) (f : Timer → Timer) : (s.mapTimers n f).alertTarget = s.alertTarget := rfl
@[simp] theorem mapTimers_pinEnable (s : State) (n : NodeId) (f : Timer → Timer) : (s.mapTimers n f).pinEnable = s.pinEnable := rfl
@[simp] theorem mapTimers_alert (s : State) (n : NodeId) (f : Timer → Timer) : (s.mapTimers n f).alert = s.alert := rfl
@[simp] theorem mapTimers_freeSeed (s : State) (n : NodeId) (f : Timer → Timer) : (s.mapTimers n f).freeSeed = s.freeSeed := rfl
@[simp] theorem mapTimers_pending (s : State) (n : NodeId) (f : Timer → Timer) : (s.mapTimers n f).pending = s.pending := rfl

/-! ## putDirSet -/

@[simp] theorem putDirSet_status (s : State) (k : SetIdx) (x : DirSet) : (s.putDirSet k x).status = s.status := rfl
@[simp] theorem putDirSet_promote (s : State) (k : SetIdx) (x : DirSet) : (s.putDirSet k x).promote = s.promote := rfl
@[simp] theorem putDirSet_correctWb (s : State) (k : SetIdx) (x : DirSet) : (s.putDirSet k x).correctWb = s.correctWb := rfl
@[simp] theorem putDirSet_poolSize (s : State) (k : SetIdx) (x : DirSet) : (s.putDirSet k x).poolSize = s.poolSize := rfl
@[simp] theorem putDirSet_probeTimeout (s : State) (k : SetIdx) (x : DirSet) : (s.putDirSet k x).probeTimeout = s.probeTimeout := rfl
@[simp] theorem putDirSet_retries (s : State) (k : SetIdx) (x : DirSet) : (s.putDirSet k x).retries = s.retries := rfl
@[simp] theorem putDirSet_relinkTimeout (s : State) (k : SetIdx) (x : DirSet) : (s.putDirSet k x).relinkTimeout = s.relinkTimeout := rfl
@[simp] theorem putDirSet_nodes (s : State) (k : SetIdx) (x : DirSet) : (s.putDirSet k x).nodes = s.nodes := rfl
@[simp] theorem putDirSet_regions (s : State) (k : SetIdx) (x : DirSet) : (s.putDirSet k x).regions = s.regions := rfl
@[simp] theorem putDirSet_returnPtr (s : State) (k : SetIdx) (x : DirSet) : (s.putDirSet k x).returnPtr = s.returnPtr := rfl
@[simp] theorem putDirSet_requestPtr (s : State) (k : SetIdx) (x : DirSet) : (s.putDirSet k x).requestPtr = s.requestPtr := rfl
@[simp] theorem putDirSet_entries (s : State) (k : SetIdx) (x : DirSet) : (s.putDirSet k x).entries = s.entries := rfl
@[simp] theorem putDirSet_wayWait (s : State) (k : SetIdx) (x : DirSet) : (s.putDirSet k x).wayWait = s.wayWait := rfl
@[simp] theorem putDirSet_recallMark (s : State) (k : SetIdx) (x : DirSet) : (s.putDirSet k x).recallMark = s.recallMark := rfl
@[simp] theorem putDirSet_pool (s : State) (k : SetIdx) (x : DirSet) : (s.putDirSet k x).pool = s.pool := rfl
@[simp] theorem putDirSet_poolQueue (s : State) (k : SetIdx) (x : DirSet) : (s.putDirSet k x).poolQueue = s.poolQueue := rfl
@[simp] theorem putDirSet_issueWait (s : State) (k : SetIdx) (x : DirSet) : (s.putDirSet k x).issueWait = s.issueWait := rfl
@[simp] theorem putDirSet_walker (s : State) (k : SetIdx) (x : DirSet) : (s.putDirSet k x).walker = s.walker := rfl
@[simp] theorem putDirSet_errors (s : State) (k : SetIdx) (x : DirSet) : (s.putDirSet k x).errors = s.errors := rfl
@[simp] theorem putDirSet_alertMask (s : State) (k : SetIdx) (x : DirSet) : (s.putDirSet k x).alertMask = s.alertMask := rfl
@[simp] theorem putDirSet_alertTarget (s : State) (k : SetIdx) (x : DirSet) : (s.putDirSet k x).alertTarget = s.alertTarget := rfl
@[simp] theorem putDirSet_pinEnable (s : State) (k : SetIdx) (x : DirSet) : (s.putDirSet k x).pinEnable = s.pinEnable := rfl
@[simp] theorem putDirSet_alert (s : State) (k : SetIdx) (x : DirSet) : (s.putDirSet k x).alert = s.alert := rfl
@[simp] theorem putDirSet_freeSeed (s : State) (k : SetIdx) (x : DirSet) : (s.putDirSet k x).freeSeed = s.freeSeed := rfl
@[simp] theorem putDirSet_pending (s : State) (k : SetIdx) (x : DirSet) : (s.putDirSet k x).pending = s.pending := rfl

/-! ## putWay -/

@[simp] theorem putWay_status (s : State) (k : SetIdx) (w : WayNo) (x : Way) : (s.putWay k w x).status = s.status := rfl
@[simp] theorem putWay_promote (s : State) (k : SetIdx) (w : WayNo) (x : Way) : (s.putWay k w x).promote = s.promote := rfl
@[simp] theorem putWay_correctWb (s : State) (k : SetIdx) (w : WayNo) (x : Way) : (s.putWay k w x).correctWb = s.correctWb := rfl
@[simp] theorem putWay_poolSize (s : State) (k : SetIdx) (w : WayNo) (x : Way) : (s.putWay k w x).poolSize = s.poolSize := rfl
@[simp] theorem putWay_probeTimeout (s : State) (k : SetIdx) (w : WayNo) (x : Way) : (s.putWay k w x).probeTimeout = s.probeTimeout := rfl
@[simp] theorem putWay_retries (s : State) (k : SetIdx) (w : WayNo) (x : Way) : (s.putWay k w x).retries = s.retries := rfl
@[simp] theorem putWay_relinkTimeout (s : State) (k : SetIdx) (w : WayNo) (x : Way) : (s.putWay k w x).relinkTimeout = s.relinkTimeout := rfl
@[simp] theorem putWay_nodes (s : State) (k : SetIdx) (w : WayNo) (x : Way) : (s.putWay k w x).nodes = s.nodes := rfl
@[simp] theorem putWay_regions (s : State) (k : SetIdx) (w : WayNo) (x : Way) : (s.putWay k w x).regions = s.regions := rfl
@[simp] theorem putWay_returnPtr (s : State) (k : SetIdx) (w : WayNo) (x : Way) : (s.putWay k w x).returnPtr = s.returnPtr := rfl
@[simp] theorem putWay_requestPtr (s : State) (k : SetIdx) (w : WayNo) (x : Way) : (s.putWay k w x).requestPtr = s.requestPtr := rfl
@[simp] theorem putWay_entries (s : State) (k : SetIdx) (w : WayNo) (x : Way) : (s.putWay k w x).entries = s.entries := rfl
@[simp] theorem putWay_wayWait (s : State) (k : SetIdx) (w : WayNo) (x : Way) : (s.putWay k w x).wayWait = s.wayWait := rfl
@[simp] theorem putWay_recallMark (s : State) (k : SetIdx) (w : WayNo) (x : Way) : (s.putWay k w x).recallMark = s.recallMark := rfl
@[simp] theorem putWay_pool (s : State) (k : SetIdx) (w : WayNo) (x : Way) : (s.putWay k w x).pool = s.pool := rfl
@[simp] theorem putWay_poolQueue (s : State) (k : SetIdx) (w : WayNo) (x : Way) : (s.putWay k w x).poolQueue = s.poolQueue := rfl
@[simp] theorem putWay_issueWait (s : State) (k : SetIdx) (w : WayNo) (x : Way) : (s.putWay k w x).issueWait = s.issueWait := rfl
@[simp] theorem putWay_walker (s : State) (k : SetIdx) (w : WayNo) (x : Way) : (s.putWay k w x).walker = s.walker := rfl
@[simp] theorem putWay_errors (s : State) (k : SetIdx) (w : WayNo) (x : Way) : (s.putWay k w x).errors = s.errors := rfl
@[simp] theorem putWay_alertMask (s : State) (k : SetIdx) (w : WayNo) (x : Way) : (s.putWay k w x).alertMask = s.alertMask := rfl
@[simp] theorem putWay_alertTarget (s : State) (k : SetIdx) (w : WayNo) (x : Way) : (s.putWay k w x).alertTarget = s.alertTarget := rfl
@[simp] theorem putWay_pinEnable (s : State) (k : SetIdx) (w : WayNo) (x : Way) : (s.putWay k w x).pinEnable = s.pinEnable := rfl
@[simp] theorem putWay_alert (s : State) (k : SetIdx) (w : WayNo) (x : Way) : (s.putWay k w x).alert = s.alert := rfl
@[simp] theorem putWay_freeSeed (s : State) (k : SetIdx) (w : WayNo) (x : Way) : (s.putWay k w x).freeSeed = s.freeSeed := rfl
@[simp] theorem putWay_pending (s : State) (k : SetIdx) (w : WayNo) (x : Way) : (s.putWay k w x).pending = s.pending := rfl

/-! ## storeWay -/

@[simp] theorem storeWay_status (s : State) (k : SetIdx) (w : WayNo) (x : Way) : (s.storeWay k w x).status = s.status := rfl
@[simp] theorem storeWay_promote (s : State) (k : SetIdx) (w : WayNo) (x : Way) : (s.storeWay k w x).promote = s.promote := rfl
@[simp] theorem storeWay_correctWb (s : State) (k : SetIdx) (w : WayNo) (x : Way) : (s.storeWay k w x).correctWb = s.correctWb := rfl
@[simp] theorem storeWay_poolSize (s : State) (k : SetIdx) (w : WayNo) (x : Way) : (s.storeWay k w x).poolSize = s.poolSize := rfl
@[simp] theorem storeWay_probeTimeout (s : State) (k : SetIdx) (w : WayNo) (x : Way) : (s.storeWay k w x).probeTimeout = s.probeTimeout := rfl
@[simp] theorem storeWay_retries (s : State) (k : SetIdx) (w : WayNo) (x : Way) : (s.storeWay k w x).retries = s.retries := rfl
@[simp] theorem storeWay_relinkTimeout (s : State) (k : SetIdx) (w : WayNo) (x : Way) : (s.storeWay k w x).relinkTimeout = s.relinkTimeout := rfl
@[simp] theorem storeWay_nodes (s : State) (k : SetIdx) (w : WayNo) (x : Way) : (s.storeWay k w x).nodes = s.nodes := rfl
@[simp] theorem storeWay_regions (s : State) (k : SetIdx) (w : WayNo) (x : Way) : (s.storeWay k w x).regions = s.regions := rfl
@[simp] theorem storeWay_returnPtr (s : State) (k : SetIdx) (w : WayNo) (x : Way) : (s.storeWay k w x).returnPtr = s.returnPtr := rfl
@[simp] theorem storeWay_requestPtr (s : State) (k : SetIdx) (w : WayNo) (x : Way) : (s.storeWay k w x).requestPtr = s.requestPtr := rfl
@[simp] theorem storeWay_entries (s : State) (k : SetIdx) (w : WayNo) (x : Way) : (s.storeWay k w x).entries = s.entries := rfl
@[simp] theorem storeWay_wayWait (s : State) (k : SetIdx) (w : WayNo) (x : Way) : (s.storeWay k w x).wayWait = s.wayWait := rfl
@[simp] theorem storeWay_recallMark (s : State) (k : SetIdx) (w : WayNo) (x : Way) : (s.storeWay k w x).recallMark = s.recallMark := rfl
@[simp] theorem storeWay_pool (s : State) (k : SetIdx) (w : WayNo) (x : Way) : (s.storeWay k w x).pool = s.pool := rfl
@[simp] theorem storeWay_poolQueue (s : State) (k : SetIdx) (w : WayNo) (x : Way) : (s.storeWay k w x).poolQueue = s.poolQueue := rfl
@[simp] theorem storeWay_issueWait (s : State) (k : SetIdx) (w : WayNo) (x : Way) : (s.storeWay k w x).issueWait = s.issueWait := rfl
@[simp] theorem storeWay_walker (s : State) (k : SetIdx) (w : WayNo) (x : Way) : (s.storeWay k w x).walker = s.walker := rfl
@[simp] theorem storeWay_errors (s : State) (k : SetIdx) (w : WayNo) (x : Way) : (s.storeWay k w x).errors = s.errors := rfl
@[simp] theorem storeWay_alertMask (s : State) (k : SetIdx) (w : WayNo) (x : Way) : (s.storeWay k w x).alertMask = s.alertMask := rfl
@[simp] theorem storeWay_alertTarget (s : State) (k : SetIdx) (w : WayNo) (x : Way) : (s.storeWay k w x).alertTarget = s.alertTarget := rfl
@[simp] theorem storeWay_pinEnable (s : State) (k : SetIdx) (w : WayNo) (x : Way) : (s.storeWay k w x).pinEnable = s.pinEnable := rfl
@[simp] theorem storeWay_alert (s : State) (k : SetIdx) (w : WayNo) (x : Way) : (s.storeWay k w x).alert = s.alert := rfl
@[simp] theorem storeWay_freeSeed (s : State) (k : SetIdx) (w : WayNo) (x : Way) : (s.storeWay k w x).freeSeed = s.freeSeed := rfl
@[simp] theorem storeWay_pending (s : State) (k : SetIdx) (w : WayNo) (x : Way) : (s.storeWay k w x).pending = s.pending := rfl

/-! ## setPin -/

@[simp] theorem setPin_status (s : State) (k : SetIdx) (w : WayNo) (p : Pin) : (s.setPin k w p).status = s.status := rfl
@[simp] theorem setPin_promote (s : State) (k : SetIdx) (w : WayNo) (p : Pin) : (s.setPin k w p).promote = s.promote := rfl
@[simp] theorem setPin_correctWb (s : State) (k : SetIdx) (w : WayNo) (p : Pin) : (s.setPin k w p).correctWb = s.correctWb := rfl
@[simp] theorem setPin_poolSize (s : State) (k : SetIdx) (w : WayNo) (p : Pin) : (s.setPin k w p).poolSize = s.poolSize := rfl
@[simp] theorem setPin_probeTimeout (s : State) (k : SetIdx) (w : WayNo) (p : Pin) : (s.setPin k w p).probeTimeout = s.probeTimeout := rfl
@[simp] theorem setPin_retries (s : State) (k : SetIdx) (w : WayNo) (p : Pin) : (s.setPin k w p).retries = s.retries := rfl
@[simp] theorem setPin_relinkTimeout (s : State) (k : SetIdx) (w : WayNo) (p : Pin) : (s.setPin k w p).relinkTimeout = s.relinkTimeout := rfl
@[simp] theorem setPin_nodes (s : State) (k : SetIdx) (w : WayNo) (p : Pin) : (s.setPin k w p).nodes = s.nodes := rfl
@[simp] theorem setPin_regions (s : State) (k : SetIdx) (w : WayNo) (p : Pin) : (s.setPin k w p).regions = s.regions := rfl
@[simp] theorem setPin_returnPtr (s : State) (k : SetIdx) (w : WayNo) (p : Pin) : (s.setPin k w p).returnPtr = s.returnPtr := rfl
@[simp] theorem setPin_requestPtr (s : State) (k : SetIdx) (w : WayNo) (p : Pin) : (s.setPin k w p).requestPtr = s.requestPtr := rfl
@[simp] theorem setPin_entries (s : State) (k : SetIdx) (w : WayNo) (p : Pin) : (s.setPin k w p).entries = s.entries := rfl
@[simp] theorem setPin_wayWait (s : State) (k : SetIdx) (w : WayNo) (p : Pin) : (s.setPin k w p).wayWait = s.wayWait := rfl
@[simp] theorem setPin_recallMark (s : State) (k : SetIdx) (w : WayNo) (p : Pin) : (s.setPin k w p).recallMark = s.recallMark := rfl
@[simp] theorem setPin_pool (s : State) (k : SetIdx) (w : WayNo) (p : Pin) : (s.setPin k w p).pool = s.pool := rfl
@[simp] theorem setPin_poolQueue (s : State) (k : SetIdx) (w : WayNo) (p : Pin) : (s.setPin k w p).poolQueue = s.poolQueue := rfl
@[simp] theorem setPin_issueWait (s : State) (k : SetIdx) (w : WayNo) (p : Pin) : (s.setPin k w p).issueWait = s.issueWait := rfl
@[simp] theorem setPin_walker (s : State) (k : SetIdx) (w : WayNo) (p : Pin) : (s.setPin k w p).walker = s.walker := rfl
@[simp] theorem setPin_errors (s : State) (k : SetIdx) (w : WayNo) (p : Pin) : (s.setPin k w p).errors = s.errors := rfl
@[simp] theorem setPin_alertMask (s : State) (k : SetIdx) (w : WayNo) (p : Pin) : (s.setPin k w p).alertMask = s.alertMask := rfl
@[simp] theorem setPin_alertTarget (s : State) (k : SetIdx) (w : WayNo) (p : Pin) : (s.setPin k w p).alertTarget = s.alertTarget := rfl
@[simp] theorem setPin_pinEnable (s : State) (k : SetIdx) (w : WayNo) (p : Pin) : (s.setPin k w p).pinEnable = s.pinEnable := rfl
@[simp] theorem setPin_alert (s : State) (k : SetIdx) (w : WayNo) (p : Pin) : (s.setPin k w p).alert = s.alert := rfl
@[simp] theorem setPin_freeSeed (s : State) (k : SetIdx) (w : WayNo) (p : Pin) : (s.setPin k w p).freeSeed = s.freeSeed := rfl
@[simp] theorem setPin_pending (s : State) (k : SetIdx) (w : WayNo) (p : Pin) : (s.setPin k w p).pending = s.pending := rfl

/-! ## touch -/

@[simp] theorem touch_status (s : State) (k : SetIdx) (w : WayNo) : (s.touch k w).status = s.status := rfl
@[simp] theorem touch_promote (s : State) (k : SetIdx) (w : WayNo) : (s.touch k w).promote = s.promote := rfl
@[simp] theorem touch_correctWb (s : State) (k : SetIdx) (w : WayNo) : (s.touch k w).correctWb = s.correctWb := rfl
@[simp] theorem touch_poolSize (s : State) (k : SetIdx) (w : WayNo) : (s.touch k w).poolSize = s.poolSize := rfl
@[simp] theorem touch_probeTimeout (s : State) (k : SetIdx) (w : WayNo) : (s.touch k w).probeTimeout = s.probeTimeout := rfl
@[simp] theorem touch_retries (s : State) (k : SetIdx) (w : WayNo) : (s.touch k w).retries = s.retries := rfl
@[simp] theorem touch_relinkTimeout (s : State) (k : SetIdx) (w : WayNo) : (s.touch k w).relinkTimeout = s.relinkTimeout := rfl
@[simp] theorem touch_nodes (s : State) (k : SetIdx) (w : WayNo) : (s.touch k w).nodes = s.nodes := rfl
@[simp] theorem touch_regions (s : State) (k : SetIdx) (w : WayNo) : (s.touch k w).regions = s.regions := rfl
@[simp] theorem touch_returnPtr (s : State) (k : SetIdx) (w : WayNo) : (s.touch k w).returnPtr = s.returnPtr := rfl
@[simp] theorem touch_requestPtr (s : State) (k : SetIdx) (w : WayNo) : (s.touch k w).requestPtr = s.requestPtr := rfl
@[simp] theorem touch_entries (s : State) (k : SetIdx) (w : WayNo) : (s.touch k w).entries = s.entries := rfl
@[simp] theorem touch_wayWait (s : State) (k : SetIdx) (w : WayNo) : (s.touch k w).wayWait = s.wayWait := rfl
@[simp] theorem touch_recallMark (s : State) (k : SetIdx) (w : WayNo) : (s.touch k w).recallMark = s.recallMark := rfl
@[simp] theorem touch_pool (s : State) (k : SetIdx) (w : WayNo) : (s.touch k w).pool = s.pool := rfl
@[simp] theorem touch_poolQueue (s : State) (k : SetIdx) (w : WayNo) : (s.touch k w).poolQueue = s.poolQueue := rfl
@[simp] theorem touch_issueWait (s : State) (k : SetIdx) (w : WayNo) : (s.touch k w).issueWait = s.issueWait := rfl
@[simp] theorem touch_walker (s : State) (k : SetIdx) (w : WayNo) : (s.touch k w).walker = s.walker := rfl
@[simp] theorem touch_errors (s : State) (k : SetIdx) (w : WayNo) : (s.touch k w).errors = s.errors := rfl
@[simp] theorem touch_alertMask (s : State) (k : SetIdx) (w : WayNo) : (s.touch k w).alertMask = s.alertMask := rfl
@[simp] theorem touch_alertTarget (s : State) (k : SetIdx) (w : WayNo) : (s.touch k w).alertTarget = s.alertTarget := rfl
@[simp] theorem touch_pinEnable (s : State) (k : SetIdx) (w : WayNo) : (s.touch k w).pinEnable = s.pinEnable := rfl
@[simp] theorem touch_alert (s : State) (k : SetIdx) (w : WayNo) : (s.touch k w).alert = s.alert := rfl
@[simp] theorem touch_freeSeed (s : State) (k : SetIdx) (w : WayNo) : (s.touch k w).freeSeed = s.freeSeed := rfl
@[simp] theorem touch_pending (s : State) (k : SetIdx) (w : WayNo) : (s.touch k w).pending = s.pending := rfl

/-! ## setStall -/

@[simp] theorem setStall_status (s : State) (x : Stall) : (s.setStall x).status = s.status := rfl
@[simp] theorem setStall_promote (s : State) (x : Stall) : (s.setStall x).promote = s.promote := rfl
@[simp] theorem setStall_correctWb (s : State) (x : Stall) : (s.setStall x).correctWb = s.correctWb := rfl
@[simp] theorem setStall_poolSize (s : State) (x : Stall) : (s.setStall x).poolSize = s.poolSize := rfl
@[simp] theorem setStall_probeTimeout (s : State) (x : Stall) : (s.setStall x).probeTimeout = s.probeTimeout := rfl
@[simp] theorem setStall_retries (s : State) (x : Stall) : (s.setStall x).retries = s.retries := rfl
@[simp] theorem setStall_relinkTimeout (s : State) (x : Stall) : (s.setStall x).relinkTimeout = s.relinkTimeout := rfl
@[simp] theorem setStall_nodes (s : State) (x : Stall) : (s.setStall x).nodes = s.nodes := rfl
@[simp] theorem setStall_regions (s : State) (x : Stall) : (s.setStall x).regions = s.regions := rfl
@[simp] theorem setStall_returnPtr (s : State) (x : Stall) : (s.setStall x).returnPtr = s.returnPtr := rfl
@[simp] theorem setStall_requestPtr (s : State) (x : Stall) : (s.setStall x).requestPtr = s.requestPtr := rfl
@[simp] theorem setStall_dir (s : State) (x : Stall) : (s.setStall x).dir = s.dir := rfl
@[simp] theorem setStall_entries (s : State) (x : Stall) : (s.setStall x).entries = s.entries := rfl
@[simp] theorem setStall_wayWait (s : State) (x : Stall) : (s.setStall x).wayWait = s.wayWait := rfl
@[simp] theorem setStall_recallMark (s : State) (x : Stall) : (s.setStall x).recallMark = s.recallMark := rfl
@[simp] theorem setStall_pool (s : State) (x : Stall) : (s.setStall x).pool = s.pool := rfl
@[simp] theorem setStall_poolQueue (s : State) (x : Stall) : (s.setStall x).poolQueue = s.poolQueue := rfl
@[simp] theorem setStall_issueWait (s : State) (x : Stall) : (s.setStall x).issueWait = s.issueWait := rfl
@[simp] theorem setStall_errors (s : State) (x : Stall) : (s.setStall x).errors = s.errors := rfl
@[simp] theorem setStall_alertMask (s : State) (x : Stall) : (s.setStall x).alertMask = s.alertMask := rfl
@[simp] theorem setStall_alertTarget (s : State) (x : Stall) : (s.setStall x).alertTarget = s.alertTarget := rfl
@[simp] theorem setStall_pinEnable (s : State) (x : Stall) : (s.setStall x).pinEnable = s.pinEnable := rfl
@[simp] theorem setStall_alert (s : State) (x : Stall) : (s.setStall x).alert = s.alert := rfl
@[simp] theorem setStall_freeSeed (s : State) (x : Stall) : (s.setStall x).freeSeed = s.freeSeed := rfl
@[simp] theorem setStall_pending (s : State) (x : Stall) : (s.setStall x).pending = s.pending := rfl

/-! ## setRecord -/

@[simp] theorem setRecord_status (s : State) (n : NodeId) (r : Option WalkRec) : (s.setRecord n r).status = s.status := rfl
@[simp] theorem setRecord_promote (s : State) (n : NodeId) (r : Option WalkRec) : (s.setRecord n r).promote = s.promote := rfl
@[simp] theorem setRecord_correctWb (s : State) (n : NodeId) (r : Option WalkRec) : (s.setRecord n r).correctWb = s.correctWb := rfl
@[simp] theorem setRecord_poolSize (s : State) (n : NodeId) (r : Option WalkRec) : (s.setRecord n r).poolSize = s.poolSize := rfl
@[simp] theorem setRecord_probeTimeout (s : State) (n : NodeId) (r : Option WalkRec) : (s.setRecord n r).probeTimeout = s.probeTimeout := rfl
@[simp] theorem setRecord_retries (s : State) (n : NodeId) (r : Option WalkRec) : (s.setRecord n r).retries = s.retries := rfl
@[simp] theorem setRecord_relinkTimeout (s : State) (n : NodeId) (r : Option WalkRec) : (s.setRecord n r).relinkTimeout = s.relinkTimeout := rfl
@[simp] theorem setRecord_nodes (s : State) (n : NodeId) (r : Option WalkRec) : (s.setRecord n r).nodes = s.nodes := rfl
@[simp] theorem setRecord_regions (s : State) (n : NodeId) (r : Option WalkRec) : (s.setRecord n r).regions = s.regions := rfl
@[simp] theorem setRecord_returnPtr (s : State) (n : NodeId) (r : Option WalkRec) : (s.setRecord n r).returnPtr = s.returnPtr := rfl
@[simp] theorem setRecord_requestPtr (s : State) (n : NodeId) (r : Option WalkRec) : (s.setRecord n r).requestPtr = s.requestPtr := rfl
@[simp] theorem setRecord_dir (s : State) (n : NodeId) (r : Option WalkRec) : (s.setRecord n r).dir = s.dir := rfl
@[simp] theorem setRecord_entries (s : State) (n : NodeId) (r : Option WalkRec) : (s.setRecord n r).entries = s.entries := rfl
@[simp] theorem setRecord_wayWait (s : State) (n : NodeId) (r : Option WalkRec) : (s.setRecord n r).wayWait = s.wayWait := rfl
@[simp] theorem setRecord_recallMark (s : State) (n : NodeId) (r : Option WalkRec) : (s.setRecord n r).recallMark = s.recallMark := rfl
@[simp] theorem setRecord_pool (s : State) (n : NodeId) (r : Option WalkRec) : (s.setRecord n r).pool = s.pool := rfl
@[simp] theorem setRecord_poolQueue (s : State) (n : NodeId) (r : Option WalkRec) : (s.setRecord n r).poolQueue = s.poolQueue := rfl
@[simp] theorem setRecord_issueWait (s : State) (n : NodeId) (r : Option WalkRec) : (s.setRecord n r).issueWait = s.issueWait := rfl
@[simp] theorem setRecord_errors (s : State) (n : NodeId) (r : Option WalkRec) : (s.setRecord n r).errors = s.errors := rfl
@[simp] theorem setRecord_alertMask (s : State) (n : NodeId) (r : Option WalkRec) : (s.setRecord n r).alertMask = s.alertMask := rfl
@[simp] theorem setRecord_alertTarget (s : State) (n : NodeId) (r : Option WalkRec) : (s.setRecord n r).alertTarget = s.alertTarget := rfl
@[simp] theorem setRecord_pinEnable (s : State) (n : NodeId) (r : Option WalkRec) : (s.setRecord n r).pinEnable = s.pinEnable := rfl
@[simp] theorem setRecord_alert (s : State) (n : NodeId) (r : Option WalkRec) : (s.setRecord n r).alert = s.alert := rfl
@[simp] theorem setRecord_freeSeed (s : State) (n : NodeId) (r : Option WalkRec) : (s.setRecord n r).freeSeed = s.freeSeed := rfl
@[simp] theorem setRecord_pending (s : State) (n : NodeId) (r : Option WalkRec) : (s.setRecord n r).pending = s.pending := rfl

/-! ## leaveList -/

@[simp] theorem leaveList_status (s : State) (e : EntryId) : (s.leaveList e).status = s.status := rfl
@[simp] theorem leaveList_promote (s : State) (e : EntryId) : (s.leaveList e).promote = s.promote := rfl
@[simp] theorem leaveList_correctWb (s : State) (e : EntryId) : (s.leaveList e).correctWb = s.correctWb := rfl
@[simp] theorem leaveList_poolSize (s : State) (e : EntryId) : (s.leaveList e).poolSize = s.poolSize := rfl
@[simp] theorem leaveList_probeTimeout (s : State) (e : EntryId) : (s.leaveList e).probeTimeout = s.probeTimeout := rfl
@[simp] theorem leaveList_retries (s : State) (e : EntryId) : (s.leaveList e).retries = s.retries := rfl
@[simp] theorem leaveList_relinkTimeout (s : State) (e : EntryId) : (s.leaveList e).relinkTimeout = s.relinkTimeout := rfl
@[simp] theorem leaveList_nodes (s : State) (e : EntryId) : (s.leaveList e).nodes = s.nodes := rfl
@[simp] theorem leaveList_regions (s : State) (e : EntryId) : (s.leaveList e).regions = s.regions := rfl
@[simp] theorem leaveList_returnPtr (s : State) (e : EntryId) : (s.leaveList e).returnPtr = s.returnPtr := rfl
@[simp] theorem leaveList_requestPtr (s : State) (e : EntryId) : (s.leaveList e).requestPtr = s.requestPtr := rfl
@[simp] theorem leaveList_dir (s : State) (e : EntryId) : (s.leaveList e).dir = s.dir := rfl
@[simp] theorem leaveList_entries (s : State) (e : EntryId) : (s.leaveList e).entries = s.entries := rfl
@[simp] theorem leaveList_recallMark (s : State) (e : EntryId) : (s.leaveList e).recallMark = s.recallMark := rfl
@[simp] theorem leaveList_pool (s : State) (e : EntryId) : (s.leaveList e).pool = s.pool := rfl
@[simp] theorem leaveList_poolQueue (s : State) (e : EntryId) : (s.leaveList e).poolQueue = s.poolQueue := rfl
@[simp] theorem leaveList_issueWait (s : State) (e : EntryId) : (s.leaveList e).issueWait = s.issueWait := rfl
@[simp] theorem leaveList_walker (s : State) (e : EntryId) : (s.leaveList e).walker = s.walker := rfl
@[simp] theorem leaveList_errors (s : State) (e : EntryId) : (s.leaveList e).errors = s.errors := rfl
@[simp] theorem leaveList_alertMask (s : State) (e : EntryId) : (s.leaveList e).alertMask = s.alertMask := rfl
@[simp] theorem leaveList_alertTarget (s : State) (e : EntryId) : (s.leaveList e).alertTarget = s.alertTarget := rfl
@[simp] theorem leaveList_pinEnable (s : State) (e : EntryId) : (s.leaveList e).pinEnable = s.pinEnable := rfl
@[simp] theorem leaveList_alert (s : State) (e : EntryId) : (s.leaveList e).alert = s.alert := rfl
@[simp] theorem leaveList_freeSeed (s : State) (e : EntryId) : (s.leaveList e).freeSeed = s.freeSeed := rfl
@[simp] theorem leaveList_pending (s : State) (e : EntryId) : (s.leaveList e).pending = s.pending := rfl

/-! ## demoteOthers -/

@[simp] theorem demoteOthers_status (s : State) (k : SetIdx) (e : EntryId) : (s.demoteOthers k e).status = s.status := rfl
@[simp] theorem demoteOthers_promote (s : State) (k : SetIdx) (e : EntryId) : (s.demoteOthers k e).promote = s.promote := rfl
@[simp] theorem demoteOthers_correctWb (s : State) (k : SetIdx) (e : EntryId) : (s.demoteOthers k e).correctWb = s.correctWb := rfl
@[simp] theorem demoteOthers_poolSize (s : State) (k : SetIdx) (e : EntryId) : (s.demoteOthers k e).poolSize = s.poolSize := rfl
@[simp] theorem demoteOthers_probeTimeout (s : State) (k : SetIdx) (e : EntryId) : (s.demoteOthers k e).probeTimeout = s.probeTimeout := rfl
@[simp] theorem demoteOthers_retries (s : State) (k : SetIdx) (e : EntryId) : (s.demoteOthers k e).retries = s.retries := rfl
@[simp] theorem demoteOthers_relinkTimeout (s : State) (k : SetIdx) (e : EntryId) : (s.demoteOthers k e).relinkTimeout = s.relinkTimeout := rfl
@[simp] theorem demoteOthers_nodes (s : State) (k : SetIdx) (e : EntryId) : (s.demoteOthers k e).nodes = s.nodes := rfl
@[simp] theorem demoteOthers_regions (s : State) (k : SetIdx) (e : EntryId) : (s.demoteOthers k e).regions = s.regions := rfl
@[simp] theorem demoteOthers_returnPtr (s : State) (k : SetIdx) (e : EntryId) : (s.demoteOthers k e).returnPtr = s.returnPtr := rfl
@[simp] theorem demoteOthers_requestPtr (s : State) (k : SetIdx) (e : EntryId) : (s.demoteOthers k e).requestPtr = s.requestPtr := rfl
@[simp] theorem demoteOthers_dir (s : State) (k : SetIdx) (e : EntryId) : (s.demoteOthers k e).dir = s.dir := rfl
@[simp] theorem demoteOthers_entries (s : State) (k : SetIdx) (e : EntryId) : (s.demoteOthers k e).entries = s.entries := rfl
@[simp] theorem demoteOthers_recallMark (s : State) (k : SetIdx) (e : EntryId) : (s.demoteOthers k e).recallMark = s.recallMark := rfl
@[simp] theorem demoteOthers_pool (s : State) (k : SetIdx) (e : EntryId) : (s.demoteOthers k e).pool = s.pool := rfl
@[simp] theorem demoteOthers_poolQueue (s : State) (k : SetIdx) (e : EntryId) : (s.demoteOthers k e).poolQueue = s.poolQueue := rfl
@[simp] theorem demoteOthers_issueWait (s : State) (k : SetIdx) (e : EntryId) : (s.demoteOthers k e).issueWait = s.issueWait := rfl
@[simp] theorem demoteOthers_walker (s : State) (k : SetIdx) (e : EntryId) : (s.demoteOthers k e).walker = s.walker := rfl
@[simp] theorem demoteOthers_errors (s : State) (k : SetIdx) (e : EntryId) : (s.demoteOthers k e).errors = s.errors := rfl
@[simp] theorem demoteOthers_alertMask (s : State) (k : SetIdx) (e : EntryId) : (s.demoteOthers k e).alertMask = s.alertMask := rfl
@[simp] theorem demoteOthers_alertTarget (s : State) (k : SetIdx) (e : EntryId) : (s.demoteOthers k e).alertTarget = s.alertTarget := rfl
@[simp] theorem demoteOthers_pinEnable (s : State) (k : SetIdx) (e : EntryId) : (s.demoteOthers k e).pinEnable = s.pinEnable := rfl
@[simp] theorem demoteOthers_alert (s : State) (k : SetIdx) (e : EntryId) : (s.demoteOthers k e).alert = s.alert := rfl
@[simp] theorem demoteOthers_freeSeed (s : State) (k : SetIdx) (e : EntryId) : (s.demoteOthers k e).freeSeed = s.freeSeed := rfl
@[simp] theorem demoteOthers_pending (s : State) (k : SetIdx) (e : EntryId) : (s.demoteOthers k e).pending = s.pending := rfl

/-! ## modRegion -/

@[simp] theorem modRegion_status (s : State) (r : RegionNo) (f : Region → Region) : (s.modRegion r f).status = s.status := rfl
@[simp] theorem modRegion_promote (s : State) (r : RegionNo) (f : Region → Region) : (s.modRegion r f).promote = s.promote := rfl
@[simp] theorem modRegion_correctWb (s : State) (r : RegionNo) (f : Region → Region) : (s.modRegion r f).correctWb = s.correctWb := rfl
@[simp] theorem modRegion_poolSize (s : State) (r : RegionNo) (f : Region → Region) : (s.modRegion r f).poolSize = s.poolSize := rfl
@[simp] theorem modRegion_probeTimeout (s : State) (r : RegionNo) (f : Region → Region) : (s.modRegion r f).probeTimeout = s.probeTimeout := rfl
@[simp] theorem modRegion_retries (s : State) (r : RegionNo) (f : Region → Region) : (s.modRegion r f).retries = s.retries := rfl
@[simp] theorem modRegion_relinkTimeout (s : State) (r : RegionNo) (f : Region → Region) : (s.modRegion r f).relinkTimeout = s.relinkTimeout := rfl
@[simp] theorem modRegion_nodes (s : State) (r : RegionNo) (f : Region → Region) : (s.modRegion r f).nodes = s.nodes := rfl
@[simp] theorem modRegion_returnPtr (s : State) (r : RegionNo) (f : Region → Region) : (s.modRegion r f).returnPtr = s.returnPtr := rfl
@[simp] theorem modRegion_requestPtr (s : State) (r : RegionNo) (f : Region → Region) : (s.modRegion r f).requestPtr = s.requestPtr := rfl
@[simp] theorem modRegion_dir (s : State) (r : RegionNo) (f : Region → Region) : (s.modRegion r f).dir = s.dir := rfl
@[simp] theorem modRegion_entries (s : State) (r : RegionNo) (f : Region → Region) : (s.modRegion r f).entries = s.entries := rfl
@[simp] theorem modRegion_wayWait (s : State) (r : RegionNo) (f : Region → Region) : (s.modRegion r f).wayWait = s.wayWait := rfl
@[simp] theorem modRegion_recallMark (s : State) (r : RegionNo) (f : Region → Region) : (s.modRegion r f).recallMark = s.recallMark := rfl
@[simp] theorem modRegion_pool (s : State) (r : RegionNo) (f : Region → Region) : (s.modRegion r f).pool = s.pool := rfl
@[simp] theorem modRegion_poolQueue (s : State) (r : RegionNo) (f : Region → Region) : (s.modRegion r f).poolQueue = s.poolQueue := rfl
@[simp] theorem modRegion_issueWait (s : State) (r : RegionNo) (f : Region → Region) : (s.modRegion r f).issueWait = s.issueWait := rfl
@[simp] theorem modRegion_walker (s : State) (r : RegionNo) (f : Region → Region) : (s.modRegion r f).walker = s.walker := rfl
@[simp] theorem modRegion_errors (s : State) (r : RegionNo) (f : Region → Region) : (s.modRegion r f).errors = s.errors := rfl
@[simp] theorem modRegion_alertMask (s : State) (r : RegionNo) (f : Region → Region) : (s.modRegion r f).alertMask = s.alertMask := rfl
@[simp] theorem modRegion_alertTarget (s : State) (r : RegionNo) (f : Region → Region) : (s.modRegion r f).alertTarget = s.alertTarget := rfl
@[simp] theorem modRegion_pinEnable (s : State) (r : RegionNo) (f : Region → Region) : (s.modRegion r f).pinEnable = s.pinEnable := rfl
@[simp] theorem modRegion_alert (s : State) (r : RegionNo) (f : Region → Region) : (s.modRegion r f).alert = s.alert := rfl
@[simp] theorem modRegion_freeSeed (s : State) (r : RegionNo) (f : Region → Region) : (s.modRegion r f).freeSeed = s.freeSeed := rfl
@[simp] theorem modRegion_pending (s : State) (r : RegionNo) (f : Region → Region) : (s.modRegion r f).pending = s.pending := rfl

/-! ## capture -/

@[simp] theorem capture_status (s : State) (c : ErrClass) (r : ErrRec) : (s.capture c r).status = s.status := rfl
@[simp] theorem capture_promote (s : State) (c : ErrClass) (r : ErrRec) : (s.capture c r).promote = s.promote := rfl
@[simp] theorem capture_correctWb (s : State) (c : ErrClass) (r : ErrRec) : (s.capture c r).correctWb = s.correctWb := rfl
@[simp] theorem capture_poolSize (s : State) (c : ErrClass) (r : ErrRec) : (s.capture c r).poolSize = s.poolSize := rfl
@[simp] theorem capture_probeTimeout (s : State) (c : ErrClass) (r : ErrRec) : (s.capture c r).probeTimeout = s.probeTimeout := rfl
@[simp] theorem capture_retries (s : State) (c : ErrClass) (r : ErrRec) : (s.capture c r).retries = s.retries := rfl
@[simp] theorem capture_relinkTimeout (s : State) (c : ErrClass) (r : ErrRec) : (s.capture c r).relinkTimeout = s.relinkTimeout := rfl
@[simp] theorem capture_nodes (s : State) (c : ErrClass) (r : ErrRec) : (s.capture c r).nodes = s.nodes := rfl
@[simp] theorem capture_regions (s : State) (c : ErrClass) (r : ErrRec) : (s.capture c r).regions = s.regions := rfl
@[simp] theorem capture_returnPtr (s : State) (c : ErrClass) (r : ErrRec) : (s.capture c r).returnPtr = s.returnPtr := rfl
@[simp] theorem capture_requestPtr (s : State) (c : ErrClass) (r : ErrRec) : (s.capture c r).requestPtr = s.requestPtr := rfl
@[simp] theorem capture_dir (s : State) (c : ErrClass) (r : ErrRec) : (s.capture c r).dir = s.dir := rfl
@[simp] theorem capture_entries (s : State) (c : ErrClass) (r : ErrRec) : (s.capture c r).entries = s.entries := rfl
@[simp] theorem capture_wayWait (s : State) (c : ErrClass) (r : ErrRec) : (s.capture c r).wayWait = s.wayWait := rfl
@[simp] theorem capture_recallMark (s : State) (c : ErrClass) (r : ErrRec) : (s.capture c r).recallMark = s.recallMark := rfl
@[simp] theorem capture_pool (s : State) (c : ErrClass) (r : ErrRec) : (s.capture c r).pool = s.pool := rfl
@[simp] theorem capture_poolQueue (s : State) (c : ErrClass) (r : ErrRec) : (s.capture c r).poolQueue = s.poolQueue := rfl
@[simp] theorem capture_issueWait (s : State) (c : ErrClass) (r : ErrRec) : (s.capture c r).issueWait = s.issueWait := rfl
@[simp] theorem capture_walker (s : State) (c : ErrClass) (r : ErrRec) : (s.capture c r).walker = s.walker := rfl
@[simp] theorem capture_alertMask (s : State) (c : ErrClass) (r : ErrRec) : (s.capture c r).alertMask = s.alertMask := rfl
@[simp] theorem capture_alertTarget (s : State) (c : ErrClass) (r : ErrRec) : (s.capture c r).alertTarget = s.alertTarget := rfl
@[simp] theorem capture_pinEnable (s : State) (c : ErrClass) (r : ErrRec) : (s.capture c r).pinEnable = s.pinEnable := rfl
@[simp] theorem capture_alert (s : State) (c : ErrClass) (r : ErrRec) : (s.capture c r).alert = s.alert := rfl
@[simp] theorem capture_freeSeed (s : State) (c : ErrClass) (r : ErrRec) : (s.capture c r).freeSeed = s.freeSeed := rfl
@[simp] theorem capture_pending (s : State) (c : ErrClass) (r : ErrRec) : (s.capture c r).pending = s.pending := rfl

/-! ## acknowledge -/

@[simp] theorem acknowledge_status (s : State) (named : ClassSet) : (s.acknowledge named).status = s.status := rfl
@[simp] theorem acknowledge_promote (s : State) (named : ClassSet) : (s.acknowledge named).promote = s.promote := rfl
@[simp] theorem acknowledge_correctWb (s : State) (named : ClassSet) : (s.acknowledge named).correctWb = s.correctWb := rfl
@[simp] theorem acknowledge_poolSize (s : State) (named : ClassSet) : (s.acknowledge named).poolSize = s.poolSize := rfl
@[simp] theorem acknowledge_probeTimeout (s : State) (named : ClassSet) : (s.acknowledge named).probeTimeout = s.probeTimeout := rfl
@[simp] theorem acknowledge_retries (s : State) (named : ClassSet) : (s.acknowledge named).retries = s.retries := rfl
@[simp] theorem acknowledge_relinkTimeout (s : State) (named : ClassSet) : (s.acknowledge named).relinkTimeout = s.relinkTimeout := rfl
@[simp] theorem acknowledge_nodes (s : State) (named : ClassSet) : (s.acknowledge named).nodes = s.nodes := rfl
@[simp] theorem acknowledge_regions (s : State) (named : ClassSet) : (s.acknowledge named).regions = s.regions := rfl
@[simp] theorem acknowledge_returnPtr (s : State) (named : ClassSet) : (s.acknowledge named).returnPtr = s.returnPtr := rfl
@[simp] theorem acknowledge_requestPtr (s : State) (named : ClassSet) : (s.acknowledge named).requestPtr = s.requestPtr := rfl
@[simp] theorem acknowledge_dir (s : State) (named : ClassSet) : (s.acknowledge named).dir = s.dir := rfl
@[simp] theorem acknowledge_entries (s : State) (named : ClassSet) : (s.acknowledge named).entries = s.entries := rfl
@[simp] theorem acknowledge_wayWait (s : State) (named : ClassSet) : (s.acknowledge named).wayWait = s.wayWait := rfl
@[simp] theorem acknowledge_recallMark (s : State) (named : ClassSet) : (s.acknowledge named).recallMark = s.recallMark := rfl
@[simp] theorem acknowledge_pool (s : State) (named : ClassSet) : (s.acknowledge named).pool = s.pool := rfl
@[simp] theorem acknowledge_poolQueue (s : State) (named : ClassSet) : (s.acknowledge named).poolQueue = s.poolQueue := rfl
@[simp] theorem acknowledge_issueWait (s : State) (named : ClassSet) : (s.acknowledge named).issueWait = s.issueWait := rfl
@[simp] theorem acknowledge_walker (s : State) (named : ClassSet) : (s.acknowledge named).walker = s.walker := rfl
@[simp] theorem acknowledge_alertMask (s : State) (named : ClassSet) : (s.acknowledge named).alertMask = s.alertMask := rfl
@[simp] theorem acknowledge_alertTarget (s : State) (named : ClassSet) : (s.acknowledge named).alertTarget = s.alertTarget := rfl
@[simp] theorem acknowledge_pinEnable (s : State) (named : ClassSet) : (s.acknowledge named).pinEnable = s.pinEnable := rfl
@[simp] theorem acknowledge_alert (s : State) (named : ClassSet) : (s.acknowledge named).alert = s.alert := rfl
@[simp] theorem acknowledge_freeSeed (s : State) (named : ClassSet) : (s.acknowledge named).freeSeed = s.freeSeed := rfl
@[simp] theorem acknowledge_pending (s : State) (named : ClassSet) : (s.acknowledge named).pending = s.pending := rfl

/-! ## tick -/

@[simp] theorem tick_status (s : State) : (s.tick).status = s.status := rfl
@[simp] theorem tick_promote (s : State) : (s.tick).promote = s.promote := rfl
@[simp] theorem tick_correctWb (s : State) : (s.tick).correctWb = s.correctWb := rfl
@[simp] theorem tick_poolSize (s : State) : (s.tick).poolSize = s.poolSize := rfl
@[simp] theorem tick_probeTimeout (s : State) : (s.tick).probeTimeout = s.probeTimeout := rfl
@[simp] theorem tick_retries (s : State) : (s.tick).retries = s.retries := rfl
@[simp] theorem tick_relinkTimeout (s : State) : (s.tick).relinkTimeout = s.relinkTimeout := rfl
@[simp] theorem tick_regions (s : State) : (s.tick).regions = s.regions := rfl
@[simp] theorem tick_returnPtr (s : State) : (s.tick).returnPtr = s.returnPtr := rfl
@[simp] theorem tick_requestPtr (s : State) : (s.tick).requestPtr = s.requestPtr := rfl
@[simp] theorem tick_dir (s : State) : (s.tick).dir = s.dir := rfl
@[simp] theorem tick_wayWait (s : State) : (s.tick).wayWait = s.wayWait := rfl
@[simp] theorem tick_recallMark (s : State) : (s.tick).recallMark = s.recallMark := rfl
@[simp] theorem tick_pool (s : State) : (s.tick).pool = s.pool := rfl
@[simp] theorem tick_poolQueue (s : State) : (s.tick).poolQueue = s.poolQueue := rfl
@[simp] theorem tick_issueWait (s : State) : (s.tick).issueWait = s.issueWait := rfl
@[simp] theorem tick_walker (s : State) : (s.tick).walker = s.walker := rfl
@[simp] theorem tick_errors (s : State) : (s.tick).errors = s.errors := rfl
@[simp] theorem tick_alertMask (s : State) : (s.tick).alertMask = s.alertMask := rfl
@[simp] theorem tick_alertTarget (s : State) : (s.tick).alertTarget = s.alertTarget := rfl
@[simp] theorem tick_pinEnable (s : State) : (s.tick).pinEnable = s.pinEnable := rfl
@[simp] theorem tick_alert (s : State) : (s.tick).alert = s.alert := rfl
@[simp] theorem tick_freeSeed (s : State) : (s.tick).freeSeed = s.freeSeed := rfl
@[simp] theorem tick_pending (s : State) : (s.tick).pending = s.pending := rfl

/-! ## Reading back -/

@[simp] theorem node_setNode_same (s : State) (n : NodeId) (x : Node) : (s.setNode n x).node n = x := by
  simp [State.node, State.setNode]

theorem node_setNode (s : State) (n m : NodeId) (x : Node) :
    (s.setNode n x).node m = if n = m then x else s.node m := by
  simp [State.node, State.setNode, tget_tset]

@[simp] theorem node_modNode_same (s : State) (n : NodeId) (f : Node → Node) :
    (s.modNode n f).node n = f (s.node n) := by
  simp [State.modNode]

theorem node_modNode (s : State) (n m : NodeId) (f : Node → Node) :
    (s.modNode n f).node m = if n = m then f (s.node n) else s.node m := by
  simp [State.modNode, node_setNode]

@[simp] theorem entry_setEntry_same (s : State) (e : EntryId) (x : Entry) : (s.setEntry e x).entry e = x := by
  simp [State.entry, State.setEntry]

theorem entry_setEntry (s : State) (e f : EntryId) (x : Entry) :
    (s.setEntry e x).entry f = if e = f then x else s.entry f := by
  simp [State.entry, State.setEntry, tget_tset]

@[simp] theorem entry_modEntry_same (s : State) (e : EntryId) (f : Entry → Entry) :
    (s.modEntry e f).entry e = f (s.entry e) := by
  simp [State.modEntry]

theorem entry_modEntry (s : State) (e g : EntryId) (f : Entry → Entry) :
    (s.modEntry e f).entry g = if e = g then f (s.entry e) else s.entry g := by
  simp [State.modEntry, entry_setEntry]

@[simp] theorem entry_setNode (s : State) (n : NodeId) (x : Node) (e : EntryId) :
    (s.setNode n x).entry e = s.entry e := rfl

@[simp] theorem entry_modNode (s : State) (n : NodeId) (f : Node → Node) (e : EntryId) :
    (s.modNode n f).entry e = s.entry e := rfl

@[simp] theorem node_setEntry (s : State) (e : EntryId) (x : Entry) (n : NodeId) :
    (s.setEntry e x).node n = s.node n := rfl

@[simp] theorem node_modEntry (s : State) (e : EntryId) (f : Entry → Entry) (n : NodeId) :
    (s.modEntry e f).node n = s.node n := rfl

@[simp] theorem node_mapTimers (s : State) (n m : NodeId) (f : Timer → Timer) :
    (s.mapTimers n f).node m = s.node m := rfl

@[simp] theorem node_putDirSet (s : State) (k : SetIdx) (x : DirSet) (n : NodeId) :
    (s.putDirSet k x).node n = s.node n := rfl

@[simp] theorem entry_putDirSet (s : State) (k : SetIdx) (x : DirSet) (e : EntryId) :
    (s.putDirSet k x).entry e = s.entry e := rfl

@[simp] theorem node_capture (s : State) (c : ErrClass) (r : ErrRec) (n : NodeId) :
    (s.capture c r).node n = s.node n := rfl

@[simp] theorem entry_capture (s : State) (c : ErrClass) (r : ErrRec) (e : EntryId) :
    (s.capture c r).entry e = s.entry e := rfl

@[simp] theorem setNode_setNode_same (s : State) (n : NodeId) (x y : Node) :
    (s.setNode n x).setNode n y = s.setNode n y := by
  simp [State.setNode]

@[simp] theorem modNode_modNode_same (s : State) (n : NodeId) (f g : Node → Node) :
    (s.modNode n f).modNode n g = s.modNode n (fun x => g (f x)) := by
  simp [State.modNode]

@[simp] theorem setEntry_setEntry_same (s : State) (e : EntryId) (x y : Entry) :
    (s.setEntry e x).setEntry e y = s.setEntry e y := by
  simp [State.setEntry]

@[simp] theorem modEntry_modEntry_same (s : State) (e : EntryId) (f g : Entry → Entry) :
    (s.modEntry e f).modEntry e g = s.modEntry e (fun x => g (f x)) := by
  simp [State.modEntry]

end Sys2Proof.Machine
end

