-- ==== Sys2Proof/Laws/Memory.lean ====
section
/-! SUPPORT. The canonical sparse memory: what is read after a store, and that every operation keeps the form. -/

namespace Sys2Proof.Machine

-- One proof at a time: many at once reserve more stacks than the memory limit allows.
set_option Elab.async false

section
variable {α : Type} [DecidableEq α] (d : α)

theorem Cells.get_cons (k : Nat) (v : α) (t : List (Nat × α)) (a : Nat) :
    Cells.get d ((k, v) :: t) a = if k = a then v else Cells.get d t a := rfl

/-- A key below every listed one is not listed. -/
theorem Cells.get_below {l : List (Nat × α)} {a : Nat} (h : ∀ b ∈ l.map Prod.fst, a < b) : Cells.get d l a = d := by
  induction l with
  | nil => rfl
  | cons c t ih =>
    have hc : a < c.1 := h c.1 (by simp)
    rw [show c = (c.1, c.2) from rfl, Cells.get_cons, if_neg (by omega)]
    exact ih (fun b hb => h b (by simp only [List.map_cons, List.mem_cons]; exact Or.inr hb))

/-- What is read at a key is a listed value or the default. -/
theorem Cells.get_mem (l : List (Nat × α)) (a : Nat) : Cells.get d l a = d ∨ (a, Cells.get d l a) ∈ l := by
  induction l with
  | nil => exact Or.inl rfl
  | cons c t ih =>
    obtain ⟨k, v⟩ := c
    rw [Cells.get_cons]
    by_cases hk : k = a
    · subst hk; simp
    · rw [if_neg hk]
      rcases ih with h | h
      · exact Or.inl h
      · exact Or.inr (List.mem_cons_of_mem _ h)

theorem Cells.keys_put (l : List (Nat × α)) (a : Nat) (x : α) :
    ∀ b ∈ (Cells.put d l a x).map Prod.fst, b = a ∨ b ∈ l.map Prod.fst := by
  induction l with
  | nil => intro b hb; simp only [Cells.put] at hb; split at hb <;> simp_all
  | cons c t ih =>
    obtain ⟨k, v⟩ := c
    intro b hb
    simp only [Cells.put] at hb
    split at hb
    · split at hb <;> simp_all
    · split at hb
      · split at hb <;> simp_all
      · simp only [List.map_cons, List.mem_cons] at hb ⊢
        rcases hb with h | h
        · exact Or.inr (Or.inl h)
        · rcases ih b h with h' | h'
          · exact Or.inl h'
          · exact Or.inr (Or.inr h')

theorem Cells.mem_put {l : List (Nat × α)} {a : Nat} {x : α} {c : Nat × α} (h : c ∈ Cells.put d l a x) :
    c ∈ l ∨ (c = (a, x) ∧ x ≠ d) := by
  induction l with
  | nil => simp only [Cells.put] at h; split at h <;> simp_all
  | cons e t ih =>
    obtain ⟨k, v⟩ := e
    simp only [Cells.put] at h
    split at h
    · split at h
      · exact Or.inl h
      · rename_i hx
        rcases List.mem_cons.mp h with h | h
        · exact Or.inr ⟨h, hx⟩
        · exact Or.inl h
    · split at h
      · split at h
        · exact Or.inl (List.mem_cons_of_mem _ h)
        · rename_i hx
          rcases List.mem_cons.mp h with h | h
          · exact Or.inr ⟨h, hx⟩
          · exact Or.inl (List.mem_cons_of_mem _ h)
      · rcases List.mem_cons.mp h with h | h
        · exact Or.inl (by simp [h])
        · rcases ih h with h' | h'
          · exact Or.inl (List.mem_cons_of_mem _ h')
          · exact Or.inr h'

/-- A store keeps the canonical form. -/
theorem Cells.wf_put {l : List (Nat × α)} (h : Cells.Wf d l) (a : Nat) (x : α) : Cells.Wf d (Cells.put d l a x) := by
  refine ⟨?_, ?_⟩
  · induction l with
    | nil => simp only [Cells.put]; split <;> simp
    | cons c t ih =>
      obtain ⟨k, v⟩ := c
      obtain ⟨hp, hd⟩ := h
      rw [List.map_cons, List.pairwise_cons] at hp
      have ht : Cells.Wf d t := ⟨hp.2, fun c hc => hd c (List.mem_cons_of_mem _ hc)⟩
      simp only [Cells.put]
      split
      · split
        · rw [List.map_cons, List.pairwise_cons]; exact hp
        · rename_i hlt _
          rw [List.map_cons, List.pairwise_cons]
          refine ⟨?_, by rw [List.map_cons, List.pairwise_cons]; exact hp⟩
          intro b hb
          simp only [List.map_cons, List.mem_cons] at hb
          rcases hb with hb | hb
          · omega
          · exact lt_trans hlt (hp.1 b hb)
      · split
        · split
          · exact hp.2
          · rename_i hak _
            subst hak
            rw [List.map_cons, List.pairwise_cons]; exact hp
        · rw [List.map_cons, List.pairwise_cons]
          refine ⟨?_, ih ht⟩
          intro b hb
          rcases Cells.keys_put d t a x b hb with h' | h'
          · simp only at *; omega
          · exact hp.1 b h'
  · intro c hc
    rcases Cells.mem_put d hc with h' | ⟨h', hx⟩
    · exact h.2 c h'
    · rw [h']; exact hx

/-- What is read after a store: the stored contents at its key, what stood there before elsewhere. -/
theorem Cells.get_put {l : List (Nat × α)} (h : Cells.Wf d l) (a b : Nat) (x : α) :
    Cells.get d (Cells.put d l a x) b = if a = b then x else Cells.get d l b := by
  induction l with
  | nil =>
    simp only [Cells.put]
    split
    · rename_i hx; subst hx; simp [Cells.get]
    · simp [Cells.get]
  | cons c t ih =>
    obtain ⟨k, v⟩ := c
    obtain ⟨hp, hd⟩ := h
    rw [List.map_cons, List.pairwise_cons] at hp
    have ht : Cells.Wf d t := ⟨hp.2, fun c hc => hd c (List.mem_cons_of_mem _ hc)⟩
    simp only [Cells.put]
    split
    · rename_i hlt
      split
      · rename_i hx
        subst hx
        by_cases hab : a = b
        · subst hab
          rw [if_pos rfl]
          exact Cells.get_below x (fun b hb => by
            simp only [List.map_cons, List.mem_cons] at hb
            rcases hb with hb | hb
            · omega
            · exact lt_trans hlt (hp.1 b hb))
        · rw [if_neg hab]
      · rw [Cells.get_cons]
    · split
      · rename_i hak
        subst hak
        split
        · rename_i hx
          subst hx
          by_cases hab : a = b
          · subst hab
            rw [if_pos rfl]
            exact Cells.get_below x (fun b hb => hp.1 b hb)
          · rw [if_neg hab, Cells.get_cons, if_neg hab]
        · rw [Cells.get_cons, Cells.get_cons]
          by_cases hab : a = b
          · rw [if_pos hab, if_pos hab]
          · rw [if_neg hab, if_neg hab, if_neg hab]
      · rename_i hlt hne
        rw [Cells.get_cons, Cells.get_cons, ih ht]
        by_cases hkb : k = b
        · have : a ≠ b := by omega
          rw [if_pos hkb, if_pos hkb, if_neg this]
        · rw [if_neg hkb, if_neg hkb]

end

/-! ## The pool -/

@[simp] theorem putLine_seed (p : Pool) (l : LineAddr) (x : PoolLine) : (p.putLine l x).seed = p.seed := rfl

@[simp] theorem putLine_unlisted (p : Pool) (l : LineAddr) (x : PoolLine) : (p.putLine l x).unlisted = p.unlisted := rfl

/-- A stored line keeps the canonical form. -/
theorem Memory.wf_putLine {p : Pool} (h : Memory.wf p) (l : LineAddr) (x : PoolLine) : Memory.wf (p.putLine l x) :=
  Cells.wf_put _ h _ _

/-- The line read after a store. -/
theorem line_putLine {p : Pool} (h : Memory.wf p) (l m : LineAddr) (x : PoolLine) :
    (p.putLine l x).line m = if l = m then x else p.line m := by
  have hg := Cells.get_put p.unlisted h l.toNat m.toNat x
  have hv : (l.toNat = m.toNat) ↔ l = m := BitVec.toNat_inj
  simp only [hv] at hg
  exact hg

/-- The pool of the reset state is canonical. -/
theorem Memory.wf_reset : Memory.wf State.reset.pool := by
  refine ⟨List.Pairwise.nil, ?_⟩
  intro c hc; exact absurd hc (List.not_mem_nil)

/-! ## The directory -/

/-- A stored set keeps the canonical form. -/
theorem Directory.wf_putDirSet {s : State} (h : Directory.wf s.dir) (k : SetIdx) (x : DirSet) :
    Directory.wf (s.putDirSet k x).dir :=
  Cells.wf_put _ h _ _

/-- Once the sweep is over, a set reads as it is listed. -/
theorem dirSet_ready {s : State} (h : s.status = .ready) (k : SetIdx) :
    s.dirSet k = Cells.get DirSet.vacant s.dir.sets k.toNat := by
  simp [State.dirSet, h]

/-- The set read after a store, in a hub that is READY. -/
theorem dirSet_putDirSet {s : State} (hr : s.status = .ready) (h : Directory.wf s.dir) (k j : SetIdx) (x : DirSet) :
    (s.putDirSet k x).dirSet j = if k = j then x else s.dirSet j := by
  have hr' : (s.putDirSet k x).status = .ready := by simpa using hr
  have hg := Cells.get_put DirSet.vacant h k.toNat j.toNat x
  have hv : (k.toNat = j.toNat) ↔ k = j := BitVec.toNat_inj
  simp only [hv] at hg
  rw [dirSet_ready hr', dirSet_ready hr]
  exact hg

/-- The directory of the reset state is canonical. -/
theorem Directory.wf_reset : Directory.wf State.reset.dir := by
  refine ⟨List.Pairwise.nil, ?_⟩
  intro c hc; exact absurd hc (List.not_mem_nil)

/-! ## The installed size -/

/-- The lines of S GiB are those below S × 16 777 216. -/
theorem beyondSize_iff (s : State) (l : LineAddr) : s.beyondSize l = true ↔ s.poolSize.toNat * 16777216 ≤ l.toNat := by
  have h : (LineAddr.gib l).toNat = l.toNat / 16777216 := by
    have hl := l.isLt
    simp only [LineAddr.gib, BitVec.extractLsb'_toNat, Nat.shiftRight_eq_div_pow]
    omega
  rw [State.beyondSize, decide_eq_true_iff, h, Nat.le_div_iff_mul_le (by decide)]

/-- The MiB of S GiB are those below S × 1024. -/
theorem gib_lt_iff (t : BitVec 16) (S : Nat) : (DirTag.gib t).toNat < S ↔ t.toNat < S * 1024 := by
  have h : (DirTag.gib t).toNat = t.toNat / 1024 := by
    have ht := t.isLt
    simp only [DirTag.gib, BitVec.extractLsb'_toNat, Nat.shiftRight_eq_div_pow]
    omega
  rw [h, Nat.div_lt_iff_lt_mul (by decide)]

end Sys2Proof.Machine
end

