-- ==== Sys2Proof/Laws/Waits.lean ====
section
/-! SUPPORT. The law of the way-wait list: what keeps it, entries that join the list, leave it or take another condition
in it, and which member is the oldest seeker of its set. -/

namespace Sys2Proof.Machine

-- One proof at a time: many at once reserve more stacks than the memory limit allows.
set_option Elab.async false

/-- As far as the way-wait list goes, y is as x: in WAYWAIT or not as x is, and with its kind and line if it is. -/
def Entry.sameWait (x y : Entry) : Prop :=
  (y.phase = .wayWait ↔ x.phase = .wayWait) ∧ (x.phase = .wayWait → y.kind = x.kind ∧ y.line = x.line)

theorem Entry.sameWait.refl (x : Entry) : x.sameWait x := ⟨Iff.rfl, fun _ => ⟨rfl, rfl⟩⟩

/-- An entry changed outside phase, kind and line. -/
theorem sameWait_of {x y : Entry} (ph : y.phase = x.phase := by rfl) (ki : y.kind = x.kind := by rfl)
    (li : y.line = x.line := by rfl) : x.sameWait y := ⟨by rw [ph], fun _ => ⟨ki, li⟩⟩

/-- An entry that neither was nor is in WAYWAIT. -/
theorem sameWait_out {x y : Entry} (h : x.phase ≠ .wayWait) (g : y.phase ≠ .wayWait) : x.sameWait y :=
  ⟨⟨fun k => absurd k g, fun k => absurd k h⟩, fun k => absurd k h⟩

/-- The law of the list is kept where the list stays and every entry is as it was as far as the list goes. -/
theorem waitLaw_congr {s t : State} (w : t.wayWait = s.wayWait) (h : ∀ e, (s.entry e).sameWait (t.entry e))
    (hs : s.waitLaw) : t.waitLaw := by
  obtain ⟨h1, h2, h3, h4⟩ := hs
  have hm : ∀ m ∈ s.wayWait, (t.entry m.entry).kind = (s.entry m.entry).kind
      ∧ (t.entry m.entry).line = (s.entry m.entry).line :=
    fun m hm => (h m.entry).2 ((h2 m.entry).2 ⟨m, hm, rfl⟩)
  refine ⟨by rw [w]; exact h1, fun e => by rw [(h e).1, h2 e, w], fun m hmt => ?_, ?_⟩
  · rw [w] at hmt
    unfold Entry.mayWait
    rw [(hm m hmt).1]
    exact h3 m hmt
  · rw [w]
    refine h4.imp_of_mem (fun {a b} ha hb hab => ?_)
    unfold State.behindLaw State.setOf at hab ⊢
    rw [(hm a ha).2, (hm b hb).2]
    exact hab

/-- The law of the list does not look beyond the list and the entries. -/
theorem waitLaw_same {s t : State} (w : t.wayWait = s.wayWait) (h : t.entries = s.entries) (hs : s.waitLaw) :
    t.waitLaw :=
  waitLaw_congr w (fun e => by unfold State.entry; rw [h]; exact Entry.sameWait.refl _) hs

/-- An entry replaced by one alike as far as the list goes. -/
theorem waitLaw_setEntry {s : State} {e : EntryId} {x : Entry} (h : (s.entry e).sameWait x) (hs : s.waitLaw) :
    (s.setEntry e x).waitLaw := by
  refine waitLaw_congr (s := s) rfl (fun f => ?_) hs
  rw [entry_setEntry]
  split
  · subst_vars; exact h
  · exact Entry.sameWait.refl _

/-- An entry whose kind becomes FETCH-S or FETCH-H. -/
theorem waitLaw_kind {s : State} {e : EntryId} {x : Entry} (ph : x.phase = (s.entry e).phase)
    (li : x.line = (s.entry e).line) (hk : x.kind = .fetchS ∨ x.kind = .fetchH) (hs : s.waitLaw) :
    (s.setEntry e x).waitLaw := by
  obtain ⟨h1, h2, h3, h4⟩ := hs
  refine ⟨h1, fun g => ?_, fun m hm => ?_, h4.imp (fun {a b} hab => ?_)⟩
  · rw [entry_setEntry]
    split
    · subst_vars; rw [ph]; exact h2 _
    · exact h2 g
  · rw [entry_setEntry]
    split
    · rcases hk with h | h <;> exact ⟨by rw [h]; rfl, by rw [h]; simp, fun _ => by simp [h]⟩
    · exact h3 m hm
  · have hl : ∀ g, (s.setEntry e x).setOf g = s.setOf g := by
      intro g
      unfold State.setOf
      rw [entry_setEntry]
      split
      · subst_vars; rw [li]
      · rfl
    unfold State.behindLaw
    rw [hl, hl]
    exact hab

/-- An entry that leaves the list and WAYWAIT. -/
theorem waitLaw_leaveWait {s : State} {e : EntryId} {f : Entry → Entry} (h : (f (s.entry e)).phase ≠ .wayWait)
    (hs : s.waitLaw) : (s.leaveWait e f).waitLaw := by
  obtain ⟨h1, h2, h3, h4⟩ := hs
  have he : ∀ g, g ≠ e → (s.leaveWait e f).entry g = s.entry g := by
    intro g hg
    show ((s.leaveList e).modEntry e f).entry g = _
    rw [entry_modEntry, if_neg (Ne.symm hg)]
    rfl
  have hee : (s.leaveWait e f).entry e = f (s.entry e) := by
    show ((s.leaveList e).modEntry e f).entry e = _
    rw [entry_modEntry, if_pos rfl]
    rfl
  have hw : (s.leaveWait e f).wayWait = s.wayWait.filter (fun m => decide (m.entry ≠ e)) := rfl
  refine ⟨?_, fun g => ?_, fun m hm => ?_, ?_⟩
  · rw [hw]
    exact h1.sublist (List.filter_sublist.map _)
  · by_cases hg : g = e
    · subst hg
      rw [hee, hw]
      exact ⟨fun k => absurd k h, by rintro ⟨m, hm, rfl⟩; simp at hm⟩
    · rw [he g hg, h2 g, hw]
      constructor
      · rintro ⟨m, hm, rfl⟩; exact ⟨m, by simp [hm, hg], rfl⟩
      · rintro ⟨m, hm, rfl⟩; exact ⟨m, (List.mem_filter.1 hm).1, rfl⟩
  · rw [hw, List.mem_filter, decide_eq_true_eq] at hm
    rw [he _ hm.2]
    exact h3 m hm.1
  · rw [hw]
    refine (h4.sublist List.filter_sublist).imp_of_mem (fun {a b} ha hb hab => ?_)
    rw [List.mem_filter, decide_eq_true_eq] at ha hb
    unfold State.behindLaw State.setOf at hab ⊢
    rw [he _ ha.2, he _ hb.2]
    exact hab

/-- The list once an entry has taken a condition, as a list with one place changed or one place more. -/
theorem setCond_cases (ms : List Member) (e : EntryId) (c : WaitCond) (h : (ms.map Member.entry).Nodup) :
    (∃ pre m post, ms = pre ++ m :: post ∧ m.entry = e ∧ (∀ a ∈ pre ++ post, a.entry ≠ e)
      ∧ setCond ms e c = pre ++ ⟨e, c⟩ :: post)
    ∨ ((∀ a ∈ ms, a.entry ≠ e) ∧ setCond ms e c = ms ++ [⟨e, c⟩]) := by
  by_cases hm : ∃ a ∈ ms, a.entry = e
  · left
    obtain ⟨m, hm, he⟩ := hm
    obtain ⟨pre, post, rfl⟩ := List.append_of_mem hm
    have hn : ∀ a ∈ pre ++ post, a.entry ≠ e := by
      intro a ha g
      rw [List.map_append, List.map_cons] at h
      have h' := List.nodup_middle.1 h
      rw [List.nodup_cons, ← List.map_append] at h'
      exact h'.1 (List.mem_map.2 ⟨a, ha, by rw [g, he]⟩)
    refine ⟨pre, m, post, rfl, he, hn, ?_⟩
    unfold setCond
    rw [if_pos (by rw [List.any_eq_true]; exact ⟨m, by simp, by simp [he]⟩)]
    have hid : ∀ l : List Member, (∀ a ∈ l, a.entry ≠ e) →
        l.map (fun m => if m.entry = e then { m with cond := c } else m) = l := by
      intro l hl
      conv => rhs; rw [← List.map_id l]
      exact List.map_congr_left (fun a ha => by rw [if_neg (hl a ha)]; rfl)
    rw [List.map_append, List.map_cons, hid pre (fun a ha => hn a (List.mem_append_left _ ha)),
      hid post (fun a ha => hn a (List.mem_append_right _ ha)), if_pos he]
    obtain ⟨_, _⟩ := m
    subst he
    rfl
  · right
    have hm' : ∀ a ∈ ms, a.entry ≠ e := fun a ha g => hm ⟨a, ha, g⟩
    refine ⟨hm', ?_⟩
    unfold setCond
    rw [if_neg]
    rw [List.any_eq_true]
    rintro ⟨a, ha, g⟩
    exact hm' a ha (by simpa using g)

/-- The members once an entry has taken a condition. -/
theorem mem_setCond {ms : List Member} {e : EntryId} {c : WaitCond} (h : (ms.map Member.entry).Nodup) {m : Member} :
    m ∈ setCond ms e c ↔ m = ⟨e, c⟩ ∨ (m ∈ ms ∧ m.entry ≠ e) := by
  rcases setCond_cases ms e c h with ⟨pre, a, post, rfl, he, hn, hs⟩ | ⟨hn, hs⟩
  · rw [hs]
    simp only [List.mem_append, List.mem_cons]
    constructor
    · rintro (hm | rfl | hm)
      · exact Or.inr ⟨Or.inl hm, hn m (by simp [hm])⟩
      · exact Or.inl rfl
      · exact Or.inr ⟨Or.inr (Or.inr hm), hn m (by simp [hm])⟩
    · rintro (rfl | ⟨hm | rfl | hm, hne⟩)
      · exact Or.inr (Or.inl rfl)
      · exact Or.inl hm
      · exact absurd he hne
      · exact Or.inr (Or.inr hm)
  · rw [hs]
    simp only [List.mem_append, List.mem_singleton]
    constructor
    · rintro (hm | rfl)
      · exact Or.inr ⟨hm, hn m hm⟩
      · exact Or.inl rfl
    · rintro (rfl | ⟨hm, -⟩)
      · exact Or.inr rfl
      · exact Or.inl hm

/-- What the list is once an entry has taken a condition that fits it: the law but for the order of its seekers. -/
theorem wait_parts {s : State} {e : EntryId} {c : WaitCond} (h : (s.entry e).mayWait c) (hs : s.waitLaw) :
    ((s.wait e c).wayWait.map Member.entry).Nodup
    ∧ (∀ g, ((s.wait e c).entry g).phase = .wayWait ↔ ∃ m ∈ (s.wait e c).wayWait, m.entry = g)
    ∧ (∀ m ∈ (s.wait e c).wayWait, ((s.wait e c).entry m.entry).mayWait m.cond)
    ∧ (∀ g, (s.wait e c).setOf g = s.setOf g) := by
  obtain ⟨h1, h2, h3, h4⟩ := hs
  have he : ∀ g, (s.wait e c).entry g = if e = g then { s.entry e with phase := .wayWait } else s.entry g :=
    fun g => entry_modEntry _ _ _ _
  have hk : ∀ g, ((s.wait e c).entry g).kind = (s.entry g).kind ∧ ((s.wait e c).entry g).line = (s.entry g).line := by
    intro g
    rw [he]
    split
    · subst_vars; exact ⟨rfl, rfl⟩
    · exact ⟨rfl, rfl⟩
  have hw : (s.wait e c).wayWait = setCond s.wayWait e c := rfl
  refine ⟨?_, fun g => ?_, fun m hm => ?_, fun g => by unfold State.setOf; rw [(hk g).2]⟩
  · rw [hw]
    rcases setCond_cases s.wayWait e c h1 with ⟨pre, a, post, hq, ha, hn, hs⟩ | ⟨hn, hs⟩
    · rw [hs]
      rw [hq] at h1
      simp only [List.map_append, List.map_cons, ha] at h1 ⊢
      exact h1
    · rw [hs, List.map_append]
      refine List.nodup_append.2 ⟨h1, by simp, ?_⟩
      rintro a ha b hb rfl
      obtain ⟨m, hm, rfl⟩ := List.mem_map.1 ha
      simp only [List.map_cons, List.map_nil, List.mem_singleton] at hb
      exact hn m hm hb
  · rw [he, hw]
    simp only [mem_setCond h1]
    split
    · rename_i hg
      subst hg
      exact ⟨fun _ => ⟨_, Or.inl rfl, rfl⟩, fun _ => rfl⟩
    · rename_i hg
      rw [h2 g]
      constructor
      · rintro ⟨m, hm, rfl⟩; exact ⟨m, Or.inr ⟨hm, Ne.symm hg⟩, rfl⟩
      · rintro ⟨m, rfl | ⟨hm, -⟩, rfl⟩
        · exact absurd rfl hg
        · exact ⟨m, hm, rfl⟩
  · rw [hw, mem_setCond h1] at hm
    unfold Entry.mayWait
    rw [(hk m.entry).1]
    rcases hm with rfl | ⟨hm, -⟩
    · exact h
    · exact h3 m hm

/-- The law of the list once an entry has taken a condition that fits it, given the order of the seekers. -/
theorem waitLaw_wait {s : State} {e : EntryId} {c : WaitCond} (h : (s.entry e).mayWait c) (hs : s.waitLaw)
    (ho : (setCond s.wayWait e c).Pairwise s.behindLaw) : (s.wait e c).waitLaw := by
  obtain ⟨g1, g2, g3, g4⟩ := wait_parts h hs
  refine ⟨g1, g2, g3, ho.imp (fun {a b} hab => ?_)⟩
  unfold State.behindLaw
  rw [g4, g4]
  exact hab

/-- A relation of members along the list, where the entry that takes a condition stands in it to all others. -/
theorem pairwise_setCond {s : State} {e : EntryId} {c : WaitCond} {R : Member → Member → Prop}
    (hn : (s.wayWait.map Member.entry).Nodup) (hp : s.wayWait.Pairwise R)
    (hb : ∀ a ∈ s.wayWait, a.entry ≠ e → R a ⟨e, c⟩) (ha : ∀ b ∈ s.wayWait, b.entry ≠ e → R ⟨e, c⟩ b) :
    (setCond s.wayWait e c).Pairwise R := by
  rcases setCond_cases s.wayWait e c hn with ⟨pre, m, post, hq, he, hne, hs⟩ | ⟨hne, hs⟩
  · rw [hs]
    have hmem : ∀ a ∈ pre ++ post, a ∈ s.wayWait := by
      intro a ha; rw [hq]; rcases List.mem_append.1 ha with g | g <;> simp [g]
    rw [hq] at hp
    rw [List.pairwise_append, List.pairwise_cons] at hp ⊢
    obtain ⟨p1, ⟨p2, p3⟩, p4⟩ := hp
    refine ⟨p1, ⟨fun b hb' => ha b (hmem b (by simp [hb'])) (hne b (by simp [hb'])), p3⟩, fun a ha' b hb' => ?_⟩
    rcases List.mem_cons.1 hb' with rfl | hb'
    · exact hb a (hmem a (by simp [ha'])) (hne a (by simp [ha']))
    · exact p4 a ha' b (List.mem_cons_of_mem _ hb')
  · rw [hs, List.pairwise_append]
    refine ⟨hp, List.pairwise_singleton _ _, fun a ha' b hb' => ?_⟩
    rw [List.mem_singleton.1 hb']
    exact hb a ha' (hne a ha')

/-- An entry that comes to wait for ways in other hands. -/
theorem waitLaw_pin {s : State} {e : EntryId} {ws : List WayNo} (hk : (s.entry e).kind.plain = false)
    (hr : (s.entry e).kind ≠ .recall) (hs : s.waitLaw) : (s.wait e (.pin ws)).waitLaw :=
  waitLaw_wait ⟨hk, hr, fun h => by cases h⟩ hs
    (pairwise_setCond hs.1 hs.2.2.2 (fun _ _ _ _ h => by cases h) (fun _ _ _ h => by cases h))

/-- The oldest seeker of a set, its place in the list. -/
theorem oldestSeeker_place {s : State} {k : SetIdx} {m : Member} (h : s.oldestSeeker k = some m) :
    m.cond.seeks = true ∧ s.setOf m.entry = k ∧ ∃ pre post, s.wayWait = pre ++ m :: post
      ∧ ∀ a ∈ pre, a.cond.seeks = true → s.setOf a.entry ≠ k := by
  unfold State.oldestSeeker at h
  obtain ⟨h1, pre, post, h2, h3⟩ := List.find?_eq_some_iff_append.1 h
  rw [Bool.and_eq_true, decide_eq_true_eq] at h1
  refine ⟨h1.1, h1.2, pre, post, h2, fun a ha hc hk => ?_⟩
  have := h3 a ha
  rw [hc, hk] at this
  simp at this

/-- A seeker in another condition than BEHIND is the oldest of its set. -/
theorem oldestSeeker_of {s : State} (hs : s.waitLaw) {m : Member} (hm : m ∈ s.wayWait) (hc : m.cond.seeks = true)
    (hb : m.cond ≠ .behind) : s.oldestSeeker (s.setOf m.entry) = some m := by
  cases ho : s.oldestSeeker (s.setOf m.entry) with
  | none =>
    unfold State.oldestSeeker at ho
    rw [List.find?_eq_none] at ho
    have := ho m hm
    rw [hc] at this
    simp at this
  | some a =>
    obtain ⟨g1, g2, pre, post, g3, g4⟩ := oldestSeeker_place ho
    have hp := hs.2.2.2
    rw [g3] at hm hp
    rcases List.mem_append.1 hm with hm | hm
    · exact absurd rfl (g4 m hm hc)
    · rcases List.mem_cons.1 hm with rfl | hm
      · rfl
      · rw [List.pairwise_append, List.pairwise_cons] at hp
        exact absurd (hp.2.1.1 m hm g1 hc g2) hb

/-- The oldest seeker of a set takes another of a seeker's conditions. -/
theorem waitLaw_seeker {s : State} {e : EntryId} {c : WaitCond} {m : Member}
    (ho : s.oldestSeeker (s.setOf e) = some m) (he : m.entry = e) (hs : s.waitLaw) : (s.wait e c).waitLaw := by
  obtain ⟨g1, g2, pre, post, g3, g4⟩ := oldestSeeker_place ho
  have hm : m ∈ s.wayWait := by rw [g3]; simp
  subst he
  have hk := hs.2.2.1 m hm
  refine waitLaw_wait ⟨hk.1, hk.2.1, fun _ => hk.2.2 g1⟩ hs ?_
  have hne : ∀ a ∈ pre ++ post, a.entry ≠ m.entry := by
    intro a ha g
    have h := hs.1
    rw [g3, List.map_append, List.map_cons] at h
    have h' := List.nodup_middle.1 h
    rw [List.nodup_cons, ← List.map_append] at h'
    exact h'.1 (List.mem_map.2 ⟨a, ha, g⟩)
  rcases setCond_cases s.wayWait m.entry c hs.1 with ⟨pre', m', post', hq, he', hn', hs'⟩ | ⟨hn, -⟩
  · have hmm : m' = m := by
      rw [hq] at hm
      rcases List.mem_append.1 hm with h | h
      · exact absurd rfl (hn' m (by simp [h]))
      · rcases List.mem_cons.1 h with h | h
        · exact h.symm
        · exact absurd rfl (hn' m (by simp [h]))
    subst hmm
    have hpre : pre = pre' ∧ post = post' := by
      have h := g3.symm.trans hq
      have := List.append_eq_append_iff.1 h
      rcases this with ⟨x, rfl, hx⟩ | ⟨x, rfl, hx⟩
      · cases x with
        | nil => simpa using hx
        | cons a x =>
          exfalso
          rw [List.cons_append] at hx
          injection hx with h1 h2
          subst h1
          exact hn' m' (by simp) rfl
      · cases x with
        | nil => simpa [eq_comm] using hx
        | cons a x =>
          exfalso
          rw [List.cons_append] at hx
          injection hx with h1 h2
          subst h1
          exact hne m' (by simp) rfl
    obtain ⟨rfl, rfl⟩ := hpre
    rw [hs']
    have hp := hs.2.2.2
    rw [hq, List.pairwise_append, List.pairwise_cons] at hp
    rw [List.pairwise_append, List.pairwise_cons]
    obtain ⟨p1, ⟨p2, p3⟩, p4⟩ := hp
    refine ⟨p1, ⟨fun b hb _ h2 h3 => p2 b hb g1 h2 h3, p3⟩, fun a ha b hb => ?_⟩
    rcases List.mem_cons.1 hb with rfl | hb
    · intro h1 _ h3
      exact absurd h3 (g4 a ha h1)
    · exact p4 a ha b (List.mem_cons_of_mem _ hb)
  · exact absurd rfl (hn m hm)

/-- An entry that comes to seek a way: the law holds once the others of its set stand BEHIND it where it is the
oldest. -/
theorem waitLaw_seek {s : State} {e : EntryId} (hk : (s.entry e).kind = .fetchS ∨ (s.entry e).kind = .fetchH)
    (hs : s.waitLaw) :
    (((s.wait e .behind).demoteOthers (s.setOf e) e).waitLaw)
    ∧ (((s.wait e .behind).oldestSeeker (s.setOf e)).map Member.entry ≠ some e → (s.wait e .behind).waitLaw) := by
  have hk' : (s.entry e).mayWait .behind := by
    rcases hk with h | h <;> exact ⟨by rw [h]; rfl, by rw [h]; simp, fun _ => by simp [h]⟩
  obtain ⟨g1, g2, g3, g4⟩ := wait_parts hk' hs
  have hmem : ∀ m ∈ (s.wait e .behind).wayWait, m.entry = e → m = ⟨e, .behind⟩ := by
    intro m hm he
    rcases (mem_setCond hs.1).1 hm with h | h
    · exact h
    · exact absurd he h.2
  have hin : (⟨e, .behind⟩ : Member) ∈ (s.wait e .behind).wayWait := (mem_setCond hs.1).2 (Or.inl rfl)
  have hp : (s.wait e .behind).wayWait.Pairwise (fun a b => a.entry ≠ e → s.behindLaw a b) :=
    pairwise_setCond hs.1 (hs.2.2.2.imp (fun {a b} (h : s.behindLaw a b) (_ : a.entry ≠ e) => h)) (fun _ _ _ _ _ _ _ => rfl) (fun _ _ _ h => absurd rfl h)
  generalize hu : s.wait e .behind = u at *
  constructor
  · set upd : Member → Member := fun m =>
      if m.cond.seeks ∧ m.entry ≠ e ∧ u.setOf m.entry = s.setOf e then { m with cond := .behind } else m with hupd
    have hw : (u.demoteOthers (s.setOf e) e).wayWait = u.wayWait.map upd := rfl
    have he : ∀ g, (u.demoteOthers (s.setOf e) e).entry g = u.entry g := fun _ => rfl
    have hue : ∀ m, (upd m).entry = m.entry := by intro m; simp only [hupd]; split <;> rfl
    have hus : ∀ m, (upd m).cond.seeks = m.cond.seeks := by
      intro m; simp only [hupd]; split
      · rename_i h; rw [h.1]; rfl
      · rfl
    refine ⟨?_, fun g => ?_, fun m hm => ?_, ?_⟩
    · rw [hw, List.map_map, show Member.entry ∘ upd = Member.entry from funext hue]
      exact g1
    · rw [he, g2, hw]
      constructor
      · rintro ⟨m, hm, rfl⟩; exact ⟨upd m, List.mem_map_of_mem hm, hue m⟩
      · rintro ⟨m, hm, rfl⟩
        obtain ⟨a, ha, rfl⟩ := List.mem_map.1 hm
        exact ⟨a, ha, (hue a).symm⟩
    · rw [hw] at hm
      obtain ⟨a, ha, rfl⟩ := List.mem_map.1 hm
      rw [he, hue]
      have := g3 a ha
      unfold Entry.mayWait at this ⊢
      rw [hus]
      exact this
    · rw [hw, List.pairwise_map]
      refine hp.imp_of_mem (fun {a b} ha hb hab => ?_)
      intro h1 h2 h3
      rw [hus] at h1 h2
      change u.setOf (upd a).entry = u.setOf (upd b).entry at h3
      rw [hue, hue] at h3
      simp only [hupd]
      by_cases hbe : b.entry = e
      · rw [if_neg (fun h => h.2.1 hbe), hmem b hb hbe]
      · by_cases hset : u.setOf b.entry = s.setOf e
        · rw [if_pos ⟨h2, hbe, hset⟩]
        · rw [if_neg (fun h => hset h.2.2)]
          refine hab (fun hae => ?_) h1 h2 (by rw [← g4, ← g4]; exact h3)
          rw [← h3, g4, hae] at hset
          exact hset rfl
  · intro hne
    cases ho : u.oldestSeeker (s.setOf e) with
    | none =>
      unfold State.oldestSeeker at ho
      rw [List.find?_eq_none] at ho
      have := ho _ hin
      simp [WaitCond.seeks, g4] at this
    | some m0 =>
      rw [ho] at hne
      have hm0 : m0.entry ≠ e := fun h => hne (by rw [← h]; rfl)
      obtain ⟨q1, q2, pre, post, q3, q4⟩ := oldestSeeker_place ho
      refine ⟨g1, g2, g3, ?_⟩
      have hpre : ∀ a ∈ pre, a.entry ≠ e := by
        intro a ha h
        have : a = ⟨e, .behind⟩ := hmem a (by rw [q3]; simp [ha]) h
        subst this
        exact q4 _ ha rfl (g4 e)
      have hbl : u.behindLaw = s.behindLaw := by
        funext a b
        unfold State.behindLaw
        rw [g4, g4]
      rw [hbl]
      rw [q3, List.pairwise_append, List.pairwise_cons] at hp
      rw [q3, List.pairwise_append, List.pairwise_cons]
      obtain ⟨p1, ⟨p2, p3⟩, p4⟩ := hp
      refine ⟨p1.imp_of_mem (fun {a b} ha _ h => h (hpre a ha)), ⟨fun b hb => p2 b hb hm0, ?_⟩,
        fun a ha b hb => p4 a ha b hb (hpre a ha)⟩
      refine p3.imp_of_mem (fun {a b} ha hb h => ?_)
      by_cases hae : a.entry = e
      · intro _ h2 h3
        refine p2 b hb hm0 q1 h2 ?_
        rw [← g4 m0.entry, q2, ← h3, hae]
      · exact h hae

/-- The others of its set put BEHIND an entry leave which entry is the oldest seeker. -/
theorem oldestSeeker_demoteOthers (s : State) (k j : SetIdx) (e : EntryId) :
    ((s.demoteOthers k e).oldestSeeker j).map Member.entry = (s.oldestSeeker j).map Member.entry := by
  set upd : Member → Member := fun m =>
    if m.cond.seeks ∧ m.entry ≠ e ∧ s.setOf m.entry = k then { m with cond := .behind } else m with hupd
  have hue : ∀ m, (upd m).entry = m.entry := by intro m; simp only [hupd]; split <;> rfl
  have hus : ∀ m, (upd m).cond.seeks = m.cond.seeks := by
    intro m; simp only [hupd]; split
    · rename_i h; rw [h.1]; rfl
    · rfl
  show ((s.wayWait.map upd).find? (fun m => m.cond.seeks && decide (s.setOf m.entry = j))).map Member.entry = _
  rw [List.find?_map, Option.map_map, show Member.entry ∘ upd = Member.entry from funext hue]
  unfold State.oldestSeeker
  congr 2
  funext m
  simp only [Function.comp, hus, hue]

end Sys2Proof.Machine
end

