-- ==== Sys2Proof/Laws/Moves.lean ====
section
/-! SUPPORT. What the shared operations can do to a state: each is a number of plain changes (Safety.lean), so a law
that every plain change keeps is kept by each of them. -/

namespace Sys2Proof.Machine

-- One proof at a time: many at once reserve more stacks than the memory limit allows.
set_option Elab.async false

/-! ## Moves -/

theorem Moves.refl (s : State) : Moves s s := Relation.ReflTransGen.refl

theorem Moves.trans {s t u : State} (h : Moves s t) (k : Moves t u) : Moves s u := Relation.ReflTransGen.trans h k

theorem Move.moves {s t : State} (h : Move s t) : Moves s t := Relation.ReflTransGen.single h

/-- A property that every plain change keeps is kept by any number of them. -/
theorem Moves.keeps {P : State → Prop} (hP : ∀ s t, Move s t → P s → P t) {s t : State} (h : Moves s t) (hs : P s) :
    P t := by
  induction h with
  | refl => exact hs
  | tail _ hm ih => exact hP _ _ hm ih

/-- Nodes, error classes, directory sets, pool, entries and the way-wait list stay as they are. -/
theorem moves_rest {s t : State} (nodes : t.nodes = s.nodes := by rfl) (errors : t.errors = s.errors := by rfl)
    (sets : t.dir.sets = s.dir.sets := by rfl) (pool : t.pool = s.pool := by rfl)
    (wayWait : t.wayWait = s.wayWait := by rfl) (entries : t.entries = s.entries := by rfl) : Moves s t :=
  (Move.rest s t nodes errors sets pool (waitLaw_same wayWait entries)).moves

/-- Nodes, error classes, directory sets and pool stay as they are, and the law of the list is kept. -/
theorem moves_waits {s t : State} (waits : s.waitLaw → t.waitLaw) (nodes : t.nodes = s.nodes := by rfl)
    (errors : t.errors = s.errors := by rfl) (sets : t.dir.sets = s.dir.sets := by rfl)
    (pool : t.pool = s.pool := by rfl) : Moves s t := (Move.rest s t nodes errors sets pool waits).moves

/-- Nodes, error classes, directory sets, pool and the list stay, and the entries as far as the list goes. -/
theorem moves_entries {s t : State} (entries : ∀ e, (s.entry e).sameWait (t.entry e))
    (wayWait : t.wayWait = s.wayWait := by rfl) (nodes : t.nodes = s.nodes := by rfl)
    (errors : t.errors = s.errors := by rfl) (sets : t.dir.sets = s.dir.sets := by rfl)
    (pool : t.pool = s.pool := by rfl) : Moves s t :=
  moves_waits (waitLaw_congr wayWait entries) nodes errors sets pool

/-- A choice between two ways on. -/
theorem moves_ite {c : Prop} [Decidable c] {s t u : State} (h : c → Moves s t) (k : ¬c → Moves s u) :
    Moves s (if c then t else u) := by
  split
  · exact h ‹_›
  · exact k ‹_›

/-- A fold of moves over a list. -/
theorem moves_foldl {α : Type} {f : State → α → State} (h : ∀ s a, Moves s (f s a)) (l : List α) (s : State) :
    Moves s (l.foldl f s) := by
  induction l generalizing s with
  | nil => exact Moves.refl s
  | cons a l ih => exact (h s a).trans (ih _)

theorem NodeMove.refl (x : Node) : NodeMove x x := ⟨id, id⟩

theorem moves_setNode {s : State} {n : NodeId} {x : Node} (h : NodeMove (s.node n) x) : Moves s (s.setNode n x) := by
  refine (Move.nodes s _ ?_).moves
  intro m
  rw [tget_tset]
  split
  · subst_vars; exact h
  · exact NodeMove.refl _

theorem moves_modNode {s : State} {n : NodeId} {f : Node → Node} (h : NodeMove (s.node n) (f (s.node n))) :
    Moves s (s.modNode n f) := moves_setNode h

/-- A node changed outside the fields the laws speak of. -/
theorem nodeMove_same {x y : Node} (link : y.link = x.link := by rfl) (rq : y.requestQ = x.requestQ := by rfl)
    (tq : y.returnQ = x.returnQ := by rfl) (oq : y.outQ = x.outQ := by rfl) (fr : y.frames = x.frames := by rfl)
    (rc : y.reqCredits = x.reqCredits := by rfl) (tc : y.retCredits = x.retCredits := by rfl)
    (ag : y.agreed = x.agreed := by rfl) (rt : y.relinkTimer = x.relinkTimer := by rfl)
    (pa : y.patience ≤ x.patience := by exact Nat.le_refl _)
    (dc : y.damagedCount ≤ x.damagedCount := by exact Nat.le_refl _) : NodeMove x y := by
  constructor
  · unfold Node.downLaw; rw [link, rq, tq, oq, fr, rc, tc, ag, rt]; exact id
  · rintro ⟨h1, h2, h3⟩
    exact ⟨by omega, by omega, by rw [fr]; exact h3⟩

/-- A node whose link is not DOWN afterwards, with its counters as they were. -/
theorem nodeMove_up {x y : Node} (link : y.link ≠ .down) (fr : y.frames = x.frames := by rfl)
    (pa : y.patience ≤ x.patience := by exact Nat.le_refl _)
    (dc : y.damagedCount ≤ x.damagedCount := by exact Nat.le_refl _) : NodeMove x y := by
  constructor
  · exact fun _ h => absurd h link
  · rintro ⟨h1, h2, h3⟩
    exact ⟨by omega, by omega, by rw [fr]; exact h3⟩

theorem nodeMove_down (x : Node) : NodeMove x x.down :=
  ⟨fun _ _ => ⟨rfl, rfl, rfl, rfl, rfl, rfl, rfl, rfl⟩,
    fun h => ⟨h.1, Nat.zero_le _, by intro f hf; exact absurd hf List.not_mem_nil⟩⟩

/-! ## Ops, Flags -/

theorem moves_setEntry (s : State) (e : EntryId) (x : Entry) (h : (s.entry e).sameWait x := by exact sameWait_of) :
    Moves s (s.setEntry e x) := moves_waits (waitLaw_setEntry h)

theorem moves_modEntry (s : State) (e : EntryId) (f : Entry → Entry)
    (h : (s.entry e).sameWait (f (s.entry e)) := by exact sameWait_of) : Moves s (s.modEntry e f) :=
  moves_setEntry s e _ h

theorem moves_freeUp (s : State) (e : EntryId) (h : (s.entry e).phase ≠ .wayWait) : Moves s (s.freeUp e) :=
  moves_setEntry s e _ (sameWait_out h (by decide))

theorem moves_unlink (s : State) (e : EntryId) : Moves s (s.unlink e) := by
  refine moves_entries (fun f => ?_)
  unfold State.unlink State.entry
  rw [tget_map]
  split
  · exact sameWait_of
  · exact Entry.sameWait.refl _

theorem moves_mapTimers (s : State) (n : NodeId) (f : Timer → Timer) : Moves s (s.mapTimers n f) := by
  refine moves_entries (fun e => ?_)
  unfold State.mapTimers State.entry
  rw [tget_map]
  exact sameWait_of

theorem moves_send (s : State) (n : NodeId) (m : OutMsg) : Moves s (s.send n m) :=
  moves_ite (fun _ => Moves.refl s) (fun h => moves_modNode (nodeMove_up h))

theorem capture_law {x : ClassState} (h : x.law) (r : ErrRec) : (x.capture r).law := by
  obtain ⟨-, h2, -⟩ := h
  refine ⟨Nat.min_le_left _ _, ?_, fun _ => rfl⟩
  cases hp : x.pending <;> simp_all [ClassState.capture]

theorem moves_capture (s : State) (c : ErrClass) (r : ErrRec) : Moves s (s.capture c r) := by
  refine (Move.errors s _ ?_).moves
  intro d hd
  rw [tget_tset]
  split
  · subst_vars; exact capture_law hd r
  · exact hd

theorem moves_alertTest (s : State) : Moves s s.alertTest := by
  unfold State.alertTest
  split
  · exact Moves.refl s
  · exact moves_ite (fun _ => (moves_send s _ _).trans moves_rest) (fun _ => Moves.refl s)

theorem moves_raise (s : State) (c : ErrClass) (r : ErrRec) : Moves s (s.raise c r) :=
  (moves_capture s c r).trans (moves_alertTest _)

theorem acknowledge_law {x : ClassState} (h : x.law) : x.acknowledge.law := ⟨h.1, rfl, fun h => by cases h⟩

theorem moves_acknowledge (s : State) (named : ClassSet) : Moves s (s.acknowledge named) := by
  refine (Move.errors s _ ?_).moves
  intro c hc
  simp only [tget, Vector.getElem_ofFn]
  split
  · exact acknowledge_law hc
  · exact hc

theorem moves_alertClear (s : State) : Moves s s.alertClear := by
  unfold State.alertClear
  split
  · exact Moves.refl s
  · rename_i n _
    have h : NodeMove (s.node n) { s.node n with
        outQ := (s.node n).outQ.take (s.node n).sentCount
          ++ ((s.node n).outQ.drop (s.node n).sentCount).filter (fun m => !m.isAlert) } := by
      refine ⟨fun h hd => ?_, id⟩
      obtain ⟨h1, h2, h3, h4⟩ := h hd
      exact ⟨h1, h2, by simp [h3], h4⟩
    exact ((moves_setNode h).trans moves_rest).trans (moves_alertTest _)

/-! ## Directory -/

theorem moves_putWay (s : State) (k : SetIdx) (w : WayNo) (x : Way) : Moves s (s.putWay k w x) :=
  (Move.dirSet s k { s.dirSet k with ways := tset (s.dirSet k).ways w x } id).moves

theorem moves_storeWay (s : State) (k : SetIdx) (w : WayNo) (x : Way) : Moves s (s.storeWay k w x) :=
  (moves_putWay s k w x).trans moves_rest

theorem moves_readWay (s : State) (k : SetIdx) (w : WayNo) (reader : Reader) (kind : MsgKind) :
    Moves s (s.readWay k w reader kind).1 := by
  unfold State.readWay
  dsimp only
  split
  · exact Moves.refl s
  · split
    · exact Moves.refl s
    · exact (moves_ite (fun _ => moves_putWay s _ _ _) (fun _ => Moves.refl s)).trans (moves_raise _ _ _)
    · split
      · exact (moves_storeWay s _ _ _).trans (moves_raise _ _ _)
      · exact moves_raise _ _ _

theorem moves_readSet (s : State) (k : SetIdx) (reader : Reader) (kind : MsgKind) :
    Moves s (s.readSet k reader kind).1 := by
  have h : ∀ (l : List WayNo) (acc : State × SetRead), Moves acc.1 (l.foldl (fun acc w =>
      let (s', r) := acc.1.readWay k w reader kind
      (s', tset acc.2 w (r, (s.way k w).pin))) acc).1 := by
    intro l
    induction l with
    | nil => exact fun acc => Moves.refl _
    | cons w l ih =>
      intro acc
      rw [List.foldl_cons]
      exact Moves.trans (moves_readWay acc.1 k w reader kind)
        (ih (let (s', r) := acc.1.readWay k w reader kind; (s', tset acc.2 w (r, (s.way k w).pin))))
  exact h allWays (s, _)

theorem moves_writeWay (s : State) (k : SetIdx) (w : WayNo) (r : Option Record) (kind : MsgKind) :
    Moves s (s.writeWay k w r kind) :=
  (moves_storeWay s k w _).trans (moves_ite (fun _ => moves_raise _ _ _) (fun _ => Moves.refl _))

theorem moves_setPin (s : State) (k : SetIdx) (w : WayNo) (p : Pin) : Moves s (s.setPin k w p) :=
  moves_putWay s k w _

theorem recent_ordered {order : List WayNo} (h : order.Perm [0, 1, 2, 3, 4, 5, 6, 7]) (w : WayNo) :
    (recent order w).Perm [0, 1, 2, 3, 4, 5, 6, 7] := by
  have h1 : (recent order w).Perm (recent [0, 1, 2, 3, 4, 5, 6, 7] w) := (h.filter _).append_right _
  refine h1.trans ?_
  clear h1 h
  revert w; decide

theorem moves_touch (s : State) (k : SetIdx) (w : WayNo) : Moves s (s.touch k w) :=
  (Move.dirSet s k { s.dirSet k with order := recent (s.dirSet k).order w } (fun h => recent_ordered h w)).moves

/-- The damage a command brings touches the directory's storage only. -/
theorem moves_damaged (s : State) (us : List DirUpset) : Moves s (s.damaged us) :=
  moves_foldl (f := fun (s : State) (u : DirUpset) =>
    s.putWay u.set u.way { s.way u.set u.way with damage := u.damage }) (fun s u => moves_putWay s u.set u.way _) us s

/-! ## Pool port -/

theorem moves_setPoolField (s : State) (o : Owner) (f : PoolField) : Moves s (s.setPoolField o f) := by
  cases o with
  | entry e => exact moves_modEntry s e (fun x => { x with poolOp := f })
  | walker => exact moves_rest

theorem moves_issue (s : State) (op : PoolOp) : Moves s (s.issue op) :=
  moves_ite (fun _ => Moves.trans moves_rest (moves_setPoolField _ _ _))
    (fun _ => Moves.trans moves_rest (moves_setPoolField _ _ _))

theorem moves_issueRead (s : State) (e : EntryId) : Moves s (s.issueRead e) := moves_issue s _

theorem moves_issueWrite (s : State) (e : EntryId) (b : Buffer) : Moves s (s.issueWrite e b) := moves_issue s _

theorem moves_withdraw (s : State) (e : EntryId) : Moves s (s.withdraw e) :=
  Moves.trans moves_rest (moves_setPoolField _ (.entry e) .none)

theorem moves_retireOp (s : State) (o : Owner) : Moves s (s.retireOp o) := by
  unfold State.retireOp
  have h : Moves s ({ s with poolQueue := s.poolQueue.filter (fun op => decide (op.owner ≠ o)) }.setPoolField o .none) :=
    Moves.trans moves_rest (moves_setPoolField _ _ _)
  dsimp only
  split
  · exact h
  · exact (h.trans moves_rest).trans (moves_setPoolField _ _ _)

theorem moves_poolWrite (s : State) (l : LineAddr) (b : Buffer) : Moves s (s.poolWrite l b) :=
  moves_ite (fun _ => Moves.refl s) (fun _ => (Move.line s l _).moves)

theorem moves_poolDamaged (s : State) (l : LineAddr) (us : List WordUpset) : Moves s (s.poolDamaged l us) :=
  moves_ite (fun _ => Moves.refl s) (fun _ => (Move.line s l _).moves)

theorem moves_readEvent (s : State) (e : EntryId) (r : ReadResult) : Moves s (s.readEvent e r) := by
  cases r <;> first | exact Moves.refl s | exact moves_raise _ _ _

/-! ## Links -/

theorem moves_linkDown (s : State) (n : NodeId) : Moves s (s.linkDown n) :=
  ((moves_modNode (nodeMove_down _)).trans
    (moves_ite (fun _ => moves_rest) (fun _ => Moves.refl _))).trans (moves_alertTest _)

theorem moves_enterRetraining (s : State) (n : NodeId) (d : LinkDetail) : Moves s (s.enterRetraining n d) := by
  refine ((moves_modNode ?_).trans (moves_mapTimers _ n _)).trans (moves_raise _ _ _)
  refine ⟨fun _ h => (LinkState.noConfusion h), ?_⟩
  rintro ⟨h1, h2, h3⟩
  refine ⟨h1, h2, ?_⟩
  intro f hf
  obtain ⟨g, hg, rfl⟩ := List.mem_map.mp hf
  exact h3 g hg

theorem moves_exchange (s : State) (n : NodeId) (p : Targets) : Moves s (s.exchange n p) :=
  moves_ite (fun _ => moves_modNode nodeMove_same) (fun _ => (moves_modNode nodeMove_same).trans (moves_raise _ _ _))

theorem moves_trainSucceed (s : State) (n : NodeId) (t : Targets) : Moves s (s.trainSucceed n t) :=
  (moves_modNode (nodeMove_up (fun h => LinkState.noConfusion h))).trans (moves_alertTest _)

theorem moves_retrainSucceed (s : State) (n : NodeId) (t : Targets) : Moves s (s.retrainSucceed n t) := by
  refine ((moves_modNode ?_).trans (moves_mapTimers _ n _)).trans (moves_alertTest _)
  refine ⟨fun _ h => (LinkState.noConfusion h), ?_⟩
  rintro ⟨h1, h2, h3⟩
  refine ⟨h1, Nat.zero_le _, ?_⟩
  intro f hf
  obtain ⟨g, -, rfl⟩ := List.mem_map.mp hf
  exact Nat.zero_le _

theorem moves_linkUp (s : State) (n : NodeId) (t : Targets) : Moves s (s.linkUp n t) := by
  unfold State.linkUp
  split
  · exact moves_trainSucceed s n t
  · exact moves_retrainSucceed s n t
  · exact Moves.refl s
  · exact Moves.refl s

theorem moves_baseComplete (s : State) (n : NodeId) (p : Targets) : Moves s (s.baseComplete n p) := by
  unfold State.baseComplete
  dsimp only
  split
  · exact (moves_exchange s n p).trans (moves_modNode nodeMove_same)
  · exact (moves_exchange s n p).trans (moves_linkUp _ n _)

theorem moves_trainingEnds (s : State) (n : NodeId) (d : LinkDetail) : Moves s (s.trainingEnds n d) :=
  (moves_modNode (nodeMove_down _)).trans (moves_raise _ _ _)

theorem resendFrom_move (x : Node) (i : Nat) : NodeMove x (x.resendFrom i) := by
  constructor
  · intro h hd
    obtain ⟨h1, h2, h3, h4, h5⟩ := h hd
    exact ⟨h1, h2, h3, by simp [Node.resendFrom, h4], h5⟩
  · rintro ⟨h1, h2, h3⟩
    refine ⟨h1, h2, ?_⟩
    intro f hf
    rcases List.mem_append.mp hf with hf | hf
    · exact h3 f (List.mem_of_mem_take hf)
    · obtain ⟨g, hg, rfl⟩ := List.mem_map.mp hf
      unfold Frame.resend
      split
      · next lt => exact lt
      · exact h3 g (List.mem_of_mem_drop hg)

theorem moves_probeLeft (s : State) (n : NodeId) (e : EntryId) : Moves s (s.probeLeft n e) := moves_setEntry s e _

theorem moves_grantLeft (s : State) (n : NodeId) (tag : Tag) (e : EntryId) (l : LineAddr) (k : MsgKind) (p : Bool) :
    Moves s (s.grantLeft n tag e l k p) :=
  (moves_ite (fun _ => moves_modEntry s e _) (fun _ => Moves.refl s)).trans
    (moves_ite (fun _ => moves_raise _ _ _) (fun _ => Moves.refl _))

theorem moves_departed (s : State) (n : NodeId) : Moves s (s.departed n) :=
  (moves_modNode (nodeMove_same (pa := Nat.zero_le _))).trans (moves_linkDown _ n)

/-- A node whose outbound queue was not empty: the law of DOWN did not hold of it in DOWN. -/
theorem nodeMove_outQ {x y : Node} (oq : x.outQ ≠ []) (link : y.link = x.link := by rfl)
    (fr : y.frames = x.frames := by rfl) (pa : y.patience ≤ x.patience := by exact Nat.le_refl _)
    (dc : y.damagedCount ≤ x.damagedCount := by exact Nat.le_refl _) : NodeMove x y := by
  constructor
  · intro h hd
    exact absurd (h (link ▸ hd)).2.2.1 oq
  · rintro ⟨h1, h2, h3⟩
    exact ⟨by omega, by omega, by rw [fr]; exact h3⟩

theorem moves_headLeaves (s : State) (n : NodeId) : Moves s (s.headLeaves n) := by
  unfold State.headLeaves
  split
  · exact Moves.refl s
  · rename_i m rest hq
    have hne : (s.node n).outQ ≠ [] := by rw [hq]; exact List.cons_ne_nil _ _
    have hr : Moves s ((s.modNode n (fun x => { x with outQ := rest })).creditRequest n) := by
      unfold State.creditRequest
      rw [modNode_modNode_same]
      exact moves_modNode (nodeMove_outQ hne)
    have ht : Moves s ((s.modNode n (fun x => { x with outQ := rest })).creditReturn n) := by
      unfold State.creditReturn
      rw [modNode_modNode_same]
      exact moves_modNode (nodeMove_outQ hne)
    have h0 : Moves s (s.modNode n (fun x => { x with outQ := rest })) := moves_modNode (nodeMove_outQ hne)
    unfold State.left
    split
    · exact hr.trans (moves_grantLeft _ _ _ _ _ _ _)
    · exact hr.trans (moves_grantLeft _ _ _ _ _ _ _)
    · exact hr.trans (moves_ite (fun _ => moves_raise _ _ _) (fun _ => Moves.refl _))
    · exact ht
    · exact hr.trans (moves_ite (fun _ => moves_departed _ _) (fun _ => Moves.refl _))
    · exact hr
    · exact hr
    · exact h0.trans (moves_alertTest _)
    · exact h0.trans (moves_probeLeft _ _ _)

theorem moves_headsLeave (n : NodeId) (k : Nat) (s : State) : Moves s (State.headsLeave n k s) := by
  induction k generalizing s with
  | zero => exact Moves.refl s
  | succ k ih => exact (moves_headLeaves s n).trans (ih _)

theorem moves_frameAcked (s : State) (n : NodeId) : Moves s (s.frameAcked n) := by
  unfold State.frameAcked
  split
  · exact Moves.refl s
  · rename_i f rest hf
    refine Moves.trans (moves_modNode ?_) (moves_headsLeave _ _ _)
    constructor
    · intro h hd
      have := (h hd).2.2.2.1
      rw [hf] at this
      exact absurd this (List.cons_ne_nil _ _)
    · rintro ⟨h1, h2, h3⟩
      exact ⟨h1, h2, fun g hg => h3 g (by rw [hf]; exact List.mem_cons_of_mem _ hg)⟩

theorem moves_framesAcked (n : NodeId) (k : Nat) (s : State) : Moves s (State.framesAcked n k s) := by
  induction k generalizing s with
  | zero => exact Moves.refl s
  | succ k ih => exact (moves_frameAcked s n).trans (ih _)

theorem moves_frameAccepted (s : State) (n : NodeId) : Moves s (s.frameAccepted n) :=
  moves_modNode (nodeMove_same (dc := Nat.zero_le _))

theorem moves_requestArrives (s : State) (n : NodeId) (m : WireMsg) : Moves s (s.requestArrives n m) := by
  unfold State.requestArrives
  split
  · exact moves_raise _ _ _
  · refine moves_ite (fun hc => moves_modNode ⟨fun h hd => ?_, id⟩) (fun _ => moves_raise _ _ _)
    have := (h hd).2.2.2.2.1
    omega

theorem moves_returnArrives (s : State) (n : NodeId) (m : WireMsg) : Moves s (s.returnArrives n m) := by
  unfold State.returnArrives
  split
  · exact moves_raise _ _ _
  · refine moves_ite (fun hc => moves_modNode ⟨fun h hd => ?_, id⟩) (fun _ => moves_raise _ _ _)
    have := (h hd).2.2.2.2.2.1
    omega

end Sys2Proof.Machine
end

