-- ==== Sys2Proof/Laws/Steps.lean ====
section
/-! SUPPORT. What a command and a step can do to a state: a number of plain changes; and what the queue of commands
does. -/

namespace Sys2Proof.Machine

-- One proof at a time: many at once reserve more stacks than the memory limit allows.
set_option Elab.async false

/-! ## The Line Transaction Table -/

/-- A message queued leaves the table. -/
@[simp] theorem entry_send (s : State) (n : NodeId) (m : OutMsg) (e : EntryId) : (s.send n m).entry e = s.entry e := by
  unfold State.send
  split <;> rfl

/-- An entry unlinked leaves every phase. -/
@[simp] theorem phase_unlink (s : State) (x e : EntryId) : ((s.unlink x).entry e).phase = (s.entry e).phase := by
  unfold State.unlink State.entry
  rw [tget_map]
  split <;> rfl

theorem moves_settleNoData (s : State) (e : EntryId) : Moves s (s.settleNoData e) := by
  unfold State.settleNoData
  split <;> first | exact moves_issueRead s e | exact Moves.refl s

theorem moves_takeData (s : State) (e : EntryId) (b : Buffer) : Moves s (s.takeData e b) := moves_modEntry s e _

theorem moves_settleLost (s : State) (e : EntryId) : Moves s (s.settleLost e) :=
  (moves_takeData s e _).trans (moves_modEntry _ e _)

theorem moves_await (s : State) (e : EntryId) (n : NodeId) : Moves s (s.await e n) := by
  unfold State.await
  split
  · dsimp only
    rename_i f hf
    have hq : (s.entry f).phase = .queued := by
      have := List.find?_some hf
      simp only [Bool.and_eq_true, decide_eq_true_eq] at this
      exact this.1.1
    have h : Moves s (((s.doneReturn n (s.entry f).originTag).unlink f).freeUp f) := by
      refine ((moves_send s n _).trans (moves_unlink _ f)).trans (moves_freeUp _ f ?_)
      rw [phase_unlink, entry_send, hq]
      decide
    split
    · exact (h.trans (moves_takeData _ e _)).trans (moves_modEntry _ e _)
    · exact (h.trans (moves_modEntry _ e _)).trans (moves_settleNoData _ e)
  · exact moves_modEntry s e _

theorem moves_settleMiss (s : State) (e : EntryId) (n : NodeId) : Moves s (s.settleMiss e n) := by
  unfold State.settleMiss
  split
  · exact Moves.refl s
  · exact moves_settleNoData s e
  · exact moves_await s e n

theorem moves_lostAnswer (s : State) (e : EntryId) (n : NodeId) (k : ProbeKind) : Moves s (s.lostAnswer e n k) := by
  unfold State.lostAnswer
  split
  · exact Moves.refl s
  · exact moves_settleLost s e
  · exact moves_settleMiss s e n

theorem moves_makeProbe (s : State) (e : EntryId) (k : ProbeKind) (n : NodeId) : Moves s (s.makeProbe e k n) :=
  moves_ite (fun _ => (moves_modEntry s e _).trans (moves_send _ n _))
    (fun _ => (moves_modEntry s e _).trans (moves_lostAnswer _ e n k))

theorem moves_dropAll (s : State) (e : EntryId) (t : NodeSet) : Moves s (s.dropAll e t) :=
  moves_foldl (f := fun s n => s.makeProbe e .drop n) (fun s n => moves_makeProbe s e .drop n) _ s

theorem moves_startWork (s : State) (e : EntryId) : Moves s (s.startWork e) := by
  unfold State.startWork
  dsimp only
  split
  · exact moves_issueRead s e
  · exact moves_ite (fun _ => Moves.refl s) (fun _ => moves_issueRead s e)
  · exact moves_issueRead s e
  · exact moves_issueRead s e
  · exact moves_ite (fun _ => moves_await s e _) (fun _ => moves_makeProbe s e _ _)
  · exact moves_issueRead s e
  · exact (moves_dropAll s e _).trans (moves_issueRead _ e)
  · exact moves_ite (fun _ => moves_await s e _) (fun _ => moves_makeProbe s e _ _)
  · exact moves_dropAll s e _
  · exact moves_raise s _ _
  · exact moves_dropAll s e _
  · exact moves_makeProbe s e _ _
  · exact moves_ite (fun _ => moves_modEntry s e _) (fun _ => (moves_raise s _ _).trans (moves_modEntry _ e _))
  · exact (moves_raise s _ _).trans (moves_modEntry _ e _)
  · exact moves_dropAll s e _
  · exact moves_makeProbe s e _ _
  · exact Moves.refl s

/-- An entry that is not in WAYWAIT enters GATHER. -/
theorem moves_enterGather (s : State) (e : EntryId) (h : s.waitLaw → (s.entry e).phase ≠ .wayWait) :
    Moves s (s.enterGather e) :=
  (moves_waits (fun hs => waitLaw_setEntry (sameWait_out (h hs) Phase.noConfusion) hs)).trans (moves_startWork _ e)

theorem moves_queueReply (s : State) (e : EntryId) : Moves s (s.queueReply e) := by
  unfold State.queueReply
  dsimp only
  split
  · exact Moves.refl s
  · split
    · exact Moves.refl s
    · exact moves_ite (fun _ => (moves_send s _ _).trans (moves_modEntry _ e _)) (fun _ => moves_send s _ _)

/-- The reply queued leaves the entry's phase. -/
theorem phase_queueReply (s : State) (e : EntryId) : ((s.queueReply e).entry e).phase = (s.entry e).phase := by
  unfold State.queueReply
  dsimp only
  split
  · rfl
  · split
    · rfl
    · split
      · rw [entry_modEntry, if_pos rfl, entry_send]
      · rw [entry_send]

theorem moves_endGather (s : State) (e : EntryId) (hg : (s.entry e).phase = .gather) : Moves s (s.endGather e) := by
  unfold State.endGather
  dsimp only
  have h : Moves s (((s.modEntry e (fun x => { x with outcome := x.fixedOutcome s.promote })).queueReply e).modEntry e
      (fun x => { x with phase := .finish })) := by
    refine ((moves_modEntry s e _).trans (moves_queueReply _ e)).trans (moves_modEntry _ e _ (sameWait_out ?_ ?_))
    · rw [phase_queueReply, entry_modEntry, if_pos rfl]
      show (s.entry e).phase ≠ _
      rw [hg]
      decide
    · exact Phase.noConfusion
  split
  · exact h.trans (moves_issueWrite _ e _)
  · exact h

theorem moves_firstAnswer (s : State) (e : EntryId) (n : NodeId) (k : AnswerKind) (m : WireMsg) :
    Moves s (s.firstAnswer e n k m) := by
  unfold State.firstAnswer
  dsimp only
  have hk (pk : ProbeKind) : Moves s
      (if pk = .yield then s.modEntry e (fun x => { x with holderKept := m.keep }) else s) :=
    moves_ite (fun _ => moves_modEntry s e _) (fun _ => Moves.refl s)
  split
  · exact Moves.refl s
  · exact moves_ite (fun _ => moves_raise s _ _) (fun _ => Moves.refl s)
  · rename_i pk _ _
    split
    · exact (moves_raise s _ _).trans (moves_settleMiss _ e n)
    · split
      · exact (hk pk).trans (moves_takeData _ e _)
      · exact (hk pk).trans (moves_settleNoData _ e)
      · exact moves_settleMiss s e n
      · exact Moves.refl s

theorem moves_acceptAnswer (s : State) (e : EntryId) (n : NodeId) (k : AnswerKind) (m : WireMsg) :
    Moves s (s.acceptAnswer e n k m) :=
  moves_ite (fun _ => moves_modEntry s e _) (fun _ => (moves_modEntry s e _).trans (moves_firstAnswer _ e n k m))

theorem moves_mergeReturn (s : State) (e : EntryId) (n : NodeId) (r : RetMsg) : Moves s (s.mergeReturn e n r) := by
  unfold State.mergeReturn
  dsimp only
  have h : Moves s (if decide ((s.entry e).awaited = some n) = true then
      (s.doneReturn n r.tag).modEntry e (fun x => { x with awaited := none, returnTimer := .stopped })
      else s.doneReturn n r.tag) :=
    moves_ite (fun _ => (moves_send s n _).trans (moves_modEntry _ e _)) (fun _ => moves_send s n _)
  split
  · exact moves_ite (fun _ => (h.trans (moves_raise _ _ _)).trans (moves_modEntry _ e _))
      (fun _ => (h.trans (moves_takeData _ e _)).trans (moves_modEntry _ e _))
  · exact moves_ite (fun _ => (h.trans (moves_modEntry _ e _)).trans (moves_settleNoData _ e))
      (fun _ => h.trans (moves_modEntry _ e _))

/-! ## The way-wait list and the walker's records -/

/-- An entry of a kind that may wait comes to wait for ways in other hands. -/
theorem moves_pin (s : State) (e : EntryId) (ws : List WayNo)
    (h : s.waitLaw → (s.entry e).kind.plain = false ∧ (s.entry e).kind ≠ .recall) : Moves s (s.wait e (.pin ws)) :=
  moves_waits (fun hs => waitLaw_pin (h hs).1 (h hs).2 hs)

/-- The oldest seeker of a set takes another condition. -/
theorem moves_seeker (s : State) (e : EntryId) (c : WaitCond)
    (h : s.waitLaw → (s.oldestSeeker (s.setOf e)).map Member.entry = some e) : Moves s (s.wait e c) :=
  moves_waits (fun hs => by
    obtain ⟨m, hm, he⟩ := Option.map_eq_some_iff.1 (h hs)
    exact waitLaw_seeker hm he hs)

/-- An entry leaves the list and WAYWAIT. -/
theorem moves_leaveWait (s : State) (e : EntryId) (f : Entry → Entry) (h : (f (s.entry e)).phase ≠ .wayWait) :
    Moves s (s.leaveWait e f) := moves_waits (waitLaw_leaveWait h)

theorem moves_dropBeneficiary (s : State) (e : EntryId) : Moves s (s.dropBeneficiary e) := by
  unfold State.dropBeneficiary
  split
  · exact moves_modEntry s _ _
  · exact Moves.refl s

theorem moves_beginWork (s : State) (e : EntryId) (d : Snapshot) (w : Option WayNo) : Moves s (s.beginWork e d w) :=
  (moves_leaveWait s e _ Phase.noConfusion).trans (moves_startWork _ e)

theorem moves_createRecall (s : State) (f : EntryId) (k : SetIdx) (w : WayNo) (r : Record) (scope : Scope)
    (b : Option EntryId) (party : Party) (hf : (s.entry f).phase ≠ .wayWait) :
    Moves s (s.createRecall f k w r scope b party) := by
  unfold State.createRecall
  dsimp only
  have h : Moves s { (s.setEntry f (recallEntry k w r scope b)).setPin k w (.entry f) with recallMark := party } :=
    ((moves_setEntry s f _ (sameWait_out hf Phase.noConfusion)).trans
      (moves_setPin _ k w _)).trans moves_rest
  split
  · refine (h.trans (moves_modEntry _ f _)).trans (moves_enterGather _ f (fun _ => ?_))
    rw [entry_modEntry, if_pos rfl]
    show (((s.setEntry f (recallEntry k w r scope b)).setPin k w (.entry f)).entry f).phase ≠ _
    rw [State.setPin, State.putWay, entry_putDirSet, entry_setEntry_same]
    exact Phase.noConfusion
  · exact (h.trans (moves_modEntry _ f _)).trans (moves_modEntry _ _ _)

theorem moves_setRecord (s : State) (n : NodeId) (r : Option WalkRec) : Moves s (s.setRecord n r) := moves_rest

theorem moves_setStall (s : State) (x : Stall) : Moves s (s.setStall x) := moves_rest

theorem moves_startRecord (s : State) (n : NodeId) (mode : WalkMode) (tag : Tag) :
    Moves s (s.startRecord n mode tag) :=
  moves_ite (fun _ => moves_rest) (fun _ => moves_rest)

theorem moves_recordLoss (s : State) (n : NodeId) : Moves s (s.recordLoss n) := by
  unfold State.recordLoss
  split
  · exact moves_setRecord s n _
  · exact moves_startRecord s n _ _

theorem moves_finishRecord (s : State) (n : NodeId) : Moves s (s.finishRecord n) := by
  unfold State.finishRecord
  split
  · exact Moves.refl s
  · split
    · refine Moves.trans ?_ (moves_setRecord _ n none)
      split
      · exact moves_send s n _
      · exact moves_modNode nodeMove_same
    · exact Moves.refl s

theorem moves_recallReturned (s : State) (n : NodeId) : Moves s (s.recallReturned n) := by
  unfold State.recallReturned
  split
  · exact Moves.refl s
  · exact (moves_setRecord s n _).trans (moves_finishRecord _ n)

theorem moves_finishSet (s : State) : Moves s s.finishSet :=
  Moves.trans (moves_rest (t := { s with walker := { s.walker with
    pointer := s.walker.pointer + 1, position := 0
    records := s.walker.records.map (Option.map WalkRec.afterSet) } }))
    (moves_foldl (f := State.finishRecord) moves_finishRecord allNodes _)

theorem moves_nextWay (s : State) : Moves s s.nextWay := moves_ite (fun _ => moves_finishSet s) (fun _ => moves_rest)

/-! ## The cascade -/

@[simp] theorem of_s (s : State) : (Work.of s).s = s := rfl
@[simp] theorem push_s (k : Work) (ts : List Task) : (k.push ts).s = k.s := rfl
@[simp] theorem note_s (k : Work) (ns : List Notice) : (k.note ns).s = k.s := rfl
@[simp] theorem mod_s (k : Work) (f : State → State) : (k.mod f).s = f k.s := rfl
@[simp] theorem push_stack (k : Work) (ts : List Task) : (k.push ts).stack = ts ++ k.stack := rfl
@[simp] theorem note_notices (k : Work) (ns : List Notice) : (k.note ns).notices = k.notices ++ ns := rfl

/-- The work k leads to the work j: by moves of the state. -/
def Leads (k j : Work) : Prop := Moves k.s j.s

theorem Leads.refl (k : Work) : Leads k k := Moves.refl _

theorem Leads.trans {k j i : Work} (h : Leads k j) (g : Leads j i) : Leads k i := Moves.trans h g

theorem leads_mod {k : Work} {f : State → State} (h : ∀ s, Moves s (f s)) : Leads k (k.mod f) := h k.s

theorem Leads.push {k j : Work} (h : Leads k j) (ts : List Task) : Leads k (j.push ts) := h

theorem Leads.note {k j : Work} (h : Leads k j) (ns : List Notice) : Leads k (j.note ns) := h

theorem Leads.mod {k j : Work} (h : Leads k j) {f : State → State} (g : ∀ s, Moves s (f s)) : Leads k (j.mod f) :=
  h.trans (leads_mod g)

theorem leads_state {k : Work} {s : State} (h : Moves k.s s) : Leads k { k with s := s } := h

theorem leads_begin (k : Work) (e : EntryId) (d : Snapshot) (w : Option WayNo) : Leads k (k.begin e d w) :=
  (leads_mod (fun s => moves_beginWork s e d w)).push _

theorem leads_dirFault (k : Work) (e : EntryId) : Leads k (k.dirFault e) :=
  (leads_mod (fun s => (((moves_leaveWait s e _ Phase.noConfusion).trans
    (moves_dropBeneficiary _ e)).trans (moves_send _ _ _)).trans (moves_raise _ _ _))).push _

/-- The lowest-numbered FREE entry is FREE. -/
theorem freeEntry_phase {s : State} {f : EntryId} (h : s.freeEntry = some f) : (s.entry f).phase = .free := by
  have := List.find?_some h
  simpa [Entry.inUse] using this

theorem leads_recall (k : Work) (set : SetIdx) (w : WayNo) (r : Record) (scope : Scope) (b : Option EntryId)
    (party : Party) : Leads k (k.recall set w r scope b party) := by
  unfold Work.recall
  split
  · exact Leads.refl _
  · rename_i f hf
    exact (leads_state (moves_createRecall k.s f set w r scope b party (by rw [freeEntry_phase hf]; decide))).push _

/-- What the law says of the entry and the list before the service of a seeker. -/
def Served (s : State) (e : EntryId) : Prop :=
  s.waitLaw → (s.entry e).kind.plain = false ∧ (s.entry e).kind ≠ .recall
    ∧ (s.oldestSeeker (s.setOf e)).map Member.entry = some e

theorem leads_serve (k : Work) (e : EntryId) (rd : SetRead) (ho : Served k.s e) : Leads k (k.serve e rd) := by
  have hw (c : WaitCond) : Moves k.s (k.s.wait e c) := moves_seeker k.s e c (fun h => (ho h).2.2)
  unfold Work.serve
  dsimp only
  split
  · exact ((leads_state (moves_pin k.s e rd.unreadable (fun h => ⟨(ho h).1, (ho h).2.1⟩))).mod
      (fun s => moves_dropBeneficiary s e)).note _
  · split
    · exact (leads_dirFault k e).note _
    · split
      · exact ((leads_mod (fun s => (moves_dropBeneficiary s e).trans (moves_setPin _ _ _ _))).trans
          (leads_begin _ e _ _)).note _
      · split
        · exact leads_state (hw _)
        · split
          · split
            · exact (leads_state (hw _)).trans (leads_recall _ _ _ _ _ _ _)
            · exact leads_state (hw _)
          · exact leads_state (hw _)

/-- An entry that its read has sent to seek a way: it joins the list, and is served where it is the oldest. -/
theorem leads_seek (k : Work) (e : EntryId) (rd : SetRead)
    (hk : (k.s.entry e).kind = .fetchS ∨ (k.s.entry e).kind = .fetchH) : Leads k (k.seek e rd) := by
  unfold Work.seek
  dsimp only
  split
  · rename_i ho
    refine Leads.trans (j := (k.mod (fun s => s.wait e .behind)).mod (fun s => s.demoteOthers (k.s.setOf e) e))
      (moves_waits (fun hs => (waitLaw_seek hk hs).1)) (leads_serve _ e rd (fun _ => ?_))
    have hx : (k.s.wait e .behind).entry e = { k.s.entry e with phase := .wayWait } := entry_modEntry_same _ _ _
    have he : (((k.s.wait e .behind).demoteOthers (k.s.setOf e) e).entry e).kind = (k.s.entry e).kind := by
      show ((k.s.wait e .behind).entry e).kind = _
      rw [hx]
    have hl : ((k.s.wait e .behind).demoteOthers (k.s.setOf e) e).setOf e = k.s.setOf e := by
      show LineAddr.set ((k.s.wait e .behind).entry e).line = _
      rw [hx]; rfl
    refine ⟨?_, ?_, ?_⟩
    · show (((k.s.wait e .behind).demoteOthers (k.s.setOf e) e).entry e).kind.plain = false
      rw [he]; rcases hk with h | h <;> rw [h] <;> rfl
    · show (((k.s.wait e .behind).demoteOthers (k.s.setOf e) e).entry e).kind ≠ .recall
      rw [he]; rcases hk with h | h <;> rw [h] <;> decide
    · show (((k.s.wait e .behind).demoteOthers (k.s.setOf e) e).oldestSeeker
        (((k.s.wait e .behind).demoteOthers (k.s.setOf e) e).setOf e)).map Member.entry = some e
      rw [hl, oldestSeeker_demoteOthers]
      exact ho
  · rename_i ho
    exact leads_state (moves_waits (fun hs => (waitLaw_seek hk hs).2 ho))

/-- An entry of a kind that may wait goes on from its read. -/
theorem leads_afterRead (k : Work) (e : EntryId) (rd : SetRead)
    (hw : k.s.waitLaw → (k.s.entry e).kind.plain = false ∧ (k.s.entry e).kind ≠ .recall) :
    Leads k (k.afterRead e rd) := by
  unfold Work.afterRead
  dsimp only
  split
  · exact (leads_mod (fun s => moves_setPin s _ _ _)).trans (leads_begin _ e _ _)
  · exact leads_state (moves_pin k.s e _ hw)
  · split
    · have hx : (k.s.modEntry e (fun x => { x with snapshot := some .miss })).entry e
          = { k.s.entry e with snapshot := some .miss } := entry_modEntry_same _ _ _
      exact leads_state (moves_waits (fun hs => waitLaw_pin (by rw [hx]; exact (hw hs).1) (by rw [hx]; exact (hw hs).2)
        (waitLaw_setEntry sameWait_of hs)))
    · split
      · rename_i hn
        have hd : decidedKind (k.s.entry e).kind (k.s.entry e).originNode .miss = .fetchS
            ∨ decidedKind (k.s.entry e).kind (k.s.entry e).originNode .miss = .fetchH := by
          cases hk : (k.s.entry e).kind <;> rw [hk] at hn <;> first | exact Or.inl rfl | exact Or.inr rfl | cases hn
        have hm : Leads k (k.mod (fun s => s.modEntry e (fun x => { x with
            kind := decidedKind x.kind x.originNode .miss, snapshot := some .miss }))) := by
          exact moves_waits (fun hs => waitLaw_kind rfl rfl hd hs)
        split
        · exact hm.trans (leads_dirFault _ e)
        · refine hm.trans (leads_seek _ e rd ?_)
          show ((k.s.modEntry e _).entry e).kind = _ ∨ ((k.s.modEntry e _).entry e).kind = _
          rw [entry_modEntry_same]
          exact hd
      · exact leads_begin k e _ _

theorem leads_read (k : Work) (e : EntryId) (reader : Reader) : Leads k (k.read e reader).1 := by
  unfold Work.read
  have h := moves_readSet k.s (k.s.setOf e) reader (k.s.entry e).kind.msgKind
  generalize k.s.readSet (k.s.setOf e) reader (k.s.entry e).kind.msgKind = p at h ⊢
  exact h

/-- What the read of every way keeps, the read of a set keeps. -/
theorem readSet_keeps {P : State → Prop} {k : SetIdx} {reader : Reader} {kind : MsgKind}
    (hP : ∀ s w, P s → P (s.readWay k w reader kind).1) {s : State} (hs : P s) : P (s.readSet k reader kind).1 := by
  have h : ∀ (l : List WayNo) (acc : State × SetRead), P acc.1 → P (l.foldl (fun acc w =>
      let (s', r) := acc.1.readWay k w reader kind
      (s', tset acc.2 w (r, (s.way k w).pin))) acc).1 := by
    intro l
    induction l with
    | nil => exact fun acc h => h
    | cons w l ih =>
      intro acc ha
      rw [List.foldl_cons]
      exact ih (let (s', r) := acc.1.readWay k w reader kind; (s', tset acc.2 w (r, (s.way k w).pin))) (hP acc.1 w ha)
  exact h allWays (s, _) hs

/-- An event leaves the table and the list. -/
theorem raise_table (s : State) (c : ErrClass) (r : ErrRec) :
    (s.raise c r).entries = s.entries ∧ (s.raise c r).wayWait = s.wayWait := by
  unfold State.raise State.alertTest
  split
  · exact ⟨rfl, rfl⟩
  · split
    · unfold State.send
      split <;> exact ⟨rfl, rfl⟩
    · exact ⟨rfl, rfl⟩

/-- The read of a way leaves the table and the list. -/
theorem readWay_table (s : State) (k : SetIdx) (w : WayNo) (reader : Reader) (kind : MsgKind) :
    (s.readWay k w reader kind).1.entries = s.entries ∧ (s.readWay k w reader kind).1.wayWait = s.wayWait := by
  unfold State.readWay
  dsimp only
  split
  · exact ⟨rfl, rfl⟩
  · split
    · exact ⟨rfl, rfl⟩
    · dsimp only
      split
      · exact raise_table _ _ _
      · exact raise_table _ _ _
    · split
      · exact raise_table _ _ _
      · exact raise_table _ _ _

/-- A read leaves the table and the list. -/
theorem readSet_table (s : State) (k : SetIdx) (reader : Reader) (kind : MsgKind) :
    (s.readSet k reader kind).1.entries = s.entries ∧ (s.readSet k reader kind).1.wayWait = s.wayWait :=
  readSet_keeps (P := fun u => u.entries = s.entries ∧ u.wayWait = s.wayWait)
    (fun u w h => ⟨(readWay_table u k w reader kind).1.trans h.1, (readWay_table u k w reader kind).2.trans h.2⟩)
    ⟨rfl, rfl⟩

/-- A read within a step leaves the table and the list. -/
theorem read_table (k : Work) (e : EntryId) (reader : Reader) :
    (k.read e reader).1.s.entries = k.s.entries ∧ (k.read e reader).1.s.wayWait = k.s.wayWait := by
  unfold Work.read
  have h := readSet_table k.s (k.s.setOf e) reader (k.s.entry e).kind.msgKind
  generalize k.s.readSet (k.s.setOf e) reader (k.s.entry e).kind.msgKind = p at h ⊢
  exact h

/-- A member of the list is of a kind that may wait. -/
theorem mayWait_of_phase {s : State} (hs : s.waitLaw) {e : EntryId} (h : (s.entry e).phase = .wayWait) :
    (s.entry e).kind.plain = false ∧ (s.entry e).kind ≠ .recall := by
  obtain ⟨m, hm, rfl⟩ := (hs.2.1 e).1 h
  exact ⟨(hs.2.2.1 m hm).1, (hs.2.2.1 m hm).2.1⟩

theorem leads_activate (k : Work) (e : EntryId) : Leads k (k.activate e) := by
  unfold Work.activate
  dsimp only
  split
  · rename_i hp
    refine (leads_state (moves_enterGather k.s e (fun hs h => ?_))).push _
    have := (mayWait_of_phase hs h).1
    rw [hp] at this
    cases this
  · rename_i hp
    have h := leads_read k e .activation
    obtain ⟨he, hl⟩ := read_table k e .activation
    generalize k.read e .activation = p at h he hl ⊢
    obtain ⟨j, rd⟩ := p
    dsimp only at h he hl ⊢
    have hee : j.s.entry e = k.s.entry e := by unfold State.entry; rw [he]
    split
    · rename_i hr
      refine (h.trans (leads_state ((moves_modEntry j.s e _).trans (moves_enterGather _ e (fun hs hph => ?_))))).push _
      refine (mayWait_of_phase hs hph).2 ?_
      rw [entry_modEntry_same, hee]
      exact hr
    · rename_i hr
      refine h.trans (leads_afterRead _ e _ (fun _ => ?_))
      rw [hee]
      exact ⟨by simpa using hp, hr⟩

/-- The oldest seeker of a set may be served. -/
theorem served_oldest {s : State} (hs : s.waitLaw) {set : SetIdx} {m : Member} (h : s.oldestSeeker set = some m) :
    (s.entry m.entry).kind.plain = false ∧ (s.entry m.entry).kind ≠ .recall
      ∧ (s.oldestSeeker (s.setOf m.entry)).map Member.entry = some m.entry := by
  obtain ⟨-, h2, -⟩ := oldestSeeker_place h
  have hm := List.mem_of_find?_eq_some h
  refine ⟨(hs.2.2.1 m hm).1, (hs.2.2.1 m hm).2.1, ?_⟩
  rw [h2, h]
  rfl

/-- The service of a seeker with a fresh read. -/
theorem leads_readServe (k : Work) (e : EntryId) (reader : Reader) (h : Served k.s e) :
    Leads k ((k.read e reader).1.serve e (k.read e reader).2) := by
  have hr := leads_read k e reader
  obtain ⟨he, hl⟩ := read_table k e reader
  generalize k.read e reader = p at hr he hl ⊢
  obtain ⟨⟨s, ts, ns⟩, rd⟩ := p
  refine Leads.trans hr (leads_serve _ e rd (fun hs => ?_))
  have hk := h (waitLaw_same (s := s) hl.symm he.symm hs)
  dsimp only at he hl ⊢
  unfold State.oldestSeeker State.setOf State.entry at hk ⊢
  rw [he, hl]
  exact hk

theorem leads_serveFresh (k : Work) (set : SetIdx) (p : WaitCond → Bool) : Leads k (k.serveFresh set p) := by
  unfold Work.serveFresh
  split
  · exact Leads.refl _
  · rename_i m _
    split
    · have h := leads_readServe k m.entry .wayWait (fun hs => served_oldest hs ‹_›)
      generalize k.read m.entry .wayWait = p at h ⊢
      obtain ⟨j, rd⟩ := p
      exact h
    · exact Leads.refl _

theorem leads_reread (k : Work) (e : EntryId) (w : WayNo) : Leads k (k.reread e w) := by
  unfold Work.reread
  split
  · rename_i ws hc
    split
    · have h := leads_read k e .wayWait
      obtain ⟨he, hl⟩ := read_table k e .wayWait
      generalize k.read e .wayWait = p at h he hl ⊢
      obtain ⟨⟨s, ts, ns⟩, rd⟩ := p
      refine Leads.trans h (leads_afterRead _ e rd (fun hs => ?_))
      dsimp only at he hl hs ⊢
      have hee : s.entry e = k.s.entry e := by unfold State.entry; rw [he]
      rw [hee]
      have hs' := waitLaw_same (s := s) (t := k.s) hl.symm he.symm hs
      unfold State.condOf at hc
      obtain ⟨m, hm, -⟩ := Option.map_eq_some_iff.1 hc
      have he' : m.entry = e := by simpa using List.find?_some hm
      exact mayWait_of_phase hs' ((hs'.2.1 e).2 ⟨m, List.mem_of_find?_eq_some hm, he'⟩)
    · exact Leads.refl _
  · exact Leads.refl _

theorem moves_issuePoison (s : State) (set : SetIdx) (w : WayNo) (r : Record) : Moves s (s.issuePoison set w r) :=
  ((moves_setPin s set w _).trans (moves_issue _ _)).trans (moves_setStall _ _)

theorem leads_departRecall (k : Work) (set : SetIdx) (w : WayNo) (r : Record) (t : NodeSet) (d : NodeId) :
    Leads k (k.departRecall set w r t d) := by
  unfold Work.departRecall
  refine (leads_recall k set w r _ none .walker).mod (fun s => ?_)
  have h : Moves s (match s.walker.record d with
      | some x => s.setRecord d (some { x with recalls := x.recalls + 1 })
      | none => s) := by
    split
    · exact moves_setRecord _ _ _
    · exact Moves.refl _
  exact moves_ite (fun _ => h.trans (moves_nextWay _)) (fun _ => h.trans (moves_setStall _ _))

theorem leads_examineBy {depart : Work → SetIdx → WayNo → Record → NodeSet → Work} {rest : List Task}
    (hd : ∀ k set w r t, Leads k (depart k set w r t)) (k : Work) : Leads k (k.examineBy depart rest) := by
  unfold Work.examineBy
  dsimp only
  refine (leads_state (k := k) (moves_readSet k.s k.s.walker.pointer .walker .walker)).trans ?_
  split
  · exact (leads_mod moves_nextWay).push _
  · exact (leads_mod (fun s => moves_setStall s _)).push _
  · exact (leads_mod moves_nextWay).push _
  · exact (leads_mod (fun s => moves_setStall s _)).push _
  · split
    · split
      · exact (leads_mod (fun s => moves_writeWay s _ _ _ _)).push _
      · exact (leads_mod (fun s => moves_issuePoison s _ _ _)).push _
    · split
      · exact hd _ _ _ _ _
      · exact (leads_mod moves_nextWay).push _
  · exact (leads_mod (fun s => moves_setStall s _)).push _

theorem leads_examineGiven (k : Work) (d : NodeId) (rest : List Task) : Leads k (k.examineGiven d rest) := by
  refine leads_examineBy (fun k set w r t => ?_) k
  split
  · exact leads_departRecall _ _ _ _ _ _
  · exact (leads_mod (fun s => moves_setStall s _)).push _

theorem leads_departWay (k : Work) (t : NodeSet) : Leads k (k.departWay t) := by
  unfold Work.departWay
  dsimp only
  split
  · exact leads_examineGiven _ _ _
  · exact leads_mod (fun s => moves_setStall s _)

theorem leads_examine (k : Work) : Leads k k.examine := leads_examineBy (fun k _ _ _ t => leads_departWay k t) k

theorem leads_tellWalker (k : Work) (set : SetIdx) (w : WayNo) : Leads k (k.tellWalker set w) := by
  unfold Work.tellWalker
  split
  · exact (leads_mod (fun s => moves_setStall s .none)).trans (leads_examine _)
  · exact Leads.refl _

theorem moves_passPin (s : State) (e : EntryId) (w : WayNo) : Moves s (s.passPin e w) := by
  unfold State.passPin
  dsimp only
  split
  · exact (moves_setPin s _ w _).trans (moves_beginWork _ _ _ _)
  · exact moves_setPin s _ w _

theorem leads_complete (k : Work) (e : EntryId) : Leads k (k.complete e) := by
  unfold Work.complete
  dsimp only
  refine Leads.push ?_ _
  split
  · exact Leads.refl _
  · exact leads_mod (fun s => ((moves_writeWay s _ _ _ _).trans (moves_touch _ _ _)).trans (moves_passPin _ e _))

theorem moves_doneRequest (s : State) (n : NodeId) (tag : Tag) (p : Bool) : Moves s (s.doneRequest n tag p) :=
  moves_send s n _

theorem moves_postedDone (s : State) (e : EntryId) : Moves s (s.postedDone e) := by
  unfold State.postedDone
  dsimp only
  have h : Moves s (s.modNode (s.entry e).originNode (fun x => { x with posted := x.posted - 1 })) :=
    moves_modNode nodeMove_same
  split
  · exact h
  · split
    · exact h.trans (moves_setNode nodeMove_same)
    · split
      · exact h
      · exact (h.trans (moves_setNode nodeMove_same)).trans (moves_doneRequest _ _ _ _)

/-- A walk record that has its recall back leaves the entries. -/
theorem recallReturned_entries (s : State) (n : NodeId) : (s.recallReturned n).entries = s.entries := by
  unfold State.recallReturned
  split
  · rfl
  · unfold State.finishRecord
    split
    · rfl
    · split
      · dsimp only
        split
        · unfold State.setRecord State.send
          split <;> rfl
        · rfl
      · rfl

/-- The end of a posted write leaves the entries. -/
theorem postedDone_entries (s : State) (e : EntryId) : (s.postedDone e).entries = s.entries := by
  unfold State.postedDone
  dsimp only
  split
  · rfl
  · split
    · rfl
    · split
      · rfl
      · unfold State.doneRequest State.send
        split <;> rfl

theorem leads_completeTail (k : Work) (e : EntryId) (u h : Bool) (hf : (k.s.entry e).phase = .finish) :
    Leads k (k.completeTail e u h) := by
  unfold Work.completeTail
  dsimp only
  show Moves k.s (State.freeUp (if (k.s.entry e).posted = true then
    (match (k.s.entry e).walkNode with | some d => k.s.recallReturned d | none => k.s).postedDone e
    else (match (k.s.entry e).walkNode with | some d => k.s.recallReturned d | none => k.s)) e)
  have h1 : Moves k.s (match (k.s.entry e).walkNode with | some d => k.s.recallReturned d | none => k.s) := by
    split
    · exact moves_recallReturned k.s _
    · exact Moves.refl _
  have h2 : (match (k.s.entry e).walkNode with | some d => k.s.recallReturned d | none => k.s).entries
      = k.s.entries := by
    split
    · exact recallReturned_entries k.s _
    · rfl
  generalize (match (k.s.entry e).walkNode with | some d => k.s.recallReturned d | none => k.s) = u at h1 h2 ⊢
  have hph : ∀ v : State, v.entries = k.s.entries → (v.entry e).phase ≠ .wayWait := by
    intro v hv
    unfold State.entry at hf ⊢
    rw [hv, hf]
    decide
  split
  · exact (h1.trans (moves_postedDone _ e)).trans (moves_freeUp _ e (hph _ ((postedDone_entries u e).trans h2)))
  · exact h1.trans (moves_freeUp _ e (hph _ h2))

theorem leads_giveSeeker (k : Work) (m : Member) (hm : m ∈ k.s.wayWait) (hc : m.cond = .stalled) :
    Leads k (k.giveSeeker m.entry) := by
  unfold Work.giveSeeker
  have h := leads_readServe k m.entry .wayWait
    (fun hs => served_oldest hs (oldestSeeker_of hs hm (by rw [hc]; rfl) (by rw [hc]; decide)))
  generalize k.read m.entry .wayWait = p at h ⊢
  obtain ⟨j, rd⟩ := p
  exact h

theorem leads_giveWalker (k : Work) (d : NodeId) : Leads k (k.giveWalker d) := by
  unfold Work.giveWalker
  exact (leads_mod (fun s => moves_setStall s .none)).trans (leads_examineGiven _ _ _)

theorem leads_offer (k : Work) : Leads k k.offer := by
  unfold Work.offer
  dsimp only
  have h : Leads k (k.push [.offerRecall]) := (Leads.refl k).push _
  have hg (m : Member) (hm : k.s.wayWait.find? (fun m => decide (m.cond = .stalled)) = some m) :
      Leads (k.push [.offerRecall]) ((k.push [.offerRecall]).giveSeeker m.entry) :=
    leads_giveSeeker _ m (List.mem_of_find?_eq_some hm) (by simpa using List.find?_some hm)
  split
  · split
    · exact Leads.refl _
    · rename_i m hm _
      exact h.trans (hg m hm)
    · exact h.trans (leads_giveWalker _ _)
    · rename_i m d hm _
      split
      · exact h.trans (hg m hm)
      · exact h.trans (leads_giveWalker _ _)
  · exact Leads.refl _

theorem leads_task (k : Work) (t : Task) : Leads k (k.task t) := by
  cases t with
  | activate e => exact leads_activate k e
  | checkGather e =>
    unfold Work.task
    dsimp only
    split
    · rename_i h
      exact (leads_state (moves_endGather k.s e h.1)).push _
    · exact Leads.refl _
  | checkFinish e =>
    unfold Work.task
    dsimp only
    split
    · exact leads_complete k e
    · exact Leads.refl _
  | completeTail e u h =>
    unfold Work.task
    dsimp only
    split
    · exact leads_completeTail k e u h ‹_›
    · exact Leads.refl _
  | reread e w => exact leads_reread k e w
  | serveOldest set => exact leads_serveFresh k set _
  | tellWalker set w => exact leads_tellWalker k set w
  | offerRecall => exact leads_offer k

theorem leads_notice (k : Work) (n : Notice) : Leads k (k.notice n) := by
  cases n with
  | unpinned set w => exact (Leads.refl k).push _
  | recallFree => exact (Leads.refl k).push _
  | oldestLeft set => exact leads_serveFresh k set _

theorem leads_stack (k : Work) (ts : List Task) : Leads k { k with stack := ts } := Moves.refl k.s

theorem leads_notices (k : Work) (ns : List Notice) : Leads k { k with notices := ns } := Moves.refl k.s

theorem leads_move {k j : Work} (h : k.move = some j) : Leads k j := by
  unfold Work.move at h
  split at h
  · obtain rfl := Option.some.inj h
    exact (leads_stack k _).trans (leads_task _ _)
  · obtain rfl := Option.some.inj h
    exact (leads_notices k _).trans (leads_notice _ _)
  · cases h

theorem moves_run (fuel : Nat) (k : Work) (t : State) (h : Work.run fuel k = some t) : Moves k.s t := by
  induction fuel generalizing k with
  | zero =>
    unfold Work.run at h
    split at h
    · cases h; exact Moves.refl _
    · cases h
  | succ fuel ih =>
    unfold Work.run at h
    split at h
    · cases h; exact Moves.refl _
    · rename_i j hj
      exact Moves.trans (leads_move hj) (ih j h)

/-- An outcome that is a next state is reached by moves. -/
def Ends (s : State) (o : Host.Outcome State Fault Refusal) : Prop := ∀ t, o = .next t → Moves s t

theorem ends_next {s t : State} (h : Moves s t) : Ends s (.next t) := by
  intro u hu; cases hu; exact h

theorem ends_settle {s : State} {k : Work} (h : Moves s k.s) : Ends s (settle k) := by
  intro t ht
  unfold settle at ht
  split at ht
  · cases ht; exact h.trans (moves_run _ k _ ‹_›)
  · cases ht

theorem Ends.of {s t : State} {o : Host.Outcome State Fault Refusal} (h : Moves s t) (k : Ends t o) : Ends s o :=
  fun u hu => h.trans (k u hu)

/-! ## The running of a step -/

/-- Fuel that suffices once suffices in any larger amount. -/
theorem run_mono {fuel more : Nat} (h : fuel ≤ more) {k : Work} {t : State} (hr : Work.run fuel k = some t) :
    Work.run more k = some t := by
  induction fuel generalizing k more with
  | zero =>
    unfold Work.run at hr
    split at hr
    · rename_i hm
      cases more <;> simp only [Work.run, hm] <;> exact hr
    · cases hr
  | succ fuel ih =>
    obtain ⟨m, rfl⟩ : ∃ m, more = m + 1 := ⟨more - 1, by omega⟩
    unfold Work.run at hr ⊢
    split at hr
    · exact hr
    · exact ih (by omega) hr

/-- A step whose work comes to rest within a few moves. -/
theorem settle_eq {fuel : Nat} (h : fuel ≤ Config.settleBound := by decide) {k : Work} {t : State}
    (hr : Work.run fuel k = some t) : settle k = .next t := by
  unfold settle
  rw [run_mono h hr]

/-- A step with nothing set going. -/
@[simp] theorem settle_of (s : State) : settle (Work.of s) = .next s := settle_eq (fuel := 0) (by decide) rfl

/-! ## Loss -/

theorem moves_removeQueued (n : NodeId) (s : State) (e : EntryId) : Moves s (State.removeQueued n s e) := by
  unfold State.removeQueued
  split
  · rename_i h
    have hq : (s.entry e).phase = .queued := by
      unfold Entry.requestIn at h
      simp only [Bool.and_eq_true, decide_eq_true_eq] at h
      exact h.1.1
    refine ((moves_ite (fun _ => moves_setNode nodeMove_same) (fun _ => Moves.refl s)).trans
      (moves_unlink _ e)).trans (moves_freeUp _ e ?_)
    rw [phase_unlink]
    split
    · show (s.entry e).phase ≠ _
      rw [hq]; decide
    · rw [hq]; decide
  · exact Moves.refl s

theorem leads_removeWaiting (n : NodeId) (k : Work) (e : EntryId) : Leads k (Work.removeWaiting n k e) := by
  unfold Work.removeWaiting
  dsimp only
  split
  · refine Leads.push ?_ _
    have h : Leads k (k.mod (fun s => (s.leaveWait e (fun _ => Entry.free)).dropBeneficiary e)) :=
      leads_mod (fun s => (moves_leaveWait s e _ Phase.noConfusion).trans (moves_dropBeneficiary _ e))
    split
    · split
      · exact h.note _
      · exact h
    · split
      · exact h.note _
      · exact h
  · exact Leads.refl _

theorem moves_orphan (n : NodeId) (s : State) (e : EntryId) : Moves s (State.orphan n s e) := by
  unfold State.orphan
  dsimp only
  split
  · have h : Moves s (s.modEntry e (fun x => { x with
        orphaned := true
        confirm := if x.confirm = .awaited n then .received else x.confirm
        confirmTimer := .stopped })) := moves_modEntry s e _
    split
    · exact h.trans (moves_withdraw _ e)
    · split
      · split
        · exact h.trans (moves_issueWrite _ e _)
        · exact h
      · exact h
  · exact Moves.refl _

theorem moves_probeLost (n : NodeId) (s : State) (e : EntryId) : Moves s (State.probeLost n s e) := by
  unfold State.probeLost
  dsimp only
  split
  · split
    · exact (moves_modEntry s e _).trans (moves_lostAnswer _ e n _)
    · exact moves_modEntry s e _
  · exact moves_ite (fun _ => moves_modEntry s e _) (fun _ => Moves.refl s)

theorem moves_waitLost (n : NodeId) (s : State) (e : EntryId) : Moves s (State.waitLost n s e) :=
  moves_ite (fun _ => (moves_modEntry s e _).trans (moves_settleLost _ e)) (fun _ => Moves.refl s)

theorem moves_aimedLost (n : NodeId) (s : State) (e : EntryId) : Moves s (State.aimedLost n s e) :=
  moves_ite (fun _ => (moves_probeLost n s e).trans (moves_waitLost n _ e)) (fun _ => Moves.refl s)

theorem moves_nodeGone (s : State) (n : NodeId) (c : LossCause) : Moves s (s.nodeGone n c) :=
  ((moves_modNode (nodeMove_same (pa := Nat.zero_le _))).trans (moves_linkDown _ n)).trans (moves_raise _ _ _)

theorem leads_loseNode (k : Work) (n : NodeId) (c : LossCause) : Leads k (k.loseNode n c) := by
  unfold Work.loseNode
  split
  · have h (l : List EntryId) (k : Work) : Leads k (l.foldl (Work.removeWaiting n) k) := by
      induction l generalizing k with
      | nil => exact Leads.refl _
      | cons e l ih => exact (leads_removeWaiting n k e).trans (ih _)
    have h1 : Leads k (k.mod (fun s => s.nodeGone n c)) := leads_mod (fun s => moves_nodeGone s n c)
    have h2 := h1.mod (fun s => moves_foldl (moves_removeQueued n) allEntries s)
    have h3 := (h2.trans (h allEntries _)).mod (fun s => moves_foldl (moves_orphan n) allEntries s)
    exact (h3.mod (fun s => (moves_foldl (moves_aimedLost n) allEntries s).trans (moves_recordLoss _ n))).trans
      (leads_stack _ _)
  · exact Leads.refl _

/-! ## Registers and admission -/

theorem moves_writeReg (s : State) (g : Reg) (v : RegValue) : Moves s (s.writeReg g v) := by
  cases g <;> try exact moves_rest
  case nodeControl n => exact moves_setNode nodeMove_same
  case errorAck => exact moves_acknowledge s _
  case alertMask => exact Moves.trans (moves_rest (t := { s with alertMask := _ })) (moves_alertTest _)
  case alertControl =>
    exact Moves.trans (moves_rest (t := { s with alertTarget := _, pinEnable := _ })) (moves_alertTest _)
  case alertClear => exact moves_alertClear s
  case errorCount c =>
    refine moves_ite (fun _ => (Move.errors s _ ?_).moves) (fun _ => Moves.refl s)
    intro d hd
    rw [tget_tset]
    split
    · subst_vars; exact ⟨Nat.zero_le _, hd.2.1, hd.2.2⟩
    · exact hd

theorem moves_takeReturn (s : State) (n : NodeId) : Moves s (s.takeReturn n) := by
  refine Moves.trans (moves_modNode (n := n) (f := fun x => { x with returnQ := x.returnQ.tail }) ?_) moves_rest
  refine ⟨fun h hd => ?_, id⟩
  obtain ⟨h1, h2, h3⟩ := h hd
  exact ⟨h1, by simp [h2], h3⟩

theorem passedOver_move (x : Node) : NodeMove x x.passedOver := by
  unfold Node.passedOver
  split
  · exact ⟨id, fun ⟨h1, h2, h3⟩ => ⟨by dsimp only; omega, h2, h3⟩⟩
  · exact NodeMove.refl x

theorem moves_takeRequest (s : State) (n : NodeId) : Moves s (s.takeRequest n) := by
  refine Moves.trans (Move.nodes s (s.takeRequest n).nodes ?_).moves moves_rest
  intro m
  simp only [State.takeRequest, tget, Vector.getElem_ofFn]
  split
  · refine ⟨fun h hd => ?_, fun h => ⟨Nat.zero_le _, h.2⟩⟩
    obtain ⟨h1, h2⟩ := h hd
    exact ⟨by simp [Node.served, h1], h2⟩
  · split
    · exact passedOver_move _
    · exact NodeMove.refl _

theorem moves_refuse (s : State) (n : NodeId) (tag : Tag) (k : MsgKind) (l : Option LineAddr) (r : Reason) :
    Moves s (s.refuse n tag k l r) := (moves_send s n _).trans (moves_raise _ _ _)

/-- An entry that is QUEUED takes a place that was not in WAYWAIT. -/
theorem moves_enter (s : State) (e : EntryId) (x : Entry) (he : (s.entry e).phase ≠ .wayWait)
    (hx : x.phase = .queued) : Moves s (s.enter e x).s := by
  have h : Moves s (s.setEntry e x) := moves_setEntry s e x (sameWait_out he (by rw [hx]; decide))
  unfold State.enter
  split
  · exact h.trans (moves_modEntry _ _ (fun y => { y with successor := some e }))
  · exact h

theorem moves_allocate (s : State) (x : Entry) (hx : x.phase = .queued := by rfl) : Moves s (s.allocate x).s := by
  unfold State.allocate
  split
  · exact Moves.refl s
  · rename_i e he
    exact moves_enter s e x (by rw [freeEntry_phase he]; decide) hx

theorem moves_admitLine (s : State) (n : NodeId) (tag : Tag) (k : WorkKind) (l : LineAddr) :
    Moves s (s.admitLine n tag k l).s := moves_allocate s _

theorem moves_admitPlainWrite (s : State) (n : NodeId) (tag : Tag) (l : LineAddr) (m : ByteMask) (d : LineData) :
    Moves s (s.admitPlainWrite n tag l m d).s := by
  unfold State.admitPlainWrite
  dsimp only
  split
  · exact moves_doneRequest s n tag _
  · exact Moves.trans (moves_ite (fun _ => (moves_doneRequest s n tag _).trans (moves_modNode nodeMove_same))
      (fun _ => Moves.refl s)) (moves_allocate _ _)

theorem moves_admitOrder (s : State) (n : NodeId) (tag : Tag) : Moves s (s.admitOrder n tag) :=
  moves_ite (fun _ => moves_doneRequest s n tag _) (fun _ => moves_modNode nodeMove_same)

theorem moves_admitLeave (s : State) (n : NodeId) (tag : Tag) : Moves s (s.admitLeave n tag) :=
  (moves_modNode nodeMove_same).trans (moves_startRecord _ n _ tag)

theorem moves_admitReturn (s : State) (n : NodeId) (r : RetMsg) : Moves s (s.admitReturn n r).s := by
  unfold State.admitReturn
  split
  · exact moves_mergeReturn s _ n r
  · exact moves_allocate s _

theorem moves_admitConfigRead (s : State) (n : NodeId) (tag : Tag) (o : Offset) :
    Moves s (s.admitConfigRead n tag o) := by
  unfold State.admitConfigRead
  split
  · exact moves_send s n _
  · exact moves_refuse s n tag _ _ _

theorem moves_admitRegWrite (s : State) (n : NodeId) (tag : Tag) (g : Reg) (v : RegValue) :
    Moves s (s.admitRegWrite n tag g v) := by
  unfold State.admitRegWrite
  split
  · exact moves_refuse s n tag _ _ _
  · exact (moves_doneRequest s n tag _).trans (moves_writeReg _ g v)

theorem moves_admitConfigWrite (s : State) (n : NodeId) (tag : Tag) (o : Offset) (v : RegValue) :
    Moves s (s.admitConfigWrite n tag o v) := by
  unfold State.admitConfigWrite
  split
  · exact moves_admitRegWrite s n tag _ v
  · exact moves_refuse s n tag _ _ _

theorem ends_admitRequest (s : State) {work : State → NodeId → Tag → ReqBody → Option Work}
    (h : ∀ s n tag b k, work s n tag b = some k → Moves s k.s) : Ends s (s.admitRequest work) := by
  unfold State.admitRequest
  split
  · exact ends_next (Moves.refl s)
  · split
    · exact ends_next (Moves.refl s)
    · rename_i hw
      split
      · exact ends_next ((moves_takeRequest s _).trans (moves_refuse _ _ _ _ _ _))
      · exact ends_settle ((moves_takeRequest s _).trans (h _ _ _ _ _ hw))

theorem ends_admitWriteRow (s : State) (p : Reg → Bool) : Ends s (s.admitWriteRow p) := by
  refine ends_admitRequest s ?_
  intro s n tag b k hk
  split at hk
  · split at hk
    · split at hk
      · cases hk; exact moves_admitRegWrite s n tag _ _
      · cases hk
    · cases hk
  · cases hk

theorem ends_admitReturnRow (s : State) (d : Bool) : Ends s (s.admitReturnRow d) := by
  unfold State.admitReturnRow
  split
  · split
    · exact ends_settle ((moves_takeReturn s _).trans (moves_admitReturn _ _ _))
    · exact ends_next (Moves.refl s)
  · exact ends_next (Moves.refl s)
  · exact ends_next (Moves.refl s)

/-! ## The commands -/

theorem ends_ite {s : State} {c : Prop} [Decidable c] {o p : Host.Outcome State Fault Refusal}
    (h : c → Ends s o) (k : ¬c → Ends s p) : Ends s (if c then o else p) := by
  split
  · exact h ‹_›
  · exact k ‹_›

theorem ends_next_ite {s : State} {c : Prop} [Decidable c] {t : State} (h : c → Moves s t) :
    Ends s (.next (if c then t else s)) := ends_next (moves_ite h (fun _ => Moves.refl s))

theorem moves_sweepSet (s : State) : Moves s s.sweepSet :=
  Moves.trans (Move.dirSet s s.walker.pointer DirSet.vacant (fun _ => List.Perm.refl _)).moves moves_rest

theorem moves_matchAnswer (s : State) (n : NodeId) (k : AnswerKind) (m : WireMsg) :
    Moves s (s.matchAnswer n k m).s := by
  unfold State.matchAnswer
  split
  · exact moves_acceptAnswer s _ n k m
  · exact moves_raise s _ _

theorem moves_matchConfirm (s : State) (n : NodeId) (m : WireMsg) : Moves s (s.matchConfirm n m).s := by
  unfold State.matchConfirm
  split
  · exact moves_modEntry s _ (fun x => { x with confirm := .received, confirmTimer := .stopped })
  · exact moves_raise s _ _

theorem moves_matchKind (s : State) (n : NodeId) (m : WireMsg) (k : AnswerKind) : Moves s (s.matchKind n m k).s := by
  cases k
  · exact moves_matchAnswer _ n _ m
  · exact moves_matchAnswer _ n _ m
  · exact moves_matchAnswer _ n _ m
  · exact moves_matchConfirm _ n m

theorem ends_answerRow (s : State) (n : NodeId) (k : AnswerKind) (m : WireMsg) : Ends s (s.answerRow n k m) := by
  unfold State.answerRow
  split
  · exact ends_next ((moves_frameAccepted s n).trans (moves_raise _ _ _))
  · split
    · exact ends_settle ((moves_frameAccepted s n).trans (moves_matchKind _ n m k))
    · exact ends_next (Moves.refl s)
  · split
    · exact ends_settle (moves_matchKind s n m k)
    · exact ends_next (Moves.refl s)
  all_goals exact ends_next (Moves.refl s)

theorem moves_probeAgain (s : State) (e : EntryId) (n : NodeId) (k : ProbeKind) : Moves s (s.probeAgain e n k) :=
  ((moves_setEntry s e _).trans (moves_send _ n _)).trans (moves_raise _ _ _)

theorem moves_readCompletes (s : State) (e : EntryId) (l : LineAddr) : Moves s (s.readCompletes e l) := by
  unfold State.readCompletes
  generalize s.poolRead l = p
  obtain ⟨r, d⟩ := p
  dsimp only
  have h (wb : Bool) : Moves s (((s.retireOp (.entry e)).readEvent e r).modEntry e (fun x => x.takeRead r d wb)) := by
    refine ((moves_retireOp s (.entry e)).trans (moves_readEvent _ e r)).trans (moves_modEntry _ e _ ?_)
    unfold Entry.takeRead
    split <;> exact sameWait_of
  exact moves_ite (fun _ => (h _).trans (moves_raise _ _ _)) (fun _ => h _)

theorem moves_writeCompletes (s : State) (e : EntryId) (l : LineAddr) (b : Buffer) :
    Moves s (s.writeCompletes e l b) := by
  unfold State.writeCompletes
  dsimp only
  have h : Moves s (((s.poolWrite l b).retireOp (.entry e)).modEntry e (fun x => { x with poolStale := false })) :=
    ((moves_poolWrite s l b).trans (moves_retireOp _ (.entry e))).trans (moves_modEntry _ e _)
  split
  · exact h.trans (moves_send _ _ _)
  · exact h

theorem moves_poisonDone (s : State) : Moves s s.poisonDone :=
  (((moves_writeWay s _ _ _ _).trans (moves_setPin _ _ _ _)).trans (moves_setStall _ _)).trans (moves_nextWay _)

theorem moves_tick (s : State) : Moves s s.tick := by
  refine Moves.trans (Move.nodes s (s.nodes.map Node.tick) ?_).moves (moves_entries (fun e => ?_))
  swap
  · unfold State.tick State.entry
    rw [tget_map]
    exact sameWait_of
  intro n
  rw [tget_map]
  constructor
  · intro h hd
    obtain ⟨h1, h2, h3, h4, h5, h6, h7, h8⟩ := h hd
    refine ⟨h1, h2, h3, ?_, h5, h6, h7, ?_⟩
    · show List.map _ (s.node n).frames = []
      rw [h4]; rfl
    · show Option.map _ (s.node n).relinkTimer = none
      rw [h8]; rfl
  · rintro ⟨h1, h2, h3⟩
    refine ⟨h1, h2, ?_⟩
    intro f hf
    obtain ⟨g, hg, rfl⟩ := List.mem_map.mp hf
    exact h3 g hg

theorem moves_retrained (s : State) (n : NodeId) (p : Targets) : Moves s (s.retrained n p) := by
  unfold State.retrained
  split
  · exact (moves_exchange s n p).trans (moves_retrainSucceed _ n _)
  · exact moves_retrainSucceed s n _
  · exact Moves.refl s

theorem ends_loseNode {s u : State} (h : Moves s u) (n : NodeId) (c : LossCause) :
    Ends s (settle ((Work.of u).loseNode n c)) := ends_settle (Moves.trans h (leads_loseNode (Work.of u) n c))

theorem ends_raiseLose {s u : State} (h : Moves s u) (n : NodeId) (d : LinkDetail) (c : LossCause) :
    Ends s (settle ((Work.of (u.raise .link (linkEvent n d))).loseNode n c)) :=
  ends_loseNode (h.trans (moves_raise _ _ _)) n c

theorem ends_partnerGone (n : NodeId) (us : List DirUpset) (s : State) : Ends s (execPartnerGone n us s) := by
  unfold execPartnerGone
  have h : Moves s ((s.damaged us).modNode n (fun x => { x with presence := false })) :=
    (moves_damaged s us).trans (moves_setNode nodeMove_same)
  generalize (s.damaged us).modNode n (fun x => { x with presence := false }) = u at h ⊢
  dsimp only
  split
  · exact ends_next h
  · exact ends_next (h.trans (moves_trainingEnds _ n _))
  · exact ends_raiseLose h n _ _
  · exact ends_raiseLose h n _ _

theorem moves_resend (s : State) (n : NodeId) (i : Nat) : Moves s (s.modNode n (fun x => x.resendFrom i)) :=
  moves_setNode (resendFrom_move _ i)

theorem damagedRun_le (x : Node) (number : Nat) : x.damagedRun number ≤ 8 := by
  unfold Node.damagedRun
  split
  · exact Nat.min_le_left _ _
  · decide

theorem ends_frameReceivedDamaged (n : NodeId) (number : Nat) (s : State) :
    Ends s (execFrameReceivedDamaged n number s) := by
  refine ends_next_ite (fun hl => ?_)
  have h : Moves s (s.modNode n (fun x => { x with
      damagedCount := (s.node n).damagedRun number, damagedFrame := number })) := by
    refine moves_setNode ⟨fun h hd => h hd, fun h => ⟨h.1, damagedRun_le _ _, h.2.2⟩⟩
  exact moves_ite (fun _ => h.trans (moves_enterRetraining _ n _)) (fun _ => h)

/-- A command that answers a next state has made a number of plain changes. -/
theorem moves_exec {c : Instr} {s t : State} (h : exec c s = .next t) : Moves s t := by
  suffices H : Ends s (exec c s) from H t h
  clear h t
  have damaged (us : List DirUpset) := moves_damaged s us
  have own {work : State → NodeId → Tag → ReqBody → Option Work} (us : List DirUpset)
      (h : ∀ s n tag b k, work s n tag b = some k → Moves s k.s) : Ends s ((s.damaged us).admitRequest work) :=
    (ends_admitRequest _ h).of (damaged us)
  cases c with
  | coldReset powerOn => exact ends_next (Move.reset s powerOn).moves
  | initSweep => exact ends_next_ite (fun _ => moves_sweepSet s)
  | trainingStart n => exact ends_next_ite (fun _ => moves_setNode (nodeMove_up (fun h => LinkState.noConfusion h)))
  | basePhaseComplete n p =>
    refine ends_next_ite (fun _ => ?_)
    split
    · exact moves_baseComplete s n p
    · exact Moves.refl s
    · exact Moves.refl s
  | stepUpComplete n =>
    refine ends_next ?_
    split
    · exact moves_linkUp s n _
    · exact Moves.refl s
    · exact Moves.refl s
  | trainingFailed n => exact ends_next_ite (fun _ => moves_trainingEnds s n _)
  | partnerGone n us => exact ends_partnerGone n us s
  | retrainPartner n => exact ends_next_ite (fun _ => moves_enterRetraining s n _)
  | retrainingSuccess n p => exact ends_next_ite (fun _ => moves_retrained s n p)
  | retrainAttemptFailed n => exact ends_next_ite (fun _ => moves_setNode nodeMove_same)
  | relinkExpired n us =>
    exact ends_ite (fun _ => ends_raiseLose (damaged us) n _ _) (fun _ => ends_next (damaged us))
  | frameSend n k =>
    refine ends_next_ite (fun h => moves_setNode ⟨fun _ hd => ?_, fun hr => ⟨hr.1, hr.2.1, ?_⟩⟩)
    · exact absurd (h.1.symm.trans hd) (by decide)
    · intro f hf
      rcases List.mem_append.mp hf with hf | hf
      · exact hr.2.2 f hf
      · rw [List.mem_singleton.mp hf]; exact Nat.zero_le _
  | frameAcknowledged n k => exact ends_next_ite (fun _ => moves_framesAcked n k s)
  | ackTimeout n i =>
    refine ends_next_ite (fun _ => ?_)
    split
    · exact moves_ite (fun _ => moves_ite (fun _ => moves_enterRetraining s n _) (fun _ => moves_resend s n i))
        (fun _ => Moves.refl s)
    · exact Moves.refl s
  | damageReported n i =>
    refine ends_next_ite (fun _ => ?_)
    split
    · exact moves_resend s n i
    · exact Moves.refl s
  | frameReceivedDamaged n i => exact ends_frameReceivedDamaged n i s
  | requestArrival n m => exact ends_next_ite (fun _ => (moves_frameAccepted s n).trans (moves_requestArrives _ n m))
  | returnArrival n m => exact ends_next_ite (fun _ => (moves_frameAccepted s n).trans (moves_returnArrives _ n m))
  | ackClean n m us => exact (ends_answerRow _ n _ m).of (damaged us)
  | ackData n m us => exact (ends_answerRow _ n _ m).of (damaged us)
  | miss n m us => exact (ends_answerRow _ n _ m).of (damaged us)
  | confirm n m us => exact (ends_answerRow _ n _ m).of (damaged us)
  | probeTimerExpiry e n us =>
    refine ends_ite (fun _ => ?_) (fun _ => ends_next (damaged us))
    split
    · exact ends_next (damaged us)
    · exact ends_ite (fun _ => ends_next ((damaged us).trans (moves_probeAgain _ e n _)))
        (fun _ => ends_ite (fun _ => ends_loseNode (damaged us) n _) (fun _ => ends_next (damaged us)))
  | confirmTimerExpiry e us =>
    show Ends s (execConfirmTimerExpiry e us s)
    unfold execConfirmTimerExpiry
    dsimp only
    split
    · exact ends_loseNode (damaged us) _ _
    · exact ends_next (damaged us)
  | returnWaitExpiry e us =>
    show Ends s (execReturnWaitExpiry e us s)
    unfold execReturnWaitExpiry
    dsimp only
    split
    · exact ends_loseNode (damaged us) _ _
    · exact ends_next (damaged us)
  | poolReadComplete e ws us =>
    show Ends s (execPoolReadComplete e ws us s)
    unfold execPoolReadComplete
    dsimp only
    split
    · exact ends_settle (((damaged us).trans (moves_poolDamaged _ _ ws)).trans (moves_readCompletes _ e _))
    · exact ends_next (damaged us)
    · exact ends_next (damaged us)
  | poolWriteComplete e us =>
    show Ends s (execPoolWriteComplete e us s)
    unfold execPoolWriteComplete
    dsimp only
    split
    · exact ends_settle ((damaged us).trans (moves_writeCompletes _ e _ _))
    · exact ends_next (damaged us)
    · exact ends_next (damaged us)
  | poisonWriteComplete us =>
    show Ends s (execPoisonWriteComplete us s)
    unfold execPoisonWriteComplete
    dsimp only
    split
    · exact ends_settle ((((damaged us).trans (moves_poolWrite _ _ _)).trans (moves_retireOp _ .walker)).trans
        (moves_poisonDone _))
    · exact ends_next (damaged us)
  | fetchS us =>
    show Ends s (execFetchS us s)
    unfold execFetchS
    refine own us (fun s n tag b k hk => ?_)
    split at hk
    · cases hk; exact moves_admitLine s n tag _ _
    · cases hk
  | fetchH us =>
    show Ends s (execFetchH us s)
    unfold execFetchH
    refine own us (fun s n tag b k hk => ?_)
    split at hk
    · cases hk; exact moves_admitLine s n tag _ _
    · cases hk
  | upgrade us =>
    show Ends s (execUpgrade us s)
    unfold execUpgrade
    refine own us (fun s n tag b k hk => ?_)
    split at hk
    · cases hk; exact moves_admitLine s n tag _ _
    · cases hk
  | flush us =>
    show Ends s (execFlush us s)
    unfold execFlush
    refine own us (fun s n tag b k hk => ?_)
    split at hk
    · cases hk; exact moves_admitLine s n tag _ _
    · cases hk
  | plainRead =>
    show Ends s (execPlainRead s)
    unfold execPlainRead
    refine ends_admitRequest s (fun s n tag b k hk => ?_)
    split at hk
    · cases hk; exact moves_admitLine s n tag _ _
    · cases hk
  | plainWrite =>
    show Ends s (execPlainWrite s)
    unfold execPlainWrite
    refine ends_admitRequest s (fun s n tag b k hk => ?_)
    split at hk
    · cases hk; exact moves_admitPlainWrite s n tag _ _ _
    · cases hk
  | order =>
    show Ends s (execOrder s)
    unfold execOrder
    refine ends_admitRequest s (fun s n tag b k hk => ?_)
    split at hk
    · cases hk; exact moves_admitOrder s n tag
    · cases hk
  | leave =>
    show Ends s (execLeave s)
    unfold execLeave
    refine ends_admitRequest s (fun s n tag b k hk => ?_)
    split at hk
    · cases hk; exact moves_admitLeave s n tag
    · cases hk
  | configRead =>
    show Ends s (execConfigRead s)
    unfold execConfigRead
    refine ends_admitRequest s (fun s n tag b k hk => ?_)
    split at hk
    · cases hk; exact moves_admitConfigRead s n tag _
    · cases hk
  | returnD us => exact (ends_admitReturnRow _ true).of (damaged us)
  | returnC us => exact (ends_admitReturnRow _ false).of (damaged us)
  | relink =>
    show Ends s (execRelink s)
    unfold execRelink
    refine ends_admitRequest s (fun s n tag b k hk => ?_)
    split at hk
    · split at hk
      · split at hk
        · cases hk
          exact moves_ite (fun _ => (moves_doneRequest s n tag _).trans (moves_enterRetraining _ _ _))
            (fun _ => moves_doneRequest s n tag _)
        · cases hk
      · cases hk
    · cases hk
  | forceLost us =>
    show Ends s (execForceLost us s)
    unfold execForceLost
    refine own us (fun s n tag b k hk => ?_)
    split at hk
    · split at hk
      · split at hk
        · cases hk
          exact Moves.trans (moves_doneRequest s n tag _) (leads_loseNode (Work.of _) _ _)
        · cases hk
      · cases hk
    · cases hk
  | errorAck => exact ends_admitWriteRow s _
  | alertClear => exact ends_admitWriteRow s _
  | errorCount => exact ends_admitWriteRow s _
  | poolSize => exact ends_admitWriteRow s _
  | enable => exact ends_admitWriteRow s _
  | base => exact ends_admitWriteRow s _
  | limit => exact ends_admitWriteRow s _
  | attr => exact ends_admitWriteRow s _
  | configWrite =>
    show Ends s (execConfigWrite s)
    unfold execConfigWrite
    refine ends_admitRequest s (fun s n tag b k hk => ?_)
    split at hk
    · split at hk
      · cases hk
      · cases hk; exact moves_admitConfigWrite s n tag _ _
    · cases hk
  | walkerExamineWay us =>
    refine ends_ite (fun _ => ends_settle ((damaged us).trans ?_)) (fun _ => ends_next (damaged us))
    exact leads_examine (Work.of _)
  | presenceAsserted n => exact ends_next (moves_setNode nodeMove_same)

/-- A step that answers a next state has made a number of plain changes. -/
theorem moves_step {s t : State} (h : step s = .next t) : Moves s t := by
  unfold step at h
  split at h
  · cases h; exact moves_tick s
  · exact Moves.trans moves_rest (moves_exec h)

end Sys2Proof.Machine
end

