-- ==== Sys2Proof/Laws/Specs.lean ====
section
/-! SUPPORT. What the shared operations can do, each said once: the damage of the storage, the alert test, events,
messages queued, pool operations issued, reads and writes of the directory, and the arbiter's choice. -/

namespace Sys2Proof.Machine

-- One proof at a time: many at once reserve more stacks than the memory limit allows.
set_option Elab.async false

/-! ## Damage to the directory's storage -/

/-- Damage changes the directory's sets and nothing else. -/
theorem damaged_rest (us : List DirUpset) (s : State) :
    { s.damaged us with dir := s.dir } = s ∧ (s.damaged us).dir.validCount = s.dir.validCount
      ∧ (s.damaged us).dir.quarCount = s.dir.quarCount ∧ (s.damaged us).dir.seed = s.dir.seed := by
  induction us generalizing s with
  | nil => exact ⟨rfl, rfl, rfl, rfl⟩
  | cons u us ih =>
    obtain ⟨h1, h2, h3, h4⟩ := ih (s.putWay u.set u.way { s.way u.set u.way with damage := u.damage })
    refine ⟨?_, h2, h3, h4⟩
    have := congrArg (fun t : State => { t with dir := s.dir }) h1
    exact this

theorem damaged_nil (s : State) : s.damaged [] = s := rfl

@[simp] theorem damaged_status (s : State) (us : List DirUpset) : (s.damaged us).status = s.status :=
  (congrArg State.status (damaged_rest us s).1 :)
@[simp] theorem damaged_promote (s : State) (us : List DirUpset) : (s.damaged us).promote = s.promote :=
  (congrArg State.promote (damaged_rest us s).1 :)
@[simp] theorem damaged_correctWb (s : State) (us : List DirUpset) : (s.damaged us).correctWb = s.correctWb :=
  (congrArg State.correctWb (damaged_rest us s).1 :)
@[simp] theorem damaged_poolSize (s : State) (us : List DirUpset) : (s.damaged us).poolSize = s.poolSize :=
  (congrArg State.poolSize (damaged_rest us s).1 :)
@[simp] theorem damaged_probeTimeout (s : State) (us : List DirUpset) : (s.damaged us).probeTimeout = s.probeTimeout :=
  (congrArg State.probeTimeout (damaged_rest us s).1 :)
@[simp] theorem damaged_retries (s : State) (us : List DirUpset) : (s.damaged us).retries = s.retries :=
  (congrArg State.retries (damaged_rest us s).1 :)
@[simp] theorem damaged_relinkTimeout (s : State) (us : List DirUpset) :
    (s.damaged us).relinkTimeout = s.relinkTimeout := (congrArg State.relinkTimeout (damaged_rest us s).1 :)
@[simp] theorem damaged_nodes (s : State) (us : List DirUpset) : (s.damaged us).nodes = s.nodes :=
  (congrArg State.nodes (damaged_rest us s).1 :)
@[simp] theorem damaged_regions (s : State) (us : List DirUpset) : (s.damaged us).regions = s.regions :=
  (congrArg State.regions (damaged_rest us s).1 :)
@[simp] theorem damaged_returnPtr (s : State) (us : List DirUpset) : (s.damaged us).returnPtr = s.returnPtr :=
  (congrArg State.returnPtr (damaged_rest us s).1 :)
@[simp] theorem damaged_requestPtr (s : State) (us : List DirUpset) : (s.damaged us).requestPtr = s.requestPtr :=
  (congrArg State.requestPtr (damaged_rest us s).1 :)
@[simp] theorem damaged_entries (s : State) (us : List DirUpset) : (s.damaged us).entries = s.entries :=
  (congrArg State.entries (damaged_rest us s).1 :)
@[simp] theorem damaged_wayWait (s : State) (us : List DirUpset) : (s.damaged us).wayWait = s.wayWait :=
  (congrArg State.wayWait (damaged_rest us s).1 :)
@[simp] theorem damaged_recallMark (s : State) (us : List DirUpset) : (s.damaged us).recallMark = s.recallMark :=
  (congrArg State.recallMark (damaged_rest us s).1 :)
@[simp] theorem damaged_pool (s : State) (us : List DirUpset) : (s.damaged us).pool = s.pool :=
  (congrArg State.pool (damaged_rest us s).1 :)
@[simp] theorem damaged_poolQueue (s : State) (us : List DirUpset) : (s.damaged us).poolQueue = s.poolQueue :=
  (congrArg State.poolQueue (damaged_rest us s).1 :)
@[simp] theorem damaged_issueWait (s : State) (us : List DirUpset) : (s.damaged us).issueWait = s.issueWait :=
  (congrArg State.issueWait (damaged_rest us s).1 :)
@[simp] theorem damaged_walker (s : State) (us : List DirUpset) : (s.damaged us).walker = s.walker :=
  (congrArg State.walker (damaged_rest us s).1 :)
@[simp] theorem damaged_errors (s : State) (us : List DirUpset) : (s.damaged us).errors = s.errors :=
  (congrArg State.errors (damaged_rest us s).1 :)
@[simp] theorem damaged_alertMask (s : State) (us : List DirUpset) : (s.damaged us).alertMask = s.alertMask :=
  (congrArg State.alertMask (damaged_rest us s).1 :)
@[simp] theorem damaged_alertTarget (s : State) (us : List DirUpset) : (s.damaged us).alertTarget = s.alertTarget :=
  (congrArg State.alertTarget (damaged_rest us s).1 :)
@[simp] theorem damaged_pinEnable (s : State) (us : List DirUpset) : (s.damaged us).pinEnable = s.pinEnable :=
  (congrArg State.pinEnable (damaged_rest us s).1 :)
@[simp] theorem damaged_alert (s : State) (us : List DirUpset) : (s.damaged us).alert = s.alert :=
  (congrArg State.alert (damaged_rest us s).1 :)
@[simp] theorem damaged_freeSeed (s : State) (us : List DirUpset) : (s.damaged us).freeSeed = s.freeSeed :=
  (congrArg State.freeSeed (damaged_rest us s).1 :)
@[simp] theorem damaged_pending (s : State) (us : List DirUpset) : (s.damaged us).pending = s.pending :=
  (congrArg State.pending (damaged_rest us s).1 :)
@[simp] theorem damaged_validCount (s : State) (us : List DirUpset) :
    (s.damaged us).dir.validCount = s.dir.validCount := (damaged_rest us s).2.1
@[simp] theorem damaged_quarCount (s : State) (us : List DirUpset) :
    (s.damaged us).dir.quarCount = s.dir.quarCount := (damaged_rest us s).2.2.1
@[simp] theorem damaged_seed (s : State) (us : List DirUpset) : (s.damaged us).dir.seed = s.dir.seed :=
  (damaged_rest us s).2.2.2
@[simp] theorem node_damaged (s : State) (us : List DirUpset) (n : NodeId) : (s.damaged us).node n = s.node n := by
  simp [State.node]
@[simp] theorem entry_damaged (s : State) (us : List DirUpset) (e : EntryId) : (s.damaged us).entry e = s.entry e := by
  simp [State.entry]
@[simp] theorem cls_damaged (s : State) (us : List DirUpset) (c : Fin 10) : (s.damaged us).cls c = s.cls c := by
  simp [State.cls]

/-- Damage keeps the directory in canonical form. -/
theorem damaged_wf {s : State} (h : Directory.wf s.dir) (us : List DirUpset) : Directory.wf (s.damaged us).dir := by
  induction us generalizing s with
  | nil => exact h
  | cons u us ih => exact ih (Directory.wf_putDirSet h _ _)

/-! ## The alert test and events -/

/-- The alert test, as one condition. -/
theorem alertTest_eq (s : State) : s.alertTest = if s.alert = .idle ∧ s.alertReady = true then { s with
    nodes := tset s.nodes s.alertTarget { s.node s.alertTarget with
      outQ := (s.node s.alertTarget).outQ ++ [OutMsg.alert s.alertSet] }
    alert := .sent s.alertTarget } else s := by
  unfold State.alertTest
  split
  · rename_i n h
    rw [if_neg]
    rw [h]; rintro ⟨h, -⟩; cases h
  · rename_i ha
    by_cases h : s.alertReady = true
    · rw [if_pos h, if_pos ⟨ha, h⟩]
      simp only [State.alertReady, Bool.and_eq_true, decide_eq_true_eq] at h
      have h2 : (s.node s.alertTarget).link ≠ .down := by rw [h.1.2]; simp
      simp only [State.send, if_neg h2, State.modNode, State.setNode]
    · rw [if_neg h, if_neg (fun g => h g.2)]

/-- The alert test changes nothing, or queues one ALERT on the target's queue and is SENT to it. -/
theorem alertTest_cases (s : State) : s.alertTest = s ∨ s.alertTest = { s with
    nodes := tset s.nodes s.alertTarget { s.node s.alertTarget with
      outQ := (s.node s.alertTarget).outQ ++ [OutMsg.alert s.alertSet] }
    alert := .sent s.alertTarget } := by
  rw [alertTest_eq]
  split
  · exact Or.inr rfl
  · exact Or.inl rfl

/-- The alert test changes nodes and the alert state alone. -/
theorem alertTest_rest (s : State) : { s.alertTest with nodes := s.nodes, alert := s.alert } = s := by
  rcases alertTest_cases s with h | h <;> rw [h]

/-- What the alert test leaves of a node. -/
theorem alertTest_same (s : State) (n : NodeId) : sameButAlert (s.node n) (s.alertTest.node n) := by
  rcases alertTest_cases s with h | h
  · exact Or.inl (by rw [h])
  · rw [h]
    simp only [State.node, tget_tset]
    split
    · subst_vars; exact Or.inr ⟨_, rfl⟩
    · exact Or.inl rfl

/-- The alert test changes no node outside its outbound queue. -/
theorem alertTest_node (s : State) (n : NodeId) :
    { s.alertTest.node n with outQ := (s.node n).outQ } = s.node n := by
  rcases alertTest_same s n with h | ⟨q, h⟩ <;> rw [h]

@[simp] theorem alertTest_link (s : State) (n : NodeId) : (s.alertTest.node n).link = (s.node n).link :=
  (congrArg Node.link (alertTest_node s n) :)
@[simp] theorem alertTest_membership (s : State) (n : NodeId) :
    (s.alertTest.node n).membership = (s.node n).membership := (congrArg Node.membership (alertTest_node s n) :)
@[simp] theorem alertTest_entries (s : State) : s.alertTest.entries = s.entries :=
  (congrArg State.entries (alertTest_rest s) :)
@[simp] theorem alertTest_errors (s : State) : s.alertTest.errors = s.errors :=
  (congrArg State.errors (alertTest_rest s) :)
@[simp] theorem alertTest_dir (s : State) : s.alertTest.dir = s.dir := (congrArg State.dir (alertTest_rest s) :)
@[simp] theorem alertTest_walker (s : State) : s.alertTest.walker = s.walker :=
  (congrArg State.walker (alertTest_rest s) :)
@[simp] theorem alertTest_status (s : State) : s.alertTest.status = s.status :=
  (congrArg State.status (alertTest_rest s) :)
@[simp] theorem alertTest_pool (s : State) : s.alertTest.pool = s.pool := (congrArg State.pool (alertTest_rest s) :)
@[simp] theorem alertTest_poolQueue (s : State) : s.alertTest.poolQueue = s.poolQueue :=
  (congrArg State.poolQueue (alertTest_rest s) :)
@[simp] theorem alertTest_issueWait (s : State) : s.alertTest.issueWait = s.issueWait :=
  (congrArg State.issueWait (alertTest_rest s) :)
@[simp] theorem alertTest_alertMask (s : State) : s.alertTest.alertMask = s.alertMask :=
  (congrArg State.alertMask (alertTest_rest s) :)
@[simp] theorem alertTest_pinEnable (s : State) : s.alertTest.pinEnable = s.pinEnable :=
  (congrArg State.pinEnable (alertTest_rest s) :)
@[simp] theorem alertTest_wayWait (s : State) : s.alertTest.wayWait = s.wayWait :=
  (congrArg State.wayWait (alertTest_rest s) :)
@[simp] theorem alertTest_promote (s : State) : s.alertTest.promote = s.promote :=
  (congrArg State.promote (alertTest_rest s) :)
@[simp] theorem alertTest_correctWb (s : State) : s.alertTest.correctWb = s.correctWb :=
  (congrArg State.correctWb (alertTest_rest s) :)
@[simp] theorem entry_alertTest (s : State) (e : EntryId) : s.alertTest.entry e = s.entry e := by simp [State.entry]
@[simp] theorem cls_alertTest (s : State) (c : Fin 10) : s.alertTest.cls c = s.cls c := by simp [State.cls]

/-- An event changes nodes, the error classes and the alert state alone. -/
theorem raise_rest (s : State) (c : ErrClass) (r : ErrRec) :
    { s.raise c r with nodes := s.nodes, errors := s.errors, alert := s.alert } = s := by
  unfold State.raise
  rcases alertTest_cases (s.capture c r) with h | h <;> rw [h] <;> rfl

@[simp] theorem raise_errors (s : State) (c : ErrClass) (r : ErrRec) :
    (s.raise c r).errors = tset s.errors c.index ((s.cls c.index).capture r) := by
  unfold State.raise; rw [alertTest_errors]; rfl
/-- What an event leaves of a node. -/
theorem raise_same (s : State) (c : ErrClass) (r : ErrRec) (n : NodeId) :
    sameButAlert (s.node n) ((s.raise c r).node n) := alertTest_same (s.capture c r) n
/-- An event changes no node outside its outbound queue. -/
theorem raise_node (s : State) (c : ErrClass) (r : ErrRec) (n : NodeId) :
    { (s.raise c r).node n with outQ := (s.node n).outQ } = s.node n := alertTest_node (s.capture c r) n
@[simp] theorem raise_link (s : State) (c : ErrClass) (r : ErrRec) (n : NodeId) :
    ((s.raise c r).node n).link = (s.node n).link := (congrArg Node.link (raise_node s c r n) :)
@[simp] theorem raise_membership (s : State) (c : ErrClass) (r : ErrRec) (n : NodeId) :
    ((s.raise c r).node n).membership = (s.node n).membership := (congrArg Node.membership (raise_node s c r n) :)
@[simp] theorem raise_entries (s : State) (c : ErrClass) (r : ErrRec) : (s.raise c r).entries = s.entries :=
  (congrArg State.entries (raise_rest s c r) :)
@[simp] theorem raise_dir (s : State) (c : ErrClass) (r : ErrRec) : (s.raise c r).dir = s.dir :=
  (congrArg State.dir (raise_rest s c r) :)
@[simp] theorem raise_walker (s : State) (c : ErrClass) (r : ErrRec) : (s.raise c r).walker = s.walker :=
  (congrArg State.walker (raise_rest s c r) :)
@[simp] theorem raise_status (s : State) (c : ErrClass) (r : ErrRec) : (s.raise c r).status = s.status :=
  (congrArg State.status (raise_rest s c r) :)
@[simp] theorem raise_pool (s : State) (c : ErrClass) (r : ErrRec) : (s.raise c r).pool = s.pool :=
  (congrArg State.pool (raise_rest s c r) :)
@[simp] theorem raise_poolQueue (s : State) (c : ErrClass) (r : ErrRec) : (s.raise c r).poolQueue = s.poolQueue :=
  (congrArg State.poolQueue (raise_rest s c r) :)
@[simp] theorem raise_issueWait (s : State) (c : ErrClass) (r : ErrRec) : (s.raise c r).issueWait = s.issueWait :=
  (congrArg State.issueWait (raise_rest s c r) :)
@[simp] theorem raise_wayWait (s : State) (c : ErrClass) (r : ErrRec) : (s.raise c r).wayWait = s.wayWait :=
  (congrArg State.wayWait (raise_rest s c r) :)
@[simp] theorem raise_alertMask (s : State) (c : ErrClass) (r : ErrRec) : (s.raise c r).alertMask = s.alertMask :=
  (congrArg State.alertMask (raise_rest s c r) :)
@[simp] theorem raise_pinEnable (s : State) (c : ErrClass) (r : ErrRec) : (s.raise c r).pinEnable = s.pinEnable :=
  (congrArg State.pinEnable (raise_rest s c r) :)
@[simp] theorem raise_promote (s : State) (c : ErrClass) (r : ErrRec) : (s.raise c r).promote = s.promote :=
  (congrArg State.promote (raise_rest s c r) :)
@[simp] theorem raise_correctWb (s : State) (c : ErrClass) (r : ErrRec) : (s.raise c r).correctWb = s.correctWb :=
  (congrArg State.correctWb (raise_rest s c r) :)
@[simp] theorem entry_raise (s : State) (c : ErrClass) (r : ErrRec) (e : EntryId) :
    (s.raise c r).entry e = s.entry e := by simp [State.entry]

/-- The alert test looks at nodes, error classes, mask, target and alert state alone: what else differs before it
differs alike after it. -/
theorem alertTest_congr {s t : State} (nodes : t.nodes = s.nodes) (errors : t.errors = s.errors)
    (mask : t.alertMask = s.alertMask) (target : t.alertTarget = s.alertTarget) (alert : t.alert = s.alert) :
    t.alertTest = { t with nodes := s.alertTest.nodes, alert := s.alertTest.alert } := by
  have hp : t.alertSet = s.alertSet := by
    simp only [State.alertSet, State.pendingSet, State.cls, errors, mask]; rfl
  have hr : t.alertReady = s.alertReady := by
    simp only [State.alertReady, hp, State.node, nodes, target, State.alertQueued]; rfl
  rw [alertTest_eq t, alertTest_eq s, hp, hr, alert]
  split
  · simp only [State.node, nodes, target]
  · rw [← nodes, ← alert]

/-- Events alike: what else differs before an event differs alike after it. -/
theorem raise_congr {s t : State} (c : ErrClass) (r : ErrRec) (nodes : t.nodes = s.nodes)
    (errors : t.errors = s.errors) (mask : t.alertMask = s.alertMask) (target : t.alertTarget = s.alertTarget)
    (alert : t.alert = s.alert) : t.raise c r = { t with
      nodes := (s.raise c r).nodes, alert := (s.raise c r).alert, errors := (s.raise c r).errors } := by
  unfold State.raise
  rw [alertTest_congr (s := s.capture c r) (t := t.capture c r) nodes
    (by simp only [State.capture, State.cls, errors]) mask target alert, alertTest_errors]
  simp only [State.capture, State.cls, errors]

/-! ## Messages queued -/

/-- A message joins the queue of a link that is not DOWN. -/
theorem send_up {s : State} {n : NodeId} (h : (s.node n).link ≠ .down) (m : OutMsg) :
    s.send n m = { s with nodes := tset s.nodes n { s.node n with outQ := (s.node n).outQ ++ [m] } } := by
  simp only [State.send, if_neg h, State.modNode, State.setNode]

/-- A message for a link that is DOWN is discarded. -/
theorem send_down {s : State} {n : NodeId} (h : (s.node n).link = .down) (m : OutMsg) : s.send n m = s := by
  simp only [State.send, if_pos h]

/-! ## Pool operations -/

/-- An operation issued while the port is free is accepted. -/
theorem issue_free {s : State} (h : s.portFree) (op : PoolOp) :
    s.issue op = { s with poolQueue := s.poolQueue ++ [op] }.setPoolField op.owner op.field := by
  unfold State.issue
  exact if_pos h

/-- A READ issued while the port is free. -/
theorem issueRead_free {s : State} (h : s.portFree) (e : EntryId) : s.issueRead e = { s with
    poolQueue := s.poolQueue ++ [⟨.entry e, (s.entry e).line, none⟩]
    entries := tset s.entries e { s.entry e with poolOp := .readOut } } := by
  simp only [State.issueRead, issue_free h]; rfl

/-- A WRITE issued while the port is free. -/
theorem issueWrite_free {s : State} (h : s.portFree) (e : EntryId) (b : Buffer) : s.issueWrite e b = { s with
    poolQueue := s.poolQueue ++ [⟨.entry e, (s.entry e).line, some b⟩]
    entries := tset s.entries e { s.entry e with poolOp := .writeOut } } := by
  simp only [State.issueWrite, issue_free h]; rfl

/-- An operation retires with nobody waiting to issue. -/
theorem retireOp_alone {s : State} (h : s.issueWait = []) (e : EntryId) : s.retireOp (.entry e) = { s with
    poolQueue := s.poolQueue.filter (fun op => decide (op.owner ≠ Owner.entry e))
    entries := tset s.entries e { s.entry e with poolOp := .none } } := by
  unfold State.retireOp
  extract_lets t
  have : t.issueWait = [] := h
  split
  · rfl
  · rename_i hc
    rw [this] at hc
    cases hc

/-! ## The arbiter's choice -/

theorem firstFrom_some {α : Type} {p : NodeId} {f : NodeId → Option α} {a : α} (h : firstFrom p f = some a) :
    ∃ n, f n = some a := by
  obtain ⟨n, -, hn⟩ := List.exists_of_findSome?_eq_some h
  exact ⟨n, hn⟩

theorem offers_linked {s : State} {n : NodeId} (h : s.offers n = true) :
    (s.node n).link ≠ .down ∧ (s.node n).joined = true := by
  simp only [State.offers, Bool.and_eq_true] at h
  refine ⟨?_, h.2⟩
  intro hl
  have := h.1
  simp only [Node.linked, hl] at this
  cases this

/-- A return chosen is the head of its node's queue, its link is not DOWN, and it merges or an entry can be had. -/
theorem choice_return {s : State} {n : NodeId} {r : RetMsg} (h : s.choice = some (.ret n r)) :
    (s.node n).link ≠ .down ∧ (s.node n).joined = true ∧ (∃ rest, (s.node n).returnQ = r :: rest)
      ∧ ((s.mergeTarget n r.line).isSome ∨ s.roomForWork = true) := by
  unfold State.choice at h
  split at h
  · rename_i c hc
    cases h
    obtain ⟨k, hk⟩ := firstFrom_some hc
    rw [Option.map_eq_some_iff] at hk
    obtain ⟨a, h1, h2⟩ := hk
    cases h2
    unfold State.eligibleReturn at h1
    split at h1
    · rename_i ho
      obtain ⟨l1, l2⟩ := offers_linked ho
      split at h1
      · cases h1
      · rename_i q rest hq
        split at h1
        · rename_i hr
          cases h1
          exact ⟨l1, l2, ⟨rest, hq⟩, hr⟩
        · cases h1
    · cases h1
  · obtain ⟨k, hk⟩ := firstFrom_some h
    split at hk
    · rw [Option.map_eq_some_iff] at hk
      obtain ⟨a, h1, h2⟩ := hk
      cases h2
    · cases hk

/-- A request chosen is the head of its node's queue, its link is not DOWN, and it is refused or ready. -/
theorem choice_request {s : State} {n : NodeId} {r : ReqMsg} (h : s.choice = some (.request n r)) :
    (s.node n).link ≠ .down ∧ (s.node n).joined = true ∧ (∃ rest, (s.node n).requestQ = r :: rest)
      ∧ ((s.decodeRefusal n r.body).isSome ∨ s.ready n r.body = true) := by
  unfold State.choice at h
  split at h
  · rename_i c hc
    cases h
    obtain ⟨k, hk⟩ := firstFrom_some hc
    rw [Option.map_eq_some_iff] at hk
    obtain ⟨a, h1, h2⟩ := hk
    cases h2
  · obtain ⟨k, hk⟩ := firstFrom_some h
    split at hk
    · rw [Option.map_eq_some_iff] at hk
      obtain ⟨a, h1, h2⟩ := hk
      cases h2
      unfold State.eligibleRequest at h1
      split at h1
      · rename_i ho
        obtain ⟨l1, l2⟩ := offers_linked ho
        split at h1
        · cases h1
        · rename_i q rest hq
          split at h1
          · rename_i hr
            cases h1
            exact ⟨l1, l2, ⟨rest, hq⟩, hr⟩
          · cases h1
      · cases h1
    · cases hk

/-! ## Running a step to rest -/

/-- A task that changes nothing in state s. -/
def Task.idle (t : Task) (s : State) : Prop := ∀ k : Work, k.s = s → k.task t = k

theorem idle_checkGather {s : State} {e : EntryId}
    (h : (s.entry e).phase ≠ .gather ∨ (s.entry e).gatherDone = false) : (Task.checkGather e).idle s := by
  intro k hk
  show (if _ then _ else k) = k
  rw [if_neg]
  rintro ⟨h1, h2⟩
  rw [hk] at h1 h2
  rcases h with h | h
  · exact h h1
  · rw [h2] at h; cases h

theorem idle_checkFinish {s : State} {e : EntryId}
    (h : (s.entry e).phase ≠ .finish ∨ (s.entry e).finishDone = false) : (Task.checkFinish e).idle s := by
  intro k hk
  show (if _ then _ else k) = k
  rw [if_neg]
  rintro ⟨h1, h2⟩
  rw [hk] at h1 h2
  rcases h with h | h
  · exact h h1
  · rw [h2] at h; cases h

/-- Both checks of an entry that stands are idle. -/
theorem idle_checks {s : State} {e : EntryId} (h : (s.entry e).standing) :
    (Task.checkGather e).idle s ∧ (Task.checkFinish e).idle s := by
  constructor
  · apply idle_checkGather
    by_cases g : (s.entry e).phase = .gather
    · exact Or.inr (h.1 g)
    · exact Or.inl g
  · apply idle_checkFinish
    by_cases g : (s.entry e).phase = .finish
    · exact Or.inr (h.2 g)
    · exact Or.inl g

/-- One task of the stack done. -/
theorem run_task (fuel : Nat) (s : State) (t : Task) (ts : List Task) (ns : List Notice) :
    Work.run (fuel + 1) ⟨s, t :: ts, ns⟩ = Work.run fuel (Work.task ⟨s, ts, ns⟩ t) := rfl

/-- One notice acted on. -/
theorem run_notice (fuel : Nat) (s : State) (n : Notice) (ns : List Notice) :
    Work.run (fuel + 1) ⟨s, [], n :: ns⟩ = Work.run fuel (Work.notice ⟨s, [], ns⟩ n) := rfl

/-- Nothing remains. -/
theorem run_rest (fuel : Nat) (s : State) : Work.run fuel ⟨s, [], []⟩ = some s := by cases fuel <;> rfl

/-- Idle tasks before others pass. -/
theorem run_idle {s : State} {ts : List Task} (h : ∀ t ∈ ts, t.idle s) (fuel : Nat) (more : List Task)
    (ns : List Notice) : Work.run (fuel + ts.length) ⟨s, ts ++ more, ns⟩ = Work.run fuel ⟨s, more, ns⟩ := by
  induction ts with
  | nil => rfl
  | cons t ts ih =>
    have : Work.run (fuel + (t :: ts).length) ⟨s, t :: ts ++ more, ns⟩
        = Work.run (fuel + ts.length) (Work.task ⟨s, ts ++ more, ns⟩ t) := rfl
    rw [this, h t List.mem_cons_self _ rfl]
    exact ih (fun u hu => h u (List.mem_cons_of_mem _ hu))

/-- A step whose tasks are all idle. -/
theorem settle_idle {s : State} {ts : List Task} (h : ∀ t ∈ ts, t.idle s) (hl : ts.length ≤ Config.settleBound) :
    settle ⟨s, ts, []⟩ = .next s := by
  refine settle_eq (fuel := 0 + ts.length) (by simpa using hl) ?_
  have := run_idle h 0 [] []
  rw [List.append_nil] at this
  rw [this]; rfl

/-- Where every entry stands, the checks after a loss are idle. -/
theorem idle_endChecks {s : State} (h : ∀ e, (s.entry e).standing) : ∀ t ∈ endChecks, t.idle s := by
  intro t ht
  simp only [endChecks, List.mem_flatMap, List.mem_cons, List.not_mem_nil, or_false] at ht
  obtain ⟨e, -, rfl | rfl⟩ := ht
  · exact (idle_checks (h e)).1
  · exact (idle_checks (h e)).2

/-- The checks of an entry that stands set nothing going. -/
theorem settle_checks {s : State} {e : EntryId} (h : (s.entry e).standing) :
    settle ((Work.of s).push [.checkGather e, .checkFinish e]) = .next s := by
  refine settle_idle (ts := [.checkGather e, .checkFinish e]) ?_ (show 2 ≤ 100000 by decide)
  intro t ht
  rcases List.mem_pair.1 ht with rfl | rfl
  · exact (idle_checks h).1
  · exact (idle_checks h).2

/-- The check of GATHER of an entry that stands sets nothing going. -/
theorem settle_checkGather {s : State} {e : EntryId} (h : (s.entry e).standing) :
    settle ((Work.of s).push [.checkGather e]) = .next s := by
  refine settle_idle (ts := [.checkGather e]) ?_ (show 1 ≤ 100000 by decide)
  intro t ht
  rw [List.mem_singleton.1 ht]
  exact (idle_checks h).1

/-- The check of FINISH of an entry that stands sets nothing going. -/
theorem settle_checkFinish {s : State} {e : EntryId} (h : (s.entry e).standing) :
    settle ((Work.of s).push [.checkFinish e]) = .next s := by
  refine settle_idle (ts := [.checkFinish e]) ?_ (show 1 ≤ 100000 by decide)
  intro t ht
  rw [List.mem_singleton.1 ht]
  exact (idle_checks h).2

/-- GATHER does not end while a probe is unanswered. -/
theorem gatherDone_false {x : Entry} {k : NodeId} (h : (x.probe k).unanswered = true) : x.gatherDone = false := by
  simp only [Entry.gatherDone, Bool.and_eq_false_iff]
  left; left
  rw [List.all_eq_false]
  exact ⟨k, (by decide : ∀ k : NodeId, k ∈ allNodes) k, by simp [h]⟩

/-! ## Answers -/

@[simp] theorem entryNamed_entryCode (e : EntryId) : entryNamed (entryCode e) = some e := by
  have h : (entryCode e).toNat = e.val := by
    simp only [entryCode, BitVec.toNat_ofNat]; exact Nat.mod_eq_of_lt (by have := e.isLt; omega)
  unfold entryNamed
  have h48 : (entryCode e).toNat < 48 := by rw [h]; exact e.isLt
  rw [dif_pos h48]
  exact congrArg some (Fin.ext h)

theorem entryNamed_eq {m : BitVec 6} {e : EntryId} (h : entryNamed m = some e) : m = entryCode e := by
  unfold entryNamed at h
  split at h
  · cases h
    apply BitVec.eq_of_toNat_eq
    simp only [entryCode, BitVec.toNat_ofNat]
    exact (Nat.mod_eq_of_lt m.isLt).symm
  · cases h

/-- The meaning of an answer's row where the message is of its kind. -/
theorem answerRow_eq {s : State} {n : NodeId} {k : AnswerKind} {m : WireMsg} (h : (s.node n).link = .active)
    (hm : m.answer = some k) : s.answerRow n k m = settle ((s.frameAccepted n).matchKind n m k) := by
  unfold State.answerRow
  rw [h, hm]
  exact if_pos rfl

/-- The meaning of an answer's row on a RETRAINING link, where the message is of its kind (R37). -/
theorem answerRow_retraining {s : State} {n : NodeId} {k : AnswerKind} {m : WireMsg} (h : (s.node n).link = .retraining)
    (hm : m.answer = some k) : s.answerRow n k m = settle (s.matchKind n m k) := by
  unfold State.answerRow
  rw [h, hm]
  exact if_pos rfl

/-- An answer that entry e accepts. -/
theorem matchAnswer_accepted {s : State} {n : NodeId} {k : AnswerKind} {m : WireMsg} {e : EntryId}
    (hm : m.entryNo = entryCode e) (ha : (s.entry e).accepts n m.line = true) :
    s.matchAnswer n k m = (Work.of (s.acceptAnswer e n k m)).push [.checkGather e, .checkFinish e] := by
  unfold State.matchAnswer
  rw [hm, entryNamed_entryCode, Option.filter_some, if_pos ha]

/-- An answer that no entry accepts. -/
theorem matchAnswer_discarded {s : State} {n : NodeId} {k : AnswerKind} {m : WireMsg}
    (h : ∀ e : EntryId, m.entryNo = entryCode e → (s.entry e).accepts n m.line = false) :
    s.matchAnswer n k m = Work.of (s.raise .protocol (answerEvent n k.msgKind m.line m.entryNo)) := by
  unfold State.matchAnswer
  cases hn : entryNamed m.entryNo with
  | none => rfl
  | some e => rw [Option.filter_some, h e (entryNamed_eq hn)]; rfl

/-- A CONFIRM that entry e accepts. -/
theorem matchConfirm_accepted {s : State} {n : NodeId} {m : WireMsg} {e : EntryId} (hm : m.entryNo = entryCode e)
    (ha : (s.entry e).confirms n m.line = true) :
    s.matchConfirm n m = (Work.of (s.modEntry e (fun x => { x with confirm := .received, confirmTimer := .stopped
      }))).push [.checkFinish e] := by
  unfold State.matchConfirm
  rw [hm, entryNamed_entryCode, Option.filter_some, if_pos ha]

/-- A CONFIRM that no entry accepts. -/
theorem matchConfirm_discarded {s : State} {n : NodeId} {m : WireMsg}
    (h : ∀ e : EntryId, m.entryNo = entryCode e → (s.entry e).confirms n m.line = false) :
    s.matchConfirm n m
      = Work.of (s.raise .protocol { node := some n, kind := some .confirm, place := some (.line m.line) }) := by
  unfold State.matchConfirm
  cases hn : entryNamed m.entryNo with
  | none => rfl
  | some e => rw [Option.filter_some, h e (entryNamed_eq hn)]; rfl

/-! ## Ways of the directory -/

/-- A set once one of its ways is replaced. -/
theorem dirSet_putWay {s : State} (hr : s.status = .ready) (h : Directory.wf s.dir) (k j : SetIdx) (w : WayNo)
    (x : Way) : (s.putWay k w x).dirSet j
      = if k = j then { s.dirSet k with ways := tset (s.dirSet k).ways w x } else s.dirSet j :=
  dirSet_putDirSet hr h k j _

/-- A way read back. -/
theorem way_putWay {s : State} (hr : s.status = .ready) (h : Directory.wf s.dir) (k : SetIdx) (w v : WayNo) (x : Way) :
    (s.putWay k w x).way k v = if w = v then x else s.way k v := by
  unfold State.way
  rw [dirSet_putWay hr h, if_pos rfl]
  exact tget_tset _ _ _ _

/-- The set after a way is stored with its counts. -/
theorem dirSet_storeWay {s : State} (hr : s.status = .ready) (h : Directory.wf s.dir) (k j : SetIdx) (w : WayNo)
    (x : Way) : (s.storeWay k w x).dirSet j
      = if k = j then { s.dirSet k with ways := tset (s.dirSet k).ways w x } else s.dirSet j :=
  dirSet_putWay hr h k j w x

/-- A stored way read back. -/
theorem way_storeWay {s : State} (hr : s.status = .ready) (h : Directory.wf s.dir) (k : SetIdx) (w v : WayNo)
    (x : Way) : (s.storeWay k w x).way k v = if w = v then x else s.way k v :=
  way_putWay hr h k w v x

theorem storeWay_wf {s : State} (h : Directory.wf s.dir) (k : SetIdx) (w : WayNo) (x : Way) :
    Directory.wf (s.storeWay k w x).dir := Directory.wf_putDirSet h _ _

theorem putWay_wf {s : State} (h : Directory.wf s.dir) (k : SetIdx) (w : WayNo) (x : Way) :
    Directory.wf (s.putWay k w x).dir := Directory.wf_putDirSet h _ _

/-- A record that R2 allows is written as it is. -/
theorem normalWrite_wellFormed {r : Record} (h : r.wellFormed = true) : normalWrite (some r) = (some r, false) := by
  unfold Record.wellFormed at h
  unfold normalWrite
  cases hs : r.state <;> simp only [hs, decide_eq_true_eq] at h ⊢
  · rw [if_neg h]
  · rw [if_pos h]

/-- A write of a record that R2 allows, or of VACANT, stores it and raises nothing. -/
theorem writeWay_plain {s : State} {k : SetIdx} {w : WayNo} {r : Option Record} {kind : MsgKind}
    (h : ∀ q, r = some q → q.wellFormed = true) :
    s.writeWay k w r kind
      = s.storeWay k w { s.way k w with written := r, damage := .intact, quarantined := false } := by
  have hn : normalWrite r = (r, false) := by
    cases r with
    | none => rfl
    | some q => exact normalWrite_wellFormed (h q rfl)
  simp only [State.writeWay, hn]
  rfl

/-! ## Admission -/

/-- What a node is after a request admission. -/
theorem node_takeRequest (s : State) (n m : NodeId) : (s.takeRequest n).node m
    = if m = n then { (s.node m).served with requestQ := (s.node m).requestQ.tail }
      else if (s.eligibleRequest m).isSome then (s.node m).passedOver else s.node m := by
  unfold State.takeRequest State.node tget; simp

/-- A request admission leaves every link as it is. -/
@[simp] theorem takeRequest_link (s : State) (n m : NodeId) : ((s.takeRequest n).node m).link = (s.node m).link := by
  rw [node_takeRequest]
  split
  · rfl
  · split
    · unfold Node.passedOver; split <;> rfl
    · rfl

/-- A request admission changes nodes and the request pointer alone. -/
theorem takeRequest_rest (s : State) (n : NodeId) :
    { s.takeRequest n with nodes := s.nodes, requestPtr := s.requestPtr } = s := rfl

/-- A request that decode refuses. -/
theorem admitRequest_refused {s : State} {work : State → NodeId → Tag → ReqBody → Option Work} {n : NodeId}
    {r : ReqMsg} {reason : Reason} {k : Work} (hc : s.choice = some (.request n r))
    (hd : s.decodeRefusal n r.body = some reason) (hw : work (s.takeRequest n) n r.tag r.body = some k) :
    s.admitRequest work = .next ((s.takeRequest n).refuse n r.tag r.body.msgKind r.body.line reason) := by
  unfold State.admitRequest State.chosenRequest
  rw [hc]
  simp only [hw, hd]

/-- A request that passes decode. -/
theorem admitRequest_passed {s : State} {work : State → NodeId → Tag → ReqBody → Option Work} {n : NodeId}
    {r : ReqMsg} {k : Work} (hc : s.choice = some (.request n r)) (hd : s.decodeRefusal n r.body = none)
    (hw : work (s.takeRequest n) n r.tag r.body = some k) : s.admitRequest work = settle k := by
  unfold State.admitRequest State.chosenRequest
  rw [hc]
  simp only [hw, hd]

/-- A refusal to a node whose link is not DOWN. -/
theorem refuse_up {s : State} {n : NodeId} (h : (s.node n).link ≠ .down) (tag : Tag) (kind : MsgKind)
    (line : Option LineAddr) (r : Reason) : s.refuse n tag kind line r
      = { s with nodes := tset s.nodes n { s.node n with outQ := (s.node n).outQ ++ [OutMsg.refuse tag r] } }.raise
        .refusal { node := some n, tag := some tag, kind := some kind, place := line.map Place.line
                   detail := some (.reason r) } := by
  rw [State.refuse, send_up h]

end Sys2Proof.Machine
end

