-- ==== Sys2Proof/Laws/Forms.lean ====
section
/-! SUPPORT. The steps of one entry's work in a common form, entries allocated, pool operations completed, the end of
an entry without a way, and the bits of the alert sets. -/

namespace Sys2Proof.Machine

-- One proof at a time: many at once reserve more stacks than the memory limit allows.
set_option Elab.async false

/-- The state d with its nodes, its entries but for X at e, and its pool queue given: the form in which the steps of
one entry's work are taken one after another. -/
def State.form (d : State) (ns : Vector Node 4) (es : Vector Entry 48) (e : EntryId) (X : Entry) (q : List PoolOp) : State :=
  { d with nodes := ns, entries := tset es e X, poolQueue := q }

variable (d : State) (ns : Vector Node 4) (es : Vector Entry 48) (e : EntryId) (X : Entry) (q : List PoolOp)
@[simp] theorem form_entry : (State.form d ns es e X q).entry e = X := by simp [State.form, State.entry]
theorem form_entry_ne {f} (h : f ≠ e) : (State.form d ns es e X q).entry f = tget es f := by simp [State.form, State.entry, tget_tset_ne _ _ (Ne.symm h)]
@[simp] theorem form_node (n) : (State.form d ns es e X q).node n = tget ns n := rfl
@[simp] theorem form_mod (f) : (State.form d ns es e X q).modEntry e f = State.form d ns es e (f X) q := by
  simp only [State.modEntry, State.setEntry, form_entry]; simp [State.form]
@[simp] theorem form_setEntry (Y) : (State.form d ns es e X q).setEntry e Y = State.form d ns es e Y q := by
  simp only [State.setEntry]; simp [State.form]
theorem form_modNode (n f) : (State.form d ns es e X q).modNode n f = State.form d (tset ns n (f (tget ns n))) es e X q := rfl
theorem form_send (n m) (h : (tget ns n).link ≠ .down) : (State.form d ns es e X q).send n m = State.form d (tset ns n { tget ns n with outQ := (tget ns n).outQ ++ [m] }) es e X q := by
  rw [send_up (by exact h)]; rfl
theorem form_issueRead (h : q.length < 32) (h2 : d.issueWait = []) : (State.form d ns es e X q).issueRead e = State.form d ns es e { X with poolOp := .readOut } (q ++ [⟨.entry e, X.line, none⟩]) := by
  have hp : (State.form d ns es e X q).portFree := ⟨h, h2⟩
  rw [issueRead_free hp]; simp only [form_entry]; simp [State.form]
theorem form_issueWrite (b) (h : q.length < 32) (h2 : d.issueWait = []) : (State.form d ns es e X q).issueWrite e b = State.form d ns es e { X with poolOp := .writeOut } (q ++ [⟨.entry e, X.line, some b⟩]) := by
  have hp : (State.form d ns es e X q).portFree := ⟨h, h2⟩
  rw [issueWrite_free hp]; simp only [form_entry]; simp [State.form]
@[simp] theorem form_promote : (State.form d ns es e X q).promote = d.promote := rfl
/-- Any state in this form. -/
theorem form_eq (s : State) : s = State.form s s.nodes s.entries e (s.entry e) s.poolQueue := by
  simp [State.form, State.entry, tset, tget]
/-- A state with damage in this form. -/
theorem form_eq2 (s : State) (us) : s.damaged us = State.form (s.damaged us) s.nodes s.entries e (s.entry e) s.poolQueue := by
  have := form_eq e (s.damaged us); simpa using this

theorem frameAccepted_form (s : State) (us n) : (s.damaged us).frameAccepted n = State.form (s.damaged us) (tset s.nodes n { s.node n with damagedCount := 0 }) s.entries e (s.entry e) s.poolQueue := by
  conv => lhs; rw [form_eq2 e s us]
  rfl

/-- The active entry of a line is read from the table alone. -/
theorem activeOn_congr {s t : State} (h : t.entries = s.entries) (l) : t.activeOn l = s.activeOn l := by
  unfold State.activeOn State.entry; rw [h]
/-- The lowest FREE entry is read from the table alone. -/
theorem freeEntry_congr {s t : State} (h : t.entries = s.entries) : t.freeEntry = s.freeEntry := by
  unfold State.freeEntry State.entry; rw [h]
/-- A chain is read from the successors alone. -/
theorem chainAfter_congr {s t : State} (h : ∀ e, (t.entry e).successor = (s.entry e).successor) (k : Nat) (e : EntryId) :
    t.chainAfter k e = s.chainAfter k e := by
  induction k generalizing e with
  | zero => rfl
  | succ k ih =>
    unfold State.chainAfter
    rw [h]
    split
    · rfl
    · rw [ih]
/-- The end of a chain is read from the table alone. -/
theorem chainTail_congr {s t : State} (h : t.entries = s.entries) (e) : t.chainTail e = s.chainTail e := by
  unfold State.chainTail; rw [chainAfter_congr (s := s) (t := t)]; intro e; unfold State.entry; rw [h]

/-- An entry placed behind the last of its line's chain. -/
theorem enter_behind {t s : State} (ht : t.entries = s.entries) {e a last : EntryId} {x : Entry} (ha : s.activeOn x.line = some a) (hc : s.chainTail a = last) (hne : last ≠ e) :
   t.enter e x = Work.of { t with entries := tset (tset s.entries e x) last { s.entry last with successor := some e } } := by
  unfold State.enter
  rw [activeOn_congr ht, ha]
  simp only [chainTail_congr ht, hc]
  simp only [State.modEntry, State.setEntry, ht, State.entry, tget_tset_ne _ _ (Ne.symm hne)]


/-- An entry allocated for a line with no active entry activates at once. -/
theorem allocate_eq {u s : State} {e x} (hte : u.entries = s.entries) (hfe : s.freeEntry = some e) (hao : s.activeOn x.line = none) :
   u.allocate x = ⟨u.setEntry e x, [.activate e], []⟩ := by
  unfold State.allocate
  rw [freeEntry_congr hte, hfe]; simp only
  unfold State.enter
  rw [activeOn_congr hte, hao]; rfl


/-- Which operation can complete does not depend on the directory's storage. -/
theorem completable_damaged (s : State) (us) (o) : (s.damaged us).completable o = s.completable o := by
  unfold State.completable; rw [damaged_poolQueue]

/-- An operation that can complete is in the queue. -/
theorem completable_mem {s : State} {o op} (h : s.completable o = some op) : op ∈ s.poolQueue ∧ op.owner = o := by
  unfold State.completable at h
  split at h
  · cases h
  · rename_i p hp
    have hm := List.mem_of_find?_eq_some hp
    have ho := List.find?_some hp
    split at h
    · split at h
      · cases h; exact ⟨hm, by simpa using ho⟩
      · cases h
    · cases h

/-- A completed operation leaves a place in the queue. -/
theorem retired_lt {q : List PoolOp} {op : PoolOp} {e : EntryId} (h : op ∈ q) (ho : op.owner = .entry e) (hl : q.length ≤ 32) :
   (q.filter (fun op => decide (op.owner ≠ .entry e))).length < 32 := by
  have : (q.filter (fun op => decide (op.owner ≠ .entry e))).length < q.length := by
    apply List.length_filter_lt_length_iff_exists.2
    exact ⟨op, h, by simp [ho]⟩
  omega

/-- Damage to the pool changes the pool alone. -/
theorem poolDamaged_rest (s : State) (l ws) : { s.poolDamaged l ws with pool := s.pool } = s := by
  unfold State.poolDamaged; split <;> rfl

/-- The event of a READ changes nodes, error classes and the alert state alone. -/
theorem readEvent_rest (u : State) (e r) : { u.readEvent e r with nodes := u.nodes, errors := u.errors, alert := u.alert } = u := by
  unfold State.readEvent
  cases r <;> first | rfl | exact raise_rest _ _ _

/-- The event of a READ leaves every link. -/
theorem readEvent_link (u : State) (e r n) : ((u.readEvent e r).node n).link = (u.node n).link := by
  unfold State.readEvent
  cases r <;> first | rfl | exact raise_link _ _ _ _


/-- A property of the four nodes. -/
theorem all_nodes {p : NodeId → Bool} : (allNodes.all p = true) ↔ ∀ k, p k = true := by
  rw [List.all_eq_true]
  exact ⟨fun h k => h k ((by decide : ∀ k : NodeId, k ∈ allNodes) k), fun h k _ => h k⟩

/-- The completion of an entry without a way and without a successor. -/
theorem complete_plain (z : State) (e : EntryId) (X : Entry) (hX : z.entry e = X) (hw : X.way = none) (hs : X.successor = none) (hk : X.kind ≠ .recall) (ns) :
    Work.complete ⟨z, [], ns⟩ e = ⟨z, [.completeTail e false false], ns⟩ := by
  unfold Work.complete
  simp only [hX, hw, hs]
  rfl

/-- The end of such a completion. -/
theorem tail_plain (z : State) (e : EntryId) (X : Entry) (hX : z.entry e = X) (hw : X.way = none) (hk : X.kind ≠ .recall) :
    Work.completeTail ⟨z, [], []⟩ e false false = ⟨(if X.posted then z.postedDone e else z).freeUp e, [], []⟩ := by
  have hwn : X.walkNode = none := by
    unfold Entry.walkNode
    split
    · rename_i h _; exact absurd h hk
    · rfl
  unfold Work.completeTail
  simp only [hX, hw, if_neg hk, Work.note, Work.mod, hwn]
  rfl

/-- The end of a completion is taken while its entry is in FINISH. -/
theorem task_completeTail {k : Work} {e : EntryId} (h : (k.s.entry e).phase = .finish) (u v : Bool) :
    k.task (.completeTail e u v) = k.completeTail e u v := if_pos h

/-- An entry without a way whose FINISH is over is FREE two tasks later. -/
theorem finish_plain (z : State) (e : EntryId) (X : Entry) (hX : z.entry e = X) (hw : X.way = none) (hs : X.successor = none) (hk : X.kind ≠ .recall) (hph : X.phase = .finish) (hfd : X.finishDone = true) (fuel) :
    Work.run (fuel + 2) ⟨z, [.checkFinish e], []⟩ = some ((if X.posted then z.postedDone e else z).freeUp e) := by
  rw [run_task]
  have : Work.task ⟨z, [], []⟩ (.checkFinish e) = ⟨z, [.completeTail e false false], []⟩ := by
    show (if _ then _ else _) = _
    rw [if_pos]
    · exact complete_plain z e X hX hw hs hk _
    · show (z.entry e).phase = _ ∧ _; rw [hX]; exact ⟨hph, hfd⟩
  rw [this, run_task, task_completeTail (by rw [hX]; exact hph), tail_plain z e X hX hw hk, run_rest]


/-- The bits of a set built class by class. -/
theorem classBits (p : Fin 10 → Bool) (L : List (Fin 10)) (acc : BitVec 10) (c : Fin 10) :
   (L.foldl (fun acc c => if p c then acc ||| (1#10 <<< c.val) else acc) acc).getLsbD c.val = (acc.getLsbD c.val || (decide (c ∈ L) && p c)) := by
  induction L generalizing acc with
  | nil => simp
  | cons d L ih =>
    rw [List.foldl_cons, ih]
    have hb : ∀ d c : Fin 10, (1#10 <<< d.val).getLsbD c.val = decide (d = c) := by decide
    by_cases hd : d = c
    · subst hd
      cases hp : p d
      · simp [hp]
      · rw [if_pos rfl, BitVec.getLsbD_or, hb]; simp
    · split
      · rw [BitVec.getLsbD_or, hb]
        have : c ≠ d := Ne.symm hd
        simp only [hd, decide_false, Bool.or_false, List.mem_cons, this, false_or]
      · have : c ≠ d := Ne.symm hd
        simp only [List.mem_cons, this, false_or]

/-- The pending flags, bit by bit. -/
theorem pendingSet_bit (s : State) (c : Fin 10) : s.pendingSet.getLsbD c.val = (s.cls c).pending := by
  unfold State.pendingSet
  rw [classBits (fun c => (s.cls c).pending)]
  simp

/-- The classes pending and unmasked, bit by bit. -/
theorem alertSet_bit (s : State) (c : Fin 10) : s.alertSet.getLsbD c.val = ((s.cls c).pending && s.alertMask.getLsbD c.val) := by
  unfold State.alertSet
  rw [BitVec.getLsbD_and, pendingSet_bit]

/-- A set of classes that is not empty has a class. -/
theorem classes_ne_zero (x : BitVec 10) : x ≠ 0 ↔ ∃ c : Fin 10, x.getLsbD c.val = true := by
  constructor
  · intro h
    by_contra hc
    apply h
    apply BitVec.eq_of_getLsbD_eq
    intro i hi
    have := fun g => hc ⟨⟨i, hi⟩, g⟩
    simpa using this
  · rintro ⟨c, hc⟩ rfl
    simp at hc

/-- The condition of the ALERT_N pin. -/
theorem alertN_iff (s : State) : s.alertN = true ↔
    s.pinEnable = true ∧ ∃ c : Fin 10, (s.cls c).pending = true ∧ s.alertMask.getLsbD c.val = true := by
  unfold State.alertN
  rw [Bool.and_eq_true, decide_eq_true_eq, classes_ne_zero]
  simp only [alertSet_bit, Bool.and_eq_true]

/-- A property of some node. -/
theorem any_nodes (p : NodeId → Bool) : allNodes.any p = true ↔ ∃ k, p k = true := by
  rw [List.any_eq_true]
  exact ⟨fun ⟨k, _, h⟩ => ⟨k, h⟩, fun ⟨k, h⟩ => ⟨k, (by decide : ∀ k : NodeId, k ∈ allNodes) k, h⟩⟩

/-- A class once one class is replaced. -/
theorem cls_tset (s : State) (c d : Fin 10) (x) : ({ s with errors := tset s.errors c x } : State).cls d = if c = d then x else s.cls d := by
  unfold State.cls; exact tget_tset _ _ _ _

/-- A class after an event. -/
theorem cls_raise (s : State) (c : ErrClass) (r) (d : Fin 10) : (s.raise c r).cls d = if c.index = d then (s.cls c.index).capture r else s.cls d := by
  have : (s.raise c r).cls d = tget (tset s.errors c.index ((s.cls c.index).capture r)) d := by
    show tget (s.raise c r).errors d = _; rw [raise_errors]
  rw [this, tget_tset]; rfl

/-- A class after an acknowledgement. -/
theorem cls_acknowledge (s : State) (named : ClassSet) (d : Fin 10) : (s.acknowledge named).cls d = if named.getLsbD d.val then (s.cls d).acknowledge else s.cls d := by
  unfold State.acknowledge State.cls tget; simp

end Sys2Proof.Machine
end

