-- ==== Sys2Proof/Laws/Layouts.lean ====
section
/-! SUPPORT. The fields of registers and headers as words shifted to their places. -/

namespace Sys2Proof.Machine

set_option Elab.async false

/-- A register field holds its value at its place. -/
theorem regField_eq {k : Nat} (x : BitVec k) (low : Nat) : regField x.toNat low = (x.setWidth 32) <<< low := by
  unfold regField
  apply BitVec.eq_of_toNat_eq
  simp [BitVec.toNat_shiftLeft, Nat.shiftLeft_eq, Nat.mod_mul_mod]

/-- A number that its field can hold stands at its place. -/
theorem regField_small (k x low : Nat) (h : x < 2 ^ k) :
    regField x low = ((BitVec.ofNat k x).setWidth 32) <<< low := by
  rw [← regField_eq, BitVec.toNat_ofNat, Nat.mod_eq_of_lt h]

/-- A register flag stands at its bit. -/
theorem regFlag_eq (b : Bool) (bit : Nat) : regFlag b bit = ((BitVec.ofBool b).setWidth 32) <<< bit := by
  unfold regFlag
  rw [← regField_eq]
  cases b <;> rfl

/-- A header field holds its value at its place. -/
theorem headerField_eq {k : Nat} (x : BitVec k) (low : Nat) : headerField x.toNat low = (x.setWidth 64) <<< low := by
  unfold headerField
  apply BitVec.eq_of_toNat_eq
  simp [BitVec.toNat_shiftLeft, Nat.shiftLeft_eq, Nat.mod_mul_mod]

/-- A number that its field can hold stands at its place. -/
theorem headerField_small (k x low : Nat) (h : x < 2 ^ k) :
    headerField x low = ((BitVec.ofNat k x).setWidth 64) <<< low := by
  rw [← headerField_eq, BitVec.toNat_ofNat, Nat.mod_eq_of_lt h]

/-- A header flag stands at its bit. -/
theorem headerFlag_eq (b : Bool) (bit : Nat) : headerFlag b bit = ((BitVec.ofBool b).setWidth 64) <<< bit := by
  unfold headerFlag
  cases b
  · simp
  · apply BitVec.eq_of_toNat_eq
    simp [BitVec.toNat_shiftLeft]

end Sys2Proof.Machine
end

