-- ==== Sys2Proof/Laws/Loss.lean ====
section
/-! SUPPORT. What the loss of a node does, where it concerns at most one entry. -/

namespace Sys2Proof.Machine

-- One proof at a time: many at once reserve more stacks than the memory limit allows.
set_option Elab.async false

/-- A fold over steps that change nothing. -/
theorem foldl_fix {α β} {f : β → α → β} {s : β} (l : List α) (h : ∀ a ∈ l, f s a = s) : l.foldl f s = s := by
  induction l with
  | nil => rfl
  | cons a l ih =>
    rw [List.foldl_cons, h a List.mem_cons_self]
    exact ih (fun b hb => h b (List.mem_cons_of_mem _ hb))

/-- A fold of which one step alone changes anything. -/
theorem foldl_one {α β} [DecidableEq α] {f : β → α → β} {s : β} {l : List α} (hn : l.Nodup) {e : α} (he : e ∈ l)
    (h1 : ∀ a ≠ e, f s a = s) (h2 : ∀ a ≠ e, f (f s e) a = f s e) : l.foldl f s = f s e := by
  induction l with
  | nil => cases he
  | cons a l ih =>
    rw [List.foldl_cons]
    rw [List.nodup_cons] at hn
    by_cases ha : a = e
    · subst ha
      exact foldl_fix l (fun b hb => h2 b (fun hc => hn.1 (hc ▸ hb)))
    · rw [h1 a ha]
      exact ih hn.2 (by rcases List.mem_cons.1 he with h | h; exact absurd h.symm ha; exact h)

/-- What a loss leaves of everything but the table and the pool's operations. -/
theorem lost_of (s : State) (n : NodeId) (c : LossCause) (E : Vector Entry 48) (Q W : List PoolOp) :
    LostIn s { (s.nodeGone n c).recordLoss n with entries := E, poolQueue := Q, issueWait := W } n c := by
  have hrec : ∀ z : State, { z.recordLoss n with walker := z.walker } = z ∧ (z.recordLoss n).walker.record n = some (z.walker.afterLoss n)
      ∧ (∀ m ≠ n, (z.recordLoss n).walker.record m = z.walker.record m) ∧ (z.recordLoss n).walker.pointer = z.walker.pointer ∧ (z.recordLoss n).walker.stall = z.walker.stall := by
    intro z
    cases hr : z.walker.record n with
    | some r =>
      have h1 : z.recordLoss n = z.setRecord n (some { r with mode := .loss }) := by unfold State.recordLoss; rw [hr]
      have h2 : z.walker.afterLoss n = { r with mode := .loss } := by unfold Walker.afterLoss; rw [hr]
      rw [h1, h2]
      refine ⟨rfl, ?_, ?_, rfl, rfl⟩
      · exact tget_tset_same _ _ _
      · intro m hm; exact tget_tset_ne _ _ (Ne.symm hm)
    | none =>
      have h1 : z.recordLoss n = z.startRecord n .loss 0 := by unfold State.recordLoss; rw [hr]
      have h2 : z.walker.afterLoss n = { mode := .loss, remaining := 16384, recalls := 0, leaveTag := 0, joining := z.walker.walks } := by
        unfold Walker.afterLoss; rw [hr]
      rw [h1, h2]
      cases hj : z.walker.walks with
      | true =>
        have : z.startRecord n .loss 0 = z.setRecord n (some { mode := .loss, remaining := 16384, recalls := 0, leaveTag := 0, joining := true }) := by
          unfold State.startRecord; rw [hj]; rfl
        rw [this]
        refine ⟨rfl, ?_, ?_, rfl, rfl⟩
        · exact tget_tset_same _ _ _
        · intro m hm; exact tget_tset_ne _ _ (Ne.symm hm)
      | false =>
        have : z.startRecord n .loss 0 = { z.setRecord n (some { mode := .loss, remaining := 16384, recalls := 0, leaveTag := 0, joining := false }) with
            walker := { (z.setRecord n (some { mode := .loss, remaining := 16384, recalls := 0, leaveTag := 0, joining := false })).walker with position := 0 } } := by
          unfold State.startRecord; rw [hj]; rfl
        rw [this]
        refine ⟨rfl, ?_, ?_, rfl, rfl⟩
        · exact tget_tset_same _ _ _
        · intro m hm; exact tget_tset_ne _ _ (Ne.symm hm)
  set y : Node := ({ s.node n with membership := .lost, orderSlot := none, patience := 0, urgent := false } : Node).down with hy
  have hdown : s.nodeGone n c = (s.afterDown n y).raise .nodeLost { node := some n, detail := some (.cause c) } := by
    unfold State.nodeGone State.linkDown State.alertAddresseeDown State.afterDown
    simp only [modNode_modNode_same]
    have : ∀ (a b : State), a = b → a.alertTest.raise .nodeLost { node := some n, detail := some (.cause c) }
        = b.alertTest.raise .nodeLost { node := some n, detail := some (.cause c) } := fun a b h => by rw [h]
    refine this _ _ ?_
    show (if s.alert = .sent n then _ else _) = _
    split <;> rfl
  have hgone : ∃ z : State, s.nodeGone n c = z.alertTest.raise .nodeLost { node := some n, detail := some (.cause c) } ∧ z.node n = y ∧ (∀ m ≠ n, z.node m = s.node m)
       ∧ { z with nodes := s.nodes, alert := s.alert } = s := by
    unfold State.nodeGone State.linkDown State.alertAddresseeDown
    simp only [modNode_modNode_same]
    refine ⟨_, rfl, ?_, ?_, ?_⟩
    · split <;> simp [State.node, State.modNode, State.setNode] <;> rfl
    · intro m hm
      split <;> exact tget_tset_ne _ _ (Ne.symm hm)
    · split <;> rfl
  obtain ⟨z, hz, hzn, hzm, hzr⟩ := hgone
  have hat : ∀ z : State, (z.node n).link = .down → z.alertTest.node n = z.node n := by
    intro z hl
    rw [alertTest_eq]
    split
    · rename_i hh
      have hr := hh.2
      simp only [State.alertReady, Bool.and_eq_true, decide_eq_true_eq] at hr
      have : z.alertTarget ≠ n := by
        intro hc; have := hr.1.2; rw [hc, hl] at this; cases this
      simp only [State.node, tget_tset_ne _ _ this]
    · rfl
  have h1 : z.alertTest.node n = y := by rw [hat z (by rw [hzn]; rfl), hzn]
  have h2 : (s.nodeGone n c).node n = y := by
    rw [hz]; unfold State.raise
    rw [hat]
    · exact h1
    · show (z.alertTest.node n).link = _; rw [h1]; rfl
  have h3 : ∀ m ≠ n, sameButAlert (s.node m) ((s.nodeGone n c).node m) := by
    intro m hm
    rw [hz, ← hzm m hm]
    rcases alertTest_cases z with h | h
    · rw [h]; exact raise_same _ _ _ _
    · have : (z.alertTest.raise .nodeLost { node := some n, detail := some (.cause c) }).node m = z.alertTest.node m := by
        unfold State.raise
        rw [alertTest_eq, if_neg]
        · rfl
        · rintro ⟨hh, -⟩; rw [h] at hh; cases hh
      rw [this]; exact alertTest_same z m
  have h4 : { s.nodeGone n c with nodes := s.nodes, errors := s.errors, alert := s.alert } = s := by
    rw [hz]
    have a := raise_rest z.alertTest .nodeLost { node := some n, detail := some (.cause c) }
    have a' := congrArg (fun t : State => { t with nodes := s.nodes, errors := s.errors, alert := s.alert }) a
    have b := alertTest_rest z
    have b' := congrArg (fun t : State => { t with nodes := s.nodes, errors := s.errors, alert := s.alert }) b
    have d' := congrArg (fun t : State => { t with errors := s.errors }) hzr
    exact a'.trans (b'.trans d')
  have h5 : (s.nodeGone n c).errors = tset s.errors 8 ((s.cls 8).capture { node := some n, detail := some (.cause c) }) := by
    have he : z.errors = s.errors := (congrArg State.errors hzr :)
    rw [hz, raise_errors, alertTest_errors, cls_alertTest]
    unfold State.cls
    rw [he]; rfl
  generalize hg : s.nodeGone n c = g at h2 h3 h4 h5
  obtain ⟨r1, r2, r3, r4, r5⟩ := hrec g
  generalize hq : g.recordLoss n = q at r1 r2 r3 r4 r5
  have hnodes : q.nodes = g.nodes := (congrArg State.nodes r1 :)
  have halert : q.alert = g.alert := (congrArg State.alert r1 :)
  have hqn : tget q.nodes n = y := by rw [hnodes]; exact h2
  have herr : q.errors = g.errors := (congrArg State.errors r1 :)
  have hw : g.walker = s.walker := (congrArg State.walker h4 :)
  refine ⟨?_, ?_, ?_, ?_, ?_, ?_, ?_, ?_, ?_⟩
  · show tget q.nodes n = _; rw [hnodes]; exact h2
  · intro m hm; show sameButAlert _ (tget q.nodes m); rw [hnodes]; exact h3 m hm
  · show q.alert = ((s.afterDown n (tget q.nodes n)).raise _ _).alert
      ∧ q.nodes = ((s.afterDown n (tget q.nodes n)).raise _ _).nodes
    rw [hqn, ← hdown, hg]
    exact ⟨halert, hnodes⟩
  · show q.errors = _; rw [herr, h5]
  · show q.walker.record n = _; rw [r2, hw]
  · intro m hm; show q.walker.record m = _; rw [r3 m hm, hw]
  · show q.walker.pointer = _; rw [r4, hw]
  · show q.walker.stall = _; rw [r5, hw]
  · have a := congrArg (fun t : State => ({ t with nodes := s.nodes, entries := s.entries, poolQueue := s.poolQueue, issueWait := s.issueWait, walker := s.walker, errors := s.errors, alert := s.alert } : State)) r1
    have b := congrArg (fun t : State => ({ t with entries := s.entries, poolQueue := s.poolQueue, issueWait := s.issueWait, walker := s.walker } : State)) h4
    exact Eq.trans a b

/-- An entry in a phase other than FREE is in use. -/
theorem inUse_of {x : Entry} {p : Phase} (h : x.phase = p) (hp : p ≠ .free) : x.inUse = true := by
  simp [Entry.inUse, h, hp]

/-- An entry of another node is no request of node n. -/
theorem not_requestIn {x : Entry} {n : NodeId} {p : Phase} (hp : p ≠ .free) (h : x.inUse = true → x.isFrom n = false) : x.requestIn n p = false := by
  by_contra hc
  simp only [Bool.not_eq_false, Entry.requestIn, Bool.and_eq_true, decide_eq_true_eq] at hc
  have := h (inUse_of hc.1.1 hp)
  rw [this] at hc; cases hc.2

/-- An entry of another node is not orphaned by the loss of n. -/
theorem not_orphans {x : Entry} {n : NodeId} (h : x.inUse = true → x.isFrom n = false) : x.orphans n = false := by
  by_contra hc
  simp only [Bool.not_eq_false, Entry.orphans, Bool.and_eq_true, Bool.or_eq_true, decide_eq_true_eq] at hc
  have hu : x.inUse = true := by
    rcases hc.2 with h | h
    · rcases h.2 with h | h
      · exact inUse_of h (by simp)
      · exact inUse_of h (by simp)
    · exact h.2
  rw [h hu] at hc; cases hc.1

/-- Nothing aimed at n in an entry: its part of the loss changes nothing. -/
theorem aimed_fix {s : State} {n : NodeId} {e : EntryId} (h : (s.entry e).unconcerned n) : State.aimedLost n s e = s := by
  unfold State.aimedLost
  split
  · rename_i hu
    obtain ⟨h1, h2, h3, h4⟩ := h hu
    have : State.probeLost n s e = s := by
      unfold State.probeLost
      simp only [h2, h3]; rfl
    rw [this]
    unfold State.waitLost
    rw [if_neg h4]
  · rfl

/-- The link's and the node's part of a loss leaves the table. -/
theorem gone_entries (s : State) (n c) : (s.nodeGone n c).entries = s.entries := by
  unfold State.nodeGone
  rw [raise_entries]
  unfold State.linkDown State.alertAddresseeDown
  rw [alertTest_entries]
  split <;> rfl

/-- The link's and the node's part of a loss leaves the pool's operations. -/
theorem gone_misc (s : State) (n c) : (s.nodeGone n c).poolQueue = s.poolQueue ∧ (s.nodeGone n c).issueWait = s.issueWait := by
  unfold State.nodeGone
  rw [raise_poolQueue, raise_issueWait]
  unfold State.linkDown State.alertAddresseeDown
  rw [alertTest_poolQueue, alertTest_issueWait]
  constructor <;> split <;> rfl

/-- The walker's part of a loss looks at no entry and at no pool operation. -/
theorem recordLoss_frame (z : State) (n) (E Q W) : ({ z with entries := E, poolQueue := Q, issueWait := W } : State).recordLoss n = { z.recordLoss n with entries := E, poolQueue := Q, issueWait := W } := by
  unfold State.recordLoss
  show (match z.walker.record n with | some r => _ | none => _) = _
  cases z.walker.record n with
  | some r => rfl
  | none =>
    simp only
    unfold State.startRecord
    show (if z.walker.walks = true then _ else _) = _
    cases z.walker.walks <;> rfl

/-- The walker's part of a loss leaves the table. -/
theorem recordLoss_entries (z : State) (n) : (z.recordLoss n).entries = z.entries := by
  unfold State.recordLoss
  split
  · rfl
  · unfold State.startRecord; extract_lets; split <;> rfl

/-- The entries, each once. -/
theorem nodup48 : allEntries.Nodup := List.nodup_finRange 48
/-- Every entry is listed. -/
theorem mem48 (e : EntryId) : e ∈ allEntries := List.mem_finRange e

/-- A loss that concerns entry e alone, by what it does to e. -/
theorem lose_special (s : State) (n : NodeId) (c : LossCause) (e : EntryId) (hj : (s.node n).joined = true)
    (others : ∀ f ≠ e, (s.entry f).unconcerned n) (h1 : (s.entry e).requestIn n .queued = false) (h2 : (s.entry e).requestIn n .wayWait = false)
    {o a : State} (ho : State.orphan n (s.nodeGone n c) e = o) (hof : ∀ f ≠ e, o.entry f = s.entry f)
    (ha : State.aimedLost n o e = a) (haf : ∀ f ≠ e, a.entry f = s.entry f) :
    (Work.of s).loseNode n c = ⟨a.recordLoss n, endChecks, []⟩ := by
  have hge : ∀ f, (s.nodeGone n c).entry f = s.entry f := fun f => by unfold State.entry; rw [gone_entries]
  unfold Work.loseNode
  rw [if_pos (show ((Work.of s).s.node n).joined = true from hj)]
  simp only [Work.mod, Work.of]
  have hunf : ∀ f ≠ e, (s.entry f).inUse = true → (s.entry f).isFrom n = false := fun f hf hu => (others f hf hu).1
  have q1 : allEntries.foldl (State.removeQueued n) (s.nodeGone n c) = s.nodeGone n c := by
    apply foldl_fix
    intro f _
    unfold State.removeQueued
    rw [hge]
    have : (s.entry f).requestIn n .queued = false := by
      by_cases hf : f = e
      · rw [hf]; exact h1
      · exact not_requestIn (by simp) (hunf f hf)
    rw [this]; rfl
  rw [q1]
  have q2 : allEntries.foldl (Work.removeWaiting n) ⟨s.nodeGone n c, [], []⟩ = ⟨s.nodeGone n c, [], []⟩ := by
    apply foldl_fix
    intro f _
    unfold Work.removeWaiting
    have : ((s.nodeGone n c).entry f).requestIn n .wayWait = false := by
      rw [hge]
      by_cases hf : f = e
      · rw [hf]; exact h2
      · exact not_requestIn (by simp) (hunf f hf)
    simp only [this]; rfl
  rw [q2]
  have q3 : allEntries.foldl (State.orphan n) (s.nodeGone n c) = o := by
    rw [← ho]
    apply foldl_one nodup48 (mem48 e)
    · intro f hf
      unfold State.orphan
      rw [hge, not_orphans (hunf f hf)]; rfl
    · intro f hf
      rw [ho]
      unfold State.orphan
      rw [hof f hf, not_orphans (hunf f hf)]; rfl
  have q4 : allEntries.foldl (State.aimedLost n) o = a := by
    rw [← ha]
    apply foldl_one nodup48 (mem48 e)
    · intro f hf
      apply aimed_fix; rw [hof f hf]; exact others f hf
    · intro f hf
      apply aimed_fix; rw [ha, haf f hf]; exact others f hf
  rw [q3, q4, List.nil_append]

/-- A loss that concerns no entry. -/
theorem lose_plain (s : State) (n : NodeId) (c : LossCause) (hj : (s.node n).joined = true)
    (h : ∀ e, (s.entry e).unconcerned n) :
    (Work.of s).loseNode n c = ⟨(s.nodeGone n c).recordLoss n, endChecks, []⟩ := by
  have hge : ∀ f, (s.nodeGone n c).entry f = s.entry f := fun f => by unfold State.entry; rw [gone_entries]
  apply lose_special s n c 0 hj (fun f _ => h f) (not_requestIn (by simp) (fun hu => (h 0 hu).1)) (not_requestIn (by simp) (fun hu => (h 0 hu).1)) (o := s.nodeGone n c)
  · unfold State.orphan; rw [hge, not_orphans (fun hu => (h 0 hu).1)]; rfl
  · intro f _; exact hge f
  · apply aimed_fix; rw [hge]; exact h 0
  · intro f _; exact hge f

/-- A loss that concerns no entry comes to rest at once. -/
theorem settle_lose_plain (s : State) (n : NodeId) (c : LossCause) (hj : (s.node n).joined = true)
    (h : ∀ e, (s.entry e).unconcerned n ∧ (s.entry e).standing) :
    ∃ t, settle ((Work.of s).loseNode n c) = .next t ∧ LostIn s t n c ∧ t.entries = s.entries ∧ t.poolQueue = s.poolQueue ∧ t.issueWait = s.issueWait := by
  rw [lose_plain s n c hj (fun e => (h e).1)]
  have he : ∀ e, ((s.nodeGone n c).recordLoss n).entry e = s.entry e := by
    intro e; unfold State.entry; rw [recordLoss_entries, gone_entries]
  refine ⟨_, settle_idle (idle_endChecks (fun e => by rw [he]; exact (h e).2)) (by simp [endChecks, Config.settleBound]; decide), ?_, ?_, ?_, ?_⟩
  · have := lost_of s n c ((s.nodeGone n c).recordLoss n).entries ((s.nodeGone n c).recordLoss n).poolQueue ((s.nodeGone n c).recordLoss n).issueWait
    exact this
  · rw [recordLoss_entries, gone_entries]
  · have := recordLoss_frame (s.nodeGone n c) n (s.nodeGone n c).entries (s.nodeGone n c).poolQueue (s.nodeGone n c).issueWait
    have := (congrArg State.poolQueue this :)
    rw [← (gone_misc s n c).1]; exact this
  · have := recordLoss_frame (s.nodeGone n c) n (s.nodeGone n c).entries (s.nodeGone n c).poolQueue (s.nodeGone n c).issueWait
    have := (congrArg State.issueWait this :)
    rw [← (gone_misc s n c).2]; exact this

/-- MEMBER and LEAVING nodes are joined. -/
theorem joined_of {x : Node} (h : x.membership = .member ∨ x.membership = .leaving) : x.joined = true := by
  rcases h with h | h <;> simp [Node.joined, h]

/-- A loss that concerns entry e alone and leaves it standing comes to rest at once. -/
theorem finish_lose (s : State) (n : NodeId) (c : LossCause) (us) (e : EntryId) (hm : (s.node n).membership = .member ∨ (s.node n).membership = .leaving)
    (others : ∀ f ≠ e, (s.entry f).unconcerned n ∧ (s.entry f).standing) (h1 : (s.entry e).requestIn n .queued = false) (h2 : (s.entry e).requestIn n .wayWait = false)
    (X : Entry) (hX : X.standing)
    (hoa : ∀ g : State, g.entries = s.entries → ∃ o, State.orphan n g e = o ∧ (∃ Y, o = { g with entries := tset g.entries e Y}) ∧ State.aimedLost n o e = { g with entries := tset g.entries e X }) :
    ∃ t, settle ((Work.of (s.damaged us)).loseNode n c) = .next t
      ∧ LostIn (s.damaged us) t n c ∧ t.poolQueue = s.poolQueue ∧ t.issueWait = s.issueWait
      ∧ t.entries = tset s.entries e X := by
  have hge : ((s.damaged us).nodeGone n c).entries = s.entries := by rw [gone_entries, damaged_entries]
  obtain ⟨o, ho1, ⟨Y, ho2⟩, ho3⟩ := hoa _ hge
  generalize hg : (s.damaged us).nodeGone n c = g at *
  have := lose_special (s.damaged us) n c e (by rw [node_damaged]; exact joined_of hm) (fun f hf => by rw [entry_damaged]; exact (others f hf).1) (by rw [entry_damaged]; exact h1) (by rw [entry_damaged]; exact h2) (by rw [hg]; exact ho1)
    (by intro f hf; rw [ho2, entry_damaged]; show tget (tset g.entries e Y) f = _; rw [tget_tset_ne _ _ (Ne.symm hf), hge]; rfl) ho3
    (by intro f hf; rw [entry_damaged]; show tget (tset g.entries e X) f = _; rw [tget_tset_ne _ _ (Ne.symm hf), hge]; rfl)
  rw [this]
  have hfr := recordLoss_frame g n (tset g.entries e X) g.poolQueue g.issueWait
  have hfr' : ({ g with entries := tset g.entries e X } : State).recordLoss n = { g.recordLoss n with entries := tset g.entries e X, poolQueue := g.poolQueue, issueWait := g.issueWait } := hfr
  rw [hfr']
  refine ⟨_, settle_idle (idle_endChecks ?_) (by simp [endChecks, Config.settleBound]; decide), ?_, ?_, ?_, ?_⟩
  · intro f
    by_cases hf : f = e
    · subst hf; show (tget (tset g.entries f X) f).standing; rw [tget_tset_same]; exact hX
    · show (tget (tset g.entries e X) f).standing; rw [tget_tset_ne _ _ (Ne.symm hf), hge]; exact (others f hf).2
  · have := lost_of (s.damaged us) n c (tset g.entries e X) g.poolQueue g.issueWait
    rw [hg] at this; exact this
  · show g.poolQueue = _; rw [← hg, (gone_misc _ _ _).1, damaged_poolQueue]
  · show g.issueWait = _; rw [← hg, (gone_misc _ _ _).2, damaged_issueWait]
  · show tset g.entries e X = _; rw [hge]

end Sys2Proof.Machine
end

