-- ==== Sys2Proof/Laws/Reads.lean ====
section
/-! SUPPORT. Reads of a sound set, and of a set one pinned way of which cannot be read: what they return, the activations
and re-reads over them, and the walker's examination of a way. -/

namespace Sys2Proof.Machine

-- One proof at a time: many at once reserve more stacks than the memory limit allows.
set_option Elab.async false

/-- What a read returns for a way whose storage is as it was written. -/
def Way.seen (x : Way) : WayRead :=
  if x.quarantined then .quarantined else match x.written with | some r => .record r | none => .vacant

/-- The read of a way whose storage is as it was written, with a record as R2's law has it, changes nothing. -/
theorem readWay_intact {s : State} {k : SetIdx} {w : WayNo} (h1 : (s.way k w).damage = .intact)
    (h2 : ∀ r, (s.way k w).written = some r → r.wellFormed = true) (rr kind) :
    s.readWay k w rr kind = (s, Way.seen (s.way k w)) := by
  unfold State.readWay
  generalize s.way k w = x at *
  unfold Way.seen
  by_cases hq : x.quarantined = true
  · simp only [hq, if_true]
  · have hc : x.check = (.clean, x.written) := by
      unfold Way.check; rw [h1]; simp only [formed]
      cases hw : x.written with
      | none => rfl
      | some r => exact if_pos (h2 r hw)
    rw [if_neg hq, if_neg hq, hc]
    all_goals rfl

/-- The read of a way of a sound set changes nothing. -/
theorem readWay_sound {s : State} {k : SetIdx} (h : (s.dirSet k).sound) (w : WayNo) (rr kind) :
    s.readWay k w rr kind = (s, Way.seen (s.way k w)) := readWay_intact (h w).1 (h w).2 rr kind

/-- A read of a sound set changes nothing, and returns each way as it was written, with its pin. -/
theorem readSet_sound {s : State} {k : SetIdx} (h : (s.dirSet k).sound) (rr kind) :
    (s.readSet k rr kind).1 = s ∧ ∀ w, tget (s.readSet k rr kind).2 w = (Way.seen (s.way k w), (s.way k w).pin) := by
  have key : ∀ (L : List WayNo) (v : SetRead), L.foldl
    (fun acc w =>
      let (s', r) := acc.1.readWay k w rr kind
      (s', tset acc.2 w (r, (s.way k w).pin))) (s, v) = (s, L.foldl (fun v w => tset v w (Way.seen (s.way k w), (s.way k w).pin)) v) := by
    intro L
    induction L with
    | nil => intro v; rfl
    | cons a L ih =>
      intro v
      rw [List.foldl_cons, readWay_sound h]
      exact ih _
  have h0 : s.readSet k rr kind = (s, allWays.foldl (fun v w => tset v w (Way.seen (s.way k w), (s.way k w).pin)) (Vector.replicate 8 (.vacant, .none))) := key _ _
  rw [h0]
  refine ⟨rfl, ?_⟩
  have k2 : ∀ (L : List WayNo) (v : SetRead) (w : WayNo), tget (L.foldl (fun v w => tset v w (Way.seen (s.way k w), (s.way k w).pin)) v) w = if w ∈ L then (Way.seen (s.way k w), (s.way k w).pin) else tget v w := by
    intro L
    induction L with
    | nil => intro v w; simp
    | cons a L ih =>
      intro v w
      rw [List.foldl_cons, ih, tget_tset]
      by_cases hw : w ∈ L
      · simp [hw]
      · by_cases ha : a = w
        · subst ha; simp
        · simp [hw, ha, Ne.symm ha]
  intro w
  rw [k2, if_pos ((by decide : ∀ w : WayNo, w ∈ allWays) w)]

/-- A search that one member alone answers. -/
theorem findSome_unique {α β} {f : α → Option β} {w : α} {b : β} (hf : f w = some b) (ho : ∀ v, v ≠ w → f v = none) :
   ∀ {L : List α}, w ∈ L → L.findSome? f = some b := by
  classical
  intro L
  induction L with
  | nil => intro h; cases h
  | cons a L ih =>
    intro h
    by_cases ha : a = w
    · subst ha; rw [List.findSome?_cons, hf]
    · rw [List.findSome?_cons, ho a ha]
      rcases List.mem_cons.1 h with h | h
      · exact absurd h.symm ha
      · exact ih h

/-- A way that is quarantined, or whose record carries another tag, gives no HIT. -/
theorem seen_noHit {x : Way} {t : DirTag} (g : x.quarantined = true ∨ ∀ q, x.written = some q → q.tag ≠ t) (w : WayNo)
    (p : Pin) : (match (Way.seen x, p) with
      | (.record r, p) => if r.tag = t then some (w, r, p) else none
      | _ => (none : Option (WayNo × Record × Pin))) = none := by
  rcases g with g | g
  · have : Way.seen x = .quarantined := by unfold Way.seen; rw [g]; rfl
    rw [this]
  · unfold Way.seen
    split
    · rename_i q p he
      split at he
      · cases he
      · split at he
        · rename_i q' hq'
          cases he
          exact if_neg (g _ hq')
        · cases he
    · rfl

/-- The HIT of a sound set, with its pin. -/
theorem hit_pinned {s : State} {k : SetIdx} (h : (s.dirSet k).sound) {w : WayNo} {r : Record} {p : Pin}
    (h1 : (s.way k w).written = some r) (h2 : (s.way k w).quarantined = false) (h3 : (s.way k w).pin = p)
    (h4 : ∀ v, v ≠ w → (s.way k v).quarantined = true ∨ ∀ q, (s.way k v).written = some q → q.tag ≠ r.tag) (rr kind) :
    (s.readSet k rr kind).2.hit r.tag = some (w, r, p) := by
  obtain ⟨-, hrd⟩ := readSet_sound h rr kind
  unfold SetRead.hit
  refine findSome_unique (w := w) ?_ ?_ ((by decide : ∀ w : WayNo, w ∈ allWays) w)
  · have : Way.seen (s.way k w) = .record r := by unfold Way.seen; rw [h1, h2]; rfl
    rw [hrd w, this, h3]
    exact if_pos rfl
  · intro v hv
    rw [hrd v]
    exact seen_noHit (h4 v hv) v _

/-- The unpinned HIT of a sound set. -/
theorem hit_hitAt {s : State} {k : SetIdx} (h : (s.dirSet k).sound) {w r} (hh : (s.dirSet k).hitAt w r) (rr kind) :
    (s.readSet k rr kind).2.hit r.tag = some (w, r, .none) := hit_pinned h hh.1 hh.2.1 hh.2.2.1 hh.2.2.2 rr kind

/-- The HIT of a sound set that the walker has pinned. -/
theorem hit_walkerHit {s : State} {k : SetIdx} (h : (s.dirSet k).sound) {w r} (hh : (s.dirSet k).walkerHit w r) (rr kind) :
    (s.readSet k rr kind).2.hit r.tag = some (w, r, .walker) := hit_pinned h hh.1 hh.2.1 hh.2.2.1 hh.2.2.2 rr kind

/-- A sound set with no HIT. -/
theorem hit_misses {s : State} {k : SetIdx} (h : (s.dirSet k).sound) {t} (hh : (s.dirSet k).misses t) (rr kind) :
    (s.readSet k rr kind).2.hit t = none := by
  obtain ⟨-, hrd⟩ := readSet_sound h rr kind
  unfold SetRead.hit
  rw [List.findSome?_eq_none_iff]
  intro v _
  rw [hrd v]
  exact seen_noHit (hh v) v _

/-- A sound set has no UNREADABLE way. -/
theorem unreadable_sound {s : State} {k : SetIdx} (h : (s.dirSet k).sound) (rr kind) :
   (s.readSet k rr kind).2.unreadable = [] := by
  obtain ⟨-, hrd⟩ := readSet_sound h rr kind
  unfold SetRead.unreadable
  rw [List.filter_eq_nil_iff]
  intro w _
  rw [hrd w]
  unfold Way.seen
  split
  · simp
  · split <;> simp

/-- The way of a set is read from the directory and the status alone. -/
theorem way_raise (s : State) (c : ErrClass) (r : ErrRec) (k : SetIdx) (w : WayNo) : (s.raise c r).way k w = s.way k w := by
  unfold State.way State.dirSet; simp

/-- The read of a set of which one pinned way alone cannot be read: its event is raised, it is returned as UNREADABLE,
and every other way as it was written (R4, R8). -/
theorem readSet_unreadableAt {s : State} {k : SetIdx} {w : WayNo} {t : DirTag} (h : (s.dirSet k).unreadableAt w t) (rr kind) :
    (s.readSet k rr kind).1 = s.raise .dirUncorrected (dirEvent kind k w (.reader rr))
    ∧ ∀ v, tget (s.readSet k rr kind).2 v = (if v = w then .unreadable else Way.seen (s.way k v), (s.way k v).pin) := by
  obtain ⟨hq, hp, hd, ho⟩ := h
  have hother : ∀ (u : State) (v : WayNo), v ≠ w → u.way k v = s.way k v → u.readWay k v rr kind = (u, Way.seen (s.way k v)) := by
    intro u v hv hu
    obtain ⟨h1, h2, -⟩ := ho v hv
    rw [← hu]
    exact readWay_intact (by rw [hu]; exact h1) (by rw [hu]; exact h2) rr kind
  have hthis : s.readWay k w rr kind = (s.raise .dirUncorrected (dirEvent kind k w (.reader rr)), .unreadable) := by
    unfold State.readWay
    change (s.way k w).quarantined = _ at hq
    change (s.way k w).pin ≠ _ at hp
    change (s.way k w).damage = _ at hd
    generalize s.way k w = x at *
    have hc : x.check = (.uncorrectable, none) := by unfold Way.check; rw [hd]
    simp only [hq, hc, hp, if_false, Bool.false_eq_true]
  set W := fun v : WayNo => ((if v = w then WayRead.unreadable else Way.seen (s.way k v)), (s.way k v).pin) with hW
  have key : ∀ (u : State) (L : List WayNo) (v : SetRead), w ∉ L → (∀ x, u.way k x = s.way k x) → L.foldl
    (fun acc w =>
      let (s', r) := acc.1.readWay k w rr kind
      (s', tset acc.2 w (r, (s.way k w).pin))) (u, v) = (u, L.foldl (fun v w => tset v w (W w)) v) := by
    intro u L
    induction L with
    | nil => intro v _ _; rfl
    | cons a L ih =>
      intro v hL hu
      have ha : a ≠ w := by rintro rfl; exact hL List.mem_cons_self
      rw [List.foldl_cons, hother u a ha (hu a)]
      refine (ih _ (fun g => hL (List.mem_cons_of_mem _ g)) hu).trans ?_
      rw [List.foldl_cons, hW]
      simp only [if_neg ha]
  obtain ⟨A, B, hAB, hA⟩ := List.eq_append_cons_of_mem ((by decide : ∀ w : WayNo, w ∈ allWays) w)
  have hB : w ∉ B := by
    have := (by decide : allWays.Nodup)
    rw [hAB, List.nodup_append] at this
    exact (List.nodup_cons.1 this.2.1).1
  have h0 : s.readSet k rr kind = (s.raise .dirUncorrected (dirEvent kind k w (.reader rr)),
      allWays.foldl (fun v w => tset v w (W w)) (Vector.replicate 8 (.vacant, .none))) := by
    unfold State.readSet
    rw [hAB, List.foldl_append, List.foldl_append, key s A _ hA (fun _ => rfl), List.foldl_cons, List.foldl_cons, hthis]
    refine (key _ B _ hB (fun x => way_raise _ _ _ _ _)).trans ?_
    rw [hW]
    simp only [if_true]
  rw [h0]
  refine ⟨rfl, ?_⟩
  have k2 : ∀ (L : List WayNo) (v : SetRead) (x : WayNo), tget (L.foldl (fun v w => tset v w (W w)) v) x
      = if x ∈ L then W x else tget v x := by
    intro L
    induction L with
    | nil => intro v w; simp
    | cons a L ih =>
      intro v x
      rw [List.foldl_cons, ih, tget_tset]
      by_cases hw : x ∈ L
      · simp [hw]
      · by_cases ha : a = x
        · subst ha; simp
        · simp [hw, ha, Ne.symm ha]
  intro x
  rw [k2, if_pos ((by decide : ∀ w : WayNo, w ∈ allWays) x)]

/-- Such a set gives no HIT for the tag. -/
theorem hit_unreadableAt {s : State} {k : SetIdx} {w : WayNo} {t : DirTag} (h : (s.dirSet k).unreadableAt w t) (rr kind) :
    (s.readSet k rr kind).2.hit t = none := by
  obtain ⟨-, hrd⟩ := readSet_unreadableAt h rr kind
  unfold SetRead.hit
  rw [List.findSome?_eq_none_iff]
  intro v _
  rw [hrd v]
  by_cases hv : v = w
  · rw [if_pos hv]
  · rw [if_neg hv]
    exact seen_noHit (h.2.2.2 v hv).2.2 v _

/-- Such a set has that UNREADABLE way alone. -/
theorem unreadable_unreadableAt {s : State} {k : SetIdx} {w : WayNo} {t : DirTag} (h : (s.dirSet k).unreadableAt w t) (rr kind) :
    (s.readSet k rr kind).2.unreadable = [w] := by
  obtain ⟨-, hrd⟩ := readSet_unreadableAt h rr kind
  unfold SetRead.unreadable
  have : (fun v => decide ((tget (s.readSet k rr kind).2 v).1 = .unreadable)) = fun v => decide (v = w) := by
    funext v
    rw [hrd v]
    by_cases hv : v = w
    · simp [hv]
    · simp only [hv, if_false, decide_false, decide_eq_false_iff_not]
      unfold Way.seen
      split
      · simp
      · split <;> simp
  rw [this]
  clear * -
  revert w
  decide

/-- A set read within a step, as a pair. -/
theorem read_eq (k : Work) (e r) : Work.read k e r = (⟨(k.s.readSet (k.s.setOf e) r (k.s.entry e).kind.msgKind).1, k.stack, k.notices⟩, (k.s.readSet (k.s.setOf e) r (k.s.entry e).kind.msgKind).2) := by
  unfold Work.read
  generalize k.s.readSet (k.s.setOf e) r (k.s.entry e).kind.msgKind = p
  rfl

/-- Activation over a sound set. -/
theorem activate_read {u : State} {e : EntryId} {x : Entry} (he : u.entry e = x) (hp : x.kind.plain = false) (hr : x.kind ≠ .recall)
   (hs : (u.dirSet (LineAddr.set x.line)).sound) (ts ns) :
   Work.activate ⟨u, ts, ns⟩ e = Work.afterRead ⟨u, ts, ns⟩ e (u.readSet (LineAddr.set x.line) .activation x.kind.msgKind).2 := by
  have h : Work.read ⟨u, ts, ns⟩ e .activation = (⟨u, ts, ns⟩, (u.readSet (LineAddr.set x.line) .activation x.kind.msgKind).2) := by
    rw [read_eq]
    have h1 := (readSet_sound hs .activation x.kind.msgKind).1
    simp only [State.setOf, he, h1]
  generalize (u.readSet (LineAddr.set x.line) .activation x.kind.msgKind).2 = rd at h ⊢
  unfold Work.activate
  rw [h]
  simp only [he, hp, if_neg hr]
  rfl

/-- Activation over a sound set with an unpinned HIT. -/
theorem activate_hit {u : State} {e : EntryId} {x : Entry} {w st T} (he : u.entry e = x) (hp : x.kind.plain = false) (hr : x.kind ≠ .recall)
   (hs : (u.dirSet (LineAddr.set x.line)).sound) (hh : (u.dirSet (LineAddr.set x.line)).hitAt w ⟨LineAddr.tag x.line, st, T⟩) (ts ns) :
   Work.activate ⟨u, ts, ns⟩ e = ⟨(u.setPin (LineAddr.set x.line) w (.entry e)).beginWork e (.hit st T) (some w), .checkGather e :: ts, ns⟩ := by
  rw [activate_read he hp hr hs]
  unfold Work.afterRead
  have h := hit_hitAt hs hh .activation x.kind.msgKind
  simp only [he]
  simp only at h
  rw [h]
  simp only [State.setOf, he, Work.begin, Work.mod, Work.push, List.cons_append, List.nil_append]

/-- Activation of work that needs no way, over a sound set with no HIT. -/
theorem activate_miss {u : State} {e : EntryId} {x : Entry} (he : u.entry e = x) (hp : x.kind.plain = false) (hr : x.kind ≠ .recall)
   (hs : (u.dirSet (LineAddr.set x.line)).sound) (hn : x.kind.needsWay = false) (hh : (u.dirSet (LineAddr.set x.line)).misses (LineAddr.tag x.line)) (ts ns) :
   Work.activate ⟨u, ts, ns⟩ e = ⟨u.beginWork e .miss none, .checkGather e :: ts, ns⟩ := by
  rw [activate_read he hp hr hs]
  unfold Work.afterRead
  have h := hit_misses hs hh .activation x.kind.msgKind
  simp only [he]
  rw [h]
  simp only [unreadable_sound hs, hn]
  rfl

/-- An entry that is no member leaves nothing. -/
theorem leaveList_none {s : State} {e} (h : ∀ k ∈ s.wayWait, k.entry ≠ e) : s.leaveList e = s := by
  unfold State.leaveList
  rw [List.filter_eq_self.2]
  intro k hk; simpa using h k hk



variable {s : State} {k : SetIdx} {p : WayNo} {rd : SetRead} {b : Pin} {q : Record}
/-- The walker passes a QUARANTINED way. -/
theorem examine_quarantined (h : s.readSet s.walker.pointer .walker .walker = (s, rd))
    (hy : tget rd s.walker.position = (.quarantined, b)) : (Work.of s).examine = Work.of s.nextWay := by
  unfold Work.examine Work.examineBy; simp only [Work.of, h, hy]; rfl

/-- The walker passes a VACANT way. -/
theorem examine_vacant (h : s.readSet s.walker.pointer .walker .walker = (s, rd))
    (hy : tget rd s.walker.position = (.vacant, .none)) : (Work.of s).examine = Work.of s.nextWay := by
  unfold Work.examine Work.examineBy; simp only [Work.of, h, hy]; rfl

/-- The walker stands still for a pinned VACANT way. -/
theorem examine_pinnedVacant (h : s.readSet s.walker.pointer .walker .walker = (s, rd))
    (hy : tget rd s.walker.position = (.vacant, b)) (hb : b ≠ .none) :
    (Work.of s).examine = Work.of (s.setStall (.way s.walker.position)) := by
  unfold Work.examine Work.examineBy; simp only [Work.of, h, hy]
  clear h hy; cases b <;> first | exact absurd rfl hb | rfl

/-- The walker stands still for a pinned record. -/
theorem examine_pinnedRecord (h : s.readSet s.walker.pointer .walker .walker = (s, rd))
    (hy : tget rd s.walker.position = (.record q, b)) (hb : b ≠ .none) :
    (Work.of s).examine = Work.of (s.setStall (.way s.walker.position)) := by
  unfold Work.examine Work.examineBy; simp only [Work.of, h, hy]
  clear h hy; cases b <;> first | exact absurd rfl hb | rfl

/-- What the walker does over an unpinned record. -/
theorem examine_record (h : s.readSet s.walker.pointer .walker .walker = (s, rd))
    (hy : tget rd s.walker.position = (.record q, .none)) : (Work.of s).examine =
    (if q.sharers &&& s.walker.nodesIn .loss ≠ 0 then
      match q.state with
      | .shared => Work.of (s.writeWay s.walker.pointer s.walker.position
          (some { q with sharers := q.sharers &&& ~~~(q.sharers &&& s.walker.nodesIn .loss) }) .walker)
      | .held => Work.of (s.issuePoison s.walker.pointer s.walker.position q)
    else if q.sharers &&& s.walker.nodesIn .depart ≠ 0 then
      (Work.of s).departWay (q.sharers &&& s.walker.nodesIn .depart)
    else Work.of s.nextWay) := by
  unfold Work.examine Work.examineBy; simp only [Work.of, h, hy]; rfl

/-- What the walker, given a RECALL entry for node d, does over an unpinned record that names no LOSS node: the recall for
d, the wait for one for another DEPART node named, or the next way (R151). -/
theorem examineGiven_record (h : s.readSet s.walker.pointer .walker .walker = (s, rd))
    (hy : tget rd s.walker.position = (.record q, .none)) (hl : q.sharers &&& s.walker.nodesIn .loss = 0) (d : NodeId)
    (rest ts : List Task) (ns : List Notice) :
    Work.examineGiven ⟨s, ts, ns⟩ d rest =
      (if q.sharers &&& s.walker.nodesIn .depart = 0 then ⟨s.nextWay, rest ++ ts, ns⟩
      else if NodeSet.has (q.sharers &&& s.walker.nodesIn .depart) d then
        Work.departRecall ⟨s, ts, ns⟩ s.walker.pointer s.walker.position q (q.sharers &&& s.walker.nodesIn .depart) d
      else ⟨s.setStall (.reserve (NodeSet.holder (q.sharers &&& s.walker.nodesIn .depart))), rest ++ ts, ns⟩) := by
  unfold Work.examineGiven Work.examineBy
  simp only [h, hy, hl, ne_eq, not_true_eq_false, if_false, ite_not]
  rfl

end Sys2Proof.Machine
end

