-- ==== Sys2Proof/Laws/Walk.lean ====
section
/-! SUPPORT. The Reclaim Walker's records: how one ends, what the end of a set leaves, and what a recall's return to its
node's record does. -/

namespace Sys2Proof.Machine

-- One proof at a time: many at once reserve more stacks than the memory limit allows.
set_option Elab.async false


/-- The record of a node after another's is replaced. -/
theorem record_setRecord (x : Walker) (n m : NodeId) (r : Option WalkRec) :
    (x.setRecord n r).record m = if n = m then r else x.record m := tget_tset _ _ _ _

/-- The end of one node's record leaves another's node and record. -/
theorem finishRecord_other (s : State) {n m : NodeId} (h : n ≠ m) :
    (s.finishRecord n).walker.record m = s.walker.record m ∧ (s.finishRecord n).node m = s.node m := by
  unfold State.finishRecord
  cases hr : s.walker.record n with
  | none => exact ⟨rfl, rfl⟩
  | some r =>
    simp only
    split
    · refine ⟨?_, ?_⟩
      · show (Walker.setRecord _ n none).record m = _
        rw [record_setRecord, if_neg h]
        cases r.mode <;> simp only [State.send] <;> (try split) <;> rfl
      · cases r.mode <;> simp only [State.send] <;> (try split) <;> first | rfl | exact tget_tset_ne _ _ h
    · exact ⟨rfl, rfl⟩

/-- The end of a record leaves the pointer, the position and the stall. -/
theorem finishRecord_walker (s : State) (n : NodeId) :
    (s.finishRecord n).walker = { s.walker with records := (s.finishRecord n).walker.records } := by
  unfold State.finishRecord
  cases hr : s.walker.record n with
  | none => rfl
  | some r =>
    simp only
    split
    · cases r.mode <;> simp only [State.send] <;> (try split) <;> rfl
    · rfl

/-- The end of a record changes the nodes and the walker alone. -/
theorem finishRecord_rest (s : State) (n : NodeId) :
    { s.finishRecord n with nodes := s.nodes, walker := s.walker } = s := by
  unfold State.finishRecord
  cases hr : s.walker.record n with
  | none => rfl
  | some r =>
    simp only
    split
    · cases r.mode <;> simp only [State.send] <;> (try split) <;> rfl
    · rfl

/-- Records that end one after another end each as if alone. -/
theorem finishRecord_fold (n : NodeId) : ∀ (L : List NodeId) (s : State), L.Nodup →
    (n ∈ L → (L.foldl State.finishRecord s).walker.record n = (s.finishRecord n).walker.record n
      ∧ (L.foldl State.finishRecord s).node n = (s.finishRecord n).node n)
    ∧ (n ∉ L → (L.foldl State.finishRecord s).walker.record n = s.walker.record n
      ∧ (L.foldl State.finishRecord s).node n = s.node n) := by
  have own : ∀ (s u : State), u.walker.record n = s.walker.record n → u.node n = s.node n →
      (u.finishRecord n).walker.record n = (s.finishRecord n).walker.record n ∧ (u.finishRecord n).node n = (s.finishRecord n).node n := by
    intro s u h1 h2
    unfold State.finishRecord
    rw [h1]
    cases hr : s.walker.record n with
    | none => exact ⟨h1.trans hr |>.trans hr.symm, h2⟩
    | some r =>
      simp only
      split
      · refine ⟨?_, ?_⟩
        · show (Walker.setRecord _ n none).record n = (Walker.setRecord _ n none).record n
          rw [record_setRecord, record_setRecord]
          simp
        · cases r.mode <;> simp only [State.send, h2] <;> (try split) <;> first
            | exact h2
            | (show tget (tset _ _ _) _ = tget (tset _ _ _) _
               rw [tget_tset_same, tget_tset_same, h2])
      · exact ⟨h1, h2⟩
  intro L
  induction L with
  | nil => intro s _; exact ⟨(by simp), fun _ => ⟨rfl, rfl⟩⟩
  | cons a L ih =>
    intro s hnd
    rw [List.nodup_cons] at hnd
    obtain ⟨i1, i2⟩ := ih (s.finishRecord a) hnd.2
    rw [List.foldl_cons]
    refine ⟨?_, ?_⟩
    · intro h
      by_cases ha : a = n
      · subst ha; exact i2 hnd.1
      · have hL : n ∈ L := by rcases List.mem_cons.1 h with g | g; exacts [absurd g.symm ha, g]
        obtain ⟨o1, o2⟩ := finishRecord_other s ha
        obtain ⟨j1, j2⟩ := i1 hL
        obtain ⟨k1, k2⟩ := own s _ o1 o2
        exact ⟨j1.trans k1, j2.trans k2⟩
    · intro h
      rw [List.mem_cons, not_or] at h
      obtain ⟨o1, o2⟩ := finishRecord_other s (Ne.symm h.1)
      obtain ⟨j1, j2⟩ := i2 h.2
      exact ⟨j1.trans o1, j2.trans o2⟩

/-- Records that end leave all but the nodes and the walk records. -/
theorem foldFinish_rest : ∀ (L : List NodeId) (s : State),
    { L.foldl State.finishRecord s with nodes := s.nodes, walker := s.walker } = s
    ∧ (L.foldl State.finishRecord s).walker = { s.walker with records := (L.foldl State.finishRecord s).walker.records } := by
  intro L
  induction L with
  | nil => intro s; exact ⟨rfl, rfl⟩
  | cons a L ih =>
    intro s
    obtain ⟨h1, h2⟩ := ih (s.finishRecord a)
    rw [List.foldl_cons]
    refine ⟨?_, ?_⟩
    · have := congrArg (fun u : State => { u with nodes := s.nodes, walker := s.walker }) h1
      exact this.trans (finishRecord_rest s a)
    · have h3 := finishRecord_walker s a
      rw [h2]
      generalize (s.finishRecord a).walker = x at h3 ⊢
      rw [h3]

/-- The walker's last way of a set finishes the set (R152). -/
theorem nextWay_finishes (s : State) (h : s.walker.position = 7) : FinishedSet s s.nextWay := by
  unfold State.nextWay
  rw [if_pos h]
  unfold State.finishSet
  extract_lets x u
  have hu : ∀ n, u.walker.record n = (s.walker.record n).map WalkRec.afterSet := by
    intro n
    show tget (Vector.map _ _) n = _
    simp [tget, Walker.record, x]
  have hun : ∀ n, u.node n = s.node n := fun _ => rfl
  obtain ⟨r1, r2⟩ := foldFinish_rest allNodes u
  have hf : ∀ n, (allNodes.foldl State.finishRecord u).walker.record n = (u.finishRecord n).walker.record n
      ∧ (allNodes.foldl State.finishRecord u).node n = (u.finishRecord n).node n := by
    intro n
    exact (finishRecord_fold n allNodes u (by decide)).1 ((by decide : ∀ n : NodeId, n ∈ allNodes) n)
  generalize allNodes.foldl State.finishRecord u = t at r1 r2 hf
  refine ⟨by rw [r2], by rw [r2], by rw [r2], ?_, ?_, ?_⟩
  · intro n hn
    obtain ⟨f1, f2⟩ := hf n
    rw [f1, f2]
    have := hu n
    rw [hn] at this
    unfold State.finishRecord
    rw [this]
    exact ⟨this, rfl⟩
  · intro n r hn
    obtain ⟨f1, f2⟩ := hf n
    have h0 := hu n
    rw [hn] at h0
    have h0' : u.walker.record n = some r.afterSet := h0
    have stay : ¬(r.afterSet.remaining = 0 ∧ r.afterSet.recalls = 0) → t.walker.record n = some r.afterSet ∧ t.node n = s.node n := by
      intro hc
      rw [f1, f2]
      unfold State.finishRecord
      rw [h0']
      simp only [hc, if_false]
      exact ⟨h0', rfl⟩
    refine ⟨?_, ?_, ?_⟩
    · intro hj hz
      have : r.afterSet = { r with joining := false } := by unfold WalkRec.afterSet; rw [if_pos hj]
      rw [this] at stay
      exact stay (by simp [hz])
    · intro hj hz
      have : r.afterSet = { r with remaining := r.remaining - 1 } := by unfold WalkRec.afterSet; simp [hj]
      rw [this] at stay
      refine stay ?_
      rintro ⟨a, b⟩
      simp only at a b
      rcases hz with g | g
      · omega
      · exact g b
    · intro hj hz hc
      have ha : r.afterSet = { r with remaining := r.remaining - 1 } := by unfold WalkRec.afterSet; simp [hj]
      have hd : r.afterSet.remaining = 0 ∧ r.afterSet.recalls = 0 := by rw [ha]; simp [hz, hc]
      have hm : r.afterSet.mode = r.mode := by rw [ha]
      have hlt : r.afterSet.leaveTag = r.leaveTag := by rw [ha]
      rw [f1, f2]
      unfold State.finishRecord
      rw [h0']
      simp only [hd, hm, hlt, and_self, if_true]
      refine ⟨?_, ?_, ?_⟩
      · show (Walker.setRecord _ n none).record n = _
        rw [record_setRecord, if_pos rfl]
      · intro hm hl
        simp only [hm, State.send]
        rw [if_neg (by rw [hun]; exact hl)]
        show tget (tset _ _ _) _ = _
        rw [tget_tset_same]; rfl
      · intro hm
        simp only [hm]
        show tget (tset _ _ _) _ = _
        rw [tget_tset_same]; rfl
  · have := congrArg (fun v : State => { v with nodes := s.nodes, walker := s.walker }) r1
    exact this

/-- A recall's return leaves the directory out of account. -/
theorem recallReturned_dir (z : State) (D : Directory) (d : NodeId) :
    State.recallReturned { z with dir := D } d = { z.recallReturned d with dir := D } := by
  unfold State.recallReturned
  show (match z.walker.record d with | none => _ | some r => _) = _
  cases z.walker.record d with
  | none => rfl
  | some r =>
    show State.finishRecord { z.setRecord d _ with dir := D } d = { State.finishRecord (z.setRecord d _) d with dir := D }
    generalize z.setRecord d (some { r with recalls := r.recalls - 1 }) = y
    unfold State.finishRecord
    show (match y.walker.record d with | none => _ | some r => _) = _
    cases y.walker.record d with
    | none => rfl
    | some q =>
      simp only
      split
      · cases q.mode
        · simp only [State.send]
          show State.setRecord (if (y.node d).link = .down then _ else _) d none = _
          split <;> rfl
        · rfl
      · rfl
/-- A recall's return changes the nodes and the walk records alone. -/
theorem recallReturned_rest (z : State) (d : NodeId) :
    z.recallReturned d = { z with nodes := (z.recallReturned d).nodes, walker := (z.recallReturned d).walker }
      ∧ (z.recallReturned d).walker.stall = z.walker.stall := by
  unfold State.recallReturned
  cases z.walker.record d with
  | none => exact ⟨rfl, rfl⟩
  | some r =>
    simp only
    have h1 := finishRecord_rest (z.setRecord d (some { r with recalls := r.recalls - 1 })) d
    have h2 := finishRecord_walker (z.setRecord d (some { r with recalls := r.recalls - 1 })) d
    generalize State.finishRecord (z.setRecord d (some { r with recalls := r.recalls - 1 })) d = y at h1 h2
    refine ⟨?_, ?_⟩
    · have := congrArg (fun u : State => { u with nodes := y.nodes, walker := y.walker }) h1
      exact this
    · rw [h2]; rfl

end Sys2Proof.Machine
end

