-- ==== Sys2Proof/Laws/Work.lean ====
section
/-! SUPPORT. Whole stretches of one step: the probes an entry makes, a request admitted and activated over a sound set,
an entry that seeks a way, and the completion of an entry that holds one. -/

namespace Sys2Proof.Machine

-- One proof at a time: many at once reserve more stacks than the memory limit allows.
set_option Elab.async false

/-- A table given entry by entry, read. -/
@[simp] theorem tget_ofFn {α : Type} {k : Nat} (f : Fin k → α) (i : Fin k) : tget (Vector.ofFn f) i = f i := by
  simp [tget]

/-- Two tables alike at every index. -/
theorem table_ext {α : Type} {k : Nat} {v w : Vector α k} (h : ∀ i, tget v i = tget w i) : v = w := by
  apply Vector.ext
  intro i hi
  exact h ⟨i, hi⟩

/-! ## Probes -/

/-- The record of a probe just made (R29). -/
def madeProbe (k : ProbeKind) : Probe :=
  { kind := some k, status := .queuedOut, sends := 1, answers := 0, timer := .stopped, waitEnded := false }

variable (d : State) (ns : Vector Node 4) (es : Vector Entry 48) (e : EntryId) (X : Entry) (q : List PoolOp)

theorem form_makeProbe (k : ProbeKind) (m : NodeId) (hj : (tget ns m).joined = true) (hl : (tget ns m).link ≠ .down) :
    (State.form d ns es e X q).makeProbe e k m
      = State.form d (tset ns m { tget ns m with outQ := (tget ns m).outQ ++ [.probe k e X.line] }) es e
        (X.setProbe m (madeProbe k)) q := by
  unfold State.makeProbe
  rw [if_pos (by exact hj), form_mod, form_entry, form_send _ _ _ _ _ _ _ _ hl]
  rfl

/-- The probes an entry makes to the nodes of a list that stand in a set. -/
theorem form_probes (k : ProbeKind) (t : NodeSet) : ∀ (L : List NodeId) (ns : Vector Node 4) (X : Entry), L.Nodup →
    (∀ m ∈ L, NodeSet.has t m = true → (tget ns m).joined = true ∧ (tget ns m).link ≠ .down) →
    (L.filter (NodeSet.has t)).foldl (fun s n => s.makeProbe e k n) (State.form d ns es e X q)
      = State.form d
        (Vector.ofFn (fun m => if m ∈ L ∧ NodeSet.has t m = true then
          { tget ns m with outQ := (tget ns m).outQ ++ [.probe k e X.line] } else tget ns m)) es e
        { X with probes := Vector.ofFn (fun m => if m ∈ L ∧ NodeSet.has t m = true then madeProbe k else X.probe m) } q := by
  intro L
  induction L with
  | nil =>
    intro ns X _ _
    have h1 : (Vector.ofFn fun m => tget ns m) = ns := table_ext (by simp)
    have h2 : (Vector.ofFn fun m => X.probe m) = X.probes := table_ext (by simp [Entry.probe])
    simp [h1, h2]
  | cons a L ih =>
    intro ns X hn h
    obtain ⟨ha, hn⟩ := List.nodup_cons.1 hn
    cases hp : NodeSet.has t a with
    | false =>
      rw [List.filter_cons_of_neg (by simp [hp]), ih ns X hn (fun m hm => h m (List.mem_cons_of_mem _ hm))]
      have : ∀ m, (m ∈ L ∧ NodeSet.has t m = true) ↔ (m ∈ a :: L ∧ NodeSet.has t m = true) := by
        intro m
        constructor
        · exact fun g => ⟨List.mem_cons_of_mem _ g.1, g.2⟩
        · rintro ⟨g1, g2⟩
          rcases List.mem_cons.1 g1 with rfl | g
          · rw [hp] at g2; cases g2
          · exact ⟨g, g2⟩
      simp only [this]
    | true =>
      obtain ⟨hj, hl⟩ := h a List.mem_cons_self hp
      rw [List.filter_cons_of_pos hp, List.foldl_cons, form_makeProbe _ _ _ _ _ _ _ _ hj hl, ih _ _ hn]
      · congr 1
        · apply table_ext
          intro m
          simp only [tget_ofFn, tget_tset, List.mem_cons]
          by_cases hma : a = m
          · subst hma; simp [ha, hp]
          · have hma' : m ≠ a := fun g => hma g.symm
            simp [hma, hma']
            rfl
        · have : ∀ v w : Vector Probe 4, v = w → ({ X with probes := v } : Entry) = { X with probes := w } := by
            intro v w g; rw [g]
          apply this
          apply table_ext
          intro m
          simp only [tget_ofFn, List.mem_cons, Entry.probe, Entry.setProbe, tget_tset]
          by_cases hma : a = m
          · subst hma; simp [ha, hp]
          · have hma' : m ≠ a := fun g => hma g.symm
            simp [hma, hma']
      · intro m hm hpm
        have hne : a ≠ m := fun g => ha (g ▸ hm)
        rw [tget_tset_ne _ _ hne]
        exact h m (List.mem_cons_of_mem _ hm) hpm

/-- The probes to every node of a set. -/
theorem form_dropAll (t : NodeSet)
    (h : ∀ m, NodeSet.has t m = true → (tget ns m).joined = true ∧ (tget ns m).link ≠ .down) :
    (State.form d ns es e X q).dropAll e t = (State.form d ns es e X q).probing e X .drop t := by
  unfold State.dropAll NodeSet.members
  rw [form_probes d es e q .drop t allNodes ns X (by decide) (fun m _ => h m)]
  have : ∀ m : NodeId, m ∈ allNodes := by decide
  simp only [this, true_and]
  simp only [State.probing, State.form, State.node, tset_tset_same]
  rfl

/-- A probe to the one node of a set. -/
theorem form_probeOne (k : ProbeKind) (m : NodeId) (hj : (tget ns m).joined = true) (hl : (tget ns m).link ≠ .down) :
    (State.form d ns es e X q).makeProbe e k m
      = (State.form d ns es e X q).probing e X k (NodeSet.single m) := by
  rw [form_makeProbe d ns es e X q k m hj hl]
  have hb : ∀ m j : NodeId, NodeSet.has (NodeSet.single m) j = decide (m = j) := by decide
  simp only [State.probing, State.form, State.node, tset_tset_same, hb, decide_eq_true_eq]
  have h1 : tset ns m { tget ns m with outQ := (tget ns m).outQ ++ [.probe k e X.line] }
      = Vector.ofFn (fun j => if m = j then
        { tget ns j with outQ := (tget ns j).outQ ++ [.probe k e X.line] } else tget ns j) := by
    apply table_ext
    intro j
    rw [tget_ofFn, tget_tset]
    by_cases g : m = j
    · subst g; simp
    · simp [g]
  have h2 : tset X.probes m (madeProbe k) = Vector.ofFn (fun j => if m = j then madeProbe k else X.probe j) := by
    apply table_ext
    intro j
    rw [tget_ofFn, tget_tset]
    rfl
  rw [h1]
  unfold Entry.setProbe
  rw [h2]
  rfl

/-- An entry with a probe just made to some node has not ended GATHER. -/
theorem probing_unanswered {s : State} {x : Entry} {k : ProbeKind} {t : NodeSet} {m : NodeId}
    (h : NodeSet.has t m = true) : (((s.probing e x k t).entry e).probe m).unanswered = true := by
  simp [State.probing, State.entry, Entry.probe, h, Probe.unanswered]

/-- A set that is not empty has a node. -/
theorem exists_has {t : NodeSet} (h : t ≠ 0) : ∃ m, NodeSet.has t m = true := by revert t; decide

/-! ## A request admitted -/

/-- The admission of a request leaves every membership. -/
@[simp] theorem takeRequest_joined (s : State) (n m : NodeId) :
    ((s.takeRequest n).node m).joined = (s.node m).joined := by
  have : ((s.takeRequest n).node m).membership = (s.node m).membership := by
    rw [node_takeRequest]
    by_cases h : m = n
    · simp [h, Node.served]
    · by_cases g : (s.eligibleRequest m).isSome = true
      · simp only [h, g, if_false, if_true]; unfold Node.passedOver; split <;> rfl
      · simp [h, g]
  unfold Node.joined
  rw [this]

/-- A coherent request that is admitted for a line with no active entry is placed in its entry and activates. -/
theorem exec_coherent {s : State} {n : NodeId} {tag : Tag} {l : LineAddr} {c : Instr} {b : ReqBody} {kind : WorkKind}
    (hc : (c, b, kind) ∈ coherentRequests l) (ha : s.admits n tag b l e) :
    exec c s = settle ⟨(s.takeRequest n).setEntry e (requestEntry kind n tag l false 0 0), [.activate e], []⟩ := by
  obtain ⟨hch, hdr, hfe, hao, -, -⟩ := ha
  have hte : (s.takeRequest n).entries = s.entries := rfl
  have key : (s.takeRequest n).admitLine n tag kind l
      = ⟨(s.takeRequest n).setEntry e (requestEntry kind n tag l false 0 0), [.activate e], []⟩ := allocate_eq hte hfe hao
  rw [← key]
  simp only [coherentRequests, List.mem_cons, Prod.mk.injEq, List.not_mem_nil, or_false] at hc
  rcases hc with ⟨rfl, rfl, rfl⟩ | ⟨rfl, rfl, rfl⟩ | ⟨rfl, rfl, rfl⟩ | ⟨rfl, rfl, rfl⟩
  · simp only [exec, execFetchS, damaged_nil]; exact admitRequest_passed hch hdr rfl
  · simp only [exec, execFetchH, damaged_nil]; exact admitRequest_passed hch hdr rfl
  · simp only [exec, execUpgrade, damaged_nil]; exact admitRequest_passed hch hdr rfl
  · simp only [exec, execFlush, damaged_nil]; exact admitRequest_passed hch hdr rfl

/-- The kinds of the coherent requests. -/
theorem coherent_kind {l : LineAddr} {c : Instr} {b : ReqBody} {kind : WorkKind}
    (hc : (c, b, kind) ∈ coherentRequests l) :
    kind = .fetchS ∨ kind = .fetchH ∨ kind = .upgrade ∨ kind = .flush := by
  simp only [coherentRequests, List.mem_cons, Prod.mk.injEq, List.not_mem_nil, or_false] at hc
  rcases hc with ⟨-, -, rfl⟩ | ⟨-, -, rfl⟩ | ⟨-, -, rfl⟩ | ⟨-, -, rfl⟩ <;> simp

/-- An activation over a sound set with an unpinned HIT: the entry pins the way and its work starts with the record as
its snapshot. -/
theorem exec_hit {s : State} {n : NodeId} {tag : Tag} {l : LineAddr} {c : Instr} {b : ReqBody} {kind : WorkKind}
    {w : WayNo} {st : DirState} {T : NodeSet} (hc : (c, b, kind) ∈ coherentRequests l) (ha : s.admits n tag b l e)
    (hs : (s.dirSet (LineAddr.set l)).sound) (hh : (s.dirSet (LineAddr.set l)).hitAt w ⟨LineAddr.tag l, st, T⟩)
    {fuel : Nat} {t : State} (hf : fuel + 1 ≤ Config.settleBound)
    (hr : Work.run fuel ⟨(State.form ((s.takeRequest n).setPin (LineAddr.set l) w (.entry e)) (s.takeRequest n).nodes
        s.entries e { Entry.asked kind n tag l with
          phase := .gather, kind := decidedKind kind n (.hit st T), way := some w, snapshot := some (.hit st T) }
        s.poolQueue).startWork e, [.checkGather e], []⟩ = some t) :
    exec c s = .next t := by
  rw [exec_coherent e hc ha]
  refine settle_eq hf ?_
  rw [run_task]
  have he : ((s.takeRequest n).setEntry e (requestEntry kind n tag l false 0 0)).entry e
      = requestEntry kind n tag l false 0 0 := by simp [State.setEntry, State.entry]
  show Work.run fuel (Work.activate _ e) = _
  have hk := coherent_kind hc
  rw [activate_hit he (by rcases hk with rfl | rfl | rfl | rfl <;> rfl)
    (by rcases hk with rfl | rfl | rfl | rfl <;> simp [requestEntry]) (by exact hs) (w := w) (st := st) (T := T)
    (by exact hh)]
  rw [← hr]
  unfold State.beginWork State.leaveWait
  rw [leaveList_none (by exact ha.2.2.2.2.1)]
  have hF : (((s.takeRequest n).setEntry e (requestEntry kind n tag l false 0 0)).setPin
      (LineAddr.set (requestEntry kind n tag l false 0 0).line) w (.entry e))
      = State.form ((s.takeRequest n).setPin (LineAddr.set l) w (.entry e)) (s.takeRequest n).nodes s.entries e
        (requestEntry kind n tag l false 0 0) s.poolQueue := rfl
  rw [hF, form_mod]
  rfl

/-- The probes asked for are out, and the step is over. -/
theorem run_probing {s : State} {x : Entry} {k : ProbeKind} {t : NodeSet} (ht : t ≠ 0) (q : List PoolOp) (fuel : Nat) :
    Work.run (fuel + 1) ⟨{ s.probing e x k t with poolQueue := q }, [.checkGather e], []⟩
      = some { s.probing e x k t with poolQueue := q } := by
  obtain ⟨m, hm⟩ := exists_has ht
  have : (Task.checkGather e).idle ({ s.probing e x k t with poolQueue := q } : State) :=
    idle_checkGather (.inr (gatherDone_false (probing_unanswered (s := s) (x := x) (k := k) e hm)))
  rw [run_task, this _ rfl, run_rest]

/-- The one node of a set is its holder. -/
theorem holder_single (m : NodeId) : NodeSet.holder (NodeSet.single m) = m := by revert m; decide

/-- The one node of a set stands in it. -/
theorem has_single (m j : NodeId) : NodeSet.has (NodeSet.single m) j = decide (m = j) := by revert m j; decide

/-- An entry waits for its origin's own return where no return stands in its line's chain (R68, R71). -/
theorem form_await (m : NodeId) (hs : X.successor = none) :
    (State.form d ns es e X q).await e m = State.form d ns es e { X with
      awaited := some m
      returnTimer := if (tget ns m).link = .retraining then .frozen d.waitSpan else .running d.waitSpan } q := by
  have hq : (State.form d ns es e X q).queuedReturn e m = none := by
    unfold State.queuedReturn
    have : (State.form d ns es e X q).chainAfter 48 e = [] := by
      unfold State.chainAfter
      rw [form_entry, hs]
    rw [this]
    rfl
  unfold State.await
  rw [hq]
  simp only [form_mod]
  rfl

/-! ## A set read for a way -/

/-- What a read of a sound set returns for a way a seeker may take. -/
theorem seen_free {x : Way} : (x.seen, x.pin) = (WayRead.vacant, Pin.none) ↔ x.free := by
  unfold Way.seen Way.free
  rw [Prod.mk.injEq]
  cases hq : x.quarantined
  · cases hw : x.written <;> simp
  · simp

/-- The way a seeker takes from a sound set. -/
theorem freeWay_first {s : State} {k : SetIdx} (h : (s.dirSet k).sound) {w : WayNo}
    (hw : (s.dirSet k).first Way.free w) (rr kind) :
    (s.readSet k rr kind).2.freeWay (s.dirSet k).order = some w := by
  obtain ⟨-, hrd⟩ := readSet_sound h rr kind
  obtain ⟨h1, before, after, ho, hb⟩ := hw
  unfold SetRead.freeWay
  rw [ho, List.find?_append, List.find?_eq_none.2, Option.none_or, List.find?_cons_of_pos]
  · rw [decide_eq_true_eq, hrd]; exact seen_free.2 h1
  · intro v hv
    rw [decide_eq_true_eq, hrd]
    exact fun g => hb v hv (seen_free.1 g)

/-- A sound set no way of which a seeker may take. -/
theorem freeWay_none {s : State} {k : SetIdx} (h : (s.dirSet k).sound) (hw : ∀ w, ¬(s.way k w).free) (rr kind order) :
    (s.readSet k rr kind).2.freeWay order = none := by
  obtain ⟨-, hrd⟩ := readSet_sound h rr kind
  unfold SetRead.freeWay
  rw [List.find?_eq_none]
  intro v _
  rw [decide_eq_true_eq, hrd]
  exact fun g => hw v (seen_free.1 g)

/-- What a read of a sound set returns of a way for a recall. -/
theorem recallable_seen {s : State} {k : SetIdx} (h : (s.dirSet k).sound) (rr kind) (w : WayNo) :
    (∀ r, (s.way k w).recallable → (s.way k w).written = some r →
      (s.readSet k rr kind).2.recallable w = some r)
    ∧ (¬(s.way k w).recallable → (s.readSet k rr kind).2.recallable w = none) := by
  obtain ⟨-, hrd⟩ := readSet_sound h rr kind
  unfold SetRead.recallable
  rw [hrd w]
  generalize s.way k w = x
  unfold Way.recallable Way.seen
  constructor
  · rintro r ⟨h1, h2, -⟩ h3
    simp [h1, h2, h3]
  · intro hx
    cases hq : x.quarantined
    · cases hw : x.written with
      | none => simp
      | some r =>
        cases hp : x.pin with
        | none => exact absurd ⟨hq, hp, by simp [hw]⟩ hx
        | entry e => simp
        | walker => simp
    · simp

/-- The victim of a sound set. -/
theorem victim_first {s : State} {k : SetIdx} (h : (s.dirSet k).sound) {w : WayNo} {r : Record}
    (hw : (s.dirSet k).first Way.recallable w) (hr : (s.way k w).written = some r) (rr kind) :
    (s.readSet k rr kind).2.victim (s.dirSet k).order = some (w, r) := by
  obtain ⟨h1, before, after, ho, hb⟩ := hw
  unfold SetRead.victim
  rw [ho, List.findSome?_append, List.findSome?_eq_none_iff.2, Option.none_or, List.findSome?_cons]
  · rw [(recallable_seen h rr kind w).1 r h1 hr]; rfl
  · intro v hv
    rw [(recallable_seen h rr kind v).2 (hb v hv)]; rfl

/-- A sound set without a victim. -/
theorem victim_none {s : State} {k : SetIdx} (h : (s.dirSet k).sound) (hw : ∀ w, ¬(s.way k w).recallable)
    (rr kind order) : (s.readSet k rr kind).2.victim order = none := by
  unfold SetRead.victim
  rw [List.findSome?_eq_none_iff]
  intro v _
  rw [(recallable_seen h rr kind v).2 (hw v)]; rfl

/-- Whether a sound set reads as QUARANTINED throughout. -/
theorem allQuarantined_sound {s : State} {k : SetIdx} (h : (s.dirSet k).sound) (rr kind) :
    (s.readSet k rr kind).2.allQuarantined = true ↔ ∀ w, (s.way k w).quarantined = true := by
  obtain ⟨-, hrd⟩ := readSet_sound h rr kind
  have hm : ∀ w : WayNo, w ∈ allWays := by decide
  unfold SetRead.allQuarantined
  rw [List.all_eq_true]
  have : ∀ w, ((tget (s.readSet k rr kind).2 w).1 = .quarantined) ↔ (s.way k w).quarantined = true := by
    intro w
    rw [hrd w]
    generalize s.way k w = x
    unfold Way.seen
    cases hq : x.quarantined
    · cases hw : x.written <;> simp
    · simp
  simp only [decide_eq_true_eq]
  exact ⟨fun g w => (this w).1 (g w (hm w)), fun g w _ => (this w).2 (g w)⟩

/-! ## Seeking a way -/

/-- An entry that is no member joins the list at its tail. -/
theorem setCond_joins {ms : List Member} {c : WaitCond} (h : ∀ m ∈ ms, m.entry ≠ e) : setCond ms e c = ms ++ [⟨e, c⟩] := by
  unfold setCond
  rw [if_neg]
  simpa using h

/-- The last member takes another condition. -/
theorem setCond_last {ms : List Member} {c c' : WaitCond} (h : ∀ m ∈ ms, m.entry ≠ e) :
    setCond (ms ++ [⟨e, c⟩]) e c' = ms ++ [⟨e, c'⟩] := by
  unfold setCond
  rw [if_pos (by simp), List.map_append]
  congr 1
  · conv_rhs => rw [← List.map_id ms]
    apply List.map_congr_left
    intro m hm
    rw [if_neg (h m hm)]; rfl
  · simp

theorem form_wait (c : WaitCond) : (State.form d ns es e X q).wait e c
    = State.form { d with wayWait := setCond d.wayWait e c } ns es e { X with phase := .wayWait } q := by
  unfold State.wait
  have : ({ State.form d ns es e X q with wayWait := setCond (State.form d ns es e X q).wayWait e c } : State)
      = State.form { d with wayWait := setCond d.wayWait e c } ns es e X q := rfl
  rw [this, form_mod]

/-- No running recall has e for its beneficiary. -/
theorem form_dropBeneficiary (hX : X.kind ≠ .recall)
    (h : ∀ f, f ≠ e → (tget es f).phase ≠ .free → (tget es f).kind = .recall → (tget es f).beneficiary ≠ some e) :
    (State.form d ns es e X q).recallFor e = none
    ∧ (State.form d ns es e X q).dropBeneficiary e = State.form d ns es e X q := by
  have : (State.form d ns es e X q).recallFor e = none := by
    unfold State.recallFor
    rw [List.find?_eq_none]
    intro f _
    by_cases hf : f = e
    · subst hf; rw [form_entry]; simp [hX]
    · rw [form_entry_ne _ _ _ _ _ _ hf]
      have := h f hf
      simp only [Entry.inUse, Bool.and_eq_true, decide_eq_true_eq]
      exact fun g => this g.1.1 g.1.2 g.2
  refine ⟨this, ?_⟩
  unfold State.dropBeneficiary
  rw [this]

/-- A member other than e is of the set its line is of. -/
theorem form_setOf {s : State} (hes : es = s.entries) {f : EntryId} (hf : f ≠ e) :
    (State.form d ns es e X q).setOf f = s.setOf f := by
  unfold State.setOf
  rw [form_entry_ne _ _ _ _ _ _ hf, hes]; rfl

/-- The last of the list is its set's oldest seeker exactly where nobody sought a way of the set before it. -/
theorem form_oldest {s : State} {c : WaitCond} (hes : es = s.entries) (hm : ∀ m ∈ s.wayWait, m.entry ≠ e)
    (hw : d.wayWait = s.wayWait ++ [⟨e, c⟩]) (hc : c.seeks = true) :
    ((∀ m ∈ s.wayWait, m.cond.seeks = true → s.setOf m.entry ≠ LineAddr.set X.line) →
      (State.form d ns es e X q).oldestSeeker (LineAddr.set X.line) = some ⟨e, c⟩
      ∧ (State.form d ns es e X q).demoteOthers (LineAddr.set X.line) e = State.form d ns es e X q)
    ∧ ((∃ m ∈ s.wayWait, m.cond.seeks = true ∧ s.setOf m.entry = LineAddr.set X.line) →
      ((State.form d ns es e X q).oldestSeeker (LineAddr.set X.line)).map Member.entry ≠ some e) := by
  have hwl : (State.form d ns es e X q).wayWait = s.wayWait ++ [⟨e, c⟩] := hw
  have hse : ∀ m ∈ s.wayWait, (State.form d ns es e X q).setOf m.entry = s.setOf m.entry :=
    fun m h => form_setOf d ns es e X q hes (hm m h)
  constructor
  · intro h
    constructor
    · unfold State.oldestSeeker
      rw [hwl, List.find?_append, List.find?_eq_none.2, Option.none_or]
      · have : (State.form d ns es e X q).setOf e = LineAddr.set X.line := by unfold State.setOf; rw [form_entry]
        simp [hc, this]
      · intro m g
        simp only [Bool.and_eq_true, decide_eq_true_eq]
        rw [hse m g]
        exact fun k => h m g k.1 k.2
    · unfold State.demoteOthers
      have : ((State.form d ns es e X q).wayWait.map (fun m =>
          if m.cond.seeks ∧ m.entry ≠ e ∧ (State.form d ns es e X q).setOf m.entry = LineAddr.set X.line then
            { m with cond := .behind } else m)) = (State.form d ns es e X q).wayWait := by
        conv_rhs => rw [← List.map_id (State.form d ns es e X q).wayWait]
        apply List.map_congr_left
        intro m g
        rw [hwl, List.mem_append, List.mem_singleton] at g
        rcases g with g | rfl
        · rw [hse m g, if_neg (fun k => h m g k.1 k.2.2)]; rfl
        · rw [if_neg (by simp)]; rfl
      rw [this]
  · rintro ⟨m, g, hms, hmk⟩
    unfold State.oldestSeeker
    rw [hwl, List.find?_append]
    cases hf : s.wayWait.find? (fun m => m.cond.seeks
        && decide ((State.form d ns es e X q).setOf m.entry = LineAddr.set X.line)) with
    | none =>
      rw [List.find?_eq_none] at hf
      have := hf m g
      rw [hse m g, hmk, hms] at this
      simp at this
    | some a =>
      have := hm a (List.mem_of_find?_eq_some hf)
      simp [this]

/-- Where nobody seeks a way of a set, nobody is its oldest seeker. -/
theorem form_oldest_none {s : State} (hes : es = s.entries) (hm : ∀ m ∈ s.wayWait, m.entry ≠ e) {k : SetIdx}
    (hw : d.wayWait = s.wayWait) (h : ∀ m ∈ s.wayWait, m.cond.seeks = true → s.setOf m.entry ≠ k) :
    (State.form d ns es e X q).oldestSeeker k = none := by
  unfold State.oldestSeeker
  rw [List.find?_eq_none, show (State.form d ns es e X q).wayWait = s.wayWait from hw]
  intro m g
  rw [form_setOf d ns es e X q hes (hm m g)]
  simp only [Bool.and_eq_true, decide_eq_true_eq]
  exact fun j => h m g j.1 j.2

/-- A coherent request that needs a way, activated over a sound set that misses: it is refused where every way is
QUARANTINED, and else a seeker, after its kind has become FETCH-H where it was UPGRADE. -/
theorem exec_misses {s : State} {n : NodeId} {tag : Tag} {l : LineAddr} {c : Instr} {b : ReqBody} {kind : WorkKind}
    (hc : (c, b, kind) ∈ coherentRequests l) (hk : kind ≠ .flush) (ha : s.admits n tag b l e)
    (hs : (s.dirSet (LineAddr.set l)).sound) (hm : (s.dirSet (LineAddr.set l)).misses (LineAddr.tag l))
    {fuel : Nat} {t : State} (hf : fuel + 1 ≤ Config.settleBound)
    (hr : Work.run fuel
      (let rd := ((s.takeRequest n).readSet (LineAddr.set l) .activation kind.msgKind).2
      let z : Work := ⟨State.form (s.takeRequest n) (s.takeRequest n).nodes s.entries e
        { requestEntry kind n tag l false 0 0 with kind := decidedKind kind n .miss, snapshot := some .miss } s.poolQueue,
        [], []⟩
      if rd.allQuarantined then z.dirFault e else z.seek e rd) = some t) :
    exec c s = .next t := by
  rw [exec_coherent e hc ha]
  refine settle_eq hf ?_
  rw [run_task]
  have he : ((s.takeRequest n).setEntry e (requestEntry kind n tag l false 0 0)).entry e
      = requestEntry kind n tag l false 0 0 := by simp [State.setEntry, State.entry]
  show Work.run fuel (Work.activate _ e) = _
  have hkk := coherent_kind hc
  rw [activate_read he (by rcases hkk with rfl | rfl | rfl | rfl <;> rfl)
    (by rcases hkk with rfl | rfl | rfl | rfl <;> simp [requestEntry]) (by exact hs)]
  rw [← hr]
  have hrd : (((s.takeRequest n).setEntry e (requestEntry kind n tag l false 0 0)).readSet
      (LineAddr.set (requestEntry kind n tag l false 0 0).line) .activation
      (requestEntry kind n tag l false 0 0).kind.msgKind).2
      = ((s.takeRequest n).readSet (LineAddr.set l) .activation kind.msgKind).2 := by
    apply table_ext
    intro w
    rw [(readSet_sound (s := (s.takeRequest n).setEntry e (requestEntry kind n tag l false 0 0)) (by exact hs) _ _).2 w,
      (readSet_sound (s := s.takeRequest n) (by exact hs) _ _).2 w]
    rfl
  rw [hrd]
  unfold Work.afterRead
  have h1 := hit_misses (s := s.takeRequest n) (k := LineAddr.set l) (by exact hs) (by exact hm) .activation kind.msgKind
  have h2 := unreadable_sound (s := s.takeRequest n) (k := LineAddr.set l) (by exact hs) .activation kind.msgKind
  generalize ((s.takeRequest n).readSet (LineAddr.set l) .activation kind.msgKind).2 = rd at h1 h2
  simp only [he]
  rw [show LineAddr.tag (requestEntry kind n tag l false 0 0).line = LineAddr.tag l from rfl, h1]
  have hnw : (requestEntry kind n tag l false 0 0).kind.needsWay = true := by
    rcases hkk with rfl | rfl | rfl | rfl <;> first | rfl | exact absurd rfl hk
  simp only [h2, hnw, ne_eq, not_true, if_false, if_true]
  have hF : (s.takeRequest n).setEntry e (requestEntry kind n tag l false 0 0)
      = State.form (s.takeRequest n) (s.takeRequest n).nodes s.entries e (requestEntry kind n tag l false 0 0)
        s.poolQueue := rfl
  simp only [Work.mod, hF, form_mod]
  rfl

/-! ## The next FREE entry -/

/-- The lowest-numbered FREE entry. -/
theorem freeEntry_of {s : State} {f : EntryId} (h : (s.entry f).phase = .free)
    (hl : ∀ g, g < f → (s.entry g).phase ≠ .free) : s.freeEntry = some f := by
  unfold State.freeEntry allEntries
  rw [List.find?_eq_some_iff_getElem]
  refine ⟨by simp [Entry.inUse, h], f.val, by simp, by simp, ?_⟩
  intro j hj
  have := hl ⟨j, by omega⟩ hj
  simpa [Entry.inUse] using this

/-- Where no entry is FREE, none is the lowest. -/
theorem freeEntry_none {s : State} (h : ∀ g, (s.entry g).phase ≠ .free) : s.freeEntry = none := by
  unfold State.freeEntry
  rw [List.find?_eq_none]
  intro g _
  simpa [Entry.inUse] using h g

/-- The entry that is taken next is FREE. -/
theorem freeEntry_free {s : State} (h : s.freeEntry = some e) : (s.entry e).phase = .free := by
  have := List.find?_some h
  simpa [Entry.inUse] using this

/-- An entry taken for work that is no recall leaves the number of recalls. -/
theorem form_recallsInUse {s : State} (hes : es = s.entries) (hf : (s.entry e).phase = .free)
    (hX : X.kind.cls ≠ .recall) : (State.form d ns es e X q).recallsInUse = s.recallsInUse := by
  unfold State.recallsInUse
  apply List.countP_congr
  intro f _
  by_cases h : f = e
  · subst h
    rw [form_entry]
    simp [hX, Entry.inUse, hf]
  · rw [form_entry_ne _ _ _ _ _ _ h, hes]; rfl

/-- An entry taken for another line leaves the active entry of a line. -/
theorem form_activeOn {s : State} (hes : es = s.entries) (hf : (s.entry e).phase = .free) {l : LineAddr}
    (hX : X.line ≠ l) : (State.form d ns es e X q).activeOn l = s.activeOn l := by
  unfold State.activeOn
  congr 1
  funext f
  by_cases h : f = e
  · subst h
    rw [form_entry]
    simp [hX, Entry.active, hf]
  · rw [form_entry_ne _ _ _ _ _ _ h, hes]; rfl

/-- The set and the tag of a line make it up. -/
theorem lineOf_ne {l : LineAddr} {t : DirTag} (h : t ≠ LineAddr.tag l) : l ≠ lineOf t (LineAddr.set l) := by
  intro g
  apply h
  have : LineAddr.tag (lineOf t (LineAddr.set l)) = t := by
    unfold LineAddr.tag lineOf
    apply BitVec.eq_of_getLsbD_eq
    intro i hi
    rw [BitVec.getLsbD_extractLsb', BitVec.getLsbD_append]
    simp [hi]
  rw [← this, ← g]

/-! ## A recall made -/

/-- A recall that is created while no entry is active on its line (R23, R83 to R87). -/
theorem recall_made {W : State} {f : EntryId} {k : SetIdx} {v : WayNo} {r : Record} {scope : Scope} {b : Option EntryId}
    {party : Party} {ns : List Notice} (hf : W.freeEntry = some f) (hao : W.activeOn (lineOf r.tag k) = none)
    (hwf : r.wellFormed = true) (hre : W.reaches (scopeNodes (some scope) r.sharers))
    (hheld : r.state = .held → scopeNodes (some scope) r.sharers = r.sharers) :
    Work.recall ⟨W, [], ns⟩ k v r scope b party = ⟨({ W.setPin k v (.entry f) with recallMark := party }).probing f
      { Entry.free with
        phase := .gather, kind := .recall, admitted := .recall, line := lineOf r.tag k, way := some v
        scope := some scope, beneficiary := b, creation := some r, snapshot := some (.hit r.state r.sharers) }
      (match r.state with | .shared => .drop | .held => .surrender) (scopeNodes (some scope) r.sharers),
      [.checkGather f], ns⟩ := by
  unfold Work.recall
  simp only [hf, Work.mod]
  unfold State.createRecall
  simp only [hao]
  set B : State := { W.setPin k v (.entry f) with recallMark := party } with hB
  set R := recallEntry k v r scope b with hR
  have hform : ({ (W.setEntry f R).setPin k v (.entry f) with recallMark := party } : State)
      = State.form B B.nodes B.entries f R B.poolQueue := rfl
  rw [hform, form_mod]
  unfold State.enterGather
  rw [form_mod]
  set Y : Entry := { Entry.free with
        phase := .gather, kind := .recall, admitted := .recall, line := lineOf r.tag k, way := some v
        scope := some scope, beneficiary := b, creation := some r
        snapshot := some (.hit r.state r.sharers) } with hY
  have hYe' : ({ ({ R with snapshot := some (.hit r.state r.sharers) } : Entry) with phase := .gather } : Entry) = Y := rfl
  rw [hYe']
  have hsw : ∀ pk, pk = (match r.state with | .shared => ProbeKind.drop | .held => .surrender) →
      (State.form B B.nodes B.entries f Y B.poolQueue).startWork f = B.probing f Y pk (scopeNodes (some scope) r.sharers) := by
    intro pk hpk
    unfold State.startWork
    simp only [form_entry]
    rcases r with ⟨rt, rs, rsh⟩
    cases rs with
    | shared =>
      subst hpk
      show (State.form B B.nodes B.entries f Y B.poolQueue).dropAll f (scopeNodes (some scope) rsh) = _
      rw [form_dropAll B B.nodes B.entries f Y B.poolQueue _ hre]
      simp only [State.probing, State.form, tset_tset_same]; rfl
    | held =>
      subst hpk
      rw [hheld rfl]
      rw [hheld rfl] at hre
      have hone : ∃ m, rsh = NodeSet.single m := by
        have h1 : (NodeSet.members rsh).length = 1 := by simpa [Record.wellFormed] using hwf
        revert h1; clear * -; revert rsh; decide
      obtain ⟨m, rfl⟩ := hone
      show (State.form B B.nodes B.entries f Y B.poolQueue).makeProbe f .surrender (NodeSet.holder (NodeSet.single m)) = _
      rw [holder_single]
      have := hre m (by rw [has_single]; simp)
      rw [form_probeOne B B.nodes B.entries f Y B.poolQueue _ _ this.1 this.2]
      simp only [State.probing, State.form, tset_tset_same]; rfl
  rw [hsw _ rfl]
  rfl

/-- The lowest-numbered node of a set is its holder. -/
theorem holder_lowest : ∀ (t : NodeSet) (d : NodeId), NodeSet.has t d = true → (∀ m, m < d → NodeSet.has t m = false) →
    NodeSet.holder t = d := by decide

/-- A node of an intersection is of its first set. -/
theorem has_and (a b : NodeSet) (d : NodeId) (h : NodeSet.has (a &&& b) d = true) : NodeSet.has a d = true := by
  unfold NodeSet.has at h ⊢
  rw [BitVec.getLsbD_and, Bool.and_eq_true] at h
  exact h.1

/-- A set of one node is that node alone. -/
theorem single_of_one : ∀ (t : NodeSet) (d : NodeId), (NodeSet.members t).length = 1 → NodeSet.has t d = true →
    NodeSet.single d = t := by decide

/-- What a set keeps outside its intersection with another it keeps outside the other. -/
theorem and_not_and (a b : NodeSet) : a &&& ~~~(a &&& b) = a &&& ~~~b := by
  apply BitVec.eq_of_getLsbD_eq
  intro i hi
  simp only [BitVec.getLsbD_and, BitVec.getLsbD_not, hi, decide_true, Bool.true_and]
  cases a.getLsbD i <;> cases b.getLsbD i <;> rfl

/-- The departure recall made by the walker, and how it goes on (R151). -/
theorem departRecall_made {k : Work} {set : SetIdx} {w : WayNo} {q : Record} {leaving : NodeSet} {M : State}
    {ts : List Task} {ns : List Notice} {x : WalkRec} {d : NodeId}
    (hm : k.recall set w q (.only d) none .walker = ⟨M, ts, ns⟩) (hr : M.walker.record d = some x) :
    k.departRecall set w q leaving d = ⟨
      (let s := M.setRecord d (some { x with recalls := x.recalls + 1 })
      if NodeSet.without leaving d = 0 then s.nextWay else s.setStall (.way w)), ts, ns⟩ := by
  unfold Work.departRecall
  simp only [hm, Work.mod, hr]

/-! ## The completion of an entry that holds a way -/

/-- A way written whole and made most recent, its pin passed to P. -/
theorem written_of {z : State} {K : SetIdx} {w : WayNo} {r : Option Record} {P : Pin} (hst : z.status = .ready)
    (hwf : Directory.wf z.dir) :
    let t := ((z.storeWay K w { z.way K w with written := r, damage := .intact, quarantined := false }).touch K w).setPin K w P
    t.way K w = { written := r, damage := .intact, pin := P, quarantined := false }
    ∧ (t.dirSet K).order = recent (z.dirSet K).order w
    ∧ (∀ v, v ≠ w → t.way K v = z.way K v) ∧ (∀ j, j ≠ K → t.dirSet j = z.dirSet j)
    ∧ t.dir.validCount = z.dir.validCount + r.isSome.toNat - (z.way K w).counted.toNat
    ∧ t.dir.quarCount = z.dir.quarCount - (z.way K w).quarantined.toNat ∧ t.dir.seed = z.dir.seed
    ∧ { t with dir := z.dir } = z := by
  intro t
  set y : Way := { z.way K w with written := r, damage := .intact, quarantined := false } with hy
  set u1 := z.storeWay K w y with hu1
  set u2 := u1.touch K w with hu2
  have hr1 : u1.status = .ready := hst
  have hw1 : Directory.wf u1.dir := storeWay_wf hwf _ _ _
  have hr2 : u2.status = .ready := hst
  have hw2 : Directory.wf u2.dir := Directory.wf_putDirSet hw1 _ _
  have hd1 : ∀ j, u1.dirSet j = if K = j then { z.dirSet K with ways := tset (z.dirSet K).ways w y } else z.dirSet j :=
    fun j => dirSet_storeWay hst hwf K j w y
  have hd2 : ∀ j, u2.dirSet j = if K = j then { u1.dirSet K with order := recent (u1.dirSet K).order w }
      else u1.dirSet j := fun j => dirSet_putDirSet hr1 hw1 K j _
  have hd3 : ∀ j, t.dirSet j = if K = j then
      { u2.dirSet K with ways := tset (u2.dirSet K).ways w { u2.way K w with pin := P } } else u2.dirSet j :=
    fun j => dirSet_putWay hr2 hw2 K j w _
  have hd1' := hd1 K; rw [if_pos rfl] at hd1'
  have hd2' := hd2 K; rw [if_pos rfl, hd1'] at hd2'
  have hd3' := hd3 K; rw [if_pos rfl, hd2'] at hd3'
  have hfw : ∀ j v, t.way j v = tget (t.dirSet j).ways v := fun _ _ => rfl
  have hu2w : u2.way K w = y := by show tget (u2.dirSet K).ways w = y; rw [hd2']; exact tget_tset_same _ _ _
  refine ⟨?_, ?_, ?_, ?_, ?_, ?_, ?_, ?_⟩
  · rw [hfw, hd3']; simp only [tget_tset_same]; rw [hu2w]
  · rw [hd3']
  · intro v hv
    rw [hfw, hd3']
    simp only [tget_tset_ne _ _ (Ne.symm hv)]
    rfl
  · intro k hk
    rw [hd3, if_neg (Ne.symm hk), hd2, if_neg (Ne.symm hk), hd1, if_neg (Ne.symm hk)]
  · clear hd3 hd2 hd1 hd1' hd2' hd3' hfw hu2w
    have : y.counted = r.isSome := by simp [hy, Way.counted]
    rw [← this]
    rfl
  · clear hd3 hd2 hd1 hd1' hd2' hd3' hfw hu2w; rfl
  · rfl
  · simp only [t, hu2, hu1, State.setPin, State.putWay, State.putDirSet, State.touch, State.storeWay]

/-- The record a completion writes is written whole, with the recency order, the pin and the entry's end (R26). -/
theorem completedIn_of {z : State} {e : EntryId} {K : SetIdx} {w : WayNo} {r : Option Record} (hst : z.status = .ready)
    (hwf : Directory.wf z.dir) :
    CompletedIn z ((((z.storeWay K w { z.way K w with written := r, damage := .intact, quarantined := false }).touch K
      w).setPin K w .none).freeUp e) e K w r := by
  obtain ⟨h1, h2, h3, h4, h5, h6, h7, h8⟩ := written_of (K := K) (w := w) (r := r) (P := .none) hst hwf
  exact ⟨rfl, h1, h2, h3, h4, h5, h6, h7, congrArg (fun t : State => { t with entries := z.entries }) h8⟩

/-- A set of a READY hub is read without the nodes and the walker. -/
theorem dirSet_walker {z : State} (h : z.status = .ready) (N : Vector Node 4) (W : Walker) (k : SetIdx) :
    State.dirSet { z with nodes := N, walker := W } k = z.dirSet k := by
  rw [dirSet_ready h, dirSet_ready (s := { z with nodes := N, walker := W }) h]

/-- A way is written in a READY hub without regard to the nodes and the walker. -/
theorem written_congr {z : State} (h : z.status = .ready) (N : Vector Node 4) (W : Walker) (K : SetIdx) (w : WayNo) (y : Way) :
    (((State.storeWay { z with nodes := N, walker := W } K w y).touch K w).setPin K w .none)
      = { ((z.storeWay K w y).touch K w).setPin K w .none with nodes := N, walker := W } := by
  have h1 : State.storeWay { z with nodes := N, walker := W } K w y = { z.storeWay K w y with nodes := N, walker := W } := by
    unfold State.storeWay State.putWay State.putDirSet State.way
    simp only [dirSet_walker h]
  rw [h1]
  have h' : (z.storeWay K w y).status = .ready := h
  generalize z.storeWay K w y = a at h'
  have h2 : State.touch { a with nodes := N, walker := W } K w = { a.touch K w with nodes := N, walker := W } := by
    unfold State.touch State.putDirSet
    simp only [dirSet_walker h']
  rw [h2]
  have h'' : (a.touch K w).status = .ready := h'
  generalize a.touch K w = b at h''
  unfold State.setPin State.putWay State.putDirSet State.way
  simp only [dirSet_walker h'']

/-- The notice of a way for which nobody waits sets nothing going. -/
theorem run_unpinned {u : State} {K : SetIdx} {w : WayNo} (h : u.quiet K w) (fuel : Nat) :
    Work.run (fuel + 3) ⟨u, [], [.unpinned K w]⟩ = some u := by
  have hpw : u.pinWaiters K w = [] := by
    unfold State.pinWaiters
    rw [List.map_eq_nil_iff, List.filter_eq_nil_iff]
    intro k hk'
    simp [h.1 k hk']
  have hos : u.oldestSeeker K = none := by
    unfold State.oldestSeeker
    rw [List.find?_eq_none]
    intro k hk'
    simp [h.1 k hk']
  rw [run_notice]
  have t3 : Work.notice ⟨u, [], []⟩ (.unpinned K w) = ⟨u, [.serveOldest K, .tellWalker K w], []⟩ := by
    show Work.push _ _ = _
    simp only [hpw]; rfl
  rw [t3, run_task]
  have t4 : Work.task ⟨u, [.tellWalker K w], []⟩ (.serveOldest K) = ⟨u, [.tellWalker K w], []⟩ := by
    show Work.serveFresh _ _ _ = _
    unfold Work.serveFresh
    simp only [hos]
  rw [t4, run_task]
  have t5 : Work.task ⟨u, [], []⟩ (.tellWalker K w) = ⟨u, [], []⟩ := by
    show Work.tellWalker _ _ _ = _
    unfold Work.tellWalker
    exact if_neg (fun g => h.2 g.2)
  rw [t5, run_rest]

/-- An entry with a way whose FINISH is over completes, where nobody waits for the way and nothing follows it. A recall
completes so where it runs for nobody and nobody waits for a RECALL entry; B is the state with the recall off its node's
walk record. -/
theorem run_complete_walk {z : State} {e : EntryId} {X : Entry} {w : WayNo} {r : Option Record} {K : SetIdx} {B : State} {ts : List Task}
    (hX : z.entry e = X) (hst : z.status = .ready) (hwf : Directory.wf z.dir) (hw : X.way = some w)
    (hK : LineAddr.set X.line = K) (hs : X.successor = none) (hk : X.kind = .recall → X.beneficiary = none
      ∧ (∀ m ∈ z.wayWait, m.cond ≠ .stalled) ∧ z.walker.stall.reserving = none) (hp : X.posted = false)
    (hr : X.finalRecord z.lostNodes = r) (hrw : ∀ q, r = some q → q.wellFormed = true) (hph : X.phase = .finish)
    (hfd : X.finishDone = true) (hq : z.quiet K w)
    (hts : ts = [] ∨ ts = [.checkFinish e]) (hB : B = match X.walkNode with | some d => z.recallReturned d | none => z) :
    ∃ t, Work.run 8 ⟨z, .checkFinish e :: ts, []⟩ = some t ∧ CompletedIn B t e K w r := by
  obtain ⟨N, W, hBN, hWs⟩ : ∃ N W, B = { z with nodes := N, walker := W } ∧ W.stall = z.walker.stall := by
    rw [hB]
    split
    · obtain ⟨h1, h2⟩ := recallReturned_rest z ‹_›
      exact ⟨_, _, h1, h2⟩
    · exact ⟨z.nodes, z.walker, rfl, rfl⟩
  subst hBN
  refine ⟨_, ?_, completedIn_of (by exact hst) (by exact hwf)⟩
  have hset : z.setOf e = K := by unfold State.setOf; rw [hX]; exact hK
  set u3 : State := ((z.storeWay K w { z.way K w with written := r, damage := .intact, quarantined := false }).touch K
      w).setPin K w .none with hu3
  rw [run_task]
  have t1 : Work.task ⟨z, ts, []⟩ (.checkFinish e) = ⟨u3, .completeTail e true false :: ts, []⟩ := by
    show (if _ then _ else _) = _
    rw [if_pos ⟨by rw [hX]; exact hph, by rw [hX]; exact hfd⟩]
    unfold Work.complete
    have hheir : X.heir = none := by
      unfold Entry.heir
      split
      · rename_i h; exact (hk h).1
      · rfl
    simp only [hX, hw, hs, hheir, hset]
    have hpp : ∀ y : State, y.entry e = X → y.passPin e w = y.setPin K w .none := by
      intro y hy
      unfold State.passPin
      have hk' : y.setOf e = K := by show LineAddr.set (y.entry e).line = _; rw [hy]; exact hK
      rw [hk', hy]
      split
      · rename_i h g; rw [(hk h).1] at g; cases g
      · rfl
    simp only [Work.mod, Work.push]
    rw [hr, writeWay_plain (by intro q hq; exact hrw q hq), hpp]
    · rfl
    · exact hX
  rw [t1, run_task]
  obtain ⟨D, hD, hDv⟩ : ∃ D, u3 = { z with dir := D } ∧ D = (((z.storeWay K w
      { z.way K w with written := r, damage := .intact, quarantined := false }).touch K w).setPin K w .none).dir :=
    ⟨_, rfl, rfl⟩
  clear_value u3
  clear t1
  have t2 : Work.task ⟨u3, ts, []⟩ (.completeTail e true false)
      = ⟨State.freeUp { z with nodes := N, walker := W, dir := D } e, ts,
        (if X.kind = .recall then [.recallFree] else []) ++ [.unpinned K w]⟩ := by
    have h3 : u3.entry e = X := by rw [hD]; exact hX
    have hk3 : u3.setOf e = K := by rw [hD]; exact hset
    rw [task_completeTail (by rw [show (⟨u3, ts, []⟩ : Work).s = u3 from rfl, h3]; exact hph)]
    unfold Work.completeTail
    cases hwn : X.walkNode with
    | none =>
      rw [hwn] at hB
      have h1 : N = z.nodes := (congrArg State.nodes hB :)
      have h2 : W = z.walker := (congrArg State.walker hB :)
      simp only [h3, hk3, hw, hp, hwn, Work.note, Work.mod]
      rw [hD, h1, h2]
      simp
    | some d =>
      rw [hwn] at hB
      have hv : u3.recallReturned d = { z with nodes := N, walker := W, dir := D } := by
        rw [hD, recallReturned_dir]
        exact (congrArg (fun b : State => { b with dir := D }) hB).symm
      simp only [h3, hk3, hw, hp, hwn, hv, Work.note, Work.mod]
      simp
  rw [t2]
  clear hB
  set B : State := { z with nodes := N, walker := W, dir := D } with hBd
  have hdrop : ∃ g, Work.run 6 ⟨B.freeUp e, ts, (if X.kind = .recall then [.recallFree] else []) ++ [.unpinned K w]⟩
      = Work.run (5 + g) ⟨B.freeUp e, [], (if X.kind = .recall then [.recallFree] else []) ++ [.unpinned K w]⟩ := by
    rcases hts with rfl | rfl
    · exact ⟨1, rfl⟩
    · refine ⟨0, ?_⟩
      rw [run_task]
      have hfree : (B.freeUp e).entry e = Entry.free := tget_tset_same _ _ _
      rw [idle_checkFinish (s := B.freeUp e) (e := e) (.inl (by rw [hfree]; simp [Entry.free])) _ rfl]
  obtain ⟨g, hg⟩ := hdrop
  rw [hg]
  have hrec : Work.run (5 + g) ⟨B.freeUp e, [], (if X.kind = .recall then [.recallFree] else []) ++ [.unpinned K w]⟩
      = Work.run ((if X.kind = .recall then 3 else 5) + g) ⟨B.freeUp e, [], [.unpinned K w]⟩ := by
    by_cases h : X.kind = .recall
    · obtain ⟨-, hst', hre⟩ := hk h
      simp only [h, if_true, List.cons_append, List.nil_append]
      rw [show 5 + g = (3 + g + 1) + 1 by omega, run_notice]
      have n1 : Work.notice ⟨B.freeUp e, [], [.unpinned K w]⟩ .recallFree
          = ⟨B.freeUp e, [.offerRecall], [.unpinned K w]⟩ := rfl
      rw [n1, run_task]
      have n2 : Work.task ⟨B.freeUp e, [], [.unpinned K w]⟩ .offerRecall
          = ⟨B.freeUp e, [], [.unpinned K w]⟩ := by
        show Work.offer _ = _
        unfold Work.offer
        have f1 : (B.freeUp e).wayWait.find? (fun m => decide (m.cond = .stalled)) = none := by
          rw [List.find?_eq_none]
          intro m hm
          simpa using hst' m hm
        have f2 : (B.freeUp e).walker.stall.reserving = none := by rw [← hre]; exact congrArg Stall.reserving hWs
        split
        · simp only [f1, f2]
        · rfl
      rw [n2]
    · simp only [h, if_false, List.nil_append]
  rw [hrec]
  have hfuel : ∃ f, (if X.kind = .recall then 3 else 5) + g = f + 3 := by
    split
    · exact ⟨g, by omega⟩
    · exact ⟨g + 2, by omega⟩
  obtain ⟨f, hf⟩ := hfuel
  rw [hf]
  have hwe : (State.freeUp B e).quiet K w := by
    refine ⟨fun k hk' => ?_, fun h => hq.2 (hWs ▸ h)⟩
    have hk'' : k ∈ z.wayWait := hk'
    have hne : k.entry ≠ e := by
      intro hc
      apply hq.1 k hk''
      rw [hc]; exact hset
    have : (State.freeUp B e).entry k.entry = z.entry k.entry := by
      show tget (tset z.entries e _) k.entry = _
      rw [tget_tset_ne _ _ (Ne.symm hne)]; rfl
    show LineAddr.set ((State.freeUp B e).entry k.entry).line ≠ K
    rw [this]; exact hq.1 k hk''
  rw [run_unpinned hwe, hBd]
  have hc := written_congr hst N W K w { z.way K w with written := r, damage := .intact, quarantined := false }
  have hwy : State.way { z with nodes := N, walker := W } K w = z.way K w := by
    unfold State.way; rw [dirSet_walker hst]
  rw [hwy]
  refine congrArg (fun b : State => some (b.freeUp e)) ?_
  refine Eq.trans ?_ hc.symm
  rw [hDv]
  rfl

/-- An entry with a way whose FINISH is over completes, where nobody waits for the way and nothing follows it. A recall
completes so where it runs for nobody and no walk counts it, and nobody waits for a RECALL entry. -/
theorem run_complete {z : State} {e : EntryId} {X : Entry} {w : WayNo} {r : Option Record} {K : SetIdx}
    (hX : z.entry e = X) (hst : z.status = .ready) (hwf : Directory.wf z.dir) (hw : X.way = some w)
    (hK : LineAddr.set X.line = K) (hs : X.successor = none) (hk : X.kind = .recall → X.beneficiary = none ∧ X.walkNode = none
      ∧ (∀ m ∈ z.wayWait, m.cond ≠ .stalled) ∧ z.walker.stall.reserving = none) (hp : X.posted = false)
    (hr : X.finalRecord z.lostNodes = r) (hrw : ∀ q, r = some q → q.wellFormed = true) (hph : X.phase = .finish)
    (hfd : X.finishDone = true) (hq : z.quiet K w) :
    ∃ t, Work.run 8 ⟨z, [.checkFinish e], []⟩ = some t ∧ CompletedIn z t e K w r := by
  refine run_complete_walk hX hst hwf hw hK hs (fun h => ⟨(hk h).1, (hk h).2.2⟩) hp hr hrw hph hfd hq (.inl rfl) ?_
  have hwn : X.walkNode = none := by
    by_cases h : X.kind = .recall
    · exact (hk h).2.1
    · unfold Entry.walkNode
      split
      · rename_i h' _; exact absurd h' h
      · rfl
  rw [hwn]

/-- What a completion leaves is said over the table as it was before the entry's work too. -/
theorem completedIn_entry {B t : State} {e : EntryId} {K : SetIdx} {w : WayNo} {r : Option Record} {X : Entry}
    (h : CompletedIn { B with entries := tset B.entries e X } t e K w r) : CompletedIn B t e K w r := by
  obtain ⟨h1, h2, h3, h4, h5, h6, h7, h8, h9⟩ := h
  refine ⟨by rw [h1, tset_tset_same], h2, h3, h4, h5, h6, h7, h8, ?_⟩
  have := congrArg (fun x : State => { x with entries := B.entries }) h9
  exact this

/-- A HELD record that names one node is as R2 has it. -/
theorem heldBy_wellFormed (t : DirTag) (n : NodeId) : (⟨t, .held, NodeSet.single n⟩ : Record).wellFormed = true := by
  have : ∀ n : NodeId, (NodeSet.members (NodeSet.single n)).length = 1 := by decide
  simp [Record.wellFormed, this]

/-- A return admitted for a line with no active entry is placed in its entry and activates. -/
theorem exec_return {s : State} {n : NodeId} {r : RetMsg} (hch : s.choice = some (.ret n r))
    (hmt : s.mergeTarget n r.line = none) (hfe : s.freeEntry = some e) (hao : s.activeOn r.line = none) :
    exec (if r.data.isSome then .returnD [] else .returnC []) s
      = settle ⟨(s.takeReturn n).setEntry e (returnEntry n r), [.activate e], []⟩ := by
  have hte : (s.takeReturn n).entries = s.entries := rfl
  have hm : (s.takeReturn n).mergeTarget n r.line = none := by
    rw [← hmt]; unfold State.mergeTarget; rw [activeOn_congr hte]; rfl
  have h1 : (s.takeReturn n).admitReturn n r
      = ⟨(s.takeReturn n).setEntry e (returnEntry n r), [.activate e], []⟩ := by
    unfold State.admitReturn
    rw [hm]
    exact allocate_eq hte hfe hao
  have : ∀ d, r.data.isSome = d → s.admitReturnRow d
      = settle ⟨(s.takeReturn n).setEntry e (returnEntry n r), [.activate e], []⟩ := by
    intro d h
    unfold State.admitReturnRow
    rw [hch]
    simp only [if_pos h]
    rw [h1]
  cases h : r.data.isSome with
  | true => simp only [if_true, exec, execReturnD, damaged_nil]; exact this true h
  | false => simp only [Bool.false_eq_true, if_false, exec, execReturnC, damaged_nil]; exact this false h

/-! ## Waits for a way in other hands, and returns in a chain -/

/-- An entry that activates and finds its line under a pin of the walker, or a way it cannot read, comes to wait. -/
theorem activate_pins {s u : State} {X : Entry} {w : WayNo} (hue : u.entries = s.entries)
    (huw : u.wayWait = s.wayWait) (hm : ∀ m ∈ s.wayWait, m.entry ≠ e) (hp : X.kind.plain = false) (hr : X.kind ≠ .recall) :
    let set := LineAddr.set X.line
    let waiting (v : State) (d : Option Snapshot) : State := { v with
      entries := tset s.entries e { X with phase := .wayWait, snapshot := d }
      wayWait := s.wayWait ++ [⟨e, .pin [w]⟩] }
    (∀ st T, (u.dirSet set).sound → (u.dirSet set).walkerHit w ⟨LineAddr.tag X.line, st, T⟩ →
      settle ⟨u.setEntry e X, [.activate e], []⟩ = .next (waiting u X.snapshot))
    ∧ ((u.dirSet set).unreadableAt w (LineAddr.tag X.line) →
      settle ⟨u.setEntry e X, [.activate e], []⟩ = .next (waiting (u.raise .dirUncorrected
        { kind := some X.kind.msgKind, place := some (.way set w), detail := some (.reader .activation) }) (some .miss))) := by
  intro set waiting
  obtain ⟨v, hv⟩ : ∃ v, v = u.setEntry e X := ⟨_, rfl⟩
  have hve : v.entry e = X := by rw [hv]; simp [State.setEntry, State.entry]
  have hvd : v.dirSet set = u.dirSet set := by rw [hv]; rfl
  have hset : v.setOf e = set := by unfold State.setOf; rw [hve]
  rw [← hv]
  refine ⟨fun st T hs hh => ?_, fun hh => ?_⟩
  · rw [← hvd] at hs hh
    refine settle_eq (fuel := 1) (by decide) ?_
    rw [run_task]
    show Work.run 0 (Work.activate _ e) = _
    rw [activate_read hve hp hr hs]
    have h1 := hit_walkerHit hs hh .activation X.kind.msgKind
    change _ = some (w, _, _) at h1
    unfold Work.afterRead
    simp only [hve]
    rw [show (v.readSet (LineAddr.set X.line) .activation X.kind.msgKind).2.hit (LineAddr.tag X.line) = _ from h1]
    have h2 : v.wait e (.pin [w]) = waiting u X.snapshot := by
      unfold State.wait
      rw [show v.wayWait = s.wayWait by rw [hv]; exact huw, setCond_joins e hm]
      unfold State.modEntry State.setEntry
      rw [hv]
      simp only [waiting, State.setEntry, State.entry, hue, tget_tset_same, tset_tset_same]
    show Work.run 0 ⟨v.wait e (.pin [w]), [], []⟩ = _
    rw [run_rest, h2]
  · rw [← hvd] at hh
    refine settle_eq (fuel := 1) (by decide) ?_
    rw [run_task]
    show Work.run 0 (Work.activate _ e) = _
    have h1 := hit_unreadableAt hh .activation X.kind.msgKind
    have h2 := unreadable_unreadableAt hh .activation X.kind.msgKind
    have h3 := (readSet_unreadableAt hh .activation X.kind.msgKind).1
    unfold Work.activate
    simp only [hve, hp, hr, if_false, Bool.false_eq_true, read_eq, hset]
    generalize (v.readSet set .activation X.kind.msgKind) = rdp at h1 h2 h3
    obtain ⟨v', rd⟩ := rdp
    simp only at h1 h2 h3
    subst h3
    have h4 : (v.raise .dirUncorrected (dirEvent X.kind.msgKind set w (.reader .activation))).entry e = X := by simp [hve]
    unfold Work.afterRead
    simp only [h4, h1, h2]
    rw [if_pos (by simp)]
    obtain ⟨V, hV⟩ : ∃ V, V = u.raise .dirUncorrected (dirEvent X.kind.msgKind set w (.reader .activation)) := ⟨_, rfl⟩
    have h5 : v.raise .dirUncorrected (dirEvent X.kind.msgKind set w (.reader .activation))
        = { V with entries := tset s.entries e X } := by
      rw [hV, hv, ← hue]
      have g1 := raise_congr (s := u) (t := u.setEntry e X) .dirUncorrected (dirEvent X.kind.msgKind set w (.reader .activation)) rfl rfl rfl rfl rfl
      have g2 := raise_congr (s := u) (t := u) .dirUncorrected (dirEvent X.kind.msgKind set w (.reader .activation)) rfl rfl rfl rfl rfl
      rw [g1]
      exact congrArg (fun z : State => ({ z with entries := tset u.entries e X } : State)) g2.symm
    rw [h5]
    have hVw : V.wayWait = s.wayWait := by rw [hV]; simp [huw]
    have h6 : ∀ f : Entry → Entry, ({ V with entries := tset s.entries e X } : State).modEntry e f
        = { V with entries := tset s.entries e (f X) } := by
      intro f
      unfold State.modEntry State.setEntry
      simp only [State.entry, tget_tset_same, tset_tset_same]
    have h7 : ∀ (L : List Member) (Y : Entry) (f : Entry → Entry),
        ({ V with entries := tset s.entries e Y, wayWait := L } : State).modEntry e f
        = { V with entries := tset s.entries e (f Y), wayWait := L } := by
      intro L Y f
      unfold State.modEntry State.setEntry
      simp only [State.entry, tget_tset_same, tset_tset_same]
    simp only [Work.mod, h6]
    unfold State.wait
    simp only [hVw, setCond_joins e hm, h7]
    rw [run_rest, hV]
    rfl

/-- The earliest QUEUED return of node M in the chain behind e (R68). -/
theorem form_queuedReturn {s D : State} {ns : Vector Node 4} {e f : EntryId} {M : NodeId} {X : Entry} {q : List PoolOp}
    {before after : List EntryId}
    (hXs : X.successor = (s.entry e).successor) (hXp : X.phase = .gather)
    (hch : s.chainAfter 48 e = before ++ f :: after) (hfe : f ≠ e)
    (hb : ∀ g ∈ before, ¬((s.entry g).phase = .queued ∧ (s.entry g).kind.cls = .ret ∧ (s.entry g).isFrom M = true))
    (hf : (s.entry f).phase = .queued) (hk : (s.entry f).kind.cls = .ret) (hM : (s.entry f).isFrom M = true) :
    (State.form D ns s.entries e X q).queuedReturn e M = some f := by
  unfold State.queuedReturn
  have hc : (State.form D ns s.entries e X q).chainAfter 48 e = s.chainAfter 48 e := by
    apply chainAfter_congr
    intro g
    by_cases hg : g = e
    · subst hg; rw [form_entry, hXs]
    · rw [form_entry_ne _ _ _ _ _ _ hg]; rfl
  have hge : ∀ g, g ≠ e → (State.form D ns s.entries e X q).entry g = s.entry g :=
    fun g hg => by rw [form_entry_ne _ _ _ _ _ _ hg]; rfl
  rw [hc, hch, List.find?_append, List.find?_eq_none.2, Option.none_or]
  · rw [List.find?_cons_of_pos]
    rw [hge f hfe, hf, hk, hM]; rfl
  · intro g hg
    by_cases h : g = e
    · subst h; rw [form_entry, hXp]; simp
    · rw [hge g h]
      have := hb g hg
      simp only [Bool.and_eq_true, decide_eq_true_eq]
      exact fun k => this ⟨k.1.1, k.1.2, k.2⟩

/-- A QUEUED entry of e's chain unlinked and FREE (R27). -/
theorem form_unlink {s D : State} {ns : Vector Node 4} {e f p : EntryId} {X : Entry} {q : List PoolOp}
    (hXs : X.successor = (s.entry e).successor) (hXp : X.phase = .gather) (hep : (s.entry e).phase = .gather)
    (hfe : f ≠ e) (hpf : p ≠ f) (hp : ∀ g, (s.entry g).successor = some f ∧ (s.entry g).phase ≠ .free ↔ g = p) :
    ((State.form D ns s.entries e X q).unlink f).freeUp f
      = State.form D ns (tset (tset s.entries p { s.entry p with successor := (s.entry f).successor }) f Entry.free) e
        { X with successor := if p = e then (s.entry f).successor else X.successor } q := by
  unfold State.freeUp State.setEntry State.unlink State.form
  have hsf : ({ D with nodes := ns, entries := tset s.entries e X, poolQueue := q } : State).entry f = s.entry f := by
    show tget (tset s.entries e X) f = _
    rw [tget_tset_ne _ _ (Ne.symm hfe)]; rfl
  rw [hsf]
  congr 1
  apply table_ext
  intro g
  have hg : ∀ (v : Vector Entry 48) (h : Entry → Entry), tget (v.map h) g = h (tget v g) := by
    intro v h; simp [tget]
  rw [tget_tset, tget_tset, hg]
  by_cases h1 : f = g
  · subst h1
    rw [if_pos rfl, if_neg (Ne.symm hfe), tget_tset_same]
  · rw [if_neg h1]
    have hgp := hp g
    by_cases h2 : e = g
    · subst h2
      rw [if_pos rfl, tget_tset_same, hXs, hXp]
      rw [hep] at hgp
      by_cases h3 : (s.entry e).successor = some f
      · have : e = p := hgp.1 ⟨h3, by simp⟩
        subst this
        simp [h3]
      · have : p ≠ e := fun h => h3 (hgp.2 h.symm).1
        rw [if_neg (fun h => h3 h.1), if_neg this]
        rw [← hXs]
        clear * - hXp
        rcases X with ⟨⟩
        simp only at hXp
        subst hXp
        rfl
    · rw [if_neg h2, tget_tset_ne _ _ h2, tget_tset_ne _ _ h1, tget_tset]
      by_cases h3 : p = g
      · subst h3
        rw [if_pos (by exact hgp.2 rfl), if_pos rfl]; rfl
      · rw [if_neg (by exact fun h => h3 (hgp.1 h).symm), if_neg h3]

end Sys2Proof.Machine
end

