-- ==== Sys2Proof/Laws/Pool.lean ====
section
/-! SUPPORT. What the completion of a pool operation does to the state. -/

namespace Sys2Proof.Machine

set_option Elab.async false

/-- An event raised in a form. -/
theorem form_raise (v : State) (es : Vector Entry 48) (e : EntryId) (X : Entry) (q : List PoolOp) (c : ErrClass) (r : ErrRec) :
    (State.form v v.nodes es e X q).raise c r = State.form (v.raise c r) (v.raise c r).nodes es e X q := by
  rw [raise_congr (s := v) (t := State.form v v.nodes es e X q) c r rfl rfl rfl rfl rfl]
  have h := raise_rest v c r
  generalize v.raise c r = y at h ⊢
  have : y = { v with nodes := y.nodes, errors := y.errors, alert := y.alert } := by
    have := congrArg (fun z : State => { z with nodes := y.nodes, errors := y.errors, alert := y.alert }) h
    exact this
  rw [this]
  rfl

/-- The event of a READ in a form. -/
theorem form_readEvent (v : State) (es : Vector Entry 48) (e : EntryId) (X : Entry) (q : List PoolOp) (r : ReadResult)
    (h1 : X.origin = (v.entry e).origin) (h2 : X.kind = (v.entry e).kind) (h3 : X.line = (v.entry e).line) :
    (State.form v v.nodes es e X q).readEvent e r
      = State.form (v.readEvent e r) (v.readEvent e r).nodes es e X q := by
  have hev : ∀ d, (State.form v v.nodes es e X q).entryEvent e d = v.entryEvent e d := by
    intro d; unfold State.entryEvent; rw [form_entry, h1, h2, h3]
  unfold State.readEvent
  cases r <;> simp only [hev, form_raise]

/-- Two places of a table are replaced in either order. -/
theorem tset_comm {α : Type} {k : Nat} {v : Vector α k} {i j : Fin k} (h : i ≠ j) (x y : α) :
    tset (tset v i x) j y = tset (tset v j y) i x := by
  apply table_ext
  intro m
  simp only [tget_tset]
  by_cases h1 : j = m
  · subst h1
    simp [h]
  · rw [if_neg h1, if_neg h1]

/-- An operation retires, and the head of the issue-wait list is accepted into the freed place (R105). -/
theorem retireOp_accepts {s : State} {e : EntryId} {op : PoolOp} {waiting : List PoolOp} (h : s.issueWait = op :: waiting)
    (ho : op.owner ≠ .entry e) : s.retireOp (.entry e) = State.form { s with issueWait := waiting } s.nodes
      (match op.owner with
        | .entry f => tset s.entries f { s.entry f with poolOp := op.field }
        | .walker => s.entries) e { s.entry e with poolOp := .none }
      (s.poolQueue.filter (fun p => decide (p.owner ≠ .entry e)) ++ [op]) := by
  unfold State.retireOp
  extract_lets t
  have ht : t.issueWait = op :: waiting := h
  rw [ht]
  have : t = { s with poolQueue := s.poolQueue.filter (fun p => decide (p.owner ≠ .entry e))
                      entries := tset s.entries e { s.entry e with poolOp := .none } } := rfl
  rw [this]
  rcases op with ⟨_ | _, l, w⟩
  · rename_i f
    have hf : e ≠ f := fun g => ho (by rw [g])
    show State.setPoolField _ (.entry f) _ = _
    simp only [State.setPoolField, State.modEntry, State.setEntry, State.form, State.entry, tget_tset_ne _ _ hf]
    rw [tset_comm hf]
    rfl
  · rfl

/-- An operation retires with nobody waiting to issue, in a form. -/
theorem retireOp_alone_form {s : State} {e : EntryId} (h : s.issueWait = []) : s.retireOp (.entry e)
    = State.form s s.nodes s.entries e { s.entry e with poolOp := .none } (s.poolQueue.filter (fun p => decide (p.owner ≠ .entry e))) := by
  rw [retireOp_alone h]; rfl

/-- The state at a READ's completion, once its damage is in. -/
theorem poolDamaged_fields (s : State) (us l words) : 
    let v := (s.damaged us).poolDamaged l words
    v.entries = s.entries ∧ v.nodes = s.nodes ∧ v.poolQueue = s.poolQueue ∧ v.issueWait = s.issueWait ∧ v.correctWb = s.correctWb := by
  intro v
  have hv : { v with pool := s.pool } = s.damaged us := by
    have := poolDamaged_rest (s.damaged us) l words
    rw [damaged_pool] at this; exact this
  refine ⟨?_, ?_, ?_, ?_, ?_⟩
  · have := (congrArg State.entries hv :); rw [damaged_entries] at this; exact this
  · have := (congrArg State.nodes hv :); rw [damaged_nodes] at this; exact this
  · have := (congrArg State.poolQueue hv :); rw [damaged_poolQueue] at this; exact this
  · have := (congrArg State.issueWait hv :); rw [damaged_issueWait] at this; exact this
  · have := (congrArg State.correctWb hv :); rw [damaged_correctWb] at this; exact this

/-- A READ issued while the port takes none joins the issue-wait list, in a form (R104). -/
theorem form_issueRead_full (d : State) (ns : Vector Node 4) (es : Vector Entry 48) (e : EntryId) (X : Entry)
    (q : List PoolOp) (h : ¬(q.length < 32 ∧ d.issueWait = [])) :
    (State.form d ns es e X q).issueRead e = State.form
      { d with issueWait := d.issueWait ++ [⟨.entry e, X.line, none⟩] } ns es e { X with poolOp := .waiting } q := by
  unfold State.issueRead State.issue
  rw [if_neg (by exact h), form_entry]
  have : ({ State.form d ns es e X q with
        issueWait := (State.form d ns es e X q).issueWait ++ [⟨.entry e, X.line, none⟩] } : State)
      = State.form { d with issueWait := d.issueWait ++ [⟨.entry e, X.line, none⟩] } ns es e X q := rfl
  simp only [this, State.setPoolField, form_mod]

/-- A loss whose orphan withdraws the READ that waits to issue (R105). -/
theorem lose_withdraw (s : State) (n : NodeId) (c : LossCause) (e : EntryId) (hj : (s.node n).joined = true)
    (others : ∀ f, f ≠ e → (s.entry f).unconcerned n ∧ (s.entry f).standing)
    (hk : (s.entry e).kind.coherent = true) (hph : (s.entry e).phase = .gather) (hop : (s.entry e).poolOp = .waiting)
    (hfr : (s.entry e).isFrom n = true) (hcf : (s.entry e).confirm = .notNeeded) (haw : (s.entry e).awaited ≠ some n)
    (hun : ((s.entry e).probe n).unanswered = false) (hst : ((s.entry e).probe n).straggling = false)
    (m : NodeId) (hm : ((s.entry e).probe m).unanswered = true) :
    ∃ t, settle ((Work.of s).loseNode n c) = .next t ∧ LostIn s t n c ∧ t.poolQueue = s.poolQueue
      ∧ t.issueWait = s.issueWait.filter (fun op => decide (op.owner ≠ .entry e))
      ∧ t.entries = tset s.entries e { s.entry e with orphaned := true, confirmTimer := .stopped, poolOp := .none } := by
  set X : Entry := { s.entry e with orphaned := true, confirmTimer := .stopped, poolOp := .none } with hX
  have hge : (s.nodeGone n c).entries = s.entries := gone_entries _ _ _
  generalize hg : s.nodeGone n c = g at *
  have hgE : g.entry e = s.entry e := by unfold State.entry; rw [hge]
  set a : State := { g with entries := tset g.entries e X, issueWait := g.issueWait.filter (fun op => decide (op.owner ≠ .entry e)) } with ha
  have haE : a.entry e = X := by show tget (tset g.entries e X) e = X; exact tget_tset_same _ _ _
  have hne : ∀ f, f ≠ e → a.entry f = s.entry f := by
    intro f hf
    show tget (tset g.entries e X) f = _
    rw [tget_tset_ne _ _ (Ne.symm hf), hge]; rfl
  have hor : State.orphan n g e = a := by
    have hcls : ∀ k : WorkKind, k.coherent = true → k.cls = .request := by intro k; cases k <;> simp [WorkKind.coherent, WorkKind.cls]
    unfold State.orphan
    have h1 : (g.entry e).orphans n = true := by
      rw [hgE]
      simp [Entry.orphans, hfr, hph, hcls _ hk]
    rw [if_pos h1]
    have hf : ({ s.entry e with orphaned := true, confirm := if (s.entry e).confirm = .awaited n then Confirm.received else (s.entry e).confirm, confirmTimer := .stopped } : Entry)
      = { s.entry e with orphaned := true, confirmTimer := .stopped }  := by
      have : (if (s.entry e).confirm = .awaited n then Confirm.received else (s.entry e).confirm) = (s.entry e).confirm := by
        rw [hcf]; simp
      rw [this]
    rw [form_eq e g, form_mod, hgE, hf]
    simp only [form_entry]
    rw [if_pos ⟨hk, hph, hop⟩]
    unfold State.withdraw
    have : ({ State.form g g.nodes g.entries e { s.entry e with orphaned := true, confirmTimer := .stopped } g.poolQueue with
        issueWait := (State.form g g.nodes g.entries e { s.entry e with orphaned := true, confirmTimer := .stopped } g.poolQueue).issueWait.filter (fun op => decide (op.owner ≠ Owner.entry e)) } : State)
      = State.form { g with issueWait := g.issueWait.filter (fun op => decide (op.owner ≠ Owner.entry e)) } g.nodes g.entries e { s.entry e with orphaned := true, confirmTimer := .stopped } g.poolQueue := rfl
    rw [this]
    simp only [State.setPoolField, form_mod]
    rfl
  have haim : State.aimedLost n a e = a := by
    unfold State.aimedLost
    rw [haE]
    split
    · have : State.probeLost n a e = a := by
        unfold State.probeLost
        have e1 : (X.probe n).unanswered = false := hun
        have e2 : (X.probe n).straggling = false := hst
        simp only [haE, e1, e2]; rfl
      rw [this]
      unfold State.waitLost
      rw [haE, if_neg (by exact haw)]
    · rfl
  have hrq : ∀ p, p ≠ .gather → (s.entry e).requestIn n p = false := by
    intro p hp
    unfold Entry.requestIn
    rw [hph]
    simp [Ne.symm hp]
  rw [lose_special s n c e hj (fun f hf => (others f hf).1) (hrq _ (by simp)) (hrq _ (by simp)) (by rw [hg]; exact hor) hne haim hne]
  have hfr2 : a.recordLoss n = { g.recordLoss n with entries := tset g.entries e X, poolQueue := g.poolQueue
                                                     issueWait := g.issueWait.filter (fun op => decide (op.owner ≠ .entry e)) } :=
    recordLoss_frame g n (tset g.entries e X) g.poolQueue (g.issueWait.filter (fun op => decide (op.owner ≠ .entry e)))
  rw [hfr2]
  have hmisc := gone_misc s n c
  rw [hg] at hmisc
  refine ⟨_, settle_idle (idle_endChecks ?_) (by simp [endChecks, Config.settleBound]; decide), ?_, ?_, ?_, ?_⟩
  · intro f
    by_cases hf : f = e
    · subst hf; show (tget (tset g.entries f X) f).standing; rw [tget_tset_same]
      refine ⟨fun _ => gatherDone_false (k := m) hm, fun h => ?_⟩
      have : X.phase = .gather := hph
      rw [this] at h; cases h
    · show (tget (tset g.entries e X) f).standing; rw [tget_tset_ne _ _ (Ne.symm hf), hge]; exact (others f hf).2
  · have := lost_of s n c (tset g.entries e X) g.poolQueue (g.issueWait.filter (fun op => decide (op.owner ≠ .entry e)))
    rw [hg] at this; exact this
  · exact hmisc.1
  · show g.issueWait.filter _ = _; rw [hmisc.2]
  · show tset g.entries e X = _; rw [hge]

end Sys2Proof.Machine
end

