-- ==== Sys2Proof/Laws/Successors.lean ====
section
/-! SUPPORT. The successors of a chain: a completion whose successor activates, and the removal of QUEUED and WAYWAIT
entries in the loss of their node. -/

namespace Sys2Proof.Machine

-- One proof at a time: many at once reserve more stacks than the memory limit allows.
set_option Elab.async false

/-! ## A completion whose successor activates (R26) -/

/-- A way written whole by a completion, made most recent and unpinned (R13, R14, R15). -/
def State.closeWay (z : State) (K : SetIdx) (w : WayNo) (r : Option Record) : State :=
  ((z.storeWay K w { z.way K w with written := r, damage := .intact, quarantined := false }).touch K w).setPin K w .none

/-- An entry with a way whose FINISH is over completes, and its successor activates in between: V is the state in which
the successor has begun its work. -/
theorem run_complete_next {z V : State} {e f : EntryId} {X : Entry} {w : WayNo} {r : Option Record} {K : SetIdx}
    (hX : z.entry e = X) (hw : X.way = some w) (hK : LineAddr.set X.line = K) (hs : X.successor = some f)
    (hk : X.kind ≠ .recall) (hp : X.posted = false) (hr : X.finalRecord z.lostNodes = r)
    (hrw : ∀ q, r = some q → q.wellFormed = true) (hph : X.phase = .finish) (hfd : X.finishDone = true)
    (ha : ∀ ts, Work.activate ⟨z.closeWay K w r, ts, []⟩ f = ⟨V, .checkGather f :: ts, []⟩)
    (hi : (Task.checkGather f).idle V) (hVe : V.entry e = X) (hq : (V.freeUp e).quiet K w) :
    Work.run 7 ⟨z, [.checkFinish e], []⟩ = some (V.freeUp e) := by
  have hset : z.setOf e = K := by unfold State.setOf; rw [hX]; exact hK
  rw [run_task]
  have t1 : Work.task ⟨z, [], []⟩ (.checkFinish e)
      = ⟨z.closeWay K w r, [.activate f, .completeTail e true false], []⟩ := by
    show (if _ then _ else _) = _
    rw [if_pos ⟨by rw [hX]; exact hph, by rw [hX]; exact hfd⟩]
    unfold Work.complete
    have hheir : X.heir = none := if_neg hk
    simp only [hX, hw, hs, hheir, hset]
    have hpp : ∀ y : State, y.entry e = X → y.passPin e w = y.setPin K w .none := by
      intro y hy
      unfold State.passPin
      have hk' : y.setOf e = K := by show LineAddr.set (y.entry e).line = _; rw [hy]; exact hK
      rw [hk', hy]
      split
      · rename_i h _; exact absurd h hk
      · rfl
    simp only [Work.mod, Work.push]
    rw [hr, writeWay_plain (by intro q hq; exact hrw q hq), hpp]
    · rfl
    · exact hX
  rw [t1, run_task]
  rw [show Work.task ⟨z.closeWay K w r, [.completeTail e true false], []⟩ (.activate f)
    = ⟨V, [.checkGather f, .completeTail e true false], []⟩ from ha _]
  rw [run_task, hi _ rfl, run_task]
  have t2 : Work.task ⟨V, [], []⟩ (.completeTail e true false) = ⟨V.freeUp e, [], [.unpinned K w]⟩ := by
    have hk3 : V.setOf e = K := by unfold State.setOf; rw [hVe]; exact hK
    rw [task_completeTail (by show (V.entry e).phase = _; rw [hVe]; exact hph)]
    unfold Work.completeTail
    have hwn : X.walkNode = none := by
      unfold Entry.walkNode
      split
      · rename_i h _; exact absurd h hk
      · rfl
    simp only [hVe, hk3, hw, hp, hwn, Work.note, Work.mod, if_neg hk]
    simp
  rw [t2]
  exact run_unpinned hq 0

/-- The same where the successor hits the way just written: it pins the way and its work starts with the record written
as its snapshot. -/
theorem run_complete_hit {z V : State} {e f : EntryId} {X y : Entry} {w : WayNo} {K : SetIdx} {t : DirTag}
    {st : DirState} {T : NodeSet}
    (hX : z.entry e = X) (hy : z.entry f = y) (hst : z.status = .ready) (hwf : Directory.wf z.dir)
    (hw : X.way = some w) (hK : LineAddr.set X.line = K) (ht : LineAddr.tag X.line = t) (hs : X.successor = some f)
    (hk : X.kind ≠ .recall) (hp : X.posted = false) (hr : X.finalRecord z.lostNodes = some ⟨t, st, T⟩)
    (hrw : (⟨t, st, T⟩ : Record).wellFormed = true) (hph : X.phase = .finish) (hfd : X.finishDone = true)
    (hyl : y.line = X.line) (hyk : y.kind.plain = false) (hyr : y.kind ≠ .recall)
    (hyd : decidedKind y.kind y.originNode (.hit st T) = y.kind) (hq : z.quiet K w)
    (ho : ∀ v, v ≠ w → (z.way K v).damage = .intact ∧ (∀ q, (z.way K v).written = some q → q.wellFormed = true)
      ∧ ((z.way K v).quarantined = true ∨ ∀ q, (z.way K v).written = some q → q.tag ≠ t))
    (hV : V = (State.form ((z.closeWay K w (some ⟨t, st, T⟩)).setPin K w (.entry f)) z.nodes z.entries f
      { y with phase := .gather, snapshot := some (.hit st T), way := some w } z.poolQueue).startWork f)
    (hi : (Task.checkGather f).idle V) (hVe : V.entry e = X) (hVw : V.wayWait = z.wayWait)
    (hVs : V.walker = z.walker) (hVo : ∀ g, (V.entry g).line = (z.entry g).line) :
    Work.run 7 ⟨z, [.checkFinish e], []⟩ = some (V.freeUp e) := by
  have hset : z.setOf e = K := by unfold State.setOf; rw [hX]; exact hK
  refine run_complete_next hX hw hK hs hk hp hr (by intro q h; cases h; exact hrw) hph hfd ?_ hi hVe ?_
  · intro ts
    obtain ⟨h1, h2, h3, h4, -⟩ := written_of (K := K) (w := w) (r := some ⟨t, st, T⟩) (P := .none) hst hwf
    have huD : ∃ D, z.closeWay K w (some ⟨t, st, T⟩) = { z with dir := D } := ⟨_, rfl⟩
    change (z.closeWay K w (some ⟨t, st, T⟩)).way K w = _ at h1
    change ∀ v, v ≠ w → (z.closeWay K w (some ⟨t, st, T⟩)).way K v = _ at h3
    generalize z.closeWay K w (some ⟨t, st, T⟩) = u at h1 h3 huD hV
    clear h2 h4
    obtain ⟨D, rfl⟩ := huD
    set u : State := { z with dir := D } with hu
    have hue : u.entry f = y := hy
    have hyK : LineAddr.set y.line = K := by rw [hyl]; exact hK
    have hyt : LineAddr.tag y.line = t := by rw [hyl]; exact ht
    have h1' : u.way K w = { written := some ⟨t, st, T⟩, damage := .intact, pin := .none, quarantined := false } := h1
    have h3' : ∀ v, v ≠ w → u.way K v = z.way K v := h3
    have hso : (u.dirSet (LineAddr.set y.line)).sound := by
      rw [hyK]
      intro v
      show (u.way K v).damage = _ ∧ ∀ r, (u.way K v).written = some r → _
      by_cases hv : v = w
      · subst hv; rw [h1']; exact ⟨rfl, by intro q h; cases h; exact hrw⟩
      · rw [h3' v hv]; exact ⟨(ho v hv).1, (ho v hv).2.1⟩
    have hhit : (u.dirSet (LineAddr.set y.line)).hitAt w ⟨LineAddr.tag y.line, st, T⟩ := by
      rw [hyK, hyt]
      refine ⟨?_, ?_, ?_, fun v hv => ?_⟩
      · show (u.way K w).written = _; rw [h1']
      · show (u.way K w).quarantined = _; rw [h1']
      · show (u.way K w).pin = _; rw [h1']
      · show (u.way K v).quarantined = _ ∨ ∀ q, (u.way K v).written = some q → _
        rw [h3' v hv]; exact (ho v hv).2.2
    rw [activate_hit hue hyk hyr hso hhit, hyK, hV]
    unfold State.beginWork State.leaveWait
    have hnm : ∀ m ∈ z.wayWait, m.entry ≠ f := by
      intro m hm hc
      refine hq.1 m hm ?_
      unfold State.setOf
      rw [hc, hy, hyK]
    have hll : (u.setPin K w (.entry f)).leaveList f = u.setPin K w (.entry f) := leaveList_none (by exact hnm)
    rw [hll]
    have hF : u.setPin K w (.entry f) = State.form (u.setPin K w (.entry f)) z.nodes z.entries f y z.poolQueue := by
      have := form_eq f (u.setPin K w (.entry f))
      rw [show (u.setPin K w (.entry f)).entry f = y from hy] at this
      exact this
    rw [hF, form_mod, hyd]
    rfl
  · refine ⟨fun m hm => ?_, ?_⟩
    · have hm' : m ∈ z.wayWait := by rw [← hVw]; exact hm
      have hne : m.entry ≠ e := by intro hc; apply hq.1 m hm'; rw [hc]; exact hset
      have : (V.freeUp e).entry m.entry = V.entry m.entry := tget_tset_ne _ _ (Ne.symm hne)
      unfold State.setOf
      rw [this, hVo]
      exact hq.1 m hm'
    · show V.walker.stall ≠ _; rw [hVs]; exact hq.2

/-! ## The removal of entries in the loss of their node (R27, R143) -/

/-- Node n with another posted count. -/
def State.withPosted (s : State) (n : NodeId) (p : Nat) : State :=
  { s with nodes := tset s.nodes n { s.node n with posted := p } }

/-- The posted count is no part of a node's link, membership or outbound queue. -/
theorem node_withPosted (s : State) (n m : NodeId) (p : Nat) : ((s.withPosted n p).node m).link = (s.node m).link
    ∧ ((s.withPosted n p).node m).membership = (s.node m).membership
    ∧ ((s.withPosted n p).node m).outQ = (s.node m).outQ := by
  have : (s.withPosted n p).node m = if n = m then { s.node n with posted := p } else s.node m := tget_tset _ _ _ _
  rw [this]
  split
  · rename_i h; subst h; exact ⟨rfl, rfl, rfl⟩
  · exact ⟨rfl, rfl, rfl⟩

/-- The test for an ALERT does not look at a posted count. -/
theorem alertTest_withPosted (s : State) (n : NodeId) (p : Nat) :
    (s.withPosted n p).alertTest = s.alertTest.withPosted n p := by
  have hn := node_withPosted s n
  have hr : (s.withPosted n p).alertReady = s.alertReady := by
    unfold State.alertReady State.alertQueued Node.joined
    have h1 := fun m => (hn m p).1
    have h2 := fun m => (hn m p).2.1
    have h3 := fun m => (hn m p).2.2
    simp only [h1, h2, h3]
    rfl
  rw [alertTest_eq, alertTest_eq, hr]
  by_cases h : s.alert = .idle ∧ s.alertReady = true
  · rw [if_pos (show (s.withPosted n p).alert = .idle ∧ s.alertReady = true from h), if_pos h]
    have : tset (s.withPosted n p).nodes s.alertTarget { (s.withPosted n p).node s.alertTarget with
          outQ := ((s.withPosted n p).node s.alertTarget).outQ ++ [OutMsg.alert s.alertSet] }
        = tset (tset s.nodes s.alertTarget { s.node s.alertTarget with
          outQ := (s.node s.alertTarget).outQ ++ [OutMsg.alert s.alertSet] }) n
          { tget (tset s.nodes s.alertTarget { s.node s.alertTarget with
          outQ := (s.node s.alertTarget).outQ ++ [OutMsg.alert s.alertSet] }) n with posted := p } := by
      by_cases ht : s.alertTarget = n
      · rw [ht]
        simp [State.withPosted, State.node]
      · have h1 : (s.withPosted n p).node s.alertTarget = s.node s.alertTarget := tget_tset_ne _ _ (Ne.symm ht)
        rw [h1, tget_tset_ne _ _ ht]
        exact tset_comm (Ne.symm ht) _ _
    exact congrArg (fun N => ({ s with nodes := N, alert := .sent s.alertTarget } : State)) this
  · rw [if_neg (show ¬((s.withPosted n p).alert = .idle ∧ s.alertReady = true) from h), if_neg h]

/-- The capture of an event does not look at a posted count. -/
theorem raise_withPosted (s : State) (n : NodeId) (p : Nat) (c : ErrClass) (r : ErrRec) :
    (s.withPosted n p).raise c r = (s.raise c r).withPosted n p := alertTest_withPosted (s.capture c r) n p

/-- A loss with another posted count of the lost node. -/
theorem lostIn_withPosted {s t : State} {n : NodeId} {c : LossCause} (p : Nat) (h : LostIn s t n c) :
    LostIn (s.withPosted n p) (t.withPosted n p) n c := by
  obtain ⟨h1, h2, ⟨h3, h3'⟩, h4, h5, h6, h7, h8, h9⟩ := h
  have ht : (t.withPosted n p).node n = { t.node n with posted := p } := tget_tset_same _ _ _
  have hs : (s.withPosted n p).node n = { s.node n with posted := p } := tget_tset_same _ _ _
  have hto : ∀ m, m ≠ n → (t.withPosted n p).node m = t.node m := fun m hm => tget_tset_ne _ _ (Ne.symm hm)
  have hso : ∀ m, m ≠ n → (s.withPosted n p).node m = s.node m := fun m hm => tget_tset_ne _ _ (Ne.symm hm)
  have ha : (s.withPosted n p).afterDown n { t.node n with posted := p } = (s.afterDown n (t.node n)).withPosted n p := by
    unfold State.afterDown
    refine Eq.trans (congrArg State.alertTest ?_) (alertTest_withPosted _ n p)
    simp only [State.withPosted, State.node, tset_tset_same, tget_tset_same]
    rfl
  refine ⟨?_, ?_, ?_, h4, h5, h6, h7, h8, ?_⟩
  · rw [ht, hs, h1]
  · intro m hm; rw [hto m hm, hso m hm]; exact h2 m hm
  · rw [ht, ha]
    simp only
    rw [raise_withPosted]
    refine ⟨h3, ?_⟩
    show tset t.nodes n ({ tget t.nodes n with posted := p } : Node) = _
    rw [h3']
    rfl
  · exact congrArg (fun z : State => z.withPosted n p) h9

/-- A loss with another way-wait list. -/
theorem lostIn_wayWait {s t : State} {n : NodeId} {c : LossCause} (W : List Member) (h : LostIn s t n c) :
    LostIn { s with wayWait := W } { t with wayWait := W } n c := by
  obtain ⟨h1, h2, ⟨h3, h3'⟩, h4, h5, h6, h7, h8, h9⟩ := h
  refine ⟨h1, h2, ?_, h4, h5, h6, h7, h8, congrArg (fun z : State => ({ z with wayWait := W } : State)) h9⟩
  have ha : State.afterDown { s with wayWait := W } n (t.node n)
        = { s.afterDown n (t.node n) with wayWait := W } := by
    unfold State.afterDown
    generalize (if s.alert = AlertState.sent n then AlertState.idle else s.alert) = a
    set X : State := { s with nodes := tset s.nodes n (t.node n), alert := a } with hX
    have h := alertTest_congr (s := X) (t := X) rfl rfl rfl rfl rfl
    refine Eq.trans (alertTest_congr (s := X) (t := { X with wayWait := W }) rfl rfl rfl rfl rfl) ?_
    exact (congrArg (fun z : State => ({ z with wayWait := W } : State)) h).symm
  show t.alert = ((State.afterDown { s with wayWait := W } n (t.node n)).raise _ _).alert
    ∧ t.nodes = ((State.afterDown { s with wayWait := W } n (t.node n)).raise _ _).nodes
  rw [ha, raise_congr (s := s.afterDown n (t.node n)) (t := { s.afterDown n (t.node n) with wayWait := W }) _ _ rfl rfl rfl rfl rfl]
  exact ⟨h3, h3'⟩

/-- A loss by what it removes: K is what remains once the QUEUED and the WAYWAIT requests of the node are out, and
nothing that remains concerns the node. -/
theorem lose_removed (s : State) (n : NodeId) (c : LossCause) {K : Work} (hj : (s.node n).joined = true)
    (hK : allEntries.foldl (Work.removeWaiting n)
      ⟨allEntries.foldl (State.removeQueued n) (s.nodeGone n c), [], []⟩ = K)
    (hu : ∀ e, (K.s.entry e).unconcerned n) :
    (Work.of s).loseNode n c = ⟨K.s.recordLoss n, K.stack ++ endChecks, K.notices⟩ := by
  unfold Work.loseNode
  rw [if_pos (show ((Work.of s).s.node n).joined = true from hj)]
  simp only [Work.mod, Work.of]
  rw [hK]
  have q3 : allEntries.foldl (State.orphan n) K.s = K.s := by
    apply foldl_fix
    intro f _
    unfold State.orphan
    rw [not_orphans (fun h => (hu f h).1)]; rfl
  have q4 : allEntries.foldl (State.aimedLost n) K.s = K.s := foldl_fix _ (fun f _ => aimed_fix (hu f))
  rw [q3, q4]

/-- A QUEUED entry unlinked and FREE, by its predecessor (R27). -/
theorem unlink_freeUp {s : State} {e p : EntryId}
    (hp : ∀ g, (s.entry g).successor = some e ∧ (s.entry g).phase ≠ .free ↔ g = p) :
    (s.unlink e).freeUp e = { s with entries := tset (tset s.entries p { s.entry p with
      successor := (s.entry e).successor }) e Entry.free } := by
  unfold State.freeUp State.setEntry State.unlink
  congr 1
  apply table_ext
  intro g
  have hg : ∀ (v : Vector Entry 48) (h : Entry → Entry), tget (v.map h) g = h (tget v g) := fun v h => tget_map h v g
  rw [tget_tset, tget_tset, hg]
  by_cases h1 : e = g
  · rw [if_pos h1, if_pos h1]
  · rw [if_neg h1, if_neg h1, tget_tset]
    have hgp := hp g
    by_cases h3 : p = g
    · subst h3; rw [if_pos (by exact hgp.2 rfl), if_pos rfl]; rfl
    · rw [if_neg (by exact fun h => h3 (hgp.1 h).symm), if_neg h3]

/-- A FETCH or UPGRADE that activates over a sound set that misses, with nothing to take or recall and no older seeker,
joins the list as BLOCKED, its kind decided by the miss (R55, R79, R82). -/
theorem activate_blocked {u : State} {f : EntryId} {y : Entry} {k : WorkKind} (hy : u.entry f = y)
    (hk : (y.kind = .fetchS ∧ k = .fetchS) ∨ ((y.kind = .fetchH ∨ y.kind = .upgrade) ∧ k = .fetchH))
    (hm : ∀ m ∈ u.wayWait, m.entry ≠ f)
    (hns : ∀ m ∈ u.wayWait, m.cond.seeks = true → u.setOf m.entry ≠ LineAddr.set y.line)
    (hb : ∀ g, (u.entry g).phase ≠ .free → (u.entry g).kind = .recall → (u.entry g).beneficiary ≠ some f)
    (hs : (u.dirSet (LineAddr.set y.line)).sound) (hmi : (u.dirSet (LineAddr.set y.line)).misses (LineAddr.tag y.line))
    (hnq : ∃ v, (u.way (LineAddr.set y.line) v).quarantined = false)
    (hnf : ∀ v, ¬(u.way (LineAddr.set y.line) v).free) (hnr : ∀ v, ¬(u.way (LineAddr.set y.line) v).recallable)
    (ts : List Task) (ns : List Notice) :
    Work.activate ⟨u, ts, ns⟩ f = ⟨{ u with
      entries := tset u.entries f { y with phase := .wayWait, kind := k, snapshot := some .miss }
      wayWait := u.wayWait ++ [⟨f, .blocked⟩] }, ts, ns⟩ := by
  set K := LineAddr.set y.line with hK
  have hkp : y.kind.plain = false := by rcases hk with ⟨h, -⟩ | ⟨h | h, -⟩ <;> rw [h] <;> rfl
  have hkr : y.kind ≠ .recall := by rcases hk with ⟨h, -⟩ | ⟨h | h, -⟩ <;> rw [h] <;> simp
  have hkn : y.kind.needsWay = true := by rcases hk with ⟨h, -⟩ | ⟨h | h, -⟩ <;> rw [h] <;> rfl
  have hkd : decidedKind y.kind y.originNode .miss = k := by
    rcases hk with ⟨h, h2⟩ | ⟨h | h, h2⟩ <;> rw [h, h2] <;> rfl
  have hkk : k ≠ .recall := by rcases hk with ⟨-, h⟩ | ⟨-, h⟩ <;> rw [h] <;> simp
  rw [activate_read hy hkp hkr hs, ← hK]
  have h1 := hit_misses hs hmi .activation y.kind.msgKind
  have h2 := unreadable_sound hs .activation y.kind.msgKind
  have h3 : (u.readSet K .activation y.kind.msgKind).2.allQuarantined = false := by
    rw [Bool.eq_false_iff]
    intro g
    obtain ⟨v, hv⟩ := hnq
    have := (allQuarantined_sound hs .activation y.kind.msgKind).1 g v
    rw [this] at hv; cases hv
  have h4 := freeWay_none hs (hw := hnf) .activation y.kind.msgKind (u.dirSet K).order
  have h5 := victim_none (k := K) hs hnr .activation y.kind.msgKind (u.dirSet K).order
  generalize (u.readSet K .activation y.kind.msgKind).2 = rd at h1 h2 h3 h4 h5
  unfold Work.afterRead
  simp only [hy]
  rw [h1]
  simp only [h2, hkn, ne_eq, not_true, if_false, if_true, Work.mod]
  have hF : u = State.form u u.nodes u.entries f y u.poolQueue := by have := form_eq f u; rw [hy] at this; exact this
  have hMod : u.modEntry f (fun x => { x with kind := decidedKind x.kind x.originNode .miss, snapshot := some .miss })
      = State.form u u.nodes u.entries f { y with kind := k, snapshot := some .miss } u.poolQueue := by
    conv_lhs => rw [hF]
    rw [form_mod, hkd]
  rw [hMod, h3]
  simp only [Bool.false_eq_true, if_false]
  set X1 : Entry := { y with phase := .wayWait, kind := k, snapshot := some .miss } with hX1
  unfold Work.seek
  have hset : (State.form u u.nodes u.entries f { y with kind := k, snapshot := some .miss } u.poolQueue).setOf f = K := by
    unfold State.setOf; rw [form_entry]
  simp only [hset, Work.mod]
  rw [form_wait, setCond_joins f hm]
  set Z := State.form { u with wayWait := u.wayWait ++ [⟨f, .behind⟩] } u.nodes u.entries f X1 u.poolQueue with hZ
  have ho := form_oldest { u with wayWait := u.wayWait ++ [⟨f, .behind⟩] } u.nodes u.entries f X1 u.poolQueue (s := u)
    (c := .behind) rfl hm rfl rfl
  rw [show LineAddr.set X1.line = K from rfl, ← hZ] at ho
  obtain ⟨ho1, ho2⟩ := ho.1 hns
  show (if _ then _ else _) = _
  rw [show (Z.oldestSeeker K).map Member.entry = some f by rw [ho1]; rfl, if_pos rfl]
  rw [ho2]
  have hrf : Z.recallFor f = none :=
    (form_dropBeneficiary _ u.nodes u.entries f X1 u.poolQueue hkk (fun g _ a b => hb g a b)).1
  have hset1 : Z.setOf f = K := by unfold State.setOf; rw [hZ, form_entry]
  have hord : Z.dirSet K = u.dirSet K := rfl
  unfold Work.serve
  simp only [hset1, hord, h2, h3, h4, h5, hrf, ne_eq, not_true, if_false, Bool.false_eq_true, Work.mod,
    Option.isSome_none]
  rw [hZ, form_wait]
  show (⟨State.form { u with wayWait := setCond (u.wayWait ++ [⟨f, .behind⟩]) f .blocked } _ _ _ _ _, _, _⟩ : Work) = _
  rw [setCond_last f hm]
  rfl

/-- The walker's part of a loss with another way-wait list. -/
theorem recordLoss_wayWait (z : State) (n) (W : List Member) :
    ({ z with wayWait := W } : State).recordLoss n = { z.recordLoss n with wayWait := W } := by
  unfold State.recordLoss
  show (match z.walker.record n with | some r => _ | none => _) = _
  cases z.walker.record n with
  | some r => rfl
  | none =>
    simp only
    unfold State.startRecord
    show (if z.walker.walks = true then _ else _) = _
    cases z.walker.walks <;> rfl

/-- The walker's part of a loss with another posted count of a node. -/
theorem recordLoss_withPosted (z : State) (n m : NodeId) (p : Nat) :
    (z.withPosted m p).recordLoss n = (z.recordLoss n).withPosted m p := by
  unfold State.recordLoss
  show (match z.walker.record n with | some r => _ | none => _) = _
  cases z.walker.record n with
  | some r => rfl
  | none =>
    simp only
    unfold State.startRecord
    have hw : (z.withPosted m p).walker = z.walker := rfl
    simp only [hw]
    cases z.walker.walks <;> rfl

/-- The walker's part of a loss changes nothing but the walker. -/
theorem recordLoss_rest (z : State) (n) : { z.recordLoss n with walker := z.walker } = z := by
  unfold State.recordLoss
  split
  · rfl
  · unfold State.startRecord
    cases z.walker.walks <;> rfl

/-- The link's and the node's part of a loss leaves the way-wait list. -/
theorem gone_wayWait (s : State) (n c) : (s.nodeGone n c).wayWait = s.wayWait := by
  unfold State.nodeGone
  rw [raise_wayWait]
  unfold State.linkDown State.alertAddresseeDown
  rw [alertTest_wayWait]
  split <;> rfl

/-- A loss leaves the lost node's posted count. -/
theorem gone_posted (s : State) (n c) : ((s.nodeGone n c).node n).posted = (s.node n).posted := by
  have h := lost_of s n c (s.nodeGone n c).entries (s.nodeGone n c).poolQueue (s.nodeGone n c).issueWait
  have h1 := congrArg Node.posted h.1
  have h2 : ((s.nodeGone n c).recordLoss n).nodes = (s.nodeGone n c).nodes := (congrArg State.nodes (recordLoss_rest _ n) :)
  have h3 : ((s.nodeGone n c).recordLoss n).node n = (s.nodeGone n c).node n := by unfold State.node; rw [h2]
  exact (congrArg Node.posted h3).symm.trans h1

/-- An entry that is FREE stands, and no loss concerns it. -/
theorem free_stands (n : NodeId) : Entry.free.standing ∧ Entry.free.unconcerned n := by
  refine ⟨⟨?_, ?_⟩, ?_⟩ <;> intro h <;> cases h

/-- The end of a loss that leaves every entry standing, and BEHIND no seeker of the set whose oldest may have left. -/
theorem run_lost {T : State} {K : SetIdx} {ns : List Notice} (hs : ∀ e, (T.entry e).standing)
    (hn : ns = [] ∨ ns = [.oldestLeft K])
    (hb : ∀ m ∈ T.wayWait, m.cond.seeks = true → T.setOf m.entry = K → m.cond ≠ .behind) (fuel : Nat) :
    Work.run (fuel + 1 + endChecks.length) ⟨T, endChecks, ns⟩ = some T := by
  have := run_idle (idle_endChecks hs) (fuel + 1) [] ns
  rw [List.append_nil] at this
  rw [this]
  rcases hn with rfl | rfl
  · exact run_rest _ _
  · rw [run_notice]
    have : Work.notice ⟨T, [], []⟩ (.oldestLeft K) = ⟨T, [], []⟩ := by
      show Work.serveFresh _ _ _ = _
      unfold Work.serveFresh
      simp only
      cases ho : T.oldestSeeker K with
      | none => rfl
      | some m =>
        simp only
        rw [if_neg]
        unfold State.oldestSeeker at ho
        have hmem := List.mem_of_find?_eq_some ho
        have hp := List.find?_some ho
        simp only [Bool.and_eq_true, decide_eq_true_eq] at hp
        have := hb m hmem hp.1 hp.2
        cases hc : m.cond <;> simp [WaitCond.isBehind]
        exact this hc
    rw [this, run_rest]

/-- A loss that concerns one QUEUED request alone: it is unlinked and FREE, a posted one off the posted count. -/
theorem settle_lose_queued {s : State} {n : NodeId} {c : LossCause} {e p : EntryId} {r : Entry}
    (hj : (s.node n).joined = true) (ho : ∀ f, f ≠ e → (s.entry f).unconcerned n ∧ (s.entry f).standing)
    (he : s.entry e = r) (hc : r.kind.cls = .request) (hf : r.isFrom n = true) (hph : r.phase = .queued)
    (hp : ∀ g, (s.entry g).successor = some e ∧ (s.entry g).phase ≠ .free ↔ g = p) :
    ∃ t, settle ((Work.of s).loseNode n c) = .next t
      ∧ LostIn (if r.posted then s.withPosted n ((s.node n).posted - 1) else s) t n c
      ∧ t.entries = tset (tset s.entries p { s.entry p with successor := r.successor }) e Entry.free
      ∧ t.poolQueue = s.poolQueue ∧ t.issueWait = s.issueWait := by
  have hge := gone_entries s n c
  obtain ⟨hgq, hgw⟩ := gone_misc s n c
  have hgp := gone_posted s n c
  have hL := lost_of s n c
  have hen : ∀ f, (s.nodeGone n c).entry f = s.entry f := fun f => by unfold State.entry; rw [hge]
  generalize hg : s.nodeGone n c = g at hge hgq hgw hgp hL hen
  set E := tset (tset s.entries p { s.entry p with successor := r.successor }) e Entry.free with hE
  have hEe : ∀ f, tget E f = if e = f then Entry.free else if p = f then { s.entry p with successor := r.successor } else s.entry f := by
    intro f; rw [hE, tget_tset, tget_tset]; rfl
  set g' : State := if r.posted then g.withPosted n ((s.node n).posted - 1) else g with hg'
  have hone : State.removeQueued n g e = { g' with entries := E } := by
    unfold State.removeQueued
    have : (g.entry e).requestIn n .queued = true := by
      rw [hen, he]; simp [Entry.requestIn, hph, hc, hf]
    rw [if_pos this]
    have h1 : (if (g.entry e).posted = true then g.modNode n (fun x => { x with posted := x.posted - 1 }) else g) = g' := by
      rw [hen, he, hg', ← hgp]; rfl
    simp only [h1]
    have h2 : g'.entries = s.entries := by rw [hg']; split <;> exact hge
    have h3 : ∀ f, g'.entry f = s.entry f := fun f => by unfold State.entry; rw [h2]
    rw [unlink_freeUp (p := p) (by intro f; rw [h3]; exact hp f), h2, h3, h3, he]
  have hK : allEntries.foldl (Work.removeWaiting n) ⟨allEntries.foldl (State.removeQueued n) g, [], []⟩
      = ⟨{ g' with entries := E }, [], []⟩ := by
    have : allEntries.foldl (State.removeQueued n) g = { g' with entries := E } := by
      rw [← hone]
      apply foldl_one nodup48 (mem48 e)
      · intro f hf'
        unfold State.removeQueued
        rw [hen, not_requestIn (by simp) (fun h => ((ho f hf').1 h).1)]; rfl
      · intro f hf'
        rw [hone]
        unfold State.removeQueued
        have : ({ g' with entries := E } : State).entry f = tget E f := rfl
        rw [this, hEe, if_neg (Ne.symm hf'), not_requestIn (by simp)]
        · rfl
        · split
          · rename_i h; subst h; exact fun h => ((ho p hf').1 h).1
          · exact fun h => ((ho f hf').1 h).1
    rw [this]
    apply foldl_fix
    intro f _
    unfold Work.removeWaiting
    have : ({ g' with entries := E } : State).entry f = tget E f := rfl
    simp only [this]
    rw [if_neg]
    rw [Bool.not_eq_true, hEe]
    split
    · rfl
    · rename_i hf'
      refine not_requestIn (by simp) ?_
      split
      · rename_i h; subst h; exact fun h => ((ho p (Ne.symm hf')).1 h).1
      · exact fun h => ((ho f (Ne.symm hf')).1 h).1
  have hall : ∀ f, (tget E f).unconcerned n ∧ (tget E f).standing := by
    intro f
    rw [hEe]
    split
    · exact (free_stands n).symm
    · rename_i hf'
      split
      · rename_i h; subst h; exact ho p (Ne.symm hf')
      · exact ho f (Ne.symm hf')
  have hK' := hK
  rw [← hg] at hK'
  rw [lose_removed s n c hj hK' (fun f => (hall f).1)]
  simp only [List.nil_append]
  have hrl : ({ g' with entries := E } : State).recordLoss n = { g'.recordLoss n with entries := E } := by
    have := recordLoss_frame g' n E g'.poolQueue g'.issueWait
    have h2 := recordLoss_frame g' n g'.entries g'.poolQueue g'.issueWait
    refine this.trans ?_
    have h3 := congrArg (fun z : State => ({ z with entries := E } : State)) h2
    exact h3.symm
  refine ⟨_, settle_idle (idle_endChecks (fun f => ?_)) (by simp [endChecks, Config.settleBound]; decide), ?_, ?_, ?_, ?_⟩
  · rw [hrl]; exact (hall f).2
  · rw [hrl]
    have h0 := hL E g.poolQueue g.issueWait
    have h1 : { g.recordLoss n with entries := E, poolQueue := g.poolQueue, issueWait := g.issueWait }
        = ({ g.recordLoss n with entries := E } : State) := by
      have h2 := recordLoss_frame g n g.entries g.poolQueue g.issueWait
      exact (congrArg (fun z : State => ({ z with entries := E } : State)) h2).symm
    rw [h1] at h0
    rw [hg']
    split
    · rw [recordLoss_withPosted]
      exact lostIn_withPosted _ h0
    · exact h0
  · rw [hrl]
  · rw [hrl]
    show (g'.recordLoss n).poolQueue = _
    have := (congrArg State.poolQueue (recordLoss_rest g' n) :)
    rw [show (g'.recordLoss n).poolQueue = g'.poolQueue from this, hg']
    split <;> exact hgq
  · rw [hrl]
    show (g'.recordLoss n).issueWait = _
    have := (congrArg State.issueWait (recordLoss_rest g' n) :)
    rw [show (g'.recordLoss n).issueWait = g'.issueWait from this, hg']
    split <;> exact hgw

/-- The entry is a recall that runs for entry e (R83, R88). -/
def Entry.serves (x : Entry) (e : EntryId) : Bool :=
  decide (x.phase ≠ .free ∧ x.kind = .recall ∧ x.beneficiary = some e)

/-- Where at most one recall runs for an entry, each that does loses its beneficiary (R88). -/
theorem dropBeneficiary_eq {z : State} {e : EntryId}
    (hu : ∀ g h, (z.entry g).serves e = true → (z.entry h).serves e = true → g = h) :
    z.dropBeneficiary e = { z with entries := Vector.ofFn (fun g =>
      if (z.entry g).serves e then { z.entry g with beneficiary := none } else z.entry g) } := by
  have hp : ∀ g, ((z.entry g).inUse && decide ((z.entry g).kind = .recall) && decide ((z.entry g).beneficiary = some e))
      = (z.entry g).serves e := by
    intro g; unfold Entry.serves Entry.inUse; rw [Bool.eq_iff_iff]; simp [and_assoc]
  have hF : z.recallFor e = allEntries.find? (fun g => (z.entry g).serves e) := by
    unfold State.recallFor; simp only [hp]
  unfold State.dropBeneficiary
  rw [hF]
  cases h : allEntries.find? (fun g => (z.entry g).serves e) with
  | none =>
    have hn : ∀ g, (z.entry g).serves e = false := fun g => by
      have := List.find?_eq_none.1 h g (mem48 g); simpa using this
    show z = _
    refine congrArg (fun E => ({ z with entries := E } : State)) (table_ext (fun g => ?_))
    rw [tget_ofFn, hn]; rfl
  | some f =>
    have hf := List.find?_some h
    show ({ z with entries := _ } : State) = _
    refine congrArg (fun E => ({ z with entries := E } : State)) (table_ext (fun g => ?_))
    rw [tget_ofFn]
    by_cases hg : f = g
    · subst hg
      rw [if_pos (by simpa using hf)]
      exact tget_tset_same _ _ _
    · rw [if_neg (fun hc => hg (hu f g (by simpa using hf) hc))]
      exact tget_tset_ne _ _ hg

/-- The way-wait list without entry e. -/
def State.waitWithout (s : State) (e : EntryId) : List Member := s.wayWait.filter (fun m => decide (m.entry ≠ e))

/-- The table with entry e FREE and no recall running for it. -/
def State.bare (s : State) (e : EntryId) : Vector Entry 48 := Vector.ofFn (fun g => if g = e then Entry.free
  else if (s.entry g).serves e then { s.entry g with beneficiary := none } else s.entry g)

/-- One entry of that table. -/
theorem tget_bare (s : State) (e g : EntryId) : tget (s.bare e) g = if g = e then Entry.free
    else if (s.entry g).serves e then { s.entry g with beneficiary := none } else s.entry g := tget_ofFn _ _

/-- A recall that loses its beneficiary concerns the lost node no more than before, and still stands. -/
theorem bare_holds {s : State} {n : NodeId} {e : EntryId}
    (ho : ∀ f, f ≠ e → (s.entry f).unconcerned n ∧ (s.entry f).standing) (f : EntryId) :
    (tget (s.bare e) f).unconcerned n ∧ (tget (s.bare e) f).standing := by
  rw [tget_bare]
  split
  · exact (free_stands n).symm
  · rename_i h
    split
    · exact ho f h
    · exact ho f h

/-- The removal of a WAYWAIT request (R27, R81, R88, R143). -/
theorem removeWaiting_eq {g : State} {n : NodeId} {e : EntryId} {r : Entry} (he : g.entry e = r)
    (hr : r.requestIn n .wayWait = true)
    (hu : ∀ a b, (g.entry a).serves e = true → (g.entry b).serves e = true → a = b) :
    ∃ ns, (ns = [] ∨ ns = [Notice.oldestLeft (LineAddr.set r.line)])
      ∧ Work.removeWaiting n ⟨g, [], []⟩ e
        = ⟨{ g with wayWait := g.waitWithout e, entries := g.bare e }, (r.successor.map Task.activate).toList, ns⟩ := by
  have hd : (g.leaveWait e (fun _ => Entry.free)).dropBeneficiary e
      = { g with wayWait := g.waitWithout e, entries := g.bare e } := by
    set z := g.leaveWait e (fun _ => Entry.free) with hz
    have hze : ∀ f, z.entry f = if e = f then Entry.free else g.entry f := fun f => tget_tset _ _ _ _
    have hfr : Entry.free.serves e = false := rfl
    rw [dropBeneficiary_eq (z := z) ?_]
    · show ({ g with wayWait := g.waitWithout e, entries := _ } : State) = _
      refine congrArg (fun E => ({ g with wayWait := g.waitWithout e, entries := E } : State)) (table_ext (fun f => ?_))
      rw [tget_ofFn, tget_bare, hze]
      by_cases hf : e = f
      · subst hf; rw [if_pos rfl, if_pos rfl, hfr]; rfl
      · rw [if_neg hf, if_neg (Ne.symm hf)]
    · intro a b ha hb
      rw [hze] at ha hb
      split at ha
      · rw [hfr] at ha; cases ha
      · split at hb
        · rw [hfr] at hb; cases hb
        · exact hu a b ha hb
  have hset : g.setOf e = LineAddr.set r.line := by unfold State.setOf; rw [he]
  unfold Work.removeWaiting
  simp only [he, hr, if_true, Work.mod, hd, hset]
  cases g.condOf e with
  | none => exact ⟨[], .inl rfl, by simp [Work.push]⟩
  | some c =>
    cases hc : c.seeks
    · exact ⟨[], .inl rfl, by simp [Work.push, hc]⟩
    · exact ⟨_, .inr rfl, by simp [Work.push, Work.note, hc]⟩

/-- A loss that concerns one WAYWAIT request alone: it leaves the list and is FREE, a recall running for it goes on
without a beneficiary, and its successor, if it has one, activates (R27, R81, R88, R143). -/
theorem settle_lose_waiting {s : State} {n : NodeId} {c : LossCause} {e : EntryId} {r : Entry}
    (hj : (s.node n).joined = true) (ho : ∀ f, f ≠ e → (s.entry f).unconcerned n ∧ (s.entry f).standing)
    (he : s.entry e = r) (hc : r.kind.cls = .request) (hf : r.isFrom n = true) (hph : r.phase = .wayWait)
    (hu : ∀ a b, (s.entry a).serves e = true → (s.entry b).serves e = true → a = b) {W : List Member}
    {E : Vector Entry 48}
    (hact : (r.successor = none ∧ W = s.waitWithout e ∧ E = s.bare e) ∨ ∃ f, r.successor = some f ∧ ∀ z : State,
      z.entries = s.bare e → z.wayWait = s.waitWithout e → z.dir = s.dir → z.status = s.status → ∀ ns,
        Work.activate ⟨z, endChecks, ns⟩ f = ⟨{ z with entries := E, wayWait := W }, endChecks, ns⟩)
    (hE : ∀ f, (tget E f).standing)
    (hb : ∀ m ∈ W, m.cond.seeks = true → LineAddr.set (tget E m.entry).line = LineAddr.set r.line → m.cond ≠ .behind) :
    ∃ t, settle ((Work.of s).loseNode n c) = .next t ∧ LostIn { s with wayWait := W } t n c
      ∧ t.entries = E ∧ t.poolQueue = s.poolQueue ∧ t.issueWait = s.issueWait := by
  have hge := gone_entries s n c
  obtain ⟨hgq, hgw⟩ := gone_misc s n c
  have hgl := gone_wayWait s n c
  have hL := lost_of s n c
  have hen : ∀ f, (s.nodeGone n c).entry f = s.entry f := fun f => by unfold State.entry; rw [hge]
  generalize hg : s.nodeGone n c = g at hge hgq hgw hgl hL hen
  have hbare : g.bare e = s.bare e := by unfold State.bare; simp only [hen]
  have hwo : g.waitWithout e = s.waitWithout e := by unfold State.waitWithout; rw [hgl]
  obtain ⟨ns, hns, hone⟩ := removeWaiting_eq (g := g) (n := n) (e := e) (r := r) ((hen e).trans he)
    (by simp [Entry.requestIn, hph, hc, hf]) (by simpa only [hen] using hu)
  rw [hbare, hwo] at hone
  set z : State := { g with wayWait := s.waitWithout e, entries := s.bare e } with hz
  have hbh := bare_holds ho
  have hK : allEntries.foldl (Work.removeWaiting n) ⟨allEntries.foldl (State.removeQueued n) (s.nodeGone n c), [], []⟩
      = ⟨z, (r.successor.map Task.activate).toList, ns⟩ := by
    have h0 : allEntries.foldl (State.removeQueued n) g = g := by
      apply foldl_fix
      intro f _
      unfold State.removeQueued
      rw [if_neg]
      rw [hen, Bool.not_eq_true]
      by_cases hfe : f = e
      · subst hfe; rw [he]; simp [Entry.requestIn, hph]
      · exact not_requestIn (by simp) (fun h => ((ho f hfe).1 h).1)
    rw [hg, h0, ← hone]
    apply foldl_one nodup48 (mem48 e)
    · intro f hfe
      unfold Work.removeWaiting
      simp only [hen]
      rw [if_neg]
      rw [Bool.not_eq_true]
      exact not_requestIn (by simp) (fun h => ((ho f hfe).1 h).1)
    · intro f hfe
      rw [hone]
      unfold Work.removeWaiting
      have : z.entry f = tget (s.bare e) f := rfl
      simp only [this]
      rw [if_neg]
      rw [Bool.not_eq_true]
      exact not_requestIn (by simp) (fun h => ((hbh f).1 h).1)
  rw [lose_removed s n c hj hK (fun f => (hbh f).1)]
  have hrl : z.recordLoss n = { g.recordLoss n with wayWait := s.waitWithout e, entries := s.bare e } := by
    have h1 := recordLoss_wayWait ({ g with entries := s.bare e }) n (s.waitWithout e)
    have h2 := recordLoss_frame g n (s.bare e) g.poolQueue g.issueWait
    have h3 := recordLoss_frame g n g.entries g.poolQueue g.issueWait
    have h4 : ({ g with entries := s.bare e } : State).recordLoss n = { g.recordLoss n with entries := s.bare e } :=
      h2.trans (congrArg (fun y : State => ({ y with entries := s.bare e } : State)) h3).symm
    refine h1.trans ?_
    rw [h4]
  have hq := recordLoss_rest g n
  set y := z.recordLoss n with hy
  have hye : y.entries = s.bare e := by rw [hrl]
  have hyw : y.wayWait = s.waitWithout e := by rw [hrl]
  have hyd : y.dir = s.dir := by
    rw [hrl]; exact (congrArg State.dir (hL E g.poolQueue g.issueWait).2.2.2.2.2.2.2.2 :)
  have hys : y.status = s.status := by
    rw [hrl]; exact (congrArg State.status (hL E g.poolQueue g.issueWait).2.2.2.2.2.2.2.2 :)
  have hrun : ∀ fuel, Work.run (fuel + 2 + endChecks.length) ⟨y, (r.successor.map Task.activate).toList ++ endChecks, ns⟩
      = some { y with entries := E, wayWait := W } := by
    intro fuel
    rcases hact with ⟨h1, h2, h3⟩ | ⟨f, h1, h2⟩
    · rw [h1]
      have hyy : ({ y with entries := E, wayWait := W } : State) = y := by rw [h2, h3, ← hye, ← hyw]
      rw [hyy]
      have := run_lost (T := y) (K := LineAddr.set r.line) (ns := ns) (fun f => by
        show (tget y.entries f).standing; rw [hye]; exact (hbh f).2) hns (by
        intro m hm hsk hset
        refine hb m (by rw [h2, ← hyw]; exact hm) hsk ?_
        rw [h3, ← hye]; exact hset) (fuel + 1)
      exact this
    · rw [h1]
      have hT := run_lost (T := { y with entries := E, wayWait := W }) (K := LineAddr.set r.line) (ns := ns) hE hns hb fuel
      show Work.run (fuel + 1 + endChecks.length + 1) ⟨y, .activate f :: endChecks, ns⟩ = _
      rw [run_task]
      show Work.run _ (Work.activate ⟨y, endChecks, ns⟩ f) = _
      rw [h2 y hye hyw hyd hys ns]
      exact hT
  have hlen : 0 + 2 + endChecks.length ≤ Config.settleBound := by simp [endChecks, Config.settleBound]; decide
  refine ⟨_, settle_eq hlen (hrun 0), ?_, rfl, ?_, ?_⟩
  · have h0 := lostIn_wayWait W (hL E (g.recordLoss n).poolQueue (g.recordLoss n).issueWait)
    rw [hrl]
    generalize g.recordLoss n = R at h0
    exact h0
  · rw [hrl]; exact (congrArg State.poolQueue hq :).trans hgq
  · rw [hrl]; exact (congrArg State.issueWait hq :).trans hgw

end Sys2Proof.Machine
end

