-- ==== Sys2Proof/WellFormed.lean ====
section
/-! DEFINITION. The checks on a command's operands. -/

namespace Sys2Proof

/-- The number of set bits of a word. -/
def WordData.ones (w : WordData) : Nat := (List.range 64).countP (fun i => w.getLsbD i)

/-- Damage that `twoBits` may name: at most two wrong data bits (R109: a double-bit error; the rest of the two may
lie in the check bits). -/
def WordDamage.wellFormed : WordDamage → Bool
  | .twoBits flips => decide (WordData.ones flips ≤ 2)
  | _ => true

/-- The damage met by one READ: each word named at most once, each damage well formed. -/
def wordUpsetsWellFormed (us : List WordUpset) : Bool :=
  us.all (fun u => u.damage.wellFormed) && decide ((us.map WordUpset.word).Nodup)

/-- The damage of the directory's storage since the last command: each way named at most once. -/
def dirUpsetsWellFormed (us : List DirUpset) : Bool :=
  decide ((us.map (fun u => (u.set, u.way))).Nodup)

/-- A command's operands are ones the environment can bring. -/
def Instr.wellFormed : Instr → Bool
  | .coldReset _ => true
  | .initSweep => true
  | .trainingStart _ => true
  | .basePhaseComplete _ _ => true
  | .stepUpComplete _ => true
  | .trainingFailed _ => true
  | .partnerGone _ us => dirUpsetsWellFormed us
  | .retrainPartner _ => true
  | .retrainingSuccess _ _ => true
  | .retrainAttemptFailed _ => true
  | .relinkExpired _ us => dirUpsetsWellFormed us
  | .frameSend _ count => decide (1 ≤ count)
  | .frameAcknowledged _ count => decide (1 ≤ count)
  | .ackTimeout _ _ => true
  | .damageReported _ _ => true
  | .frameReceivedDamaged _ _ => true
  | .requestArrival _ _ => true
  | .returnArrival _ _ => true
  | .ackClean _ _ us => dirUpsetsWellFormed us
  | .ackData _ _ us => dirUpsetsWellFormed us
  | .miss _ _ us => dirUpsetsWellFormed us
  | .confirm _ _ us => dirUpsetsWellFormed us
  | .probeTimerExpiry _ _ us => dirUpsetsWellFormed us
  | .confirmTimerExpiry _ us => dirUpsetsWellFormed us
  | .returnWaitExpiry _ us => dirUpsetsWellFormed us
  | .poolReadComplete _ ws us => wordUpsetsWellFormed ws && dirUpsetsWellFormed us
  | .poolWriteComplete _ us => dirUpsetsWellFormed us
  | .poisonWriteComplete us => dirUpsetsWellFormed us
  | .fetchS us => dirUpsetsWellFormed us
  | .fetchH us => dirUpsetsWellFormed us
  | .upgrade us => dirUpsetsWellFormed us
  | .flush us => dirUpsetsWellFormed us
  | .plainRead => true
  | .plainWrite => true
  | .order => true
  | .leave => true
  | .configRead => true
  | .returnD us => dirUpsetsWellFormed us
  | .returnC us => dirUpsetsWellFormed us
  | .relink => true
  | .forceLost us => dirUpsetsWellFormed us
  | .errorAck => true
  | .alertClear => true
  | .errorCount => true
  | .poolSize => true
  | .enable => true
  | .base => true
  | .limit => true
  | .attr => true
  | .configWrite => true
  | .walkerExamineWay us => dirUpsetsWellFormed us
  | .presenceAsserted _ => true

end Sys2Proof
end

