-- ==== Sys2Proof/Tests/Slice0.lean ====
section
/-! SUPPORT. Tests: the checks on operands, small steps, and for every statement that has hypotheses states and operands
that meet them. -/

namespace Sys2Proof.Machine.Tests

-- One proof at a time: many at once reserve more stacks than the memory limit allows.
set_option Elab.async false

/-! ## Checks on operands -/

theorem test_frameSend_of_nothing_refused : (Instr.frameSend 0 0).wellFormed = false := by decide
theorem test_frameAcknowledged_of_nothing_refused : (Instr.frameAcknowledged 0 0).wellFormed = false := by decide
theorem test_three_wrong_bits_as_two_refused :
    (Instr.poolReadComplete 0 [⟨0, .twoBits 7⟩] []).wellFormed = false := by decide
theorem test_two_wrong_bits_accepted : (Instr.poolReadComplete 0 [⟨0, .twoBits 3⟩] []).wellFormed = true := by decide
theorem test_word_damaged_twice_refused :
    (Instr.poolReadComplete 0 [⟨7, .oneBit⟩, ⟨7, .intact⟩] []).wellFormed = false := by decide
theorem test_way_damaged_twice_refused :
    (Instr.fetchS [⟨5, 7, .oneBit⟩, ⟨5, 7, .twoBits⟩]).wellFormed = false := by decide
theorem test_ways_of_two_sets_accepted :
    (Instr.fetchS [⟨5, 7, .oneBit⟩, ⟨6, 7, .twoBits⟩]).wellFormed = true := by decide

/-! ## Small states -/

/-- A hub that is READY, with 1 GiB installed and all of it one coherent region open to every node. -/
def hub : State := { State.reset with
  status := .ready, poolSize := 1
  regions := tset State.reset.regions 0
    { enabled := true, base := 0, limit := 1023, kind := .coherent, readSet := 15, writeSet := 15 } }

/-- The same with its region of another kind. -/
def hubOfKind (k : RegionKind) : State := { hub with
  regions := tset hub.regions 0
    { enabled := true, base := 0, limit := 1023, kind := k, readSet := 15, writeSet := 15 } }

/-- A member on an ACTIVE link. -/
def member : Node := { Node.reset with
  link := .active, membership := .member, agreed := some ⟨.x8, .g1⟩, presence := true, reqCredits := 16
  retCredits := 8 }

/-- A state with node 1 as given. -/
def set1 (s : State) (x : Node) : State := { s with nodes := tset s.nodes 1 x }

/-- A state with node 2 as given. -/
def set2 (s : State) (x : Node) : State := { s with nodes := tset s.nodes 2 x }

/-- A state with entry 47 as given. -/
def set47 (s : State) (x : Entry) : State := { s with entries := tset s.entries 47 x }

/-- A member with a request at the head of its queue. -/
def asking (b : ReqBody) : Node := { member with requestQ := [⟨63, b⟩], reqCredits := 15 }

/-- A member with a return at the head of its queue. -/
def returning (l : LineAddr) (d : Option Buffer) : Node := { member with returnQ := [⟨63, l, d⟩], retCredits := 7 }

/-- A READY state with one way of set 5 written. -/
def way5 (s : State) (w : WayNo) (x : Way) : State := s.putWay 5 w x

/-- A set is sound where each way is intact and its record well formed. -/
theorem sound_of {x : DirSet}
    (h : ∀ w, (tget x.ways w).damage = .intact ∧ (tget x.ways w).written.all Record.wellFormed = true) : x.sound := by
  intro w
  refine ⟨(h w).1, fun r hr => ?_⟩
  have := (h w).2
  rw [hr] at this
  exact this

/-- A way is the unpinned HIT where no other way has its tag. -/
theorem hitAt_of {x : DirSet} {w : WayNo} {r : Record} (h1 : (tget x.ways w).written = some r)
    (h2 : (tget x.ways w).quarantined = false) (h3 : (tget x.ways w).pin = .none)
    (h4 : ∀ v, v ≠ w → (tget x.ways v).quarantined = true
      ∨ (tget x.ways v).written.all (fun q => decide (q.tag ≠ r.tag)) = true) : x.hitAt w r := by
  refine ⟨h1, h2, h3, fun v hv => (h4 v hv).imp_right (fun h q hq => ?_)⟩
  rw [hq] at h
  simpa using h

/-- A set misses a tag that no way has. -/
theorem misses_of {x : DirSet} {t : DirTag} (h : ∀ v, (tget x.ways v).quarantined = true
    ∨ (tget x.ways v).written.all (fun q => decide (q.tag ≠ t)) = true) : x.misses t := by
  refine fun v => (h v).imp_right (fun h q hq => ?_)
  rw [hq] at h
  simpa using h

/-- A message on a node link: kind, tag, entry number, line, and the flags from bit 50 up. -/
def msg (kind tag entry line flags : Nat) : WireMsg :=
  ⟨BitVec.ofNat 64 (kind + tag * 256 + entry * 16384 + line * 1048576 + flags * 1125899906842624), 0, 0⟩

/-- What exec answers is a next state of which p holds. -/
def after (c : Instr) (s : State) (p : State → Bool) : Bool :=
  match exec c s with
  | .next t => p t
  | .fault _ => false
  | .refused _ => false

/-! ## Small steps -/

theorem test_reset_then_sweep : exec .initSweep State.reset = .next State.reset.sweepSet := by rfl

theorem test_idle_step_passes_time : step hub = .next hub.tick := by rfl

theorem test_fetchS_arrives : after (.requestArrival 1 (msg 1 63 0 5 0)) (set1 hub member)
    (fun t => decide (t = set1 hub (asking (.fetchS 5)))) = true := by decide +kernel

theorem test_plainWrite_without_data_is_discarded :
    (WireMsg.request (msg 6 63 0 5 0)) = none ∧ (WireMsg.request (msg 6 63 0 5 4)).isSome = true := by decide

theorem test_grantS_header : OutMsg.header (.grantS 63 47 5 ⟨0, true⟩) = (msg 0x11 63 47 5 5).header := by
  decide +kernel

theorem test_fetchS_reads_the_pool : after (.fetchS []) (set1 hub (asking (.fetchS 5)))
    (fun t => decide ((t.entry 0).phase = .gather ∧ t.poolQueue = [⟨.entry 0, 5, none⟩]
      ∧ (t.way 5 0).pin = .entry 0 ∧ (t.node 1).requestQ = [])) = true := by decide

theorem test_plainWrite_is_posted : after .plainWrite
    (set1 (hubOfKind .plainPosted) (asking (.plainWrite 5 1 7)))
    (fun t => decide ((t.entry 0).poolOp = .readOut ∧ (t.node 1).posted = 1
      ∧ (t.node 1).outQ = [.done 63 .request false false])) = true := by decide

theorem test_order_waits : after .order (set47 (set1 hub { asking .order with posted := 1 })
    { Entry.free with
      phase := .gather, kind := .plainWrite, origin := some ⟨1, 0⟩, posted := true, poolOp := .readOut })
    (fun t => decide ((t.node 1).orderSlot = some ⟨63, [47]⟩)) = true := by decide

theorem test_leave_starts_a_walk : after .leave (set1 hub (asking .leave))
    (fun t => decide ((t.node 1).membership = .leaving ∧ t.walker.walks = true)) = true := by decide

theorem test_walk_status_reads : after .configRead (set1 hub (asking (.configRead 0x000)))
    (fun t => decide ((t.node 1).outQ = [.configData 63 0x0D440001])) = true := by decide

theorem test_read_only_register_refuses : after .configWrite (set1 hub (asking (.configWrite 0x000 0)))
    (fun t => decide ((t.node 1).outQ = [.refuse 63 .configOffset] ∧ (t.cls 0).count = 1)) = true := by decide

theorem test_write_to_enabled_region_refuses : after .base (set1 hub (asking (.configWrite 0x100 0)))
    (fun t => decide ((t.node 1).outQ = [.refuse 63 .regionBusy])) = true := by decide

theorem test_force_lost_starts_a_loss_walk : after (.forceLost []) (set1 hub (asking (.configWrite 0x044 2)))
    (fun t => decide ((t.node 1).membership = .lost ∧ (t.walker.record 1).isSome ∧ (t.cls 8).count = 1)) = true := by
  decide +kernel

theorem test_partner_gone_in_training : after (.partnerGone 1 []) (set1 hub { Node.reset with
      link := .training, training := .base 10000, presence := true })
    (fun t => decide ((t.node 1).link = .down ∧ (t.cls 9).count = 1)) = true := by decide

theorem test_departure_ends : after (.frameAcknowledged 1 1) (set1 hub { member with
      membership := .leaving, outQ := [.done 63 .request false true], frames := [⟨1, 0, some 2⟩] })
    (fun t => decide ((t.node 1).membership = .absent ∧ (t.node 1).link = .down)) = true := by decide

/-! ## States and operands that meet the hypotheses of the statements -/

theorem test_meets_StepRunsTheFrontCommand :
    { hub with pending := [Instr.order, .leave] }.pending = Instr.order :: [.leave] := by decide

/-- An entry with a running, a frozen and a stopped timer. -/
def timed : Entry := { Entry.free with confirmTimer := .running 0, returnTimer := .frozen 3 }

theorem test_meets_EmptyQueuePassesOneMicrosecond : (set47 hub timed).pending = []
    ∧ ((set47 hub timed).entry 47).confirmTimer = .running 0 ∧ ((set47 hub timed).entry 47).returnTimer = .frozen 3
    ∧ (((set47 hub timed).entry 47).probe 0).timer = .stopped := by decide

/-- A hub with a WRITE accepted and its line stored. -/
def writing : State := { hub with
  pool := hub.pool.putLine 5 (PoolLine.written ⟨7, false⟩), poolQueue := [⟨.entry 47, 5, some ⟨8, false⟩⟩] }

theorem test_meets_ColdResetTakesEverythingToReset : Memory.wf writing.pool
    ∧ (∃ op ∈ writing.poolQueue, op.line = 5 ∧ op.write.isSome = true ∧ writing.beyondSize 5 = false)
    ∧ ¬∃ op ∈ writing.poolQueue, op.line = 6 ∧ op.write.isSome = true ∧ writing.beyondSize 6 = false := by decide

/-- A reset state whose sweep stands at a set. -/
def sweeping (k : SetIdx) : State := { State.reset with walker := { Walker.reset with pointer := k } }

theorem test_meets_SweepWritesOneSet :
    (sweeping 16382).status = .init ∧ Directory.wf (sweeping 16382).dir
    ∧ (sweeping 16382).walker.pointer.toNat < 16383 ∧ (0 : SetIdx) ≠ (sweeping 16382).walker.pointer
    ∧ (sweeping 16383).status = .init ∧ Directory.wf (sweeping 16383).dir
    ∧ (sweeping 16383).walker.pointer.toNat = 16383 ∧ (0 : SetIdx) ≠ (sweeping 16383).walker.pointer := by decide

theorem test_meets_TrainingStartsWhereOffered :
    ((set1 hub { Node.reset with presence := true }).node 1).link = .down
    ∧ hub.status = .ready ∧ (∀ e, (hub.entry e).phase ≠ .free →
        (hub.entry e).kind = .returnD ∨ (hub.entry e).kind = .returnC →
        (hub.entry e).origin.map Origin.node ≠ some 1)
    ∧ ¬(State.reset.node 1).presence = true := by decide

/-- A node in TRAINING or RETRAINING. -/
def training (l : LinkState) (p : TrainPhase) : Node := { Node.reset with
  link := l, training := p, target := ⟨.x16, .g2⟩, presence := true }

theorem test_meets_TrainingSucceedsByPhase :
    (∃ r, (training .training (.base 0)).training = .base r) ∧ (training .training (.base 0)).link = .training
    ∧ (training .training (.base 0)).target = ⟨.x16, .g2⟩ ∧ (⟨.x16, .g2⟩ : Targets) ≠ ⟨.x8, .g1⟩
    ∧ { training .training (.base 0) with target := ⟨.x8, .g1⟩ }.target = ⟨.x8, .g1⟩
    ∧ (training .training (.base 0)).target ≠ ⟨.x16, .g4⟩
    ∧ (training .training (.stepUp ⟨.x16, .g2⟩ 0)).training = .stepUp ⟨.x16, .g2⟩ 0 :=
  ⟨⟨0, rfl⟩, by decide⟩

theorem test_meets_PartnerGoneBeforeActive :
    ((set1 hub (training .training (.base 0))).node 1).link = .training
    ∧ ((set1 hub (training .training (.base 0))).node 1).training = .base 0
    ∧ (∃ pair, ((set1 hub (training .training (.stepUp ⟨.x16, .g2⟩ 0))).node 1).training = .stepUp pair 0)
    ∧ (hub.node 1).link = .down := ⟨by decide, by decide, ⟨_, rfl⟩, by decide⟩

theorem standing_free : Entry.free.standing :=
  ⟨(fun h => absurd h (by decide)), (fun h => absurd h (by decide))⟩
theorem unconcerned_free (n : NodeId) : Entry.free.unconcerned n := fun h => absurd h (by decide)

theorem test_meets_LinkLossLosesTheNode :
    ((set1 hub member).node 1).membership = .member ∧ ((set1 hub member).node 1).link = .active
    ∧ (∀ e, ((set1 hub member).entry e).unconcerned 1 ∧ ((set1 hub member).entry e).standing)
    ∧ ((set1 hub { member with link := .retraining, membership := .leaving, relinkTimer := some 0 }).node 1).relinkTimer
        = some 0 := by
  refine ⟨by decide, by decide, fun e => ?_, by decide⟩
  have h : (set1 hub member).entry e = Entry.free := by simp [set1, hub, State.reset, State.entry, tget]
  rw [h]
  exact ⟨unconcerned_free 1, standing_free⟩

theorem test_meets_PartnerStartsRetraining : ((set1 hub member).node 1).link = .active
    ∧ (hub.node 1).link ≠ .active := by decide

theorem test_meets_RetrainingEndsOrTriesAgain :
    (training .retraining (.base 0)).link = .retraining ∧ (training .retraining (.base 0)).target = ⟨.x16, .g2⟩
    ∧ (training .retraining (.base 0)).training = .base 0 ∧ (training .retraining (.base 0)).target ≠ ⟨.x8, .g1⟩
    ∧ (training .retraining (.stepUp ⟨.x16, .g2⟩ 0)).training = .stepUp ⟨.x16, .g2⟩ 0 := by decide

/-- A member with one message in a frame and one not yet sent. -/
def sending (m : OutMsg) : Node := { member with outQ := [m, .done 1 .request false false], frames := [⟨1, 0, some 2⟩] }

theorem test_meets_FramesAreSentAndAcknowledged :
    (sending (.done 0 .ret false false)).link = .active ∧ 1 ≤ 1
    ∧ ((sending (.done 0 .ret false false)).frames.map Frame.messages).sum + 1
        ≤ (sending (.done 0 .ret false false)).outQ.length
    ∧ (hub.node 1).link ≠ .active
    ∧ (sending (.done 0 .ret false false)).frames = ⟨1, 0, some 2⟩ :: [] ∧ 0 ≤ ([] : List Frame).length
    ∧ (sending (.done 0 .ret false false)).outQ = .done 0 .ret false false :: [.done 1 .request false false] := by decide

/-- An entry in FINISH that awaits the CONFIRM of node 1. -/
def granted : Entry := { Entry.free with
  phase := .finish, kind := .fetchS, origin := some ⟨1, 63⟩, line := 5, confirm := .awaited 1 }

/-- An entry in GATHER with a probe of node 1 that has not left. -/
def probing : Entry := { Entry.free with phase := .gather, kind := .fetchH, origin := some ⟨2, 0⟩, line := 5 }.setProbe 1
  { kind := some .drop, status := .queuedOut, sends := 1, answers := 0, timer := .stopped, waitEnded := false }

/-- The same with its probe in a status, sent twice and answered once. -/
def probedTwice (st : ProbeStatus) : Entry := probing.setProbe 1
  { kind := some .drop, status := st, sends := 2, answers := 1, timer := .stopped, waitEnded := false }

theorem test_meets_LeavingMessagesAct :
    (sending (.alert 1)).link = .active ∧ (sending (.alert 1)).frames = ⟨1, 0, some 2⟩ :: []
    ∧ (⟨1, 0, some 2⟩ : Frame).messages = 1 ∧ (sending (.alert 1)).outQ = .alert 1 :: [.done 1 .request false false]
    ∧ (⟨0, false⟩ : Buffer).poison = false ∧ (⟨0, true⟩ : Buffer).poison = true
    ∧ ((set47 hub granted).entry 47).confirm = .awaited 1
    ∧ (sending (.probe .drop 47 5)).outQ.head? = some (.probe .drop 47 ((set47 hub probing).entry 47).line)
    ∧ (((set47 hub probing).entry 47).probe 1).kind = some .drop
    ∧ (((set47 hub probing).entry 47).probe 1).status = .queuedOut
    ∧ (((set47 hub probing).entry 47).probe 1).answers < (((set47 hub probing).entry 47).probe 1).sends
    ∧ (((set47 hub probing).entry 47).probe 1).waitEnded = false
    ∧ (((set47 hub (probedTwice .answered)).entry 47).probe 1).status = .answered
    ∧ (((set47 hub (probedTwice .answered)).entry 47).probe 1).kind = some .drop
    ∧ (((set47 hub (probedTwice .answered)).entry 47).probe 1).answers
      < (((set47 hub (probedTwice .answered)).entry 47).probe 1).sends
    ∧ (((set47 hub (probedTwice .answered)).entry 47).probe 1).waitEnded = false
    ∧ (sending (.done 63 .request false true)).outQ.head? = some (.done 63 .request false true)
    ∧ { hub with alert := .sent 1 }.alert = .sent 1 := by decide

theorem test_meets_LinkRetryResendsAndCounts :
    { member with frames := [⟨1, 7, some 0⟩, ⟨1, 8, some 0⟩, ⟨1, 0, some 1⟩] }.frames[0]? = some ⟨1, 7, some 0⟩
    ∧ { member with frames := [⟨1, 7, some 0⟩, ⟨1, 8, some 0⟩, ⟨1, 0, some 1⟩] }.frames[1]? = some ⟨1, 8, some 0⟩
    ∧ { member with frames := [⟨1, 7, some 0⟩, ⟨1, 8, some 0⟩, ⟨1, 0, some 1⟩] }.frames[2]? = some ⟨1, 0, some 1⟩
    ∧ member.link = .active ∧ member.damagedFrame ≠ 3 ∧ { member with damagedCount := 6 }.damagedCount + 1 < 8
    ∧ 8 ≤ { member with damagedCount := 7 }.damagedCount + 1 ∧ { member with damagedCount := 7 }.damagedFrame = 0 := by
  decide

theorem test_meets_MessagesArriveOnCredit : member.link = .active ∧ (hub.node 1).link ≠ .active
    ∧ (msg 1 63 0 5 0).request = some ⟨63, .fetchS 5⟩ ∧ 0 < { member with reqCredits := 1 }.reqCredits
    ∧ { member with reqCredits := 0 }.reqCredits = 0 ∧ (msg 0x0B 0 0 5 0).request = none
    ∧ (msg 0x0C 63 0 5 0).ret = some ⟨63, 5, none⟩ ∧ 0 < { member with retCredits := 1 }.retCredits
    ∧ { member with retCredits := 0 }.retCredits = 0 ∧ (msg 1 0 0 5 0).ret = none := by decide

theorem test_meets_RequestFieldsAreRead : ((0x0A#8 : BitVec 8), ReqBody.leave)
    ∈ [(0x01#8, ReqBody.fetchS 5), (0x02#8, .fetchH 5), (0x03#8, .upgrade 5), (0x04#8, .flush 5),
      (0x05#8, .plainRead 5), (0x07#8, .order), (0x0A#8, .leave)] := by decide

theorem test_meets_AnswersAreAcceptedOrDiscarded : member.link = .active
    ∧ { member with link := .retraining }.link = .retraining
    ∧ (∀ e : EntryId, (msg 0x0D 0 63 5 0).entryNo = entryCode e → (hub.entry e).accepts 1 (msg 0x0D 0 63 5 0).line = false)
    ∧ (∀ e : EntryId, (msg 0x0F 0 47 5 0).entryNo = entryCode e → (hub.entry e).accepts 1 (msg 0x0F 0 47 5 0).line = false)
    ∧ (msg 0x0D 0 63 5 0).answer = some .ackClean ∧ (msg 0x0E 0 63 5 4).answer = some .ackData
    ∧ (msg 0x0F 0 63 5 0).answer = some .miss ∧ (msg 0x10 0 47 5 0).answer = some .confirm
    ∧ (∀ e : EntryId, (msg 0x10 0 47 5 0).entryNo = entryCode e →
        (hub.entry e).confirms 1 (msg 0x10 0 47 5 0).line = false) := by decide

/-- The entry `probing` with node 1's probe in a status, and one of node 2 out besides. -/
def probingTwo (st : ProbeStatus) (sends answers : Nat) : Entry :=
  (probing.setProbe 1 { kind := some .drop, status := st, sends := sends, answers := answers, timer := .running 5
                        waitEnded := false }).setProbe 2
    { kind := some .drop, status := .sent, sends := 1, answers := 0, timer := .running 5, waitEnded := false }

theorem test_meets_SharersAndCopiesAnswer :
    (probingTwo .sent 1 0).accepts 1 (msg 0x0D 0 47 5 0).line = true ∧ (msg 0x0D 0 47 5 0).entryNo = entryCode 47
    ∧ (probingTwo .sent 1 0).phase = .gather ∧ ((probingTwo .sent 1 0).probe 1).kind = some .drop
    ∧ ((probingTwo .sent 1 0).probe 1).status ≠ .answered ∧ (probingTwo .sent 1 0).mark 1 = .none ∧ (2 : NodeId) ≠ 1
    ∧ ((probingTwo .sent 1 0).probe 2).unanswered = true
    ∧ (probingTwo .answered 2 1).accepts 1 (msg 0x0D 0 47 5 0).line = true
    ∧ ((probingTwo .answered 2 1).probe 1).status = .answered
    ∧ ((probingTwo .answered 2 1).probe 2).unanswered = true := by decide

/-- A FETCH-S of node 1 that waits for the holder, node 2. -/
def waiting : Entry := { Entry.free with
  phase := .gather, kind := .fetchS, origin := some ⟨1, 63⟩, line := 5
  snapshot := some (.hit .held (NodeSet.single 2)) }.setProbe 2
  { kind := some .yield, status := .sent, sends := 1, answers := 0, timer := .running 5, waitEnded := false }

theorem waitsForHolder : WaitsForHolder waiting 1 2 := by
  unfold WaitsForHolder; decide

theorem test_meets_HolderGivesDataToFetchS : WaitsForHolder waiting 1 2 ∧ waiting.line = (msg 0x0E 0 47 5 4).line
    ∧ ((set1 (set2 hub member) member).node 2).link = .active ∧ ((set1 (set2 hub member) member).node 1).link ≠ .down
    ∧ (set1 (set2 hub member) member).portFree ∧ (msg 0x0E 0 47 5 4).entryNo = entryCode 47
    ∧ (msg 0x0E 0 47 5 4).answer = some .ackData :=
  ⟨waitsForHolder, by decide, by decide, by decide, by unfold State.portFree; decide, by decide, by decide⟩

theorem test_meets_HolderSettlesWithoutData : WaitsForHolder waiting 1 2 ∧ waiting.line = (msg 0x0D 0 47 5 0).line
    ∧ ((set2 hub member).node 2).link = .active ∧ (set47 hub waiting).portFree
    ∧ ((set2 hub { member with link := .retraining }).node 2).link = .retraining
    ∧ (msg 0x0D 0 47 5 0).answer = some .ackClean ∧ (msg 0x0F 0 47 5 0).answer = some .miss
    ∧ (msg 0x0F 0 47 5 0).entryNo = entryCode 47
    ∧ ∀ f ∈ (set47 hub waiting).chainAfter 48 47, ((set47 hub waiting).entry f).isFrom 2 = false :=
  ⟨waitsForHolder, by decide, by decide, by unfold State.portFree; decide, by decide, by decide, by decide, by decide,
    by decide⟩

/-- The entry `granted` once its grant has left, with its way and outcome. -/
def grantLeft (op : PoolField) : Entry := { granted with
  confirmTimer := .running 0, poolOp := op, way := some 7, outcome := .record .shared (NodeSet.single 1) }

theorem test_meets_ConfirmEndsTheWait :
    ((set1 hub member).node 1).link = .active ∧ (msg 0x10 0 47 5 0).entryNo = entryCode 47
    ∧ (msg 0x10 0 47 5 0).answer = some .confirm ∧ (grantLeft .writeOut).phase = .finish
    ∧ (grantLeft .writeOut).line = (msg 0x10 0 47 5 0).line ∧ (grantLeft .writeOut).confirm = .awaited 1
    ∧ (grantLeft .writeOut).confirmTimer ≠ .stopped ∧ (grantLeft .writeOut).poolOp = .writeOut
    ∧ hub.status = .ready ∧ Directory.wf hub.dir ∧ (grantLeft .none).poolOp = .none
    ∧ (∀ k, ((grantLeft .none).probe k).straggling = false) ∧ (grantLeft .none).way = some 7
    ∧ (grantLeft .none).outcome = .record .shared (NodeSet.single 1) ∧ (grantLeft .none).orphaned = false
    ∧ (grantLeft .none).kind = .fetchS ∧ NodeSet.single 1 ≠ 0
    ∧ NodeSet.single 1 &&& (set1 hub member).lostNodes = 0 ∧ (grantLeft .none).successor = none
    ∧ (grantLeft .none).posted = false ∧ (set1 hub member).wayWait = [] ∧ hub.walker.stall ≠ .way 7
    ∧ (NodeSet.members (NodeSet.single 1)).length = 1 := by decide

/-- The entry `probing` with its one probe timed out. -/
def timedOut (status : ProbeStatus) (sends answers : Nat) : Entry := { probing with poolOp := .readOut }.setProbe 1
  { kind := some .drop, status := status, sends := sends, answers := answers, timer := .running 0, waitEnded := false }

theorem test_meets_UnansweredProbeIsSentAgain : ((timedOut .sent 2 0).probe 1).timer = .running 0
    ∧ ((timedOut .sent 2 0).probe 1).kind = some .drop ∧ ((timedOut .sent 2 0).probe 1).answers = 0
    ∧ ((timedOut .sent 2 0).probe 1).sends ≤ hub.retries.toNat ∧ member.link ≠ .down := by decide

theorem others_stand (y : Node) (x : Entry) (n : NodeId) :
    ∀ f, f ≠ 47 → ((set47 (set1 hub y) x).entry f).unconcerned n ∧ ((set47 (set1 hub y) x).entry f).standing := by
  intro f hf
  have h : (set47 (set1 hub y) x).entry f = Entry.free := by
    have h1 : (set47 (set1 hub y) x).entry f = tget hub.entries f := tget_tset_ne _ _ (Ne.symm hf)
    rw [h1]
    simp [hub, State.reset, tget]
  rw [h]
  exact ⟨unconcerned_free n, standing_free⟩

theorem test_meets_SilentNodeIsLost : member.membership = .member
    ∧ ((timedOut .sent 3 0).probe 1).timer = .running 0 ∧ ((timedOut .sent 3 0).probe 1).kind = some .drop
    ∧ (timedOut .sent 3 0).phase = .gather ∧ (timedOut .sent 3 0).poolOp = .readOut
    ∧ (timedOut .sent 3 0).isFrom 1 = false ∧ (timedOut .sent 3 0).awaited = none
    ∧ ((timedOut .sent 3 0).probe 1).waitEnded = false
    ∧ (∀ f, f ≠ 47 → ((set47 (set1 hub member) (timedOut .sent 3 0)).entry f).unconcerned 1
        ∧ ((set47 (set1 hub member) (timedOut .sent 3 0)).entry f).standing)
    ∧ hub.retries.toNat < ((timedOut .sent 3 0).probe 1).sends ∧ ((timedOut .sent 3 0).probe 1).status = .sent
    ∧ 0 < ((timedOut .answered 2 1).probe 1).answers
    ∧ ((timedOut .answered 2 1).probe 1).answers < ((timedOut .answered 2 1).probe 1).sends
    ∧ ((timedOut .answered 2 1).probe 1).status = .answered :=
  ⟨by decide, by decide, by decide, by decide, by decide, by decide, by decide, by decide,
    others_stand _ _ _, by decide⟩

theorem test_meets_GranteeThatDoesNotConfirmIsLost : member.membership = .member
    ∧ (grantLeft .writeOut).phase = .finish ∧ (grantLeft .writeOut).kind.coherent = true
    ∧ (grantLeft .writeOut).isFrom 1 = true ∧ (grantLeft .writeOut).confirm = .awaited 1
    ∧ (grantLeft .writeOut).confirmTimer = .running 0 ∧ (grantLeft .writeOut).poolOp = .writeOut
    ∧ (grantLeft .writeOut).awaited = none
    ∧ (∀ k, ((grantLeft .writeOut).probe k).unanswered = false ∧ ((grantLeft .writeOut).probe k).straggling = false)
    ∧ ∀ f, f ≠ 47 → ((set47 (set1 hub member) (grantLeft .writeOut)).entry f).unconcerned 1
        ∧ ((set47 (set1 hub member) (grantLeft .writeOut)).entry f).standing :=
  ⟨by decide, by decide, by decide, by decide, by decide, by decide, by decide, by decide, by decide,
    others_stand _ _ _⟩

/-- A FLUSH of node 2 that awaits the return of node 1. -/
def awaiting : Entry := { Entry.free with
  phase := .gather, kind := .flush, origin := some ⟨2, 0⟩, line := 5, way := some 7
  snapshot := some (.hit .held (NodeSet.single 1)), awaited := some 1, returnTimer := .running 0 }

theorem test_meets_AwaitedReturnEndsInLoss : member.membership = .member ∧ awaiting.phase = .gather
    ∧ awaiting.kind = .flush ∧ awaiting.snapshot = some (.hit .held (NodeSet.single 1)) ∧ awaiting.isFrom 1 = false
    ∧ awaiting.awaited = some 1 ∧ awaiting.returnTimer = .running 0 ∧ awaiting.poolOp = .none
    ∧ awaiting.orphaned = false ∧ (∀ k, (awaiting.probe k).unanswered = false) ∧ (awaiting.probe 1).straggling = false
    ∧ (∀ f, f ≠ 47 → ((set47 (set1 hub member) awaiting).entry f).unconcerned 1
        ∧ ((set47 (set1 hub member) awaiting).entry f).standing)
    ∧ (set47 (set1 hub member) awaiting).portFree :=
  ⟨by decide, by decide, by decide, by decide, by decide, by decide, by decide, by decide, by decide, by decide,
    by decide, others_stand _ _ _, by unfold State.portFree; decide⟩

theorem test_meets_ReadResultByWordConditions :
    [WordCond.uncorrectable, .marked, .corrected, .clean, .clean, .clean, .clean, .clean].length = 8
    ∧ [WordCond.marked, .corrected, .clean, .clean, .clean, .clean, .clean, .clean].count .uncorrectable = 0
    ∧ [WordCond.marked, .corrected, .clean, .clean, .clean, .clean, .clean, .clean].count .marked ≠ 0
    ∧ (∀ c ∈ List.replicate 8 WordCond.corrected, c = .clean ∨ c = .corrected)
    ∧ (List.replicate 8 WordCond.corrected).count .corrected ≠ 0
    ∧ (∀ c ∈ List.replicate 8 WordCond.clean, c = .clean)
    ∧ hub.beyondSize 0xFFFFFF = false ∧ Entry.free.kind ≠ .plainWrite
    ∧ { Entry.free with kind := .plainWrite }.kind = .plainWrite := by decide

theorem test_meets_WordsReadAsWritten : Memory.wf hub.pool
    ∧ hub.poolSize.toNat * 16777216 ≤ (0x1000000 : LineAddr).toNat
    ∧ (0xFFFFFF : LineAddr).toNat < hub.poolSize.toNat * 16777216 ∧ (5 : LineAddr) ≠ 0xFFFFFF ∧ 63 < 64 := by decide

/-- An entry whose READ is out. -/
def reading (k : WorkKind) (sn : Option Snapshot) : Entry := { Entry.free with
  phase := .gather, kind := k, origin := some ⟨1, 63⟩, line := 5, snapshot := sn, poolOp := .readOut }

/-- A hub with a READ or WRITE of entry 47 accepted, its line stored. -/
def porting (x : Entry) (w : Option Buffer) : State := { set47 (set1 hub member) x with
  pool := hub.pool.putLine 5 (PoolLine.written ⟨7, false⟩), poolQueue := [⟨.entry 47, 5, w⟩] }

theorem test_meets_ReadCompletesForSharedFetchS :
    let x := reading .fetchS (some (.hit .shared (NodeSet.single 2)))
    (porting x none).completable (.entry 47) = some ⟨.entry 47, 5, none⟩ ∧ (porting x none).issueWait = []
    ∧ (porting x none).poolQueue.length ≤ 32 ∧ x.phase = .gather ∧ x.kind = .fetchS
    ∧ x.snapshot = some (.hit .shared (NodeSet.single 2)) ∧ x.line = 5 ∧ x.origin.map Origin.node = some 1
    ∧ x.orphaned = false ∧ x.awaited = none ∧ (∀ k, (x.probe k).unanswered = false) ∧ member.link ≠ .down
    ∧ ((porting x none).poolRead 5).1 = .clean
    ∧ (((porting x none).poolDamaged 5 [⟨7, .oneBit⟩]).poolRead 5).1 = .corrected 1 := by decide

theorem test_meets_ReadCompletesForPlainRead :
    let x := reading .plainRead none
    (porting x none).completable (.entry 47) = some ⟨.entry 47, 5, none⟩ ∧ (porting x none).issueWait = []
    ∧ x.phase = .gather ∧ x.kind = .plainRead ∧ x.line = 5 ∧ x.way = none ∧ x.origin.map Origin.node = some 1
    ∧ x.orphaned = false ∧ x.awaited = none ∧ x.confirm = .notNeeded
    ∧ (∀ k, (x.probe k).unanswered = false ∧ (x.probe k).straggling = false) ∧ x.successor = none ∧ x.posted = false
    ∧ member.link ≠ .down ∧ ((porting x none).poolRead 5).1 = .clean := by decide

/-- A PLAIN-WRITE of node 1 whose WRITE is out. -/
def written (posted : Bool) : Entry := { Entry.free with
  phase := .finish, kind := .plainWrite, origin := some ⟨1, 63⟩, line := 5, posted := posted, poolOp := .writeOut }

theorem test_meets_WriteCompletesForPlainWrite :
    (porting (written true) (some ⟨8, false⟩)).completable (.entry 47) = some ⟨.entry 47, 5, some ⟨8, false⟩⟩
    ∧ (porting (written true) (some ⟨8, false⟩)).issueWait = [] ∧ (written true).phase = .finish
    ∧ (written true).kind = .plainWrite ∧ (written true).way = none ∧ (written true).origin.map Origin.node = some 1
    ∧ (written true).orphaned = false ∧ (written true).confirm = .notNeeded
    ∧ (∀ k, ((written true).probe k).straggling = false) ∧ (written true).successor = none ∧ member.link ≠ .down
    ∧ (written false).posted = false ∧ (written true).posted = true ∧ member.orderSlot = none
    ∧ { member with orderSlot := some ⟨1, [47]⟩ }.orderSlot = some ⟨1, [47]⟩
    ∧ ∃ f ∈ ([46, 47] : List EntryId), f ≠ 47 := by decide +kernel

/-- Region 0 as a test has it. -/
def region0 (k : RegionKind) : Region :=
  { enabled := true, base := 0, limit := 1023, kind := k, readSet := 15, writeSet := 15 }

theorem test_meets_DecodeByTheDecidingRegion :
    hub.poolSize.toNat * 16777216 ≤ (0x1000000 : LineAddr).toNat
    ∧ (0xFFFFFF : LineAddr).toNat < hub.poolSize.toNat * 16777216
    ∧ (tget hub.regions 0).enabled = true ∧ (tget hub.regions 0).base.toNat ≤ (0xFFFFFF : LineAddr).toNat / 16384
    ∧ (0xFFFFFF : LineAddr).toNat / 16384 ≤ (tget hub.regions 0).limit.toNat ∧ (∀ q : RegionNo, ¬q < 0)
    ∧ (∀ r, ¬(tget State.reset.regions r).enabled = true)
    ∧ { member with membership := .leaving }.membership = .leaving ∧ member.membership ≠ .leaving
    ∧ State.reset.decidingRegion 5 = none ∧ hub.decidingRegion 5 = some (region0 .coherent)
    ∧ (hubOfKind .plain).decidingRegion 5 = some (region0 .plain) ∧ NodeSet.has 15 1 = true
    ∧ NodeSet.has 13 1 = false := by decide

/-- A hub where nodes 1 and 2 have requests, and node 2 is urgent or not. -/
def contended (urgent : Bool) : State :=
  set2 (set1 hub (asking (.fetchS 5))) { asking (.fetchS 6) with urgent := urgent, patience := 254 }

theorem test_meets_ArbiterChoosesAndCounts :
    (set1 hub (returning 5 none)).eligibleReturn ((set1 hub (returning 5 none)).returnPtr + 1) = some ⟨63, 5, none⟩
    ∧ (∀ j : Fin 4, j < 1 → (set1 hub (returning 5 none)).eligibleReturn (j + 0) = none)
    ∧ (∀ n, (contended true).eligibleReturn n = none) ∧ (contended true).choice = some (.request 2 ⟨63, .fetchS 6⟩)
    ∧ (contended false).choice = some (.request 1 ⟨63, .fetchS 5⟩) ∧ (∀ n, hub.eligibleRequest n = none)
    ∧ hub.choice = none ∧ (2 : NodeId) ≠ 1 ∧ ((contended false).eligibleRequest 2).isSome = true
    ∧ ((contended false).node 2).patience < 255 ∧ hub.eligibleRequest 3 = none
    ∧ { member with patience := 255 }.patience = 255 := by decide

/-- What the arbiter chooses where node 1 alone asks for b. -/
def asks (k : RegionKind) (b : ReqBody) : State := set1 (hubOfKind k) (asking b)

theorem test_meets_RefusedRequestsAreAnswered :
    (asks .coherent (.plainRead 5)).choice = some (.request 1 ⟨63, .plainRead 5⟩)
    ∧ (asks .coherent (.plainRead 5)).decodeRefusal 1 (.plainRead 5) = some .kind
    ∧ (asks .plain (.fetchS 5)).choice = some (.request 1 ⟨63, .fetchS 5⟩)
    ∧ (asks .plain (.fetchS 5)).decodeRefusal 1 (.fetchS 5) = some .kind
    ∧ (set1 hub { asking .order with membership := .leaving }).choice = some (.request 1 ⟨63, .order⟩)
    ∧ (set1 hub { asking .order with membership := .leaving }).decodeRefusal 1 .order = some .leaving := by decide

/-- An active entry for line 5. -/
def busy : Entry := { waiting with awaited := none }

theorem test_meets_EntriesQueueBehindTheActiveEntry :
    (set47 (asks .coherent (.fetchH 5)) busy).choice = some (.request 1 ⟨63, .fetchH 5⟩)
    ∧ (set47 (asks .coherent (.fetchH 5)) busy).decodeRefusal 1 (.fetchH 5) = none
    ∧ (set47 (asks .coherent (.fetchH 5)) busy).freeEntry = some 0
    ∧ (set47 (asks .coherent (.fetchH 5)) busy).activeOn 5 = some 47
    ∧ (set47 (asks .coherent (.fetchH 5)) busy).chainTail 47 = 47 ∧ (47 : EntryId) ≠ 0
    ∧ (set47 (set1 hub (returning 5 none)) busy).choice = some (.ret 1 ⟨63, 5, none⟩)
    ∧ (set47 (set1 hub (returning 5 none)) busy).mergeTarget 1 5 = none
    ∧ (set47 (set1 hub (returning 5 none)) busy).freeEntry = some 0
    ∧ (set47 (set1 hub (returning 5 none)) busy).activeOn 5 = some 47
    ∧ (set47 (asks .plain (.plainWrite 5 1 0)) busy).choice = some (.request 1 ⟨63, .plainWrite 5 1 0⟩)
    ∧ (set47 (asks .plain (.plainWrite 5 1 0)) busy).postsTo 5 = false := by decide +kernel

/-- The record SHARED by node 1 for line 5. -/
def sharedByOne : Record := ⟨0, .shared, NodeSet.single 1⟩

/-- A hub whose set 5 holds that record in way 7. -/
def hitting (b : ReqBody) : State := way5 (asks .coherent b) 7 { Way.vacant with written := some sharedByOne }

theorem hitting_sound (b : ReqBody) : ((hitting b).dirSet (LineAddr.set 5)).sound := by
  refine sound_of ?_
  show ∀ w, (tget ((hitting .order).dirSet (LineAddr.set 5)).ways w).damage = .intact
    ∧ (tget ((hitting .order).dirSet (LineAddr.set 5)).ways w).written.all Record.wellFormed = true
  decide

theorem hitting_hit (b : ReqBody) :
    ((hitting b).dirSet (LineAddr.set 5)).hitAt 7 ⟨LineAddr.tag 5, .shared, NodeSet.single 1⟩ := by
  have h : ((hitting .order).dirSet (LineAddr.set 5)).hitAt 7 ⟨LineAddr.tag 5, .shared, NodeSet.single 1⟩ :=
    hitAt_of (by decide) (by decide) (by decide) (by decide)
  exact h

theorem test_meets_FetchesAndPlainReadsReadThePool :
    (hitting (.fetchS 5)).choice = some (.request 1 ⟨63, .fetchS 5⟩)
    ∧ (hitting (.fetchS 5)).decodeRefusal 1 (.fetchS 5) = none ∧ (hitting (.fetchS 5)).freeEntry = some 0
    ∧ (hitting (.fetchS 5)).activeOn 5 = none ∧ (hitting (.fetchS 5)).portFree
    ∧ ((hitting (.fetchS 5)).dirSet (LineAddr.set 5)).sound
    ∧ ((hitting (.fetchS 5)).dirSet (LineAddr.set 5)).hitAt 7 ⟨LineAddr.tag 5, .shared, NodeSet.single 1⟩
    ∧ (∀ k ∈ (hitting (.fetchS 5)).wayWait, k.entry ≠ 0)
    ∧ (hitting (.fetchH 5)).choice = some (.request 1 ⟨63, .fetchH 5⟩)
    ∧ (asks .plain (.plainRead 5)).choice = some (.request 1 ⟨63, .plainRead 5⟩)
    ∧ (asks .plain (.plainRead 5)).decodeRefusal 1 (.plainRead 5) = none :=
  ⟨by decide, by decide, by decide, by decide, by unfold State.portFree; decide, hitting_sound _, hitting_hit _,
    by decide, by decide, by decide, by decide⟩

theorem test_meets_UpgradeAndFlushAnsweredAtOnce :
    (hitting (.upgrade 5)).choice = some (.request 1 ⟨63, .upgrade 5⟩)
    ∧ (hitting (.upgrade 5)).decodeRefusal 1 (.upgrade 5) = none ∧ (hitting (.upgrade 5)).freeEntry = some 0
    ∧ (hitting (.upgrade 5)).activeOn 5 = none ∧ ((hitting (.upgrade 5)).dirSet (LineAddr.set 5)).sound
    ∧ ((hitting (.upgrade 5)).dirSet (LineAddr.set 5)).hitAt 7 ⟨LineAddr.tag 5, .shared, NodeSet.single 1⟩
    ∧ (hitting (.upgrade 5)).wayWait = []
    ∧ (asks .coherent (.flush 5)).choice = some (.request 1 ⟨63, .flush 5⟩)
    ∧ (asks .coherent (.flush 5)).decodeRefusal 1 (.flush 5) = none
    ∧ (asks .coherent (.flush 5)).entry 0 = Entry.free
    ∧ ((asks .coherent (.flush 5)).dirSet (LineAddr.set 5)).sound
    ∧ ((asks .coherent (.flush 5)).dirSet (LineAddr.set 5)).misses (LineAddr.tag 5) :=
  ⟨by decide, by decide, by decide, by decide, hitting_sound _, hitting_hit _, by decide, by decide, by decide,
    by decide +kernel, sound_of (by decide), misses_of (by decide)⟩

theorem test_meets_PlainWriteByMaskAndRegion :
    (asks .plain (.plainWrite 5 1 0)).choice = some (.request 1 ⟨63, .plainWrite 5 1 0⟩)
    ∧ (asks .plain (.plainWrite 5 1 0)).decodeRefusal 1 (.plainWrite 5 1 0) = none
    ∧ (asks .plain (.plainWrite 5 1 0)).freeEntry = some 0 ∧ (asks .plain (.plainWrite 5 1 0)).activeOn 5 = none
    ∧ (asks .plain (.plainWrite 5 1 0)).portFree
    ∧ (asks .plain (.plainWrite 5 0 0)).choice = some (.request 1 ⟨63, .plainWrite 5 0 0⟩)
    ∧ (asks .plainPosted (.plainWrite 5 (BitVec.allOnes 64) 0)).choice
        = some (.request 1 ⟨63, .plainWrite 5 (BitVec.allOnes 64) 0⟩)
    ∧ (asks .plainPosted (.plainWrite 5 (BitVec.allOnes 64) 0)).postsTo 5 = true
    ∧ (1 : ByteMask) ≠ 0 ∧ (1 : ByteMask) ≠ BitVec.allOnes 64 :=
  ⟨by decide +kernel, by decide, by decide, by decide, by unfold State.portFree; decide, by decide +kernel, by decide +kernel, by decide,
    by decide, by decide⟩

theorem test_meets_OrderWaitsForPostedWrites :
    (set1 hub (asking .order)).choice = some (.request 1 ⟨63, .order⟩)
    ∧ (set1 hub (asking .order)).decodeRefusal 1 .order = none ∧ ((set1 hub (asking .order)).node 1).posted = 0
    ∧ (set1 hub { asking .order with posted := 1 }).choice = some (.request 1 ⟨63, .order⟩)
    ∧ ((set1 hub { asking .order with posted := 1 }).node 1).posted ≠ 0 := by decide

theorem test_meets_LeaveStartsTheDepartureWalk :
    (set1 hub (asking .leave)).choice = some (.request 1 ⟨63, .leave⟩)
    ∧ (set1 hub (asking .leave)).decodeRefusal 1 .leave = none := by decide

/-- An entry in GATHER that has probed nodes 1 and 2, or awaits node 1's return. -/
def merging (k : WorkKind) (pk : ProbeKind) (awaited : Option NodeId) : Entry :=
  { (probingTwo .sent 1 0).setProbe 1 { kind := some pk, status := .sent, sends := 1, answers := 0
                                        timer := .running 5, waitEnded := false } with
    kind := k, awaited := awaited }

/-- Node 1's return of line 5 before such an entry. -/
def merges (x : Entry) (d : Option Buffer) : State := set47 (set1 hub (returning 5 d)) x

theorem test_meets_ReturnsMerge :
    (merges (merging .fetchH .drop none) (some ⟨7, false⟩)).choice = some (.ret 1 ⟨63, 5, some ⟨7, false⟩⟩)
    ∧ (merges (merging .fetchH .drop none) (some ⟨7, false⟩)).mergeTarget 1 5 = some 47
    ∧ (merging .fetchH .drop none).phase = .gather ∧ ((merging .fetchH .drop none).probe 2).unanswered = true
    ∧ (2 : NodeId) ≠ 1 ∧ ((merging .fetchH .drop none).probe 1).kind = some .drop
    ∧ ((merging .fetchH .surrender none).probe 1).kind ≠ some .drop
    ∧ (merges (merging .fetchH .surrender (some 1)) (some ⟨7, false⟩)).mergeTarget 1 5 = some 47
    ∧ (merging .fetchH .surrender (some 1)).awaited = some 1 ∧ (merging .fetchH .drop none).awaited ≠ some 1
    ∧ (merges (merging .flush .surrender (some 1)) none).choice = some (.ret 1 ⟨63, 5, none⟩)
    ∧ (merging .flush .surrender (some 1)).kind = .flush ∧ (merging .fetchS .yield (some 1)).kind = .fetchS
    ∧ (merging .fetchS .yield (some 1)).line = 5 ∧ (merges (merging .fetchS .yield (some 1)) none).portFree := by
  unfold State.portFree; decide +kernel

theorem test_meets_ConfigReadIsAnswered :
    (set1 hub (asking (.configRead 0x004))).choice = some (.request 1 ⟨63, .configRead 0x004⟩)
    ∧ regAt 0x004 = some .hubStatus
    ∧ (set1 hub (asking (.configRead 0xFFC))).choice = some (.request 1 ⟨63, .configRead 0xFFC⟩)
    ∧ regAt 0xFFC = none ∧ regAt 0x005 = none := by decide

/-- Node 1 writes a register. -/
def writes (o : Offset) (v : RegValue) : State := set1 hub (asking (.configWrite o v))

theorem test_meets_ConfigWritesAreCheckedAndAnswered :
    (writes 0x010 0).choice = some (.request 1 ⟨63, .configWrite 0x010 0⟩) ∧ regAt 0xFFC = none
    ∧ regAt 0x000 = some .id ∧ rowOfWrite .id 0 = some .configWrite ∧ Reg.readOnly .id = true
    ∧ regAt 0x010 = some .probeTiming ∧ rowOfWrite .probeTiming 0 = some .configWrite
    ∧ Reg.readOnly .probeTiming = false ∧ Reg.outOfRange .probeTiming 0 = true
    ∧ Reg.outOfRange .probeTiming 1 = false ∧ ((writes 0x010 1).takeRequest 1).regionBusy .probeTiming 1 = false
    ∧ regAt 0x100 = some (.base 0) ∧ rowOfWrite (.base 0) 0 = some .base
    ∧ ((writes 0x100 0).takeRequest 1).regionBusy (.base 0) 0 = true
    ∧ ((writes 0x110 0).takeRequest 1).regionBusy (.base 1) 0 = false ∧ regAt 0x040 = some (.nodeCommand 0)
    ∧ rowOfWrite (.nodeCommand 0) 4 = some .configWrite := by decide

theorem test_meets_RegistersTakeTheirFieldsUnlessBusy : gradeOf 2 = some .g4 ∧ regionKindOf 2 = some .plainPosted
    ∧ (tget hub.regions 0).enabled = true ∧ (tget hub.regions 1).enabled = false
    ∧ (0 < hub.poolSize.toNat ∧ (tget hub.regions 1).limit.toNat < hub.poolSize.toNat * 1024) := by decide

theorem test_meets_RelinkRetrainsAnActiveLink : (writes 0x044 1).choice = some (.request 1 ⟨63, .configWrite 0x044 1⟩)
    ∧ regAt 0x044 = some (.nodeCommand 1) ∧ (1 : RegValue).getLsbD 0 = true ∧ (1 : RegValue).getLsbD 1 = false
    ∧ ((writes 0x044 1).node 1).link = .active ∧ ((writes 0x044 1).node 2).link ≠ .active := by decide

theorem test_meets_ForceLostLosesAMember : (writes 0x044 2).choice = some (.request 1 ⟨63, .configWrite 0x044 2⟩)
    ∧ regAt 0x044 = some (.nodeCommand 1) ∧ (2 : RegValue).getLsbD 1 = true
    ∧ ((writes 0x044 2).node 2).membership = .absent ∧ ((writes 0x044 2).node 1).membership = .member
    ∧ ∀ e, ((writes 0x044 2).entry e).unconcerned 1 ∧ ((writes 0x044 2).entry e).standing := by
  refine ⟨by decide, by decide, by decide, by decide, by decide, fun e => ?_⟩
  have h : (writes 0x044 2).entry e = Entry.free := by simp [writes, set1, hub, State.reset, State.entry, tget]
  rw [h]
  exact ⟨unconcerned_free 1, standing_free⟩

/-- A class with an event pending. -/
def pendingClass (count : Nat) : ClassState :=
  { pending := true, further := false, count := count, first := some {} }

/-- A hub with class 9 pending. -/
def alarmed (count : Nat) : State := { set1 hub member with
  errors := tset hub.errors 9 (pendingClass count), alertMask := 0x200, alertTarget := 1, pinEnable := true }

theorem test_meets_EventsAreCapturedByTheirClass : (hub.cls ErrClass.link.index).pending = false
    ∧ ((alarmed 65535).cls ErrClass.link.index).pending = true := by decide

theorem test_meets_AlertIsSentUnderItsCondition : ((alarmed 1).alert = .idle
      ∧ (∃ c, ((alarmed 1).cls c).pending = true ∧ (alarmed 1).alertMask.getLsbD c.val = true)
      ∧ ((alarmed 1).node (alarmed 1).alertTarget).membership = .member
      ∧ ((alarmed 1).node (alarmed 1).alertTarget).link = .active ∧ ∀ n, ((alarmed 1).node n).outQ = [])
    ∧ ¬(hub.node hub.alertTarget).link = .active := by decide

theorem test_meets_ErrorCountsRecordEvents : ((alarmed 65534).cls ErrClass.link.index).count < 65535
    ∧ ((alarmed 65535).cls ErrClass.link.index).count = 65535 ∧ ((alarmed 1).cls ErrClass.link.index).pending = true
    ∧ (writes (BitVec.ofNat 12 (0x240 + 4 * 9)) 0).choice
        = some (.request 1 ⟨63, .configWrite (BitVec.ofNat 12 (0x240 + 4 * 9)) 0⟩)
    ∧ (0 : RegValue).extractLsb' 0 16 = 0 ∧ (1 : RegValue).extractLsb' 0 16 ≠ 0 := by decide

theorem test_meets_AcknowledgementClearsNamedClasses :
    (writes 0x204 0x200).choice = some (.request 1 ⟨63, .configWrite 0x204 0x200⟩)
    ∧ (0x200 : ClassSet).getLsbD ErrClass.link.index.val = true
    ∧ ∀ c : Fin 10, ((alarmed 1).cls c).pending = true → (alarmed 1).alertMask.getLsbD c.val = true →
        (0x200 : ClassSet).getLsbD c.val = true := by decide

theorem test_meets_AlertClearEndsTheAlert :
    (writes 0x210 1).choice = some (.request 1 ⟨63, .configWrite 0x210 1⟩) ∧ (writes 0x210 1).alert = .idle
    ∧ { writes 0x210 1 with alert := .sent 1 }.choice = some (.request 1 ⟨63, .configWrite 0x210 1⟩)
    ∧ { writes 0x210 1 with alert := .sent 1 }.alert = .sent 1 := by decide

theorem test_meets_AlertPinFollowsItsCondition : (alarmed 1).pinEnable = true
    ∧ (alarmed 1).alertMask.getLsbD ErrClass.link.index.val = true
    ∧ (0x200 : ClassSet).getLsbD ErrClass.link.index.val = true
    ∧ (∀ d : Fin 10, d ≠ ErrClass.link.index → ((alarmed 1).cls d).pending = true →
        (alarmed 1).alertMask.getLsbD d.val = true → (0x200 : ClassSet).getLsbD d.val = true)
    ∧ (alarmed 1).alertN = true ∧ hub.alertN = false := by decide

/-- A record R2 does not allow. -/
def illFormed : Record := ⟨0, .held, 3⟩

theorem test_meets_WaysAreCheckedAndRead : illFormed.wellFormed = false ∧ sharedByOne.wellFormed = true
    ∧ (Way.check { Way.vacant with written := some sharedByOne, damage := .twoBits }) = (.uncorrectable, none)
    ∧ { Way.vacant with damage := .twoBits }.damage = .twoBits
    ∧ (Way.check { Way.vacant with written := some sharedByOne }) = (.clean, some sharedByOne)
    ∧ (Way.check { Way.vacant with written := some sharedByOne, damage := .oneBit }) = (.corrected, some sharedByOne)
    ∧ (Way.check { Way.vacant with written := some illFormed }) = (.uncorrectable, none)
    ∧ { Way.vacant with pin := .entry 47 }.pin ≠ .none ∧ Way.vacant.pin = .none ∧ Way.vacant.quarantined = false
    ∧ { Way.vacant with quarantined := true }.quarantined = true := by decide

theorem test_meets_WaysAreWrittenWholeAndMadeRecent : hub.status = .ready ∧ Directory.wf hub.dir
    ∧ (hub.way 5 7).counted.toNat ≤ hub.dir.validCount ∧ (hub.way 5 7).quarantined.toNat ≤ hub.dir.quarCount
    ∧ sharedByOne.wellFormed = true ∧ illFormed.wellFormed = false ∧ illFormed.state = .held
    ∧ (⟨0, .shared, 0⟩ : Record).wellFormed = false ∧ (6 : WayNo) ≠ 7 ∧ (6 : SetIdx) ≠ 5
    ∧ ([] ++ (0 : WayNo) :: [1, 2, 3, 4, 5, 6, 7]).Perm [0, 1, 2, 3, 4, 5, 6, 7]
    ∧ ([0, 1, 2, 3, 4, 5, 6] ++ (7 : WayNo) :: []).Perm [0, 1, 2, 3, 4, 5, 6, 7] := by decide

/-- A walk record of node 1. -/
def walkRec (m : WalkMode) : WalkRec := { mode := m, remaining := 16384, recalls := 0, leaveTag := 0, joining := false }

/-- The walker at way 6 of set 5, which is as given, with a walk of node 1. -/
def walking (m : WalkMode) (x : Way) : State :=
  way5 { hub with walker := { Walker.reset with pointer := 5, position := 6 }.setRecord 1 (some (walkRec m)) } 6 x

/-- A way that holds a record. -/
def holding (st : DirState) (T : NodeSet) : Way := { Way.vacant with written := some ⟨0, st, T⟩ }

theorem test_meets_WalkerActsOnTheWay : (walking .loss Way.vacant).status = .ready
    ∧ (walking .loss Way.vacant).walker.stall = .none ∧ (walking .loss Way.vacant).walker.walks = true
    ∧ (walking .loss Way.vacant).walker.pointer = 5 ∧ (walking .loss Way.vacant).walker.position = 6
    ∧ ((walking .loss Way.vacant).dirSet 5).sound ∧ ((walking .loss (holding .shared 6)).dirSet 5).sound
    ∧ ((walking .loss (holding .held 2)).dirSet 5).sound ∧ ((walking .depart (holding .held 2)).dirSet 5).sound
    ∧ (walking .loss Way.vacant).way 5 6 = Way.vacant ∧ (6 : WayNo) ≠ 7
    ∧ (4 : NodeSet) &&& (walking .loss Way.vacant).walker.nodesIn .loss = 0
    ∧ (4 : NodeSet) &&& (walking .loss Way.vacant).walker.nodesIn .depart = 0
    ∧ (6 : NodeSet) &&& (walking .loss (holding .shared 6)).walker.nodesIn .loss ≠ 0
    ∧ (walking .loss (holding .held 2)).portFree
    ∧ (2 : NodeSet) &&& (walking .depart (holding .held 2)).walker.nodesIn .loss = 0
    ∧ (2 : NodeSet) &&& (walking .depart (holding .held 2)).walker.nodesIn .depart ≠ 0
    ∧ { walking .depart (holding .held 2) with
        entries := Vector.replicate 48 { Entry.free with phase := .queued, kind := .recall } }.recallAvailable = false :=
  ⟨by decide, by decide, by decide, by decide, by decide, sound_of (by decide), sound_of (by decide),
    sound_of (by decide), sound_of (by decide), by decide, by decide, by decide, by decide, by decide,
    by unfold State.portFree; decide, by decide, by decide, by decide⟩

/-- The walker's poison write of line 5 is out. -/
def poisoning : State := { walking .loss { holding .held 2 with pin := .walker } with
  walker := { (walking .loss Way.vacant).walker with stall := .write }
  poolQueue := [⟨.walker, 5, some ⟨0, true⟩⟩] }

theorem test_meets_PoisonWriteFreesTheWay : poisoning.status = .ready ∧ Directory.wf poisoning.dir
    ∧ poisoning.walker.stall = .write ∧ poisoning.walker.pointer = 5 ∧ poisoning.walker.position = 6
    ∧ (6 : WayNo) ≠ 7 ∧ poisoning.completable .walker = some ⟨.walker, 5, some ⟨0, true⟩⟩
    ∧ poisoning.issueWait = [] ∧ ∀ m ∈ poisoning.wayWait, LineAddr.set (poisoning.entry m.entry).line ≠ 5 := by decide +kernel

theorem test_meets_StepKeepsMemoryCanonical : writing.canonical ∧ step writing = .next writing.tick := by
  refine ⟨?_, rfl⟩
  unfold State.canonical
  decide

theorem test_meets_StepKeepsDownLinksEmpty : (set1 hub member).downLaw ∧ step (set1 hub member) = .next (set1 hub member).tick := by
  refine ⟨?_, rfl⟩
  unfold State.downLaw Node.downLaw
  decide

theorem test_meets_StepKeepsOrdersClassesAndCounters : poisoning.orderLaw ∧ (alarmed 65535).errorLaw
    ∧ (set1 hub { member with patience := 255, damagedCount := 8, frames := [⟨1, 8, none⟩] }).rangeLaw
    ∧ step poisoning = .next poisoning.tick := by
  refine ⟨?_, ?_, ?_, rfl⟩
  · unfold State.orderLaw DirSet.ordered; decide
  · unfold State.errorLaw ClassState.law; decide
  · unfold State.rangeLaw Node.rangeLaw; decide

/-! ## The further clauses of the statements above -/

theorem test_meets_RequestFieldsAreRead_answersAndReplies :
    ((msg 0x0D 0 47 5 2).header, AnswerKind.ackClean)
      ∈ [((0#12 ++ BitVec.ofBool true ++ 0#1 ++ (5 : LineAddr) ++ 47#6 ++ 0#6 ++ 0x0D#8 : BitVec 64), AnswerKind.ackClean),
        ((0#11 ++ 1#1 ++ BitVec.ofBool true ++ BitVec.ofBool false ++ (5 : LineAddr) ++ 47#6 ++ 0#6 ++ 0x0E#8 : BitVec 64),
          .ackData), ((0#14 ++ (5 : LineAddr) ++ 47#6 ++ 0#6 ++ 0x0F#8 : BitVec 64), .miss),
        ((0#14 ++ (5 : LineAddr) ++ 47#6 ++ 0#6 ++ 0x10#8 : BitVec 64), .confirm)]
    ∧ (47#6 : BitVec 6) = BitVec.ofNat 6 (47 : EntryId).val
    ∧ (Reason.regionBusy, 8#4) ∈ [(Reason.noRegion, 1#4), (.denied, 2#4), (.kind, 3#4), (.leaving, 4#4), (.dirFault, 5#4),
        (.state, 6#4), (.configOffset, 7#4), (.regionBusy, 8#4)]
    ∧ (ProbeKind.surrender, 0x1C#8) ∈ [(ProbeKind.drop, 0x1A#8), (.yield, 0x1B#8), (.surrender, 0x1C#8)] := by decide

/-- A recall over line 5, SHARED by T, that waits for node 1's answer alone. -/
def recalling (sc : Scope) (T : NodeSet) (b : Option EntryId) : Entry := { Entry.free with
  phase := .gather, kind := .recall, line := 5, way := some 7, scope := some sc, beneficiary := b
  snapshot := some (.hit .shared T) }.setProbe 1
  { kind := some .drop, status := .sent, sends := 1, answers := 0, timer := .running 5, waitEnded := false }

/-- A FETCH-H of node 2 that seeks a way of set 5. -/
def seeker : Entry := { Entry.free with
  phase := .wayWait, kind := .fetchH, admitted := .fetchH, origin := some ⟨2, 0⟩, line := 16389 }

/-- A state with entry 46 as given. -/
def set46 (s : State) (x : Entry) : State := { s with entries := tset s.entries 46 x }

/-- Such a recall, with that seeker as its beneficiary. -/
def handing : State := { set46 (set47 (set1 hub member) (recalling .all (NodeSet.single 1) (some 46))) seeker with
  wayWait := [⟨46, .recalling⟩] }

theorem test_meets_SharersAndCopiesAnswer_handOff : (46 : EntryId) ≠ 47
    ∧ handing.entry 47 = recalling .all (NodeSet.single 1) (some 46) ∧ handing.entry 46 = seeker
    ∧ handing.status = .ready ∧ Directory.wf handing.dir ∧ (handing.node 1).link = .active
    ∧ (msg 0x0D 0 47 5 0).entryNo = entryCode 47 ∧ (msg 0x0D 0 47 5 0).answer = some .ackClean
    ∧ (recalling .all (NodeSet.single 1) (some 46)).line = (msg 0x0D 0 47 5 0).line
    ∧ (∀ x, x = recalling .all (NodeSet.single 1) (some 46) → x.kind = .recall ∧ x.scope = some .all ∧ x.phase = .gather
      ∧ x.way = some 7 ∧ x.snapshot = some (.hit .shared (NodeSet.single 1)) ∧ x.beneficiary = some 46
      ∧ x.successor = none ∧ x.posted = false ∧ x.poolOp = .none ∧ x.awaited = none ∧ x.poolStale = false
      ∧ x.owesWriteBack = false ∧ x.confirm = .notNeeded ∧ x.mark 1 = .none ∧ (x.probe 1).kind = some .drop
      ∧ (x.probe 1).status = .sent ∧ (x.probe 1).sends = 1 ∧ (x.probe 1).answers = 0
      ∧ ∀ k, k ≠ 1 → (x.probe k).unanswered = false ∧ (x.probe k).straggling = false)
    ∧ seeker.kind = .fetchH ∧ handing.poolQueue.length < 32 ∧ handing.issueWait = []
    ∧ (∀ k ∈ handing.wayWait, k.entry ≠ 46 → handing.setOf k.entry ≠ 5) ∧ (∀ k ∈ handing.wayWait, k.cond ≠ .stalled)
    ∧ handing.walker.stall.reserving = none := by
  simp only [forall_eq]
  decide +kernel

/-- A departure recall over a line SHARED by T, with node 1's walk record. -/
def departing (T : NodeSet) (recalls remaining : Nat) : State :=
  { set47 (set1 hub member) (recalling (.only 1) T none) with
    walker := Walker.reset.setRecord 1 (some { mode := .depart, remaining := remaining, recalls := recalls, leaveTag := 9
                                               joining := false }) }

theorem test_meets_SharersAndCopiesAnswer_departure : (departing 6 1 0).status = .ready
    ∧ Directory.wf (departing 6 1 0).dir ∧ ((departing 6 1 0).node 1).link = .active
    ∧ (∀ x, x = recalling (.only 1) 6 none → x.kind = .recall ∧ x.scope = some (.only 1) ∧ x.phase = .gather
      ∧ x.way = some 7 ∧ x.snapshot = some (.hit .shared 6) ∧ x.beneficiary = none ∧ x.successor = none
      ∧ x.posted = false ∧ x.poolOp = .none ∧ x.awaited = none ∧ x.poolStale = false ∧ x.owesWriteBack = false
      ∧ x.orphaned = false ∧ x.confirm = .notNeeded ∧ x.mark 1 = .none ∧ (x.probe 1).kind = some .drop
      ∧ (x.probe 1).status = .sent ∧ (x.probe 1).sends = 1 ∧ (x.probe 1).answers = 0
      ∧ ∀ k, k ≠ 1 → (x.probe k).unanswered = false ∧ (x.probe k).straggling = false)
    ∧ NodeSet.has 6 1 = true ∧ NodeSet.without 6 1 &&& (departing 6 1 0).lostNodes = 0 ∧ NodeSet.without 6 1 ≠ 0
    ∧ NodeSet.without (NodeSet.single 1) 1 = 0 ∧ (departing 6 1 0).wayWait = [] ∧ (departing 6 1 0).walker.stall = .none
    ∧ (departing 6 1 0).walker.record 1 = some ⟨.depart, 0, 1, 9, false⟩
    ∧ (departing 6 2 0).walker.record 1 = some ⟨.depart, 0, 2, 9, false⟩
    ∧ (departing 6 1 1).walker.record 1 = some ⟨.depart, 1, 1, 9, false⟩ := by
  simp only [forall_eq]
  decide +kernel

/-- A hub with some RECALL entries in use. -/
def recalls (n : Nat) : State := { hub with
  entries := Vector.ofFn (fun i => if i.val < n then { Entry.free with phase := .queued, kind := .recall } else Entry.free) }

theorem test_meets_SharersAndCopiesAnswer_arbiter : 4 ≤ (recalls 4).recallsInUse ∧ (recalls 3).recallsInUse < 4
    ∧ ((recalls 3).entry 3).phase = .free ∧ (∀ g, ((recalls 48).entry g).phase ≠ .free)
    ∧ ([⟨46, .stalled⟩] : List Member).find? (fun m => decide (m.cond = .stalled)) = some ⟨46, .stalled⟩
    ∧ handing.wayWait.find? (fun m => decide (m.cond = .stalled)) = none ∧ hub.walker.stall.reserving = none
    ∧ (hub.setStall (.reserve 1)).walker.stall = .reserve 1 ∧ hub.recallMark = .walker := by decide +kernel

theorem test_meets_ReadResultByWordConditions_event : (reading .fetchS none).origin = some ⟨1, 63⟩ := by decide

theorem test_meets_ReadCompletesForSharedFetchS_rows : hub.promote = false ∧ { hub with promote := true }.promote = true
    ∧ (reading .fetchS (some .miss)).snapshot = some .miss ∧ (reading .fetchH (some .miss)).kind = .fetchH
    ∧ (reading .fetchS (some (.hit .held (NodeSet.single 2)))).snapshot = some (.hit .held (NodeSet.single 2))
    ∧ (2 : NodeId) ≠ 1 ∧ { reading .fetchS (some (.hit .held (NodeSet.single 2))) with holderKept := true }.holderKept
    ∧ (porting (reading .fetchH (some .miss)) none).completable (.entry 47) = some ⟨.entry 47, 5, none⟩ := by decide

/-- A hub whose full port's one waiting operation is another entry's. -/
def portingFull (x : Entry) (w : Option Buffer) : State := { porting x w with issueWait := [⟨.entry 46, 6, none⟩] }

theorem test_meets_ReadCompletesForPlainRead_waiting :
    let x := reading .plainRead none
    (portingFull x none).issueWait = ⟨.entry 46, 6, none⟩ :: [] ∧ Owner.entry 46 ≠ .entry 47
    ∧ (portingFull x none).completable (.entry 47) = some ⟨.entry 47, 5, none⟩ ∧ x.origin = some ⟨1, 63⟩
    ∧ { porting x none with correctWb := true }.correctWb = true ∧ (porting x none).poolQueue.length ≤ 32
    ∧ (({ porting x none with correctWb := true }.poolDamaged 5 [⟨7, .oneBit⟩]).poolRead 5).1 = .corrected 1
    ∧ (ReadResult.corrected 1).isCorrected = true ∧ ReadResult.clean.isCorrected = false := by decide

theorem test_meets_ReadCompletesForPlainRead_partial :
    let x := { reading .plainWrite none with mask := 1, posted := true }
    (porting x none).completable (.entry 47) = some ⟨.entry 47, 5, none⟩ ∧ (porting x none).issueWait = []
    ∧ (porting x none).poolQueue.length ≤ 32 ∧ x.phase = .gather ∧ x.kind = .plainWrite ∧ x.line = 5
    ∧ x.mask ≠ BitVec.allOnes 64 ∧ x.origin = some ⟨1, 63⟩ ∧ x.awaited = none ∧ (∀ k, (x.probe k).unanswered = false)
    ∧ ((porting x none).poolRead 5).1 = .clean
    ∧ (((porting x none).poolDamaged 5 [⟨7, .twoBits 3⟩]).poolRead 5).1.poison = true := by decide

/-- An entry of a kind whose WRITE is out, with its way. -/
def storing (k : WorkKind) (c : Confirm) (o : DirOutcome) : Entry := { Entry.free with
  phase := .finish, kind := k, origin := some ⟨1, 63⟩, line := 5, way := some 7, confirm := c, outcome := o
  poolOp := .writeOut }

theorem test_meets_WriteCompletesForPlainWrite_coherent :
    let s := porting (storing .fetchS .received (.record .shared 2)) (some ⟨8, false⟩)
    s.completable (.entry 47) = some ⟨.entry 47, 5, some ⟨8, false⟩⟩ ∧ s.issueWait = [] ∧ s.status = .ready
    ∧ Directory.wf s.dir ∧ (∀ m ∈ s.wayWait, s.setOf m.entry ≠ LineAddr.set 5) ∧ s.walker.stall ≠ .way 7
    ∧ (s.entry 47).successor = none ∧ (s.entry 47).posted = false ∧ (∀ k, ((s.entry 47).probe k).straggling = false)
    ∧ (s.entry 47).orphaned = false ∧ (2 : NodeSet) ≠ 0 ∧ (NodeSet.members 2).length = 1 ∧ 2 &&& s.lostNodes = 0
    ∧ (s.node 1).link ≠ .down ∧ (storing .fetchS (.awaited 1) .noChange).confirm = .awaited 1
    ∧ (storing .fetchH .received (.record .held 2)).kind = .fetchH
    ∧ (storing .flush .notNeeded .vacant).outcome = .vacant ∧ (storing .flush .notNeeded .vacant).confirm = .notNeeded
    ∧ (storing .returnD .notNeeded .vacant).origin = some ⟨1, 63⟩
    ∧ { storing .flush .notNeeded .vacant with orphaned := true }.orphaned = true := by decide +kernel

theorem test_meets_ArbiterChoosesAndCounts_active : ((set47 hub waiting).entry 47).line = 5
    ∧ ((set47 hub waiting).entry 47).phase ≠ .free ∧ ((set47 hub waiting).entry 47).phase ≠ .queued
    ∧ (set47 hub waiting).activeOn 5 = some 47 := by decide

/-- What the arbiter chooses where node 1 alone asks for b, with set 5 as given. -/
def asksOver (b : ReqBody) (x : Way) : State := (set2 (asks .coherent b) member).putDirSet 5 { DirSet.vacant with
  ways := Vector.replicate 8 x }

/-- A way that holds a record of another line, pinned or not. -/
def otherLine (p : Pin) : Way := { Way.vacant with written := some ⟨1, .shared, NodeSet.single 2⟩, pin := p }

theorem test_meets_RefusedRequestsAreAnswered_dirFault :
    (Instr.upgrade [], ReqBody.upgrade 5, WorkKind.upgrade) ∈ coherentRequests 5 ∧ WorkKind.upgrade ≠ .flush
    ∧ (asksOver (.upgrade 5) { Way.vacant with quarantined := true }).admits 1 63 (.upgrade 5) 5 0
    ∧ (asksOver (.upgrade 5) { Way.vacant with quarantined := true }).entry 0 = Entry.free
    ∧ ((asksOver (.upgrade 5) { Way.vacant with quarantined := true }).dirSet (LineAddr.set 5)).sound
    ∧ ∀ w, ((asksOver (.upgrade 5) { Way.vacant with quarantined := true }).way (LineAddr.set 5) w).quarantined = true :=
  ⟨by decide, by decide, by unfold State.admits; decide +kernel, by decide +kernel, sound_of (by decide), by decide⟩

theorem test_meets_EntriesQueueBehindTheActiveEntry_seeks :
    (Instr.fetchH [], ReqBody.fetchH 5, WorkKind.fetchH) ∈ coherentRequests 5
    ∧ (asksOver (.fetchH 5) (otherLine .none)).admits 1 63 (.fetchH 5) 5 0
    ∧ ((asksOver (.fetchH 5) (otherLine .none)).dirSet (LineAddr.set 5)).sound
    ∧ ((asksOver (.fetchH 5) (otherLine .none)).dirSet (LineAddr.set 5)).misses (LineAddr.tag 5)
    ∧ (∃ v, ((asksOver (.fetchH 5) (otherLine .none)).way (LineAddr.set 5) v).quarantined = false)
    ∧ (asksOver (.fetchH 5) (otherLine .none)).wayWait = []
    ∧ (∀ v, ¬((asksOver (.fetchH 5) (otherLine .none)).way (LineAddr.set 5) v).free)
    ∧ (∀ v, ¬((asksOver (.fetchH 5) (otherLine .walker)).way (LineAddr.set 5) v).recallable)
    ∧ ((asksOver (.fetchH 5) (otherLine .none)).dirSet (LineAddr.set 5)).first Way.recallable 0
    ∧ ((asksOver (.fetchH 5) (otherLine .none)).way (LineAddr.set 5) 0).written = some ⟨1, .shared, NodeSet.single 2⟩
    ∧ (asksOver (.fetchH 5) (otherLine .none)).recallsInUse < 4 ∧ (1 : EntryId) ≠ 0
    ∧ ((asksOver (.fetchH 5) (otherLine .none)).entry 1).phase = .free
    ∧ (∀ g : EntryId, g < 1 → g ≠ 0 → ((asksOver (.fetchH 5) (otherLine .none)).entry g).phase ≠ .free)
    ∧ (asksOver (.fetchH 5) (otherLine .none)).activeOn (lineOf 1 5) = none
    ∧ (asksOver (.fetchH 5) (otherLine .none)).reaches (NodeSet.single 2) := by
  refine ⟨by decide, by unfold State.admits; decide +kernel, sound_of (by decide), misses_of (by decide), by decide, by decide,
    ?_, ?_, ⟨?_, [], [1, 2, 3, 4, 5, 6, 7], by decide, by simp⟩, by decide, by decide, by decide,
    by decide, by decide, by decide, ?_⟩
  · unfold Way.free; decide
  · unfold Way.recallable; decide
  · unfold Way.recallable; decide
  · unfold State.reaches; decide

/-- The same with an older seeker of set 5 in the list. -/
def seekingAfter : State := { set46 (asksOver (.fetchH 5) (otherLine .none)) seeker with wayWait := [⟨46, .blocked⟩] }

/-- The same with four RECALL entries in use. -/
def seekingLate : State := { asksOver (.fetchH 5) (otherLine .none) with entries := (recalls 4).entries }

theorem test_meets_EntriesQueueBehindTheActiveEntry_waits : seekingAfter.admits 1 63 (.fetchH 5) 5 0
    ∧ (∃ m ∈ seekingAfter.wayWait, m.cond.seeks = true ∧ seekingAfter.setOf m.entry = LineAddr.set 5)
    ∧ seekingLate.admits 1 63 (.fetchH 5) 5 4 ∧ 4 ≤ seekingLate.recallsInUse := by
  unfold State.admits; decide +kernel

/-- Node 1's return of line 5 before a set 5 whose way 7 is as given. -/
def returns (d : Option Buffer) (x : Way) : State := way5 (set1 hub (returning 5 d)) 7 x

theorem test_meets_EntriesQueueBehindTheActiveEntry_returns :
    let s := returns (some ⟨7, false⟩) { Way.vacant with written := some ⟨0, .held, NodeSet.single 1⟩ }
    let u := returns none { Way.vacant with written := some ⟨0, .shared, 6⟩ }
    s.choice = some (.ret 1 ⟨63, 5, some ⟨7, false⟩⟩) ∧ u.choice = some (.ret 1 ⟨63, 5, none⟩)
    ∧ s.mergeTarget 1 5 = none ∧ s.freeEntry = some 0 ∧ s.activeOn 5 = none ∧ (∀ m ∈ s.wayWait, m.entry ≠ 0)
    ∧ (s.dirSet (LineAddr.set 5)).sound ∧ (s.dirSet (LineAddr.set 5)).hitAt 7 ⟨LineAddr.tag 5, .held, NodeSet.single 1⟩
    ∧ (u.dirSet (LineAddr.set 5)).sound ∧ (u.dirSet (LineAddr.set 5)).hitAt 7 ⟨LineAddr.tag 5, .shared, 6⟩
    ∧ s.portFree ∧ s.status = .ready ∧ Directory.wf s.dir ∧ Directory.wf u.dir ∧ u.quiet (LineAddr.set 5) 7
    ∧ 6 &&& u.lostNodes = 0 ∧ ((set1 hub (returning 5 none)).dirSet (LineAddr.set 5)).misses (LineAddr.tag 5)
    ∧ (set1 hub (returning 5 none)).entry 0 = Entry.free := by
  refine ⟨by decide +kernel, by decide, by decide, by decide, by decide, by decide, sound_of (by decide),
    hitAt_of (by decide) (by decide) (by decide) (by decide), sound_of (by decide),
    hitAt_of (by decide) (by decide) (by decide) (by decide), ?_, by decide, by decide, by decide, ?_, by decide,
    misses_of (by decide), by decide +kernel⟩
  · unfold State.portFree; decide
  · unfold State.quiet; decide

/-- The request b of node 1 before a set 5 whose way 7 has the line with a record. -/
def asksHit (b : ReqBody) (st : DirState) (T : NodeSet) : State :=
  set2 (way5 (asks .coherent b) 7 { Way.vacant with written := some ⟨0, st, T⟩ }) member

theorem test_meets_FetchesAndPlainReadsReadThePool_hits :
    (Instr.flush [], ReqBody.flush 5, WorkKind.flush) ∈ coherentRequests 5
    ∧ (asksHit (.fetchH 5) .shared 6).admits 1 63 (.fetchH 5) 5 0
    ∧ (asksHit (.upgrade 5) .shared 4).admits 1 63 (.upgrade 5) 5 0
    ∧ (asksHit (.upgrade 5) .shared 6).admits 1 63 (.upgrade 5) 5 0
    ∧ (asksHit (.flush 5) .shared 6).admits 1 63 (.flush 5) 5 0
    ∧ (asksHit (.fetchS 5) .held 4).admits 1 63 (.fetchS 5) 5 0
    ∧ (asksHit (.fetchS 5) .held 2).admits 1 63 (.fetchS 5) 5 0
    ∧ ((asksHit (.fetchH 5) .shared 6).dirSet (LineAddr.set 5)).sound
    ∧ ((asksHit (.fetchH 5) .shared 6).dirSet (LineAddr.set 5)).hitAt 7 ⟨LineAddr.tag 5, .shared, 6⟩
    ∧ ((asksHit (.fetchS 5) .held 4).dirSet (LineAddr.set 5)).sound
    ∧ ((asksHit (.fetchS 5) .held 4).dirSet (LineAddr.set 5)).hitAt 7 ⟨LineAddr.tag 5, .held, 4⟩
    ∧ (asksHit (.fetchH 5) .shared 6).reaches 6 ∧ (asksHit (.fetchH 5) .shared 6).portFree
    ∧ NodeSet.has 6 1 = true ∧ NodeSet.has 4 1 = false ∧ NodeSet.without 6 1 ≠ 0 ∧ (4 : NodeSet) = NodeSet.single 2
    ∧ (2 : NodeSet) = NodeSet.single 1 ∧ (6 : NodeSet) ≠ 0 ∧ (asksHit (.fetchS 5) .held 4).reaches 4 := by
  refine ⟨by decide, by unfold State.admits; decide +kernel, by unfold State.admits; decide +kernel, by unfold State.admits; decide +kernel,
    by unfold State.admits; decide +kernel, by unfold State.admits; decide +kernel, by unfold State.admits; decide +kernel, sound_of (by decide),
    hitAt_of (by decide) (by decide) (by decide) (by decide), sound_of (by decide),
    hitAt_of (by decide) (by decide) (by decide) (by decide), ?_, ?_, by decide, by decide, by decide, by decide, by decide,
    by decide, ?_⟩
  · unfold State.reaches; decide
  · unfold State.portFree; decide
  · unfold State.reaches; decide

theorem test_meets_FetchesAndPlainReadsReadThePool_misses :
    (asksOver (.upgrade 5) Way.vacant).admits 1 63 (.upgrade 5) 5 0
    ∧ (Instr.upgrade [], ReqBody.upgrade 5, WorkKind.upgrade) ∈ coherentRequests 5
    ∧ (asksOver (.upgrade 5) Way.vacant).portFree ∧ ((asksOver (.upgrade 5) Way.vacant).dirSet (LineAddr.set 5)).sound
    ∧ ((asksOver (.upgrade 5) Way.vacant).dirSet (LineAddr.set 5)).misses (LineAddr.tag 5)
    ∧ ((asksOver (.upgrade 5) Way.vacant).dirSet (LineAddr.set 5)).first Way.free 0
    ∧ (asksOver (.upgrade 5) Way.vacant).wayWait = []
    ∧ ¬{ asks .plain (.plainRead 5) with issueWait := [⟨.entry 46, 6, none⟩] }.portFree
    ∧ { asks .plain (.plainRead 5) with issueWait := [⟨.entry 46, 6, none⟩] }.choice
      = some (.request 1 ⟨63, .plainRead 5⟩) ∧ WorkKind.fetchH = .fetchH ∧ (2 : NodeSet) = NodeSet.single 1 := by
  refine ⟨by unfold State.admits; decide +kernel, by decide, ?_, sound_of (by decide), misses_of (by decide),
    ⟨?_, [], [1, 2, 3, 4, 5, 6, 7], by decide, by simp⟩, by decide, ?_, by decide, by decide, by decide⟩
  · unfold State.portFree; decide
  · unfold Way.free; decide
  · unfold State.portFree; decide

theorem test_meets_UpgradeAndFlushAnsweredAtOnce_held :
    (asksHit (.upgrade 5) .held 2).status = .ready ∧ Directory.wf (asksHit (.upgrade 5) .held 2).dir
    ∧ (asksHit (.upgrade 5) .held 2).admits 1 63 (.upgrade 5) 5 0
    ∧ ((asksHit (.upgrade 5) .held 2).dirSet (LineAddr.set 5)).sound
    ∧ ((asksHit (.upgrade 5) .held 2).dirSet (LineAddr.set 5)).hitAt 7 ⟨LineAddr.tag 5, .held, NodeSet.single 1⟩
    ∧ (asksHit (.upgrade 5) .held 2).quiet (LineAddr.set 5) 7 := by
  refine ⟨by decide, by decide, by unfold State.admits; decide +kernel, sound_of (by decide),
    hitAt_of (by decide) (by decide) (by decide) (by decide), ?_⟩
  unfold State.quiet; decide

/-- An entry that awaits the return of node 1, with every probe answered. -/
def awaitingReturn (k : WorkKind) : Entry := { Entry.free with
  phase := .gather, kind := k, origin := if k = .recall then none else some ⟨2, 0⟩, line := 5, way := some 7
  snapshot := some (.hit .held (NodeSet.single 1)), awaited := some 1, returnTimer := .running 7
  scope := if k = .recall then some .all else none }

theorem test_meets_ReturnsMerge_awaited :
    (∀ k ∈ [WorkKind.fetchS, .fetchH, .flush, .recall], ∀ x, x = awaitingReturn k →
      (merges x (some ⟨7, false⟩)).mergeTarget 1 5 = some 47 ∧ x.awaited = some 1 ∧ x.phase = .gather ∧ x.line = 5
      ∧ x.snapshot = some (.hit .held (NodeSet.single 1)) ∧ x.poolOp = .none ∧ (∀ m, (x.probe m).unanswered = false)
      ∧ x.confirm = .notNeeded ∧ x.orphaned = false ∧ x.holderKept = false ∧ x.settledByLoss = false
      ∧ x.owesWriteBack = false ∧ x.way = some 7 ∧ x.successor = none ∧ x.posted = false ∧ x.poolStale = false
      ∧ ∀ m, (x.probe m).straggling = false)
    ∧ (merges (awaitingReturn .flush) (some ⟨7, false⟩)).choice = some (.ret 1 ⟨63, 5, some ⟨7, false⟩⟩)
    ∧ (merges (awaitingReturn .flush) none).choice = some (.ret 1 ⟨63, 5, none⟩)
    ∧ (awaitingReturn .fetchS).origin.map Origin.node = some 2
    ∧ ((set2 (merges (awaitingReturn .flush) none) member).node 2).link ≠ .down
    ∧ (merges (awaitingReturn .flush) none).portFree ∧ (merges (awaitingReturn .flush) none).status = .ready
    ∧ Directory.wf (merges (awaitingReturn .flush) none).dir
    ∧ (merges (awaitingReturn .flush) none).quiet (LineAddr.set 5) 7
    ∧ (awaitingReturn .recall).scope = some .all ∧ (awaitingReturn .recall).beneficiary = none
    ∧ (∀ m ∈ (merges (awaitingReturn .recall) none).wayWait, m.cond ≠ .stalled)
    ∧ (merges (awaitingReturn .recall) none).walker.stall.reserving = none := by
  refine ⟨?_, by decide +kernel, by decide, by decide, by decide, ?_, by decide, by decide, ?_, by decide, by decide, by decide,
    by decide⟩
  · simp only [forall_eq]; decide +kernel
  · unfold State.portFree; decide
  · unfold State.quiet; decide

theorem test_meets_ConfigReadIsAnswered_values : hub.recallsInUse ≤ 4 ∧ hub.dir.validCount < 2 ^ 18
    ∧ hub.dir.quarCount < 2 ^ 18 ∧ hub.alert = .idle ∧ { hub with alert := .sent 3 }.alert = .sent 3
    ∧ { member with posted := 63 }.posted < 64 ∧ hub.walker.record 3 = none
    ∧ (departing 6 7 16384).walker.record 1 = some ⟨.depart, 16384, 7, 9, false⟩ ∧ 16384 < 2 ^ 15
    ∧ (hub.cls 9).pending = false ∧ ((alarmed 65535).cls 9).count < 2 ^ 16 ∧ ((alarmed 1).cls 9).pending = true
    ∧ ((alarmed 1).cls 9).first = some {}
    ∧ ({ node := some 3, tag := some 63, kind := some .fetchS, place := some (.way 5 7), detail := some (.words 8) } :
        ErrRec).place = some (.way 5 7) ∧ 8 ≤ 8 := by decide

theorem test_meets_RegistersTakeTheirFieldsUnlessBusy_busy : hub.regionBusy .poolSize 1 = true
    ∧ hub.regionBusy (.base 0) 0 = true := by decide

/-- A FETCH-S of node 1 whose READ waits to issue, with a probe of node 2 out. -/
def withheld : Entry := { Entry.free with
  phase := .gather, kind := .fetchH, origin := some ⟨1, 63⟩, line := 5, poolOp := .waiting }.setProbe 2
  { kind := some .drop, status := .sent, sends := 1, answers := 0, timer := .running 5, waitEnded := false }

theorem test_meets_ForceLostLosesAMember_withdraws :
    (set47 (writes 0x044 2) withheld).choice = some (.request 1 ⟨63, .configWrite 0x044 2⟩)
    ∧ ((set47 (writes 0x044 2) withheld).node 1).membership = .member
    ∧ (∀ f, f ≠ 47 → ((set47 (set1 hub (asking (.configWrite 0x044 2))) withheld).entry f).unconcerned 1
        ∧ ((set47 (set1 hub (asking (.configWrite 0x044 2))) withheld).entry f).standing)
    ∧ withheld.kind.coherent = true ∧ withheld.phase = .gather ∧ withheld.poolOp = .waiting ∧ withheld.isFrom 1 = true
    ∧ withheld.confirm = .notNeeded ∧ withheld.awaited ≠ some 1 ∧ (withheld.probe 1).unanswered = false
    ∧ (withheld.probe 1).straggling = false ∧ (withheld.probe 2).unanswered = true :=
  ⟨by decide, by decide, others_stand _ _ _, by decide⟩

/-- The walker at a way of set 5, which is as given, with DEPART walks of nodes 1 and 2. -/
def departs (p : WayNo) (x : Way) : State := way5 (set2 (set1 { hub with
  walker := ({ Walker.reset with pointer := 5, position := p }.setRecord 1 (some (walkRec .depart))).setRecord 2
    (some (walkRec .depart)) } member) member) p x

theorem test_meets_WalkerActsOnTheWay_departs : (departs 6 (holding .shared 6)).status = .ready
    ∧ (departs 6 (holding .shared 6)).walker.stall = .none ∧ (departs 6 (holding .shared 6)).walker.walks = true
    ∧ ((departs 6 (holding .shared 6)).dirSet 5).sound ∧ ((departs 7 (holding .held 2)).dirSet 5).sound
    ∧ (6 : NodeSet) &&& (departs 6 (holding .shared 6)).walker.nodesIn .loss = 0
    ∧ (6 : NodeSet) &&& (departs 6 (holding .shared 6)).walker.nodesIn .depart = 6
    ∧ NodeSet.has 6 1 = true ∧ (∀ m : NodeId, m < 1 → NodeSet.has 6 m = false) ∧ NodeSet.without 6 1 ≠ 0
    ∧ (2 : NodeSet) &&& (departs 7 (holding .held 2)).walker.nodesIn .depart = 2 ∧ NodeSet.has 2 1 = true
    ∧ NodeSet.without 2 1 = 0 ∧ (departs 6 (holding .held 2)).walker.position ≠ 7
    ∧ (departs 7 (holding .held 2)).walker.position = 7
    ∧ (departs 7 (holding .held 2)).walker.record 1 = some (walkRec .depart)
    ∧ (departs 7 (holding .held 2)).recallsInUse < 4 ∧ ((departs 7 (holding .held 2)).entry 0).phase = .free
    ∧ (departs 7 (holding .held 2)).activeOn (lineOf 0 5) = none ∧ ((departs 7 (holding .held 2)).node 1).joined = true
    ∧ ((departs 7 (holding .held 2)).node 1).link ≠ .down ∧ (departs 7 Way.vacant).way 5 7 = Way.vacant :=
  ⟨by decide, by decide, by decide, sound_of (by decide), sound_of (by decide), by decide⟩

/-- The walker's poison write is out from a way of set 5, every other way of which is as given, with entry 46 in the
way-wait list. -/
def poisoningFor (p : WayNo) (c : WaitCond) : State := { set46 hub seeker with
  dir := (hub.putDirSet 5 { DirSet.vacant with ways := Vector.ofFn (fun w =>
    if w = p then { holding .held 2 with pin := .walker } else otherLine .none) }).dir
  walker := { Walker.reset with pointer := 5, position := p, stall := .write }.setRecord 1 (some (walkRec .loss))
  poolQueue := [⟨.walker, 5, some ⟨0, true⟩⟩], wayWait := [⟨46, c⟩] }

theorem test_meets_PoisonWriteFreesTheWay_seeker : (poisoningFor 6 .stalled).status = .ready
    ∧ Directory.wf (poisoningFor 6 .stalled).dir ∧ (poisoningFor 6 .stalled).walker.stall = .write
    ∧ (poisoningFor 6 .stalled).completable .walker = some ⟨.walker, 5, some ⟨0, true⟩⟩
    ∧ (poisoningFor 6 .stalled).issueWait = []
    ∧ (poisoningFor 6 .stalled).wayWait.filter (fun m => decide ((poisoningFor 6 .stalled).setOf m.entry = 5))
      = [⟨46, .stalled⟩]
    ∧ (poisoningFor 6 .stalled).entry 46 = seeker ∧ seeker.kind = .fetchH ∧ seeker.poolOp = .none
    ∧ (∀ f, ((poisoningFor 6 .stalled).entry f).phase ≠ .free → ((poisoningFor 6 .stalled).entry f).kind = .recall →
      ((poisoningFor 6 .stalled).entry f).beneficiary ≠ some 46)
    ∧ ((poisoningFor 6 .stalled).dirSet 5).sound ∧ 6 ∈ ((poisoningFor 6 .stalled).dirSet 5).order
    ∧ (∀ v, v ≠ 6 → ¬((poisoningFor 6 .stalled).way 5 v).free) ∧ (poisoningFor 6 .stalled).poolQueue.length ≤ 32
    ∧ (6 : WayNo) ≠ 7 ∧ (poisoningFor 7 .blocked).walker.position = 7
    ∧ { poisoningFor 7 .blocked with wayWait := [] }.completable .walker = some ⟨.walker, 5, some ⟨0, true⟩⟩ := by
  refine ⟨by decide, by decide +kernel, by decide, by decide +kernel, by decide, by decide, by decide +kernel, by decide, by decide,
    by decide, sound_of (by decide), by decide, ?_, by decide, by decide, by decide, by decide +kernel⟩
  unfold Way.free; decide

theorem test_meets_StepKeepsOrdersClassesAndCounters_waits : handing.waitLaw ∧ step handing = .next handing.tick := by
  refine ⟨?_, rfl⟩
  unfold State.waitLaw Entry.mayWait State.behindLaw
  decide

/-- A QUEUED RETURN entry of node 2 for line 5. -/
def queuedReturn (k : WorkKind) (d : Option Buffer) : Entry := { Entry.free with
  phase := .queued, kind := k, admitted := k, origin := some ⟨2, 9⟩, line := 5, buffer := d }

/-- The entry `waiting` with the return behind a queued request in its chain. -/
def chained (k : WorkKind) (d : Option Buffer) : State :=
  { set47 (set1 (set2 hub member) member) { waiting with successor := some 45 } with
    entries := tset (tset (tset hub.entries 47 { waiting with successor := some 45 }) 45
      { Entry.free with phase := .queued, origin := some ⟨3, 1⟩, line := 5, successor := some 46 }) 46 (queuedReturn k d) }

theorem test_meets_HolderSettlesWithoutData_queuedReturn :
    let s := chained .returnD (some ⟨7, false⟩)
    WaitsForHolder (s.entry 47) 1 2 ∧ (s.entry 47).holderKept = false ∧ (s.entry 47).line = (msg 0x0F 0 47 5 0).line
    ∧ (s.node 2).link = .active ∧ (s.node 1).link ≠ .down ∧ s.portFree ∧ (msg 0x0F 0 47 5 0).entryNo = entryCode 47
    ∧ (msg 0x0F 0 47 5 0).answer = some .miss ∧ s.chainAfter 48 47 = [45] ++ 46 :: []
    ∧ (∀ g ∈ ([45] : List EntryId),
      ¬((s.entry g).phase = .queued ∧ (s.entry g).kind.cls = .ret ∧ (s.entry g).isFrom 2 = true))
    ∧ s.entry 46 = queuedReturn .returnD (some ⟨7, false⟩) ∧ (s.entry 46).phase = .queued
    ∧ (s.entry 46).isFrom 2 = true ∧ (46 : EntryId) ≠ 47 ∧ (45 : EntryId) ≠ 46
    ∧ (∀ g, (s.entry g).successor = some 46 ∧ (s.entry g).phase ≠ .free ↔ g = 45)
    ∧ (s.entry 46).kind = .returnD ∧ (s.entry 46).buffer = some ⟨7, false⟩
    ∧ ((chained .returnC none).entry 46).kind = .returnC := by
  refine ⟨by unfold WaitsForHolder; decide, by decide, by decide, by decide, by decide, ?_, by decide, by decide, by decide, by decide,
    by decide +kernel, by decide, by decide, by decide, by decide, by decide, by decide, by decide +kernel, by decide⟩
  unfold State.portFree; decide

/-- A posted PLAIN-WRITE of line 5 while entry 47 is active on it. -/
def postsBehind : State := set47 (asks .plainPosted (.plainWrite 5 1 7)) busy

theorem test_meets_EntriesQueueBehindTheActiveEntry_posted : (1 : ByteMask) ≠ 0 ∧ postsBehind.postsTo 5 = true
    ∧ postsBehind.choice = some (.request 1 ⟨63, .plainWrite 5 1 7⟩)
    ∧ postsBehind.decodeRefusal 1 (.plainWrite 5 1 7) = none ∧ postsBehind.freeEntry = some 0
    ∧ postsBehind.activeOn 5 = some 47 ∧ postsBehind.chainTail 47 = 47 ∧ (47 : EntryId) ≠ 0 := by decide +kernel

/-- A way is the HIT that the walker pins where no other way has its tag. -/
theorem walkerHit_of {x : DirSet} {w : WayNo} {r : Record} (h1 : (tget x.ways w).written = some r)
    (h2 : (tget x.ways w).quarantined = false) (h3 : (tget x.ways w).pin = .walker)
    (h4 : ∀ v, v ≠ w → (tget x.ways v).quarantined = true
      ∨ (tget x.ways v).written.all (fun q => decide (q.tag ≠ r.tag)) = true) : x.walkerHit w r := by
  refine ⟨h1, h2, h3, fun v hv => (h4 v hv).imp_right (fun h q hq => ?_)⟩
  rw [hq] at h
  simpa using h

/-- The same tests for a way that cannot be read, in a set whose other ways do not have the tag. -/
theorem unreadableAt_of {x : DirSet} {w : WayNo} {t : DirTag} (h1 : (tget x.ways w).quarantined = false)
    (h2 : (tget x.ways w).pin ≠ .none) (h3 : (tget x.ways w).damage = .twoBits)
    (h4 : ∀ v, v ≠ w → (tget x.ways v).damage = .intact ∧ (tget x.ways v).written.all Record.wellFormed = true
      ∧ ((tget x.ways v).quarantined = true ∨ (tget x.ways v).written.all (fun q => decide (q.tag ≠ t)) = true)) :
    x.unreadableAt w t := by
  refine ⟨h1, h2, h3, fun v hv => ⟨(h4 v hv).1, fun r hr => ?_, (h4 v hv).2.2.imp_right (fun h q hq => ?_)⟩⟩
  · have := (h4 v hv).2.1
    rw [hr] at this
    exact this
  · rw [hq] at h
    simpa using h

/-- Line 5 in a way that the walker has pinned. -/
def pinnedWay : Way := { holding .shared 6 with pin := .walker }

/-- A way that the walker has pinned and whose stored bits two errors have changed. -/
def unreadableWay : Way := { holding .shared 6 with pin := .walker, damage := .twoBits }

/-- Node 1's UPGRADE of line 5 before a set 5 whose way 7 is as given. -/
def asksPin (x : Way) : State := way5 (asks .coherent (.upgrade 5)) 7 x

theorem test_meets_EntriesQueueBehindTheActiveEntry_pin :
    (Instr.upgrade [], ReqBody.upgrade 5, WorkKind.upgrade) ∈ coherentRequests 5
    ∧ (asksPin pinnedWay).admits 1 63 (.upgrade 5) 5 0 ∧ (asksPin unreadableWay).admits 1 63 (.upgrade 5) 5 0
    ∧ (Entry.asked .upgrade 1 63 5).kind = .upgrade ∧ ((asksPin pinnedWay).dirSet (LineAddr.set 5)).sound
    ∧ ((asksPin pinnedWay).dirSet (LineAddr.set 5)).walkerHit 7 ⟨LineAddr.tag 5, .shared, 6⟩
    ∧ ((asksPin unreadableWay).dirSet (LineAddr.set 5)).unreadableAt 7 (LineAddr.tag 5) :=
  ⟨by decide, by unfold State.admits; decide +kernel, by unfold State.admits; decide +kernel, by decide, sound_of (by decide),
    walkerHit_of (by decide) (by decide) (by decide) (by decide),
    unreadableAt_of (by decide) (by decide) (by decide) (by decide)⟩

theorem test_meets_EntriesQueueBehindTheActiveEntry_pinReturn :
    let s := returns none pinnedWay
    let u := returns (some ⟨7, false⟩) unreadableWay
    s.choice = some (.ret 1 ⟨63, 5, none⟩) ∧ u.choice = some (.ret 1 ⟨63, 5, some ⟨7, false⟩⟩)
    ∧ s.mergeTarget 1 5 = none ∧ u.mergeTarget 1 5 = none ∧ s.freeEntry = some 0 ∧ u.freeEntry = some 0
    ∧ s.activeOn 5 = none ∧ u.activeOn 5 = none ∧ (∀ m ∈ s.wayWait, m.entry ≠ 0) ∧ (∀ m ∈ u.wayWait, m.entry ≠ 0)
    ∧ (s.dirSet (LineAddr.set 5)).sound ∧ (s.dirSet (LineAddr.set 5)).walkerHit 7 ⟨LineAddr.tag 5, .shared, 6⟩
    ∧ (u.dirSet (LineAddr.set 5)).unreadableAt 7 (LineAddr.tag 5) :=
  ⟨by decide, by decide +kernel, by decide, by decide, by decide, by decide, by decide, by decide, by decide, by decide,
    sound_of (by decide), walkerHit_of (by decide) (by decide) (by decide) (by decide),
    unreadableAt_of (by decide) (by decide) (by decide) (by decide)⟩

/-- An UPGRADE of node 1 for line 5 that waits for way 7 of its set, which is as given. -/
def pinMember (x : Way) : Work :=
  .of { way5 (set46 hub { seeker with kind := .upgrade, line := 5 }) 7 x with wayWait := [⟨46, .pin [7]⟩] }

/-- The same with every way of the set as given. -/
def pinMemberOver (x : Way) : Work :=
  .of ((pinMember x).s.putDirSet 5 { DirSet.vacant with ways := Vector.replicate 8 x })

theorem test_meets_EntriesQueueBehindTheActiveEntry_reread :
    (pinMember Way.vacant).s.wayWait.find? (fun m => decide (m.entry = 46)) = some ⟨46, .pin [7]⟩
    ∧ (6 : WayNo) ∉ ([7] : List WayNo) ∧ (7 : WayNo) ∈ ([7] : List WayNo)
    ∧ ((pinMember (holding .shared 6)).s.dirSet 5).sound
    ∧ ((pinMember (holding .shared 6)).s.dirSet 5).hitAt 7 ⟨LineAddr.tag 5, .shared, 6⟩
    ∧ ((pinMember pinnedWay).s.dirSet 5).sound
    ∧ ((pinMember pinnedWay).s.dirSet 5).walkerHit 7 ⟨LineAddr.tag 5, .shared, 6⟩
    ∧ ((pinMember Way.vacant).s.dirSet 5).sound ∧ ((pinMember Way.vacant).s.dirSet 5).misses (LineAddr.tag 5)
    ∧ ((pinMember Way.vacant).s.entry 46).kind.needsWay = true ∧ WorkKind.flush.needsWay = false
    ∧ (∃ v, ((pinMember Way.vacant).s.way 5 v).quarantined = false)
    ∧ ((pinMemberOver { Way.vacant with quarantined := true }).s.dirSet 5).sound
    ∧ ((pinMemberOver { Way.vacant with quarantined := true }).s.dirSet 5).misses (LineAddr.tag 5)
    ∧ (∀ v, ((pinMemberOver { Way.vacant with quarantined := true }).s.way 5 v).quarantined = true)
    ∧ ((pinMember unreadableWay).s.dirSet 5).unreadableAt 7 (LineAddr.tag 5) :=
  ⟨by decide, by decide, by decide, sound_of (by decide), hitAt_of (by decide) (by decide) (by decide) (by decide),
    sound_of (by decide), walkerHit_of (by decide) (by decide) (by decide) (by decide), sound_of (by decide),
    misses_of (by decide), by decide, by decide, by decide, sound_of (by decide), misses_of (by decide), by decide,
    unreadableAt_of (by decide) (by decide) (by decide) (by decide)⟩

/-- The walker at way 6 of set 5, which names nodes 1 and 2, both of which depart; way 7 is pinned with a stored bit
wrong. -/
def departsCorrected : State := way5 (departs 6 (holding .shared 6)) 7 { otherLine (.entry 47) with damage := .oneBit }

/-- R151: given a RECALL entry the walker reads its way again, and both reads raise the event of the way in error (R6). -/
theorem test_departure_recall_reads_the_way_twice : after (.walkerExamineWay []) departsCorrected
    (fun t => decide ((t.cls ErrClass.dirCorrected.index).count = 2 ∧ (t.way 5 6).pin = .entry 0)) = true := by decide +kernel

/-- The work of a step in which the walker, at way 6 of set 5, is given an entry. -/
def given (x : Way) : Work := .of (departs 6 x)

theorem test_meets_WalkerActsOnTheWay_given : (given (holding .shared 6)).s.walker.stall = .none
    ∧ (given (holding .shared 6)).s.status = .ready ∧ (given (holding .shared 6)).s.walker.walks = true
    ∧ ((given (holding .shared 6)).s.dirSet 5).sound ∧ ((given (holding .held 4)).s.dirSet 5).sound
    ∧ ((given (holding .held 8)).s.dirSet 5).sound ∧ (given (holding .shared 6)).s.way 5 6 = holding .shared 6
    ∧ (6 : NodeSet) &&& (given (holding .shared 6)).s.walker.nodesIn .loss = 0
    ∧ NodeSet.has (6 &&& (given (holding .shared 6)).s.walker.nodesIn .depart) 1 = true
    ∧ NodeSet.has (4 &&& (given (holding .held 4)).s.walker.nodesIn .depart) 1 = false
    ∧ (4 : NodeSet) &&& (given (holding .held 4)).s.walker.nodesIn .depart ≠ 0
    ∧ (8 : NodeSet) &&& (given (holding .held 8)).s.walker.nodesIn .depart = 0 :=
  ⟨by decide, by decide, by decide, sound_of (by decide), sound_of (by decide), sound_of (by decide), by decide⟩

/-- `poisoningFor` with an UPGRADE of a line no way has in the list. -/
def poisoningPin (ws : List WayNo) : State :=
  set46 (poisoningFor 6 (.pin ws)) { seeker with kind := .upgrade, line := 32773 }

theorem test_meets_PoisonWriteFreesTheWay_pinMember :
    (poisoningPin [6, 2]).wayWait.filter (fun m => decide ((poisoningPin [6, 2]).setOf m.entry = 5)) = [⟨46, .pin [6, 2]⟩]
    ∧ (6 : WayNo) ∈ ([6, 2] : List WayNo) ∧ ((poisoningPin [6, 2]).entry 46).kind = .upgrade
    ∧ (∀ v, v ≠ 6 → ((poisoningPin [6, 2]).way 5 v).quarantined = true
      ∨ ∀ q, ((poisoningPin [6, 2]).way 5 v).written = some q → q.tag ≠ LineAddr.tag ((poisoningPin [6, 2]).entry 46).line)
    ∧ ((poisoningPin [6, 2]).entry 46).poolOp = .none ∧ ((poisoningPin [6, 2]).dirSet 5).sound
    ∧ (poisoningPin [6, 2]).status = .ready ∧ Directory.wf (poisoningPin [6, 2]).dir
    ∧ (poisoningPin [6, 2]).completable .walker = some ⟨.walker, 5, some ⟨0, true⟩⟩
    ∧ (∀ f, ((poisoningPin [6, 2]).entry f).phase ≠ .free → ((poisoningPin [6, 2]).entry f).kind = .recall →
      ((poisoningPin [6, 2]).entry f).beneficiary ≠ some 46)
    ∧ 6 ∈ ((poisoningPin [6, 2]).dirSet 5).order ∧ (∀ v, v ≠ 6 → ¬((poisoningPin [6, 2]).way 5 v).free) := by
  refine ⟨by decide, by decide, by decide, ?_, by decide, sound_of (by decide), by decide, by decide +kernel, by decide +kernel,
    by decide, by decide, ?_⟩
  · have h : ∀ v, v ≠ 6 → ((poisoningPin [6, 2]).way 5 v).written.all (fun q => decide (q.tag ≠ 2)) = true := by decide
    refine fun v hv => Or.inr (fun q hq => ?_)
    have := h v hv
    rw [hq] at this
    exact of_decide_eq_true this
  · unfold Way.free; decide

/-- Entry 47 of node 2 is active on line 5, and node 1's entry 46 of a kind is QUEUED behind it, posted or not. -/
def queuedBehind (k : WorkKind) (posted : Bool) : State := set46
  (set47 (set2 (set1 hub { member with posted := posted.toNat }) member) { Entry.free with
    phase := .gather, kind := .plainWrite, origin := some ⟨2, 0⟩, line := 5, poolOp := .readOut, successor := some 46 })
  { Entry.free with phase := .queued, kind := k, origin := some ⟨1, 3⟩, line := 5, posted := posted }

theorem test_meets_LinkLossLosesTheNode_queued : (∀ k posted, (k, posted) ∈ [(WorkKind.fetchS, false), (.plainWrite, true)] →
    let s := queuedBehind k posted
    (s.node 1).membership = .member ∧ (s.node 1).link = .active
    ∧ (∀ f, f ≠ 46 → (s.entry f).unconcerned 1 ∧ (s.entry f).standing) ∧ (s.entry 46).kind.cls = .request
    ∧ (s.entry 46).origin.map Origin.node = some 1 ∧ (s.entry 46).phase = .queued ∧ (47 : EntryId) ≠ 46
    ∧ (s.entry 46).posted = posted
    ∧ ∀ g, (s.entry g).successor = some 46 ∧ (s.entry g).phase ≠ .free ↔ g = 47) := by
  intro k posted h
  simp only [List.mem_cons, Prod.mk.injEq, List.not_mem_nil, or_false] at h
  rcases h with ⟨rfl, rfl⟩ | ⟨rfl, rfl⟩ <;> (unfold Entry.unconcerned Entry.standing; decide)

/-- A recall over line 5, SHARED by node 2, for entry 46, that waits for node 2's answer. -/
def recallFrom2 : Entry := ((recalling .all 4 (some 46)).setProbe 1 (Entry.free.probe 1)).setProbe 2
  { kind := some .drop, status := .sent, sends := 1, answers := 0, timer := .running 5, waitEnded := false }

/-- Node 1's FETCH-H in entry 46 seeks a way of set 5 with the recall of entry 47 running for it, every way of the set
pinned, and a successor as given, which is entry 45 if any. -/
def waitsOn (f : Option EntryId) (y : Entry) : State :=
  let s := set46 (set47 (set2 (set1 hub member) member) recallFrom2)
    { seeker with origin := some ⟨1, 3⟩, line := 32773, successor := f }
  { s with
    entries := tset s.entries 45 y
    dir := (hub.putDirSet 5 { DirSet.vacant with ways := Vector.replicate 8 (otherLine (.entry 47)) }).dir
    wayWait := [⟨46, .recalling⟩] }

/-- A QUEUED UPGRADE of node 3 behind it. -/
def queuedUpgrade : Entry := { Entry.free with
  phase := .queued, kind := .upgrade, admitted := .upgrade, origin := some ⟨3, 1⟩, line := 32773 }

theorem test_meets_LinkLossLosesTheNode_wayWait : ∀ f y, (f, y) ∈ [(none, Entry.free), (some 45, queuedUpgrade)] →
    let s := waitsOn f y
    (s.node 1).membership = .member ∧ (s.node 1).link = .active
    ∧ (∀ f, f ≠ 46 → (s.entry f).unconcerned 1 ∧ (s.entry f).standing) ∧ (s.entry 46).kind.cls = .request
    ∧ (s.entry 46).origin.map Origin.node = some 1 ∧ (s.entry 46).phase = .wayWait ∧ (s.entry 46).successor = f
    ∧ (∀ g, (s.entry g).phase ≠ .free ∧ (s.entry g).kind = .recall ∧ (s.entry g).beneficiary = some 46 ↔ g = 47)
    ∧ s.wayWait.filter (fun m => decide (m.entry ≠ 46)) = [] := by
  intro f y h
  simp only [List.mem_cons, Prod.mk.injEq, List.not_mem_nil, or_false] at h
  rcases h with ⟨rfl, rfl⟩ | ⟨rfl, rfl⟩ <;> (unfold Entry.unconcerned Entry.standing; decide)

theorem test_meets_LinkLossLosesTheNode_successor :
    let s := waitsOn (some 45) queuedUpgrade
    let u := s.damaged []
    (45 : EntryId) ≠ 46 ∧ s.entry 45 = queuedUpgrade ∧ queuedUpgrade.phase = .queued
    ∧ queuedUpgrade.line = (s.entry 46).line ∧ queuedUpgrade.kind = .upgrade ∧ s.status = .ready
    ∧ (∀ g, (s.entry g).phase ≠ .free → (s.entry g).kind = .recall → (s.entry g).beneficiary ≠ some 45)
    ∧ (u.dirSet (LineAddr.set 32773)).sound ∧ (u.dirSet (LineAddr.set 32773)).misses (LineAddr.tag 32773)
    ∧ (∃ v, (u.way (LineAddr.set 32773) v).quarantined = false)
    ∧ ∀ v, ¬(u.way (LineAddr.set 32773) v).free ∧ ¬(u.way (LineAddr.set 32773) v).recallable := by
  refine ⟨by decide, by decide +kernel, by decide, by decide, by decide, by decide, by decide, sound_of (by decide), misses_of (by decide),
    by decide, ?_⟩
  unfold Way.free Way.recallable; decide

/-- The entry `grantLeft` with its outcome and a successor of its line in entry 46. -/
def followed (st : DirState) (T : NodeSet) (k : WorkKind) : State := set46 (set47 (set2 (set1 hub member) member)
    { grantLeft .none with outcome := .record st T, successor := some 46 })
  { Entry.free with phase := .queued, kind := k, origin := some ⟨2, 4⟩, line := 5 }

theorem test_meets_ConfirmEndsTheWait_successor :
    ∀ st T k, (st, T, k) ∈ [(DirState.shared, (2 : NodeSet), WorkKind.flush), (.held, 2, .flush), (.shared, 2, .fetchS)] →
    let s := followed st T k
    let x := s.entry 47
    s.status = .ready ∧ Directory.wf s.dir ∧ (s.node 1).link = .active ∧ (msg 0x10 0 47 5 0).entryNo = entryCode 47
    ∧ (msg 0x10 0 47 5 0).answer = some .confirm ∧ x.phase = .finish ∧ x.line = (msg 0x10 0 47 5 0).line
    ∧ x.confirm = .awaited 1 ∧ x.confirmTimer ≠ .stopped ∧ x.poolOp = .none
    ∧ (∀ k, (x.probe k).straggling = false) ∧ x.way = some 7 ∧ x.outcome = .record st T ∧ x.orphaned = false
    ∧ x.kind = .fetchS ∧ (⟨0, st, T⟩ : Record).wellFormed = true ∧ T &&& s.lostNodes = 0 ∧ x.posted = false
    ∧ x.successor = some 46 ∧ (46 : EntryId) ≠ 47 ∧ (s.entry 46).phase = .queued ∧ (s.entry 46).line = 5
    ∧ (s.entry 46).kind = k ∧ s.quiet 5 7 ∧ s.reaches T ∧ s.portFree
    ∧ ∀ v, v ≠ 7 → (s.way 5 v).damage = .intact ∧ (s.way 5 v).written = none := by
  intro st T k h
  simp only [List.mem_cons, Prod.mk.injEq, List.not_mem_nil, or_false] at h
  rcases h with ⟨rfl, rfl, rfl⟩ | ⟨rfl, rfl, rfl⟩ | ⟨rfl, rfl, rfl⟩ <;>
    (unfold State.quiet State.reaches State.portFree; decide)

end Sys2Proof.Machine.Tests
end

/-! The result of a READ by its word conditions, the line it delivers, what its owner takes, and its event (R110, R111). -/

namespace Sys2Proof.Machine

/-! ## The rows of R110 -/

/-- First row: one UNCORRECTABLE word outranks every other condition. -/
theorem readResult_of_uncorrectable {cs : List WordCond} (hu : cs.count .uncorrectable ≠ 0) :
    readResult cs = .uncorrectable (cs.count .uncorrectable) :=
  if_pos (Nat.pos_of_ne_zero hu)

/-- Second row: a MARKED word, where none is UNCORRECTABLE. -/
theorem readResult_of_marked {cs : List WordCond} (hu : cs.count .uncorrectable = 0) (hm : cs.count .marked ≠ 0) :
    readResult cs = .poisoned := by
  simp [readResult, hu, Nat.pos_of_ne_zero hm]

/-- A condition unlike every word's own is found in no word. -/
theorem count_cond_eq_zero {cs : List WordCond} {p : WordCond → Prop} {c : WordCond} (h : ∀ x ∈ cs, p x)
    (hc : ¬ p c) : cs.count c = 0 :=
  List.count_eq_zero_of_not_mem fun hmem => hc (h c hmem)

/-- Third row: a CORRECTED word, where every word is CLEAN or CORRECTED. -/
theorem readResult_of_corrected {cs : List WordCond} (h : ∀ c ∈ cs, c = .clean ∨ c = .corrected)
    (hc : cs.count .corrected ≠ 0) : readResult cs = .corrected (cs.count .corrected) := by
  have hu : cs.count .uncorrectable = 0 := count_cond_eq_zero h (by simp)
  have hm : cs.count .marked = 0 := count_cond_eq_zero h (by simp)
  simp [readResult, hu, hm, Nat.pos_of_ne_zero hc]

/-- Last row: every word is CLEAN. -/
theorem readResult_of_clean {cs : List WordCond} (h : ∀ c ∈ cs, c = .clean) : readResult cs = .clean := by
  have hu : cs.count .uncorrectable = 0 := count_cond_eq_zero h (by simp)
  have hm : cs.count .marked = 0 := count_cond_eq_zero h (by simp)
  have hc : cs.count .corrected = 0 := count_cond_eq_zero h (by simp)
  simp [readResult, hu, hm, hc]

/-! ## The line delivered -/

/-- A line made of eight words has them as its words: the words below the one asked for are shifted out, and those
above it cut off. -/
theorem word_ofWords (ws : Vector WordData 8) (k : WordNo) : LineData.word (LineData.ofWords ws) k = tget ws k := by
  -- The line's width is left as the sum of the words' widths, the form the rules of `++` speak of.
  change BitVec.extractLsb' (64 * k.val) 64
    (ws[7] ++ ws[6] ++ ws[5] ++ ws[4] ++ ws[3] ++ ws[2] ++ ws[1] ++ ws[0]) = ws[k.val]
  fin_cases k <;>
    simp only [BitVec.extractLsb'_append_eq_of_le, BitVec.extractLsb'_append_eq_right, BitVec.extractLsb'_eq_self,
      Nat.reduceMul, Nat.reduceLeDiff, Nat.reduceSub]

/-- What a READ finds in each word of a line with storage. -/
def State.wordsFound (s : State) (l : LineAddr) : Vector (WordCond × WordData) 8 :=
  Vector.ofFn fun k => (tget (s.pool.line l) k).read l k

@[simp] theorem tget_wordsFound (s : State) (l : LineAddr) (k : WordNo) :
    tget (s.wordsFound l) k = (tget (s.pool.line l) k).read l k :=
  tget_ofFn _ k

/-- The conditions found, word 0 first. -/
theorem wordsFound_conditions (s : State) (l : LineAddr) : (s.wordsFound l).toList.map Prod.fst
    = allWays.map fun k => ((tget (s.pool.line l) k).read l k).1 := by
  have hplaces : allWays = List.finRange 8 := by decide
  rw [State.wordsFound, Vector.toList_ofFn, List.ofFn_eq_map, List.map_map, hplaces]
  rfl

/-- The result below the installed size is that of the conditions found (R110). -/
theorem poolRead_result {s : State} {l : LineAddr} (h : s.beyondSize l = false) :
    (s.poolRead l).1 = readResult ((s.wordsFound l).toList.map Prod.fst) := by
  simp [State.poolRead, h, wordsFound_conditions]

/-- The words delivered below the installed size are the words found (R109). -/
theorem poolRead_word {s : State} {l : LineAddr} (h : s.beyondSize l = false) (k : WordNo) :
    LineData.word (s.poolRead l).2 k = (tget (s.wordsFound l) k).2 := by
  simp [State.poolRead, h, word_ofWords]

/-! ## What the owner takes -/

/-- A plain write's buffer takes the line with the write's bytes merged in (R96). -/
theorem takeRead_buffer_plainWrite {x : Entry} (hk : x.kind = .plainWrite) (r : ReadResult) (d : LineData) (wb : Bool) :
    (x.takeRead r d wb).buffer = some ⟨mergeBytes x.mask d x.writeData, r.poison⟩ := by
  simp [Entry.takeRead, hk]

/-- Every other owner takes the data, and owes a write-back of a CORRECTED line where CORRECT-WB is set (R44, R60). -/
theorem takeRead_of_ne_plainWrite {x : Entry} (hk : x.kind ≠ .plainWrite) (r : ReadResult) (d : LineData) (wb : Bool) :
    x.takeRead r d wb = { x with buffer := some ⟨d, r.poison⟩, poolStale := false
                                 owesWriteBack := r.isCorrected && wb } :=
  if_neg hk

theorem takeRead_buffer_of_ne_plainWrite {x : Entry} (hk : x.kind ≠ .plainWrite) (r : ReadResult) (d : LineData)
    (wb : Bool) : (x.takeRead r d wb).buffer = some ⟨d, r.poison⟩ := by
  rw [takeRead_of_ne_plainWrite hk]

/-- An entry whose buffer agrees with the pool writes it with poison clear if it owes a corrected write-back (R60). -/
theorem finishWrite_of_owesWriteBack {x : Entry} {b : Buffer} (hk : x.kind ≠ .plainWrite) (hs : x.poolStale = false)
    (ho : x.owesWriteBack = true) (hb : x.buffer = some b) : x.finishWrite = some { b with poison := false } := by
  simp [Entry.finishWrite, hk, hs, ho, hb]

/-- The data of a corrected write-back is the data read, with poison clear (R60). -/
theorem finishWrite_takeRead_corrected {x : Entry} (hk : x.kind ≠ .plainWrite) (k : Nat) (d : LineData) :
    (x.takeRead (.corrected k) d true).finishWrite = some ⟨d, false⟩ := by
  rw [takeRead_of_ne_plainWrite hk]
  exact finishWrite_of_owesWriteBack (b := ⟨d, false⟩) hk rfl rfl rfl

/-! ## The event -/

/-- The event of an entry with an origin names its node and tag (R111, R154). -/
theorem entryEvent_of_origin {s : State} {e : EntryId} {N : NodeId} {tag : Tag}
    (ho : (s.entry e).origin = some ⟨N, tag⟩) (d : Option Detail) :
    s.entryEvent e d = { node := some N, tag := some tag, kind := some (s.entry e).kind.msgKind
                         place := some (.line (s.entry e).line), detail := d } := by
  simp [State.entryEvent, ho]

/-! ## The statement -/

/-- Settles O27: the rows of R110 one by one, the words a READ finds as the witness of its word conditions, and the
event's fields from the entry's origin. -/
theorem readResultByWordConditions : Obligations.ReadResultByWordConditions := by
  unfold Obligations.ReadResultByWordConditions
  refine ⟨fun cs hlen => ⟨readResult_of_uncorrectable, readResult_of_marked,
      fun h hc => ⟨readResult_of_corrected h hc, hlen ▸ List.count_le_length⟩, readResult_of_clean⟩,
    fun k => ⟨rfl, rfl⟩, rfl, rfl,
    fun s l hin => ⟨s.wordsFound l, tget_wordsFound s l, poolRead_result hin, poolRead_word hin⟩,
    fun x r d wb => ⟨fun hk => takeRead_buffer_of_ne_plainWrite hk r d wb,
      fun hk k => finishWrite_takeRead_corrected hk k d, fun hk => takeRead_buffer_plainWrite hk r d wb⟩,
    fun s e N tag ho => ⟨rfl, rfl, fun k => ?corrected, fun k => ?uncorrectable, ?beyondSize⟩⟩
  all_goals simp only [State.readEvent, entryEvent_of_origin ho]

end Sys2Proof.Machine

/-! The acknowledgement of error classes (R156) and the condition of the ALERT_N pin (R160). -/

namespace Sys2Proof.Machine

/-! ## A register write by its own row -/

/-- A CONFIG-WRITE that its register's row admits and no check refuses is answered DONE and takes effect (R161). -/
theorem admitWriteRow_done {s : State} {p : Reg → Bool} {n : NodeId} {tag : Tag} {o : Offset} {v : RegValue} {g : Reg}
    (hc : s.choice = some (.request n ⟨tag, .configWrite o v⟩)) (hg : regAt o = some g) (hp : p g = true)
    (hr : (s.takeRequest n).writeRefusal g v = none) :
    s.admitWriteRow p = .next (((s.takeRequest n).doneRequest n tag false).writeReg g v) := by
  have hwork : (s.takeRequest n).admitRegWrite n tag g v
      = ((s.takeRequest n).doneRequest n tag false).writeReg g v := by
    simp only [State.admitRegWrite, hr]
  rw [State.admitWriteRow, ← hwork, ← settle_of]
  exact admitRequest_passed hc rfl (by simp only [hg, hp, if_true])

/-- The DONE of an admitted request joins its node's outbound queue, since the arbiter takes no request of a link that
is DOWN. -/
theorem doneRequest_takeRequest {s : State} {n : NodeId} {r : ReqMsg} (hc : s.choice = some (.request n r)) (tag : Tag)
    (poison : Bool) : (s.takeRequest n).doneRequest n tag poison = { s.takeRequest n with
      nodes := tset (s.takeRequest n).nodes n { (s.takeRequest n).node n with
        outQ := ((s.takeRequest n).node n).outQ ++ [OutMsg.done tag .request poison false] } } := by
  have hlink : (s.node n).link ≠ .down := (choice_request hc).1
  exact send_up (by rwa [takeRequest_link]) _

/-- A register's value names the class of each of its low ten bits. -/
theorem classesOf_bit (v : RegValue) (c : Fin 10) : (classesOf v).getLsbD c.val = v.getLsbD c.val := by
  simp [classesOf]

/-- A write to ERROR-ACK acknowledges each class by its bit of the value. -/
theorem writeReg_errorAck (s : State) (v : RegValue) :
    s.writeReg .errorAck v = { s with
      errors := Vector.ofFn (fun c : Fin 10 => if v.getLsbD c.val then (s.cls c).acknowledge else s.cls c) } := by
  simp only [State.writeReg, State.acknowledge, classesOf_bit]

/-! ## Events before and after an acknowledgement -/

/-- An event that an acknowledgement of its class follows survives in the count alone. -/
theorem cls_acknowledge_raise (s : State) {c : ErrClass} (r : ErrRec) {named : ClassSet}
    (hn : named.getLsbD c.index.val = true) : ((s.raise c r).acknowledge named).cls c.index
      = { pending := false, further := false, count := min 65535 ((s.cls c.index).count + 1), first := none } := by
  rw [cls_acknowledge, if_pos hn, cls_raise, if_pos rfl]
  rfl

/-- An event that follows an acknowledgement of its class is the new first record. -/
theorem cls_raise_acknowledge (s : State) {c : ErrClass} (r : ErrRec) {named : ClassSet}
    (hn : named.getLsbD c.index.val = true) : ((s.acknowledge named).raise c r).cls c.index
      = { pending := true, further := false, count := min 65535 ((s.cls c.index).count + 1), first := some r } := by
  rw [cls_raise, if_pos rfl, cls_acknowledge, if_pos hn]
  rfl

/-- After an event its class is pending. -/
theorem pending_raise (s : State) (c : ErrClass) (r : ErrRec) : ((s.raise c r).cls c.index).pending = true := by
  rw [cls_raise, if_pos rfl]
  rfl

/-- An event leaves every other class as it is. -/
theorem cls_raise_of_ne (s : State) {c : ErrClass} (r : ErrRec) {d : Fin 10} (h : d ≠ c.index) :
    (s.raise c r).cls d = s.cls d := by
  rw [cls_raise, if_neg h.symm]

/-- After an acknowledgement the pending classes are those that were pending and not named. -/
theorem pending_acknowledge (s : State) (named : ClassSet) (d : Fin 10) :
    ((s.acknowledge named).cls d).pending = true ↔ (s.cls d).pending = true ∧ named.getLsbD d.val = false := by
  rw [cls_acknowledge]
  cases named.getLsbD d.val <;> simp [ClassState.acknowledge]

/-! ## The pin -/

/-- The pin looks at its enable, the error classes and the alert mask alone. -/
theorem alertN_congr {s t : State} (enable : s.pinEnable = t.pinEnable) (errors : s.errors = t.errors)
    (mask : s.alertMask = t.alertMask) : s.alertN = t.alertN := by
  have hcls : s.cls = t.cls := by funext c; rw [State.cls, State.cls, errors]
  rw [Bool.eq_iff_iff, alertN_iff, alertN_iff, enable, hcls, mask]

/-- The pin is high while its enable is off. -/
theorem alertN_of_pinEnable_off {s : State} (h : s.pinEnable = false) : s.alertN = false := by
  simp [State.alertN, h]

/-- The acknowledgement of every class that is pending and unmasked leaves the pin high. -/
theorem alertN_acknowledge_of_named {s : State} {named : ClassSet}
    (h : ∀ c : Fin 10, (s.cls c).pending = true → s.alertMask.getLsbD c.val = true → named.getLsbD c.val = true) :
    (s.acknowledge named).alertN = false := by
  rw [← Bool.not_eq_true, alertN_iff]
  rintro ⟨-, c, hpending, hmask⟩
  obtain ⟨hwas, hunnamed⟩ := (pending_acknowledge s named c).1 hpending
  have hnamed : named.getLsbD c.val = true := h c hwas hmask
  exact Bool.false_ne_true (hunnamed.symm.trans hnamed)

/-- An event of an unmasked class drives the pin low while its enable is on. -/
theorem alertN_raise {s : State} {c : ErrClass} (r : ErrRec) (hpin : s.pinEnable = true)
    (hmask : s.alertMask.getLsbD c.index.val = true) : (s.raise c r).alertN = true :=
  (alertN_iff _).2 ⟨by rwa [raise_pinEnable], c.index, pending_raise s c r, by rwa [raise_alertMask]⟩

/-- The acknowledgement that follows an event leaves the pin high where it names the event's class and every other
class that is pending and unmasked. -/
theorem alertN_acknowledge_raise {s : State} {c : ErrClass} (r : ErrRec) {named : ClassSet}
    (hn : named.getLsbD c.index.val = true)
    (h : ∀ d : Fin 10, d ≠ c.index → (s.cls d).pending = true → s.alertMask.getLsbD d.val = true →
      named.getLsbD d.val = true) : ((s.raise c r).acknowledge named).alertN = false := by
  refine alertN_acknowledge_of_named fun d hpending hmask => ?_
  by_cases hd : d = c.index
  · rwa [hd]
  · rw [cls_raise_of_ne s r hd] at hpending
    rw [raise_alertMask] at hmask
    exact h d hd hpending hmask

/-- The sweep of one set leaves the pin as it is. -/
theorem alertN_sweepSet (s : State) : s.sweepSet.alertN = s.alertN := alertN_congr rfl rfl rfl

/-! ## The statements -/

/-- Settles O51: the write's DONE and effect by its row, then the class's record for each order of event and
acknowledgement, and the pin. -/
theorem acknowledgementClearsNamedClasses : Obligations.AcknowledgementClearsNamedClasses := by
  unfold Obligations.AcknowledgementClearsNamedClasses
  refine ⟨fun s n tag v hc => ?write, fun s named => ⟨fun c r hn =>
    ⟨cls_acknowledge_raise s r hn, cls_raise_acknowledge s r hn⟩, alertN_acknowledge_of_named, rfl⟩⟩
  have hreg : regAt 0x204#12 = some .errorAck := by decide
  have hrun : exec .errorAck s
      = .next (((s.takeRequest n).doneRequest n tag false).writeReg .errorAck v) :=
    admitWriteRow_done hc hreg rfl rfl
  rw [hrun, writeReg_errorAck, doneRequest_takeRequest hc]
  rfl

/-- Settles O53: the pin's condition class by class; a cold reset turns its enable off and the sweep changes nothing it
looks at. -/
theorem alertPinFollowsItsCondition : Obligations.AlertPinFollowsItsCondition := by
  unfold Obligations.AlertPinFollowsItsCondition
  refine ⟨alertN_iff, fun s t => alertN_congr, rfl, fun s t powerOn h => ?reset, fun s t h => ?sweep,
    fun s c r named hpin hmask hn => ⟨alertN_raise r hpin hmask, alertN_acknowledge_raise r hn⟩⟩
  case reset =>
    have ht : s.coldReset powerOn = t := Host.Outcome.next.inj h
    have hoff : t.pinEnable = false := by rw [← ht]; rfl
    exact ⟨hoff, alertN_of_pinEnable_off hoff⟩
  case sweep =>
    have ht : (if s.status = .init then s.sweepSet else s) = t := Host.Outcome.next.inj h
    rw [← ht]
    split
    · exact alertN_sweepSet s
    · rfl

end Sys2Proof.Machine

/-! What every step keeps: each plain change keeps each law (Safety.lean), so every step does; and the laws right after
reset. -/

namespace Sys2Proof.Machine

/-! ## The laws right after a reset -/

theorem entry_coldReset (s : State) (powerOn : Bool) (e : EntryId) : (s.coldReset powerOn).entry e = Entry.free := by
  simp [State.coldReset, State.reset, State.entry, tget]

theorem node_coldReset (s : State) (powerOn : Bool) (n : NodeId) :
    (s.coldReset powerOn).node n = { Node.reset with presence := (s.node n).presence } :=
  tget_map Node.afterReset s.nodes n

theorem cls_coldReset (s : State) (powerOn : Bool) (c : Fin 10) : (s.coldReset powerOn).cls c = ClassState.reset := by
  simp [State.coldReset, State.reset, State.cls, tget]

/-- An abandoned WRITE leaves the pool's lines in canonical form. -/
theorem wf_poolAfterReset {s : State} (h : Memory.wf s.pool) (powerOn : Bool) :
    Memory.wf (s.poolAfterReset powerOn) := by
  have abandoned (L : List LineAddr) : ∀ p : Pool, Memory.wf p →
      Memory.wf (L.foldl (fun p l => p.abandon s.freeSeed l) p) := by
    induction L with
    | nil => exact fun p hp => hp
    | cons l L ih => exact fun p hp => ih _ (Memory.wf_putLine hp l _)
  cases powerOn with
  | true => exact ⟨List.Pairwise.nil, by simp [State.poolAfterReset]⟩
  | false => exact abandoned s.writtenLines s.pool h

theorem node_afterReset_laws (b : Bool) :
    ({ Node.reset with presence := b } : Node).downLaw ∧ ({ Node.reset with presence := b } : Node).rangeLaw :=
  ⟨fun _ => ⟨rfl, rfl, rfl, rfl, rfl, rfl, rfl, rfl⟩, by simp [Node.rangeLaw, Node.reset]⟩

theorem waitLaw_of_empty {s : State} (hw : s.wayWait = []) (he : ∀ e, s.entry e = Entry.free) : s.waitLaw := by
  refine ⟨by simp [hw], fun e => ?_, by simp [hw], by simp [hw]⟩
  simp [hw, he, Entry.free]

/-! ## Canonical memory -/

theorem Move.keeps_canonical {s t : State} (h : Move s t) (hs : s.canonical) : t.canonical := by
  obtain ⟨hpool, hdir⟩ := hs
  cases h with
  | nodes ns h => exact ⟨hpool, hdir⟩
  | errors es h => exact ⟨hpool, hdir⟩
  | dirSet k x h => exact ⟨hpool, Directory.wf_putDirSet hdir k x⟩
  | line l x => exact ⟨Memory.wf_putLine hpool l x, hdir⟩
  | rest _ nodes errors sets pool waits =>
    exact ⟨by rwa [pool], by rwa [Directory.wf, sets]⟩
  | reset powerOn => exact ⟨wf_poolAfterReset hpool powerOn, Directory.wf_reset⟩

/-! ## Nodes -/

/-- A law of the nodes that every change of a node keeps, and that holds of a node after a reset, is kept by every
plain change. -/
theorem Move.keeps_nodes {P : Node → Prop} (hmove : ∀ x y, NodeMove x y → P x → P y)
    (hreset : ∀ b, P { Node.reset with presence := b }) {s t : State} (h : Move s t) (hs : ∀ n, P (s.node n)) :
    ∀ n, P (t.node n) := by
  intro n
  cases h with
  | nodes ns h => exact hmove _ _ (h n) (hs n)
  | errors es h => exact hs n
  | dirSet k x h => exact hs n
  | line l x => exact hs n
  | rest _ nodes errors sets pool waits =>
    rw [State.node, nodes]
    exact hs n
  | reset powerOn =>
    rw [node_coldReset]
    exact hreset _

theorem Move.keeps_downLaw {s t : State} (h : Move s t) (hs : s.downLaw) : t.downLaw :=
  h.keeps_nodes (P := Node.downLaw) (fun _ _ hm => hm.1) (fun b => (node_afterReset_laws b).1) hs

theorem Move.keeps_rangeLaw {s t : State} (h : Move s t) (hs : s.rangeLaw) : t.rangeLaw :=
  h.keeps_nodes (P := Node.rangeLaw) (fun _ _ hm => hm.2) (fun b => (node_afterReset_laws b).2) hs

/-! ## Error classes, recency orders, the way-wait list -/

theorem reset_class_law : ClassState.reset.law := ⟨by decide, rfl, by decide⟩

theorem Move.keeps_errorLaw {s t : State} (h : Move s t) (hs : s.errorLaw) : t.errorLaw := by
  intro c
  cases h with
  | nodes ns h => exact hs c
  | errors es h => exact h c (hs c)
  | dirSet k x h => exact hs c
  | line l x => exact hs c
  | rest _ nodes errors sets pool waits =>
    rw [State.cls, errors]
    exact hs c
  | reset powerOn =>
    rw [cls_coldReset]
    exact reset_class_law

/-- Every set has a recency order of its eight ways where the listed ones do: an unlisted set, and one that the sweep
has not reached, stands in the order 0 to 7. -/
theorem ordered_dirSet {s : State} (hs : s.orderLaw) (k : SetIdx) : DirSet.ordered (s.dirSet k) := by
  unfold State.dirSet
  split
  · exact List.Perm.refl _
  · obtain h | h := Cells.get_mem DirSet.vacant s.dir.sets k.toNat
    · rw [h]
      exact List.Perm.refl _
    · exact hs _ h

theorem Move.keeps_orderLaw {s t : State} (h : Move s t) (hs : s.orderLaw) : t.orderLaw := by
  cases h with
  | nodes ns h => exact hs
  | errors es h => exact hs
  | dirSet k x h =>
    intro c hc
    obtain hold | ⟨rfl, -⟩ := Cells.mem_put DirSet.vacant hc
    · exact hs c hold
    · exact h (ordered_dirSet hs k)
  | line l x => exact hs
  | rest _ nodes errors sets pool waits => rwa [State.orderLaw, sets]
  | reset powerOn => simp [State.orderLaw, State.coldReset, State.reset]

theorem Move.keeps_waitLaw {s t : State} (h : Move s t) (hs : s.waitLaw) : t.waitLaw := by
  cases h with
  | nodes ns h => exact waitLaw_same rfl rfl hs
  | errors es h => exact waitLaw_same rfl rfl hs
  | dirSet k x h => exact waitLaw_same rfl rfl hs
  | line l x => exact waitLaw_same rfl rfl hs
  | rest _ nodes errors sets pool waits => exact waits hs
  | reset powerOn => exact waitLaw_of_empty rfl (entry_coldReset s powerOn)

/-- A law that every plain change keeps is kept by every step. -/
theorem step_keeps {P : State → Prop} (hP : ∀ {s t}, Move s t → P s → P t) {s t : State} (hs : P s)
    (h : step s = .next t) : P t :=
  (moves_step h).keeps (fun _ _ => hP) hs

/-! ## The statements -/

/-- Settles O58: a plain change keeps the canonical form. -/
theorem stepKeepsMemoryCanonical : Obligations.StepKeepsMemoryCanonical :=
  fun _ _ => step_keeps Move.keeps_canonical

/-- Settles O59: a plain change keeps R135's law of every node. -/
theorem stepKeepsDownLinksEmpty : Obligations.StepKeepsDownLinksEmpty :=
  fun _ _ => step_keeps Move.keeps_downLaw

/-- Settles O60: a plain change keeps each of the four laws. -/
theorem stepKeepsOrdersClassesAndCounters : Obligations.StepKeepsOrdersClassesAndCounters :=
  ⟨fun _ _ => step_keeps Move.keeps_orderLaw, fun _ _ => step_keeps Move.keeps_errorLaw,
    fun _ _ => step_keeps Move.keeps_rangeLaw, fun _ _ => step_keeps Move.keeps_waitLaw⟩

theorem node_reset (n : NodeId) : State.reset.node n = Node.reset := by
  simp [State.reset, State.node, tget]

theorem entry_reset (e : EntryId) : State.reset.entry e = Entry.free := by
  simp [State.reset, State.entry, tget]

theorem cls_reset (c : Fin 10) : State.reset.cls c = ClassState.reset := by
  simp [State.reset, State.cls, tget]

theorem region_reset (r : RegionNo) : tget State.reset.regions r = Region.reset := by
  simp [State.reset, tget]

theorem record_reset (n : NodeId) : State.reset.walker.record n = none := by
  simp [State.reset, Walker.reset, Walker.record, tget]

/-- Right after reset the sweep stands at set 0, so every set is undefined yet. -/
theorem dirSet_reset (k : SetIdx) : State.reset.dirSet k = DirSet.undefined 0 k :=
  if_pos ⟨rfl, BitVec.le_def.2 (Nat.zero_le _)⟩

theorem way_undefined (seed : Nat) (k : SetIdx) (w : WayNo) : tget (DirSet.undefined seed k).ways w
    = { written := Config.undefinedRecord seed k w, damage := Config.undefinedDamage seed k w, pin := .none
        quarantined := false } :=
  tget_ofFn _ w

/-- Settles O4: each law holds of empty memory, of reset nodes and classes, and of an empty list. -/
theorem resetStateMeetsTheLaws : Obligations.ResetStateMeetsTheLaws := by
  refine ⟨⟨Memory.wf_reset, Directory.wf_reset⟩, fun n => ?_, fun n => ?_, fun c => ?_, by simp [State.orderLaw,
    State.reset], waitLaw_of_empty rfl entry_reset⟩
  · rw [node_reset]
    exact (node_afterReset_laws false).1
  · rw [node_reset]
    exact (node_afterReset_laws false).2
  · rw [cls_reset]
    exact reset_class_law

/-- Settles O3: each field at its reset value; the tables read the same at every index. -/
theorem resetStateIsAsStated : Obligations.ResetStateIsAsStated := by
  unfold Obligations.ResetStateIsAsStated
  refine ⟨rfl, rfl, record_reset, fun n => ?node, entry_reset, rfl, fun r => ?region, rfl, rfl, rfl, rfl, rfl, rfl, rfl,
    rfl, rfl, rfl, fun k w => ?way, fun k => ?order, rfl, rfl, fun c => ?cls, rfl, rfl, rfl, rfl, rfl, rfl⟩
  case node =>
    rw [node_reset]
    exact ⟨rfl, rfl, rfl, rfl, rfl, rfl, rfl, rfl, rfl, rfl, rfl, rfl, rfl, rfl, rfl, rfl, rfl, rfl, rfl, rfl⟩
  case region =>
    rw [region_reset]
    exact ⟨rfl, rfl, rfl, rfl, rfl, rfl⟩
  case way =>
    rw [State.way, dirSet_reset, way_undefined]
    exact ⟨rfl, rfl⟩
  case order =>
    rw [dirSet_reset]
    rfl
  case cls =>
    rw [cls_reset]
    exact ⟨rfl, rfl, rfl, rfl⟩

end Sys2Proof.Machine

/-! The step, the time base and the register map. -/

namespace Sys2Proof.Machine

/-- Settles O1: the front command of a queue that is not empty. -/
theorem stepRunsTheFrontCommand : Obligations.StepRunsTheFrontCommand := by
  intro s c rest h
  simp only [step, h]

/-! ## One microsecond -/

theorem node_tick (s : State) (n : NodeId) : s.tick.node n = (s.node n).tick := tget_map Node.tick s.nodes n

theorem entry_tick (s : State) (e : EntryId) : s.tick.entry e = (s.entry e).tick := tget_map Entry.tick s.entries e

theorem probe_tick (x : Entry) (n : NodeId) : x.tick.probe n = { x.probe n with timer := (x.probe n).timer.tick } :=
  tget_map _ x.probes n

/-- A running timer loses one; a frozen and a stopped one stay. -/
theorem timer_tick_by_form (t : Timer) : (∀ r, t = .running r → t.tick = .running (r - 1))
    ∧ (∀ r, t = .frozen r → t.tick = .frozen r) ∧ (t = .stopped → t.tick = .stopped) :=
  ⟨by rintro r rfl; rfl, by rintro r rfl; rfl, by rintro rfl; rfl⟩

/-- Settles O2: the tick acts timer by timer. -/
theorem emptyQueuePassesOneMicrosecond : Obligations.EmptyQueuePassesOneMicrosecond := by
  intro s h
  refine ⟨s.tick, ?runs, rfl, fun n => ?node, fun e => ?entry, fun e n => ?probe, fun old new hk => ?timer⟩
  case runs =>
    unfold step
    rw [h]
  case node =>
    rw [node_tick, Node.tick]
    cases (s.node n).training <;> rfl
  case entry => rw [entry_tick]; rfl
  case probe => rw [entry_tick, probe_tick]
  case timer =>
    have hnew : new = old.tick := by
      obtain ⟨e, ⟨rfl, rfl⟩ | ⟨rfl, rfl⟩ | ⟨n, rfl, rfl⟩⟩ := hk
      · rw [entry_tick]; rfl
      · rw [entry_tick]; rfl
      · rw [entry_tick, probe_tick]
    rw [hnew]
    exact timer_tick_by_form old

/-! ## The register map -/

/-- A register of a bank stands at the bank's first place plus its index times the step. -/
theorem bank_eq_some {k first step a : Nat} [NeZero k] {i : Fin k} (h : bank k first step a = some i) :
    a = first + step * i.val := by
  unfold bank at h
  split at h
  case isFalse => cases h
  case isTrue hin =>
    obtain ⟨hlow, hhigh, hstep⟩ := hin
    obtain rfl : Fin.ofNat k ((a - first) / step) = i := Option.some.inj h
    have hlt : (a - first) / step < k := Nat.div_lt_of_lt_mul (by rw [Nat.mul_comm]; omega)
    have hmul : step * ((a - first) / step) = a - first := Nat.mul_div_cancel' (Nat.dvd_of_mod_eq_zero hstep)
    rw [Fin.val_ofNat, Nat.mod_eq_of_lt hlt, hmul]
    omega

/-- The first of two banks that holds an address, else the second. -/
theorem orElse_eq_some {α : Type} {x y : Option α} {a : α} (h : x.orElse (fun _ => y) = some a) :
    x = some a ∨ y = some a := by
  cases x with
  | none => exact .inr h
  | some b => exact .inl h

theorem toNat_offset_lowReg {a : Nat} {g : Reg} (h : lowReg a = some g) : a = g.offset.toNat := by
  unfold lowReg at h
  split at h
  case h_9 =>
    obtain h | h := orElse_eq_some h
    on_goal 2 => obtain h | h := orElse_eq_some h
    all_goals
      obtain ⟨i, hi, rfl⟩ := Option.map_eq_some_iff.1 h
      rw [bank_eq_some hi]
      have := i.isLt
      simp only [Reg.offset, BitVec.toNat_ofNat]
      omega
  all_goals
    obtain rfl := Option.some.inj h
    rfl

theorem toNat_offset_regionReg {a : Nat} {g : Reg} (h : regionReg a = some g) : a = g.offset.toNat := by
  unfold regionReg at h
  obtain h | h := orElse_eq_some h
  on_goal 2 => obtain h | h := orElse_eq_some h
  on_goal 3 => obtain h | h := orElse_eq_some h
  all_goals
    obtain ⟨i, hi, rfl⟩ := Option.map_eq_some_iff.1 h
    rw [bank_eq_some hi]
    have := i.isLt
    simp only [Reg.offset, BitVec.toNat_ofNat]
    omega

theorem toNat_offset_highReg {a : Nat} {g : Reg} (h : highReg a = some g) : a = g.offset.toNat := by
  unfold highReg at h
  split at h
  case h_8 =>
    obtain h | h := orElse_eq_some h
    on_goal 2 => obtain h | h := orElse_eq_some h
    all_goals
      obtain ⟨i, hi, rfl⟩ := Option.map_eq_some_iff.1 h
      rw [bank_eq_some hi]
      have := i.isLt
      simp only [Reg.offset, BitVec.toNat_ofNat, Fin.val_ofNat]
      omega
  all_goals
    obtain rfl := Option.some.inj h
    rfl

/-- A register found at an offset stands there. -/
theorem offset_of_regAt {o : Offset} {g : Reg} (h : regAt o = some g) : o = g.offset := by
  apply BitVec.eq_of_toNat_eq
  unfold regAt at h
  simp only at h
  split at h
  · cases h
  · split at h
    · exact toNat_offset_lowReg h
    · split at h
      · exact toNat_offset_regionReg h
      · exact toNat_offset_highReg h

/-- Every register is found at its offset. -/
theorem regAt_offset (g : Reg) : regAt g.offset = some g := by
  cases g with
  | nodeControl n => revert n; decide
  | nodeStatus n => revert n; decide
  | nodeCommand n => revert n; decide
  | base r => revert r; decide
  | limit r => revert r; decide
  | attr r => revert r; decide
  | enable r => revert r; decide
  | errorCount c => revert c; decide
  | errorRecord c word => revert c word; decide
  | walkRecord n => revert n; decide
  | _ => rfl

/-- Settles O42: the map from offsets and the map to them undo each other. -/
theorem registersStandAtTheirOffsets : Obligations.RegistersStandAtTheirOffsets :=
  ⟨regAt_offset, fun _ _ => offset_of_regAt⟩

end Sys2Proof.Machine

/-! The capture of events, the ALERT test and the clearing of an alert (chapter 11). -/

namespace Sys2Proof.Machine

/-! ## Capture -/

/-- The first event of a class that is not pending is its record. -/
theorem capture_of_clear {x : ClassState} (h : x.pending = false) (r : ErrRec) :
    x.capture r = { pending := true, further := false, count := min 65535 (x.count + 1), first := some r } := by
  simp [ClassState.capture, h]

/-- An event of a pending class sets the further flag and keeps the record. -/
theorem capture_of_pending {x : ClassState} (h : x.pending = true) (r : ErrRec) :
    x.capture r = { pending := true, further := true, count := min 65535 (x.count + 1), first := x.first } := by
  simp [ClassState.capture, h]

theorem raise_eq (s : State) (c : ErrClass) (r : ErrRec) :
    s.raise c r = { s with errors := tset s.errors c.index ((s.cls c.index).capture r) }.alertTest := rfl

/-- Settles O48: the two cases of the capture. -/
theorem eventsAreCapturedByTheirClass : Obligations.EventsAreCapturedByTheirClass :=
  fun s c r => ⟨fun h => by rw [raise_eq, capture_of_clear h], fun h => by rw [raise_eq, capture_of_pending h]⟩

/-! ## The ALERT test -/

/-- A node is joined where it is MEMBER or LEAVING. -/
theorem joined_iff (x : Node) : x.joined = true ↔ x.membership = .member ∨ x.membership = .leaving := by
  cases h : x.membership <;> simp [Node.joined, h]

/-- A link is linked where it is ACTIVE or RETRAINING. -/
theorem linked_iff (x : Node) : x.linked = true ↔ x.link = .active ∨ x.link = .retraining := by
  cases h : x.link <;> simp [Node.linked, h]

theorem any_isAlert_iff (q : List OutMsg) : q.any OutMsg.isAlert = true ↔ ∃ classes, OutMsg.alert classes ∈ q := by
  rw [List.any_eq_true]
  constructor
  · rintro ⟨m, hm, ha⟩
    cases m with
    | alert classes => exact ⟨classes, hm⟩
    | _ => cases ha
  · rintro ⟨classes, hm⟩
    exact ⟨_, hm, rfl⟩

/-- No ALERT stands in any outbound queue. -/
theorem alertQueued_eq_false_iff (s : State) :
    s.alertQueued = false ↔ ∀ n classes, OutMsg.alert classes ∉ (s.node n).outQ := by
  rw [← Bool.not_eq_true, State.alertQueued, any_nodes]
  simp only [any_isAlert_iff, not_exists]

/-- The condition of R157, part by part. -/
theorem alertReady_iff (s : State) : s.alertReady = true ↔
    (∃ c : Fin 10, (s.cls c).pending = true ∧ s.alertMask.getLsbD c.val = true)
    ∧ ((s.node s.alertTarget).membership = .member ∨ (s.node s.alertTarget).membership = .leaving)
    ∧ (s.node s.alertTarget).link = .active ∧ ∀ n classes, OutMsg.alert classes ∉ (s.node n).outQ := by
  simp only [State.alertReady, Bool.and_eq_true, decide_eq_true_eq, classes_ne_zero, alertSet_bit, joined_iff,
    Bool.not_eq_true', alertQueued_eq_false_iff, and_assoc]

/-- Settles O49: the test acts exactly under its condition, and its ALERT carries the classes pending and unmasked. -/
theorem alertIsSentUnderItsCondition : Obligations.AlertIsSentUnderItsCondition := by
  intro s
  simp only [← alertReady_iff]
  exact ⟨fun h => ⟨s.alertSet, (alertTest_eq s).trans (if_pos h), alertSet_bit s⟩,
    fun h => (alertTest_eq s).trans (if_neg h)⟩

/-! ## Counts -/

/-- The count of a class is written 0 by a 0 in its field, and by nothing else. -/
theorem writeReg_errorCount (s : State) (c : Fin 10) (v : RegValue) : s.writeReg (.errorCount c) v =
    if v.extractLsb' 0 16 = 0 then { s with errors := tset s.errors c { s.cls c with count := 0 } } else s := rfl

theorem cls_writeReg_errorCount_zero (s : State) (c : Fin 10) :
    (s.writeReg (.errorCount c) 0).cls c = { s.cls c with count := 0 } := by
  rw [writeReg_errorCount, if_pos (by decide), cls_tset, if_pos rfl]

theorem count_raise (s : State) (c : ErrClass) (r : ErrRec) :
    ((s.raise c r).cls c.index).count = min 65535 ((s.cls c.index).count + 1) := by
  rw [cls_raise, if_pos rfl]
  rfl

/-- A field value that fits below bit 32 reads as itself. -/
theorem toNat_regField_zero {x : Nat} (h : x < 2 ^ 32) : (regField x 0).toNat = x := by
  rw [regField, BitVec.toNat_ofNat, Nat.shiftLeft_zero, Nat.mod_eq_of_lt h]

theorem regAt_errorCount (c : Fin 10) : regAt (BitVec.ofNat 12 (0x240 + 4 * c.val)) = some (.errorCount c) := by
  revert c
  decide

/-- Settles O50: the count after an event, a clear, both orders of the two, and an acknowledgement. -/
theorem errorCountsRecordEvents : Obligations.ErrorCountsRecordEvents := by
  refine ⟨fun s c r => ⟨fun h => ?below, fun h => ?full, pending_raise s c r, fun h => ?further, ?clearFirst, ?clearLast⟩,
    fun s c => ⟨regAt_errorCount c, fun h => toNat_regField_zero (by omega)⟩,
    fun s n tag c v hc => ?write, fun s named c => ?acknowledged⟩
  case below => rw [count_raise]; omega
  case full => rw [count_raise]; omega
  case further => rw [cls_raise, if_pos rfl, capture_of_pending h]
  case clearFirst => rw [count_raise, cls_writeReg_errorCount_zero]; rfl
  case clearLast => rw [cls_writeReg_errorCount_zero]
  case write =>
    have hrun : exec .errorCount s
        = .next (((s.takeRequest n).doneRequest n tag false).writeReg (.errorCount c) v) :=
      admitWriteRow_done hc (regAt_errorCount c) rfl rfl
    rw [hrun, writeReg_errorCount, doneRequest_takeRequest hc]
    exact ⟨fun h => by rw [if_pos h]; rfl, fun h => by rw [if_neg h]⟩
  case acknowledged =>
    rw [cls_acknowledge]
    split <;> rfl

/-! ## The clearing of an alert -/

/-- Settles O52: the write's DONE, then the clear in each of the two alert states. -/
theorem alertClearEndsTheAlert : Obligations.AlertClearEndsTheAlert := by
  intro s n tag v hc
  have hreg : regAt 0x210#12 = some .alertClear := by decide
  have hrun : exec .alertClear s = .next ((s.takeRequest n).doneRequest n tag false).alertClear :=
    admitWriteRow_done hc hreg rfl rfl
  rw [hrun, doneRequest_takeRequest hc]
  refine ⟨fun h => ?idle, fun a h => ?sent⟩
  case idle =>
    have hidle : (s.takeRequest n).alert = .idle := h
    simp only [State.alertClear, hidle]
  case sent =>
    have hsent : (s.takeRequest n).alert = .sent a := h
    simp only [State.alertClear, hsent]
    rfl

end Sys2Proof.Machine

/-! Reset and sweep (chapters 1 and 9): what COLD_RESET leaves of the pool, and the set that INIT_SWEEP writes. -/

namespace Sys2Proof.Machine

/-! ## COLD_RESET -/

theorem mem_writtenLines {s : State} {l : LineAddr} : l ∈ s.writtenLines ↔
    ∃ op ∈ s.poolQueue, op.line = l ∧ op.write.isSome = true ∧ s.beyondSize l = false := by
  simp only [State.writtenLines, List.mem_map, List.mem_filter, Bool.and_eq_true, Bool.not_eq_true']
  constructor
  · rintro ⟨op, ⟨hop, hw, hb⟩, rfl⟩
    exact ⟨op, hop, rfl, hw, hb⟩
  · rintro ⟨op, hop, rfl, hw, hb⟩
    exact ⟨op, ⟨hop, hw, hb⟩, rfl⟩

/-- The lines abandoned are unknown, and every other stays. -/
theorem line_abandoned (seed : Nat) (l : LineAddr) (L : List LineAddr) : ∀ p : Pool, Memory.wf p →
    (L.foldl (fun p l => p.abandon seed l) p).line l = if l ∈ L then PoolLine.unknown seed else p.line l := by
  induction L with
  | nil => exact fun p _ => (if_neg List.not_mem_nil).symm
  | cons m L ih =>
    intro p hp
    have hline : (p.abandon seed m).line l = if m = l then PoolLine.unknown seed else p.line l := line_putLine hp m l _
    rw [List.foldl_cons, ih (p.abandon seed m) (Memory.wf_putLine hp m _), hline]
    by_cases hL : l ∈ L
    · rw [if_pos hL, if_pos (List.mem_cons_of_mem m hL)]
    · rw [if_neg hL]
      by_cases hm : m = l
      · rw [if_pos hm, if_pos (hm ▸ List.mem_cons_self)]
      · rw [if_neg hm, if_neg (by simp [hL, Ne.symm hm])]

/-- After a cold reset the sweep stands at set 0, so every set is undefined afresh. -/
theorem dirSet_coldReset (s : State) (powerOn : Bool) (k : SetIdx) :
    (s.coldReset powerOn).dirSet k = DirSet.undefined s.freeSeed k :=
  if_pos ⟨rfl, BitVec.le_def.2 (Nat.zero_le _)⟩

/-- Settles O5: the fields that a reset does not take from the reset state are read one by one. -/
theorem coldResetTakesEverythingToReset : Obligations.ColdResetTakesEverythingToReset := by
  intro s powerOn
  refine ⟨s.coldReset powerOn, rfl, rfl, rfl, node_coldReset s powerOn, rfl, rfl, fun k w => ?way, fun k => ?order,
    fun h l => ?powered, fun h hwf l => ?kept⟩
  case way => rw [State.way, dirSet_coldReset, way_undefined]
  case order => rw [dirSet_coldReset]; rfl
  case powered => subst h; rfl
  case kept =>
    subst h
    rw [← ite_congr (propext mem_writtenLines) (fun _ => rfl) (fun _ => rfl)]
    exact line_abandoned s.freeSeed l s.writtenLines s.pool hwf

/-! ## INIT_SWEEP -/

/-- The pointer's step, below the last set and at it. -/
theorem pointer_next (k : SetIdx) : (k.toNat < 16383 → (k + 1).toNat = k.toNat + 1)
    ∧ (k.toNat = 16383 → k + 1 = 0) ∧ (k = 16383 ↔ k.toNat = 16383) := by
  refine ⟨fun h => ?_, fun h => ?_, ?_⟩ <;> bv_omega

/-- The sweep writes the set at its pointer, and every other set reads as before: those behind the pointer from
storage, those beyond it undefined. -/
theorem dirSet_sweepSet {s : State} (hi : s.status = .init) (hwf : Directory.wf s.dir) (j : SetIdx) :
    s.sweepSet.dirSet j = if j = s.walker.pointer then DirSet.vacant else s.dirSet j := by
  obtain ⟨k, hk⟩ : ∃ k, s.walker.pointer = k := ⟨_, rfl⟩
  have hcell : s.sweepSet.dirSet j = if s.sweepSet.status = .init ∧ k + 1 ≤ j then DirSet.undefined s.dir.seed j
      else if k.toNat = j.toNat then DirSet.vacant else Cells.get DirSet.vacant s.dir.sets j.toNat := by
    rw [← Cells.get_put DirSet.vacant hwf, ← hk]
    rfl
  have hstatus : s.sweepSet.status = .init ↔ k.toNat ≠ 16383 := by
    have : s.sweepSet.status = if k = 16383 then .ready else s.status := by rw [← hk]; rfl
    rw [this, hi, Ne, ← (pointer_next k).2.2]
    split
    case isTrue h => exact ⟨fun g => (nomatch g), fun g => absurd h g⟩
    case isFalse h => exact ⟨fun _ => h, fun _ => rfl⟩
  have hold : s.dirSet j = if k ≤ j then DirSet.undefined s.dir.seed j
      else Cells.get DirSet.vacant s.dir.sets j.toNat := by
    rw [State.dirSet, hi, hk]
    simp
  have hlt := j.isLt
  have hkt := k.isLt
  simp only [hcell, hold, hk, hstatus]
  by_cases hjk : j = k
  · subst hjk
    rw [if_neg, if_pos rfl, if_pos rfl]
    rintro ⟨hne, hle⟩
    have hnext := (pointer_next j).1 (by omega)
    rw [BitVec.le_def] at hle
    omega
  · have hne : k.toNat ≠ j.toNat := fun h => hjk (BitVec.eq_of_toNat_eq h.symm)
    rw [if_neg hne, if_neg hjk]
    refine ite_congr (propext ?_) (fun _ => rfl) (fun _ => rfl)
    rw [BitVec.le_def, BitVec.le_def]
    constructor
    · rintro ⟨hlast, hle⟩
      have hnext := (pointer_next k).1 (by omega)
      omega
    · intro hle
      have hnext := (pointer_next k).1 (by omega)
      exact ⟨by omega, by omega⟩

/-- Settles O6: the set written, the sets kept, and the pointer's two steps. -/
theorem sweepWritesOneSet : Obligations.SweepWritesOneSet := by
  intro s hi hwf
  have hset : s.sweepSet.dirSet s.walker.pointer = DirSet.vacant := by rw [dirSet_sweepSet hi hwf, if_pos rfl]
  refine ⟨s.sweepSet, congrArg Host.Outcome.next (if_pos hi), fun w => ?way, by rw [hset]; rfl, fun k hk => ?other,
    fun h => ⟨?init, (pointer_next _).1 h⟩, fun h => ⟨?ready, (pointer_next _).2.1 h⟩, rfl⟩
  case way =>
    rw [State.way, hset]
    simp [DirSet.vacant, tget, Way.vacant]
  case other => rw [dirSet_sweepSet hi hwf, if_neg hk]
  case init =>
    have hne : s.walker.pointer ≠ 16383 := fun he => by rw [(pointer_next _).2.2] at he; omega
    exact (if_neg hne).trans hi
  case ready => exact if_pos ((pointer_next _).2.2.2 h)

end Sys2Proof.Machine

/-! Training, retraining and frames of the node links (chapter 9). -/

namespace Sys2Proof.Machine

/-- A node changed, with the state's other fields in view. -/
theorem modNode_eq (s : State) (n : NodeId) (f : Node → Node) :
    s.modNode n f = { s with nodes := tset s.nodes n (f (s.node n)) } := rfl

theorem modNode_damaged (s : State) (us : List DirUpset) (n : NodeId) (f : Node → Node) :
    (s.damaged us).modNode n f = { s.damaged us with nodes := tset s.nodes n (f (s.node n)) } := by
  rw [modNode_eq, damaged_nodes, node_damaged]

/-! ## Training -/

/-- A property of some entry. -/
theorem any_entries (p : EntryId → Bool) : allEntries.any p = true ↔ ∃ e, p e = true := by
  rw [List.any_eq_true]
  exact ⟨fun ⟨e, _, h⟩ => ⟨e, h⟩, fun ⟨e, h⟩ => ⟨e, mem48 e, h⟩⟩

theorem cls_ret_iff (k : WorkKind) : k.cls = .ret ↔ k = .returnD ∨ k = .returnC := by
  cases k <;> simp [WorkKind.cls]

theorem cls_recall_iff (k : WorkKind) : k.cls = .recall ↔ k = .recall := by
  cases k <;> simp [WorkKind.cls]

theorem inUse_iff (x : Entry) : x.inUse = true ↔ x.phase ≠ .free := by simp [Entry.inUse]

theorem isFrom_iff (x : Entry) (n : NodeId) : x.isFrom n = true ↔ x.origin.map Origin.node = some n := by
  simp [Entry.isFrom]

/-- The conditions of R130, one by one. -/
theorem offersTraining_iff (s : State) (n : NodeId) : s.offersTraining n = true ↔
    (s.node n).link = .down ∧ s.status = .ready ∧ (s.node n).enable = true ∧ (s.node n).presence = true
      ∧ (s.node n).membership = .absent
      ∧ ∀ e, (s.entry e).phase ≠ .free → (s.entry e).kind = .returnD ∨ (s.entry e).kind = .returnC →
          (s.entry e).origin.map Origin.node ≠ some n := by
  simp only [State.offersTraining, Bool.and_eq_true, decide_eq_true_eq, Bool.not_eq_true', ← Bool.not_eq_true,
    any_entries, inUse_iff, cls_ret_iff, isFrom_iff, not_exists, and_assoc]
  simp only [not_and, ne_eq]

/-- Settles O7: the command acts where R130's conditions hold. -/
theorem trainingStartsWhereOffered : Obligations.TrainingStartsWhereOffered := by
  intro s n
  simp only [← offersTraining_iff]
  exact ⟨fun h => congrArg Host.Outcome.next (if_pos h), fun h => congrArg Host.Outcome.next (if_neg h)⟩

theorem stepUpTargets_base (own : Targets) : stepUpTargets own baseTargets = none :=
  if_neg (fun h => h.2 h.1)

theorem stepUpTargets_same {t : Targets} (h : t ≠ baseTargets) : stepUpTargets t t = some t := if_pos ⟨rfl, h⟩

theorem stepUpTargets_differ {own partner : Targets} (h : own ≠ partner) : stepUpTargets own partner = none :=
  if_neg (fun g => h g.1)

/-- Equal targets clear mismatch; different ones set it and raise the event. -/
theorem exchange_same {s : State} {n : NodeId} {partner : Targets} (h : (s.node n).target = partner) :
    s.exchange n partner = s.modNode n (fun x => { x with mismatch := false }) := if_pos h

theorem exchange_differ {s : State} {n : NodeId} {partner : Targets} (h : (s.node n).target ≠ partner) :
    s.exchange n partner
      = (s.modNode n (fun x => { x with mismatch := true })).raise .link (linkEvent n .mismatch) := if_neg h

theorem linkUp_training {s : State} {n : NodeId} (h : (s.node n).link = .training) (t : Targets) :
    s.linkUp n t = s.trainSucceed n t := by simp only [State.linkUp, h]

/-- In its base phase the link takes BASE_PHASE_COMPLETE. -/
theorem exec_basePhaseComplete {s : State} {n : NodeId} {r : Nat} (h : (s.node n).inTraining = true)
    (hb : (s.node n).training = .base r) (partner : Targets) :
    exec (.basePhaseComplete n partner) s = .next (s.baseComplete n partner) := by
  change execBasePhaseComplete n partner s = _
  simp only [execBasePhaseComplete, h, if_true, hb]

/-- Settles O8: the three rows of R131, and the step-up. -/
theorem trainingSucceedsByPhase : Obligations.TrainingSucceedsByPhase := by
  refine ⟨fun s n partner r hl hb => ?base, fun s n pair r hl hu => ?stepUp⟩
  case base =>
    rw [exec_basePhaseComplete (by simp [Node.inTraining, hl]) hb]
    refine ⟨fun heq hbase => ?_, fun heq hne => ?_, fun hne => ?_⟩
    · have hex := exchange_same heq
      subst hbase
      have hlink : ((s.modNode n (fun x => { x with mismatch := false })).node n).link = .training := by
        rw [node_modNode_same]; exact hl
      have hnone : stepUpTargets (s.node n).target ⟨.x8, .g1⟩ = none := stepUpTargets_base _
      simp only [State.baseComplete, hex, hnone, linkUp_training hlink, State.trainSucceed, modNode_modNode_same]
      rfl
    · have hsome : stepUpTargets (s.node n).target partner = some partner := by
        rw [heq]; exact stepUpTargets_same hne
      simp only [State.baseComplete, exchange_same heq, hsome, modNode_modNode_same]
      rfl
    · have hlink : (((s.modNode n (fun x => { x with mismatch := true })).raise .link (linkEvent n .mismatch)).node
          n).link = .training := by
        rw [raise_link, node_modNode_same]; exact hl
      simp only [State.baseComplete, exchange_differ hne, stepUpTargets_differ hne, linkUp_training hlink]
      rfl
  case stepUp =>
    change execStepUpComplete n s = _
    simp only [execStepUpComplete, hu, linkUp_training hl]
    rfl

/-- PARTNER_GONE clears the presence signal, and then acts by the link's state. -/
theorem exec_partnerGone_down {s : State} {n : NodeId} (h : (s.node n).link = .down) (us : List DirUpset) :
    exec (.partnerGone n us) s
      = .next { s.damaged us with nodes := tset s.nodes n { s.node n with presence := false } } := by
  rw [← modNode_damaged s us n (fun x => { x with presence := false })]
  change execPartnerGone n us s = _
  simp only [execPartnerGone, node_modNode_same, node_damaged, h]

theorem exec_partnerGone_training {s : State} {n : NodeId} (h : (s.node n).link = .training) (us : List DirUpset) :
    exec (.partnerGone n us) s = .next (((s.damaged us).modNode n (fun x => { x with presence := false })).trainingEnds n
      .partnerGone) := by
  change execPartnerGone n us s = _
  simp only [execPartnerGone, node_modNode_same, node_damaged, h]

/-- Settles O9: the two ways a training fails, and the presence signal. -/
theorem partnerGoneBeforeActive : Obligations.PartnerGoneBeforeActive := by
  refine ⟨fun s n hl => ⟨fun hup => ?failed, fun us => ?gone⟩,
    fun s n => ⟨rfl, fun hl us => exec_partnerGone_down hl us⟩⟩
  case failed =>
    have hdue : (s.node n).link = .training ∧ (s.node n).training.remaining = some 0 := by
      obtain h | ⟨pair, h⟩ := hup <;> exact ⟨hl, by rw [h]; rfl⟩
    exact congrArg Host.Outcome.next (if_pos hdue)
  case gone =>
    rw [exec_partnerGone_training hl, State.trainingEnds, modNode_modNode_same, modNode_damaged]
    rfl

/-! ## Retraining -/

theorem enterRetraining_eq (s : State) (n : NodeId) (d : LinkDetail) :
    s.enterRetraining n d = enteredRetraining s n d := rfl

/-- Settles O11: the link enters RETRAINING from ACTIVE alone. -/
theorem partnerStartsRetraining : Obligations.PartnerStartsRetraining :=
  fun s n => ⟨fun h => congrArg Host.Outcome.next ((if_pos h).trans (enterRetraining_eq s n _)),
    fun h => congrArg Host.Outcome.next (if_neg h), fun _ => ⟨rfl, rfl, rfl⟩⟩

theorem exec_retrainingSuccess {s : State} {n : NodeId} (h : (s.node n).link = .retraining) (partner : Targets) :
    exec (.retrainingSuccess n partner) s = .next (s.retrained n partner) := congrArg Host.Outcome.next (if_pos h)

/-- Where the targets are equal a retraining comes up at them, at base too. -/
theorem stepUpTargets_getD (t : Targets) : (stepUpTargets t t).getD baseTargets = t := by
  by_cases h : t = baseTargets
  · rw [h, stepUpTargets_base]; rfl
  · rw [stepUpTargets_same h]; rfl

/-- Settles O12: success from the base phase with equal and with different targets and from the step-up, and an attempt
that has used its time. -/
theorem retrainingEndsOrTriesAgain : Obligations.RetrainingEndsOrTriesAgain := by
  refine ⟨fun s n partner hl => ⟨fun r hb heq => ?same, fun r hb hne => ?differ, fun pair r hu => ?stepUp,
    fun r => ⟨rfl, rfl, rfl⟩⟩, fun s n hl hup => ?again⟩
  case same =>
    have hget : (stepUpTargets (s.node n).target partner).getD baseTargets = partner := heq ▸ stepUpTargets_getD _
    rw [exec_retrainingSuccess hl, State.retrained, hb]
    simp only [exchange_same heq, hget]
    rfl
  case differ =>
    rw [exec_retrainingSuccess hl, State.retrained, hb]
    simp only [exchange_differ hne, stepUpTargets_differ hne]
    rfl
  case stepUp =>
    rw [exec_retrainingSuccess hl, State.retrained, hu]
    rfl
  case again =>
    have hdue : (s.node n).link = .retraining ∧ (s.node n).training.remaining = some 0 := by
      obtain h | ⟨pair, h⟩ := hup <;> exact ⟨hl, by rw [h]; rfl⟩
    exact congrArg Host.Outcome.next (if_pos hdue)

/-! ## Frames -/

/-- Settles O13: a frame sent, a frame acknowledged, a message that leaves. -/
theorem framesAreSentAndAcknowledged : Obligations.FramesAreSentAndAcknowledged := by
  refine ⟨fun s n k => ⟨fun hl hk hroom => congrArg Host.Outcome.next (if_pos ⟨hl, hk, hroom⟩),
      fun hl => congrArg Host.Outcome.next (if_neg (fun h => hl h.1))⟩,
    fun s n k => ⟨fun hl => congrArg Host.Outcome.next (if_neg (fun h => hl h.1)), fun hl f rest hf hk => ?acked,
      fun m queue hq => ?leaves⟩⟩
  case acked =>
    have hlen : (s.node n).link = .active ∧ k + 1 ≤ (s.node n).frames.length := ⟨hl, by rw [hf]; simpa using hk⟩
    have hone : s.frameAcked n
        = State.headsLeave n f.messages { s with nodes := tset s.nodes n { s.node n with frames := rest } } := by
      simp only [State.frameAcked, hf]
      rfl
    rw [← hone]
    exact congrArg Host.Outcome.next (if_pos hlen)
  case leaves =>
    have hone : s.headLeaves n
        = State.left { s with nodes := tset s.nodes n { s.node n with outQ := queue } } n m := by
      simp only [State.headLeaves, hq]
      rfl
    rw [← hone]
    rfl

/-- The acknowledgement of a frame of one message takes the frame and the message, and the message's leaving acts. -/
theorem exec_frameAcknowledged_one {s : State} {n : NodeId} {m : OutMsg} {queue : List OutMsg} {f : Frame}
    {rest : List Frame} (hl : (s.node n).link = .active) (hf : (s.node n).frames = f :: rest) (h1 : f.messages = 1)
    (hq : (s.node n).outQ = m :: queue) : exec (.frameAcknowledged n 1) s
      = .next (State.left { s with nodes := tset s.nodes n { s.node n with frames := rest, outQ := queue } } n m) := by
  have hacked := (framesAreSentAndAcknowledged.2 s n 0).2.1 hl f rest hf (Nat.zero_le _)
  have hleft := (framesAreSentAndAcknowledged.2 { s with nodes := tset s.nodes n { s.node n with frames := rest } } n
    0).2.2 m queue (by rw [State.node, tget_tset_same]; exact hq)
  rw [hacked, h1, hleft]
  simp only [State.framesAcked, State.headsLeave, State.node, tget_tset_same, tset_tset_same]

/-- A link that goes DOWN, with the alert addressed to its node. -/
theorem linkDown_eq (s : State) (n : NodeId) : s.linkDown n = s.afterDown n (s.node n).down := by
  have h : (if (s.modNode n Node.down).alert = .sent n then { s.modNode n Node.down with alert := .idle }
      else s.modNode n Node.down) = { s with nodes := tset s.nodes n (s.node n).down
                                             alert := if s.alert = .sent n then .idle else s.alert } := by
    by_cases ha : s.alert = .sent n
    · rw [if_pos ha]; exact if_pos ha
    · rw [if_neg ha]; exact if_neg ha
  exact congrArg State.alertTest h

/-- What the node was before it went DOWN is not looked at. -/
theorem afterDown_setNode (s : State) (n : NodeId) (x y : Node) : (s.setNode n x).afterDown n y = s.afterDown n y := by
  have h : tset (s.setNode n x).nodes n y = tset s.nodes n y := tset_tset_same _ _ _ _
  rw [State.afterDown, h]
  rfl

/-- The end of a departure, of a node as it stands. -/
theorem departed_setNode (s : State) (n : NodeId) (x : Node) : (s.setNode n x).departed n
    = s.afterDown n { x.down with membership := .absent, patience := 0, urgent := false } := by
  rw [State.departed, linkDown_eq, node_modNode_same, State.modNode, node_setNode_same, setNode_setNode_same,
    afterDown_setNode]
  rfl

/-- What stands once a node's link is DOWN: the node as given, the others but for one ALERT, nothing else changed. -/
theorem afterDown_spec (s : State) (n : NodeId) {y : Node} (hy : y.link = .down) : (s.afterDown n y).node n = y
    ∧ (∀ k, k ≠ n → sameButAlert (s.node k) ((s.afterDown n y).node k))
    ∧ { s.afterDown n y with nodes := s.nodes, alert := s.alert } = s := by
  obtain ⟨u, hu⟩ : ∃ u : State, u = { s with nodes := tset s.nodes n y, alert := if s.alert = AlertState.sent n then .idle
    else s.alert } := ⟨_, rfl⟩
  have hn : u.node n = y := by rw [hu]; exact tget_tset_same _ _ _
  have hk : ∀ k, k ≠ n → u.node k = s.node k := fun k h => by rw [hu]; exact tget_tset_ne _ _ h.symm
  have hafter : s.afterDown n y = u.alertTest := by rw [hu]; rfl
  rw [hafter]
  refine ⟨?same, fun k h => hk k h ▸ alertTest_same u k, ?rest⟩
  case same =>
    rw [alertTest_eq]
    split
    · rename_i h
      have hactive := ((alertReady_iff u).1 h.2).2.2.1
      have hne : u.alertTarget ≠ n := fun g => by rw [g, hn, hy] at hactive; cases hactive
      exact (tget_tset_ne _ _ hne).trans hn
    · exact hn
  case rest =>
    have h := congrArg (fun t : State => { t with nodes := s.nodes, alert := s.alert }) (alertTest_rest u)
    rw [hu] at h ⊢
    exact h

/-- A credit comes back to a node as it stands. -/
theorem creditRequest_setNode (s : State) (n : NodeId) (x : Node) :
    (s.setNode n x).creditRequest n = s.setNode n { x with reqCredits := x.reqCredits + 1 } := by
  rw [State.creditRequest, State.modNode, node_setNode_same, setNode_setNode_same]

theorem creditReturn_setNode (s : State) (n : NodeId) (x : Node) :
    (s.setNode n x).creditReturn n = s.setNode n { x with retCredits := x.retCredits + 1 } := by
  rw [State.creditReturn, State.modNode, node_setNode_same, setNode_setNode_same]

/-- A timer started toward a node whose link is ACTIVE runs. -/
theorem startTimer_active {s : State} {n : NodeId} (h : (s.node n).link = .active) (span : Nat) :
    s.startTimer n span = .running span := if_neg (by rw [h]; simp)

/-- A grant that leaves starts the confirm timer of the entry that awaits its CONFIRM, and tells of its poison. -/
theorem grantLeft_awaited {s : State} {n : NodeId} {e : EntryId} (hl : (s.node n).link = .active)
    (hc : (s.entry e).confirm = .awaited n) (tag : Tag) (line : LineAddr) (kind : MsgKind) :
    let started := s.setEntry e { s.entry e with confirmTimer := .running s.waitSpan }
    s.grantLeft n tag e line kind false = started
    ∧ s.grantLeft n tag e line kind true = started.raise .poisonSent
        { node := some n, tag := some tag, kind := some kind, place := some (.line line) } := by
  simp only [State.grantLeft, if_pos hc, startTimer_active hl]
  exact ⟨rfl, rfl⟩

/-- A copy that leaves while answers are fewer than sends starts its record's timer, and is SENT if it was
QUEUED-OUT. -/
theorem probeLeft_waiting {s : State} {n : NodeId} {e : EntryId} {p : Probe} (hl : (s.node n).link = .active)
    (hp : (s.entry e).probe n = p) (ha : p.answers < p.sends) (hlost : p.status ≠ .lost) (hw : p.waitEnded = false) :
    s.probeLeft n e = s.setEntry e ((s.entry e).setProbe n { p with
      status := if p.status = .queuedOut then .sent else p.status, timer := .running s.probeTimeout.toNat }) := by
  have hstart : p.answers < p.sends ∧ p.status ≠ .lost ∧ (!p.waitEnded) = true := ⟨ha, hlost, by rw [hw]; rfl⟩
  simp only [State.probeLeft, hp, if_pos hstart, startTimer_active hl]
  rfl

/-- Settles O14: the leaving of each message, from the state in which its frame and itself are gone. -/
theorem leavingMessagesAct : Obligations.LeavingMessagesAct := by
  intro s n m queue f rest hl hf h1 hq x left credited answer
  have act : ∀ {m' : OutMsg} {t : State}, m = m' → (left x).left n m' = t → answer = .next t := by
    rintro _ _ rfl rfl
    exact exec_frameAcknowledged_one hl hf h1 hq
  have hactive : ∀ y : Node, y.link = (s.node n).link → ((left y).node n).link = .active := fun y hy =>
    (congrArg Node.link (node_setNode_same s n y)).trans (hy.trans hl)
  have hcredit : (left x).creditRequest n = left credited := creditRequest_setNode s n x
  have hgrant : ∀ tag e line kind, (s.entry e).confirm = .awaited n → _ := fun tag e line kind hc =>
    grantLeft_awaited (s := left credited) (e := e) (hactive credited rfl) hc tag line kind
  refine ⟨fun tag poison h => act h hcredit, fun tag reason h => act h hcredit, fun tag value h => act h hcredit,
    fun tag poison mark h => act h (creditReturn_setNode s n x), fun tag line b h hb => act h ?data,
    fun tag line b h hb => act h ?poisonData, fun tag e line b h hc hb => act h ?grantS,
    fun tag e line b h hc hb => act h ?poisonGrantS, fun tag e line b h hc hb => act h ?grantH,
    fun tag e line d h hc => act h ?poisonGrantH, fun k e p h hp hk ha hw => ?probe, fun classes h => act h rfl,
    fun tag poison h => ?leave⟩
  case data => simp only [State.left, hcredit, hb]; rfl
  case poisonData => simp only [State.left, hcredit, hb]; rfl
  case grantS => simp only [State.left, hcredit, hb]; exact (hgrant tag e line .grantS hc).1
  case poisonGrantS => simp only [State.left, hcredit, hb]; exact (hgrant tag e line .grantS hc).2
  case grantH =>
    have hclean : (b.map Buffer.poison).getD false = false := by obtain rfl | ⟨d, rfl⟩ := hb <;> rfl
    simp only [State.left, hcredit, hclean]
    exact (hgrant tag e line .grantH hc).1
  case poisonGrantH => simp only [State.left, hcredit]; exact (hgrant tag e line .grantH hc).2
  case probe =>
    have hleft : p.status ≠ .lost → _ := fun hs =>
      probeLeft_waiting (s := left x) (e := e) (hactive x rfl) hp ha hs hw
    refine ⟨fun hs => act h ((hleft (by rw [hs]; simp)).trans ?_), fun hs => act h ((hleft (by rw [hs]; simp)).trans ?_)⟩
    · rw [if_pos hs]; rfl
    · rw [if_neg (by rw [hs]; simp)]; rw [hs]; rfl
  case leave =>
    obtain ⟨hgone, hothers, hrest⟩ := afterDown_spec s n (y := { credited.down with
      membership := .absent, patience := 0, urgent := false }) rfl
    refine ⟨act h ?_, hgone, hothers, hrest⟩
    rw [State.left, hcredit, if_pos rfl]
    exact departed_setNode s n credited

/-! ## Retries -/

/-- Settles O15: a frame sent again, a timeout at each count, and the run of damaged receipts. -/
theorem linkRetryResendsAndCounts : Obligations.LinkRetryResendsAndCounts := by
  refine ⟨fun s n i f hl hf => ?resend, fun s n i hl => ?damaged⟩
  case resend =>
    have htimeout : exec (.ackTimeout n i) s = .next (if f.ackTimer = some 0 then
        if 8 ≤ f.resends then s.enterRetraining n .retrainRetry
        else s.modNode n (fun x => x.resendFrom i) else s) := by
      change execAckTimeout n i s = _
      simp only [execAckTimeout, if_pos hl, hf]
      rfl
    refine ⟨?_, fun hr ht => ?_, fun hr ht => ?_, fun ht => ?_⟩
    · change execDamageReported n i s = _
      simp only [execDamageReported, if_pos hl, hf]
      rfl
    · rw [htimeout, if_pos ht, if_neg (Nat.not_le.2 hr)]; rfl
    · rw [htimeout, if_pos ht, if_pos hr]; rfl
    · rw [htimeout, if_neg ht]
  case damaged =>
    have hrun : ∀ k, (s.node n).damagedRun i = k → exec (.frameReceivedDamaged n i) s = .next
        (if 8 ≤ k then State.enterRetraining (s.modNode n (fun x => { x with
          damagedCount := k, damagedFrame := i })) n .retrainRetry
        else s.modNode n (fun x => { x with damagedCount := k, damagedFrame := i })) := by
      rintro k rfl
      exact congrArg Host.Outcome.next (if_pos hl)
    refine ⟨fun h => (hrun 1 (if_neg h)).trans rfl, fun h hk => ?_, fun h hk => ?_⟩
    · have hcount : (s.node n).damagedRun i = (s.node n).damagedCount + 1 := by
        rw [Node.damagedRun, if_pos h, Config.retryLimit]; omega
      rw [hrun _ hcount, if_neg (Nat.not_le.2 hk)]
      rfl
    · have hcount : (s.node n).damagedRun i = 8 := by
        rw [Node.damagedRun, if_pos h, Config.retryLimit]; omega
      rw [hrun _ hcount, if_pos (by decide)]
      rfl

/-! ## Arrivals -/

theorem frameAccepted_eq (s : State) (n : NodeId) : s.frameAccepted n
    = { s with nodes := tset s.nodes n { s.node n with damagedCount := 0 } } := rfl

/-- A request arrives on a credit, and spends it (R137). -/
theorem requestArrives_credit {s : State} {n : NodeId} {m : WireMsg} {r : ReqMsg} (hr : m.request = some r)
    (hc : 0 < (s.node n).reqCredits) : s.requestArrives n m = s.modNode n (fun x => { x with
      reqCredits := x.reqCredits - 1, requestQ := x.requestQ ++ [r] }) := by
  simp only [State.requestArrives, hr, if_pos hc]

theorem requestArrives_noCredit {s : State} {n : NodeId} {m : WireMsg} {r : ReqMsg} (hr : m.request = some r)
    (hc : ¬0 < (s.node n).reqCredits) : s.requestArrives n m = s.raise .protocol (arrivalEvent n .credit) := by
  simp only [State.requestArrives, hr, if_neg hc]

theorem requestArrives_notCarried (s : State) (n : NodeId) {m : WireMsg} (hr : m.request = none) :
    s.requestArrives n m = s.raise .protocol (arrivalEvent n .kind) := by
  simp only [State.requestArrives, hr]

/-- A return arrives on a credit, and spends it (R137). -/
theorem returnArrives_credit {s : State} {n : NodeId} {m : WireMsg} {r : RetMsg} (hr : m.ret = some r)
    (hc : 0 < (s.node n).retCredits) : s.returnArrives n m = s.modNode n (fun x => { x with
      retCredits := x.retCredits - 1, returnQ := x.returnQ ++ [r] }) := by
  simp only [State.returnArrives, hr, if_pos hc]

theorem returnArrives_noCredit {s : State} {n : NodeId} {m : WireMsg} {r : RetMsg} (hr : m.ret = some r)
    (hc : ¬0 < (s.node n).retCredits) : s.returnArrives n m = s.raise .protocol (arrivalEvent n .credit) := by
  simp only [State.returnArrives, hr, if_neg hc]

theorem returnArrives_notCarried (s : State) (n : NodeId) {m : WireMsg} (hr : m.ret = none) :
    s.returnArrives n m = s.raise .protocol (arrivalEvent n .kind) := by
  simp only [State.returnArrives, hr]

/-- Settles O16: both channels, with a credit, without one, and for a message the channel does not carry. -/
theorem messagesArriveOnCredit : Obligations.MessagesArriveOnCredit := by
  refine ⟨fun s n m => ⟨fun hl => congrArg Host.Outcome.next (if_neg hl), fun hl => ?request⟩,
    fun s n m => ⟨fun hl => congrArg Host.Outcome.next (if_neg hl), fun hl => ?ret⟩⟩
  case request =>
    have hrun : exec (.requestArrival n m) s = .next ((s.frameAccepted n).requestArrives n m) :=
      congrArg Host.Outcome.next (if_pos hl)
    have hcredits : ((s.frameAccepted n).node n).reqCredits = (s.node n).reqCredits := by
      rw [State.frameAccepted, node_modNode_same]
    rw [hrun, ← frameAccepted_eq]
    refine ⟨fun r hr hc => ?_, fun r hr hc => ?_, fun hr => ?_⟩
    · rw [requestArrives_credit hr (by rwa [hcredits]), State.frameAccepted, modNode_modNode_same]; rfl
    · rw [requestArrives_noCredit hr (by rw [hcredits]; omega)]; rfl
    · rw [requestArrives_notCarried _ _ hr]; rfl
  case ret =>
    have hrun : exec (.returnArrival n m) s = .next ((s.frameAccepted n).returnArrives n m) :=
      congrArg Host.Outcome.next (if_pos hl)
    have hcredits : ((s.frameAccepted n).node n).retCredits = (s.node n).retCredits := by
      rw [State.frameAccepted, node_modNode_same]
    rw [hrun, ← frameAccepted_eq]
    refine ⟨fun r hr hc => ?_, fun r hr hc => ?_, fun hr => ?_⟩
    · rw [returnArrives_credit hr (by rwa [hcredits]), State.frameAccepted, modNode_modNode_same]; rfl
    · rw [returnArrives_noCredit hr (by rw [hcredits]; omega)]; rfl
    · rw [returnArrives_notCarried _ _ hr]; rfl

end Sys2Proof.Machine

/-! The admission of plain requests, ORDER, LEAVE and register writes (chapters 6, 8 and 12). -/

namespace Sys2Proof.Machine

/-! ## A plain entry's activation and the first of its work -/

/-- A plain entry activates without reading the directory. -/
theorem activate_plain {u : State} {e : EntryId} (h : (u.entry e).kind.plain = true) (ts : List Task)
    (ns : List Notice) : Work.activate ⟨u, ts, ns⟩ e = ⟨u.enterGather e, .checkGather e :: ts, ns⟩ := by
  simp only [Work.activate, h, if_true]
  rfl

/-- An entry whose pool operation stands does not end its GATHER. -/
theorem gatherDone_of_poolOp {x : Entry} (h : x.poolOp ≠ .none) : x.gatherDone = false := by
  simp [Entry.gatherDone, h]

/-- An entry whose pool operation stands does not end its FINISH. -/
theorem finishDone_of_poolOp {x : Entry} (h : x.poolOp ≠ .none) : x.finishDone = false := by
  simp [Entry.finishDone, h]

/-- The check of a phase that is not over ends the step. -/
theorem run_idle_one {u : State} {t : Task} (h : t.idle u) (fuel : Nat) :
    Work.run (fuel + 1) ⟨u, [t], []⟩ = some u := by
  rw [run_task, h _ rfl, run_rest]

/-- GATHER of an entry that waits for nothing ends, and FINISH is checked next. -/
theorem run_endGather {u : State} {e : EntryId} (hp : (u.entry e).phase = .gather)
    (hd : (u.entry e).gatherDone = true) (fuel : Nat) (ts : List Task) (ns : List Notice) :
    Work.run (fuel + 1) ⟨u, .checkGather e :: ts, ns⟩ = Work.run fuel ⟨u.endGather e, .checkFinish e :: ts, ns⟩ := by
  rw [run_task]
  simp only [Work.task, hp, hd, and_self, if_true]
  rfl

/-- A request without entry is admitted at rest. -/
theorem admitRequest_of {s u : State} {work : State → NodeId → Tag → ReqBody → Option Work} {n : NodeId} {r : ReqMsg}
    (hc : s.choice = some (.request n r)) (hd : s.decodeRefusal n r.body = none)
    (hw : work (s.takeRequest n) n r.tag r.body = some (Work.of u)) : s.admitRequest work = .next u := by
  rw [admitRequest_passed hc hd hw, settle_of]

theorem takeRequest_posted (s : State) (n : NodeId) : ((s.takeRequest n).node n).posted = (s.node n).posted := by
  rw [node_takeRequest, if_pos rfl]
  rfl

/-! ## ORDER -/

/-- The entries an ORDER waits for: the node's posted ones. -/
theorem mem_postedEntries (s : State) (n : NodeId) (e : EntryId) : e ∈ s.postedEntries n ↔
    (s.entry e).phase ≠ .free ∧ (s.entry e).posted = true ∧ (s.entry e).origin.map Origin.node = some n := by
  simp [State.postedEntries, mem48, inUse_iff, isFrom_iff, and_assoc]

/-- Settles O39: the DONE at once with no posted write, else the slot with the node's posted entries. -/
theorem orderWaitsForPostedWrites : Obligations.OrderWaitsForPostedWrites := by
  intro s n tag hc hd
  have hadmit : exec .order s = .next ((s.takeRequest n).admitOrder n tag) :=
    show execOrder s = _ from admitRequest_of hc hd rfl
  rw [hadmit]
  refine ⟨fun hp => ?none, fun hp => ⟨(s.takeRequest n).postedEntries n, ?slot, nodup48.filter _,
    mem_postedEntries (s.takeRequest n) n⟩⟩
  case none =>
    rw [State.admitOrder, if_pos ((takeRequest_posted s n).trans hp), doneRequest_takeRequest hc]
  case slot =>
    rw [State.admitOrder, if_neg (fun h => hp ((takeRequest_posted s n).symm.trans h))]
    rfl

/-! ## LEAVE -/

/-- A record is started at once where the walker walks no set, else it joins. -/
theorem startRecord_eq (s : State) (n : NodeId) (mode : WalkMode) (tag : Tag) : s.startRecord n mode tag = { s with
    walker := { s.walker with
      position := if s.walker.walks then s.walker.position else 0
      records := tset s.walker.records n (some { mode := mode, remaining := 16384, recalls := 0, leaveTag := tag
                                                 joining := s.walker.walks }) } } := by
  unfold State.startRecord
  cases s.walker.walks <;> rfl

/-- Settles O40. -/
theorem leaveStartsTheDepartureWalk : Obligations.LeaveStartsTheDepartureWalk := by
  intro s n tag hc hd
  have hadmit : exec .leave s = .next ((s.takeRequest n).admitLeave n tag) :=
    show execLeave s = _ from admitRequest_of hc hd rfl
  rw [hadmit, State.admitLeave, startRecord_eq]
  rfl

/-! ## PLAIN-WRITE -/

/-- A plain write's entry as it is allocated. -/
def writeEntry (n : NodeId) (tag : Tag) (l : LineAddr) (posted : Bool) (mask : ByteMask) (data : LineData) : Entry :=
  requestEntry .plainWrite n tag l posted mask data

/-- The entry of a plain request, placed in the table, in the form the rules of one entry's work speak of. -/
theorem setEntry_form (u : State) (e : EntryId) (x : Entry) :
    u.setEntry e x = State.form u u.nodes u.entries e x u.poolQueue := rfl

/-- A full write issues its WRITE in the step of its admission (R95). -/
theorem settle_fullWrite {u : State} {e : EntryId} {n : NodeId} {tag : Tag} {l : LineAddr} {posted : Bool}
    {data : LineData} (hport : u.portFree) :
    settle ⟨u.setEntry e (writeEntry n tag l posted (BitVec.allOnes 64) data), [.activate e], []⟩ = .next { u with
      entries := tset u.entries e { writeEntry n tag l posted (BitVec.allOnes 64) data with
        phase := .finish, poolOp := .writeOut }
      poolQueue := u.poolQueue ++ [⟨.entry e, l, some ⟨data, false⟩⟩] } := by
  set x := writeEntry n tag l posted (BitVec.allOnes 64) data with hx
  set g : State := State.form u u.nodes u.entries e { x with phase := .gather } u.poolQueue with hg
  have hge : g.entry e = { x with phase := .gather } := form_entry ..
  have hgather : (u.setEntry e x).enterGather e = g := by
    rw [setEntry_form, State.enterGather, form_mod]
    simp only [State.startWork, form_entry, hx, writeEntry, requestEntry, ByteMask.full, decide_true, if_true]
    rfl
  have hend : g.endGather e = State.form u u.nodes u.entries e { x with phase := .finish, poolOp := .writeOut }
      (u.poolQueue ++ [⟨.entry e, l, some ⟨data, false⟩⟩]) := by
    have hq : (g.modEntry e (fun y => { y with outcome := y.fixedOutcome g.promote })).queueReply e
        = g := by
      rw [hg, form_mod]
      simp only [State.queueReply, form_entry]
      rfl
    rw [State.endGather, hq, hg, form_mod, form_entry]
    exact form_issueWrite _ _ _ _ _ _ _ hport.1 hport.2
  refine settle_eq (fuel := 3) (by decide) ?_
  rw [run_task]
  change Work.run 2 (Work.activate ⟨u.setEntry e x, [], []⟩ e) = _
  rw [activate_plain (by rw [setEntry_form, form_entry]; rfl), hgather,
    run_endGather (by rw [hge]) (by rw [hge]; rfl), hend]
  exact run_idle_one (idle_checkFinish (.inr (finishDone_of_poolOp (by rw [form_entry]; simp)))) 0

/-- An entry that reads the pool as its work starts gathers with its READ out (R93, R96). -/
theorem settle_read {u : State} {e : EntryId} {x : Entry} (hx : x.kind.plain = true)
    (hw : ∀ v : State, v.entry e = { x with phase := .gather } → v.startWork e = v.issueRead e) (hport : u.portFree) :
    settle ⟨u.setEntry e x, [.activate e], []⟩ = .next { u with
      entries := tset u.entries e { x with phase := .gather, poolOp := .readOut }
      poolQueue := u.poolQueue ++ [⟨.entry e, x.line, none⟩] } := by
  have hgather : (u.setEntry e x).enterGather e = State.form u u.nodes u.entries e
      { x with phase := .gather, poolOp := .readOut } (u.poolQueue ++ [⟨.entry e, x.line, none⟩]) := by
    rw [setEntry_form, State.enterGather, form_mod, hw _ (form_entry ..)]
    exact form_issueRead _ _ _ _ _ _ hport.1 hport.2
  refine settle_eq (fuel := 2) (by decide) ?_
  rw [run_task]
  change Work.run 1 (Work.activate ⟨u.setEntry e x, [], []⟩ e) = _
  rw [activate_plain (by rw [setEntry_form, form_entry]; exact hx), hgather]
  exact run_idle_one (idle_checkGather (.inr (gatherDone_of_poolOp (by rw [form_entry]; simp)))) 0

/-- A plain write of some bytes starts with a READ. -/
theorem startWork_partWrite {v : State} {e : EntryId} {x : Entry} (he : v.entry e = x) (hk : x.kind = .plainWrite)
    (hm : x.mask ≠ BitVec.allOnes 64) : v.startWork e = v.issueRead e := by
  simp only [State.startWork, he, hk, ByteMask.full, decide_eq_false hm, Bool.false_eq_true, if_false]

/-- The admission of a plain write with bytes to write: an entry, counted and answered first where the region posts
(R94, R98, R99). -/
theorem admitPlainWrite_eq {s t u : State} {n : NodeId} {tag : Tag} {l : LineAddr} {mask : ByteMask} {data : LineData}
    {e : EntryId} (hm : mask ≠ 0) (hfree : s.freeEntry = some e)
    (hactive : s.activeOn l = none)
    (hu : (if t.postsTo l then (t.doneRequest n tag false).modNode n (fun x => { x with posted := x.posted + 1 })
      else t) = u) (hue : u.entries = s.entries) :
    t.admitPlainWrite n tag l mask data = ⟨u.setEntry e (writeEntry n tag l (t.postsTo l) mask data), [.activate e], []⟩ := by
  rw [State.admitPlainWrite, if_neg hm]
  subst hu
  exact allocate_eq hue hfree hactive

/-- Settles O38: an empty mask needs no entry; else the entry is allocated and its first pool operation issued, by the
mask, after the DONE of a posted write. -/
theorem plainWriteByMaskAndRegion : Obligations.PlainWriteByMaskAndRegion := by
  intro s n tag l mask data e hc hd hfree hactive hport taken answered posted fresh counted
  have hexec : exec .plainWrite s = settle (taken.admitPlainWrite n tag l mask data) :=
    show execPlainWrite s = _ from admitRequest_passed hc hd rfl
  have hdone : taken.doneRequest n tag false = taken.modNode n answered := doneRequest_takeRequest hc tag false
  have hcounted : (if taken.postsTo l then
      (taken.doneRequest n tag false).modNode n (fun x => { x with posted := x.posted + 1 }) else taken) = counted := by
    rw [hdone, modNode_modNode_same]
    rfl
  have hsame : counted.entries = s.entries ∧ counted.poolQueue = s.poolQueue ∧ counted.issueWait = s.issueWait := by
    simp only [counted]
    split <;> exact ⟨rfl, rfl, rfl⟩
  obtain ⟨hentries, hqueue, hwait⟩ := hsame
  have hfreePort : counted.portFree := by rwa [State.portFree, hqueue, hwait]
  have hadmit : mask ≠ 0 → exec .plainWrite s
      = settle ⟨counted.setEntry e (writeEntry n tag l posted mask data), [.activate e], []⟩ := fun hm => by
    rw [hexec, admitPlainWrite_eq (t := taken) hm hfree hactive hcounted hentries]
    rfl
  refine ⟨fun hm => ?empty, fun hm => ?full, fun hm hpart => ?part⟩
  case empty =>
    rw [hexec, State.admitPlainWrite, if_pos hm, settle_of, hdone]
    rfl
  case full =>
    subst hm
    rw [hadmit (by decide), settle_fullWrite hfreePort, hentries, hqueue]
    rfl
  case part =>
    rw [hadmit hm, settle_read rfl (fun v hv => startWork_partWrite hv rfl hpart) hfreePort, hentries, hqueue]
    rfl

/-! ## Writes of registers -/

theorem writeRefusal_readOnly {s : State} {g : Reg} (h : g.readOnly = true) (v : RegValue) :
    s.writeRefusal g v = some .configOffset := if_pos h

theorem writeRefusal_outOfRange {s : State} {g : Reg} {v : RegValue} (hr : g.readOnly = false)
    (h : g.outOfRange v = true) : s.writeRefusal g v = some .configOffset := by
  simp [State.writeRefusal, hr, h]

theorem writeRefusal_busy {s : State} {g : Reg} {v : RegValue} (hr : g.readOnly = false)
    (ho : g.outOfRange v = false) (h : s.regionBusy g v = true) : s.writeRefusal g v = some .regionBusy := by
  simp [State.writeRefusal, hr, ho, h]

theorem writeRefusal_none {s : State} {g : Reg} {v : RegValue} (hr : g.readOnly = false)
    (ho : g.outOfRange v = false) (h : s.regionBusy g v = false) : s.writeRefusal g v = none := by
  simp [State.writeRefusal, hr, ho, h]

/-- A write that is its register's own row, or CONFIG_WRITE's where the register has none, is admitted with the
register's checks (R161; log 10). -/
theorem exec_regWrite {s : State} {n : NodeId} {tag : Tag} {o : Offset} {v : RegValue} {g : Reg} {c : Instr}
    (hc : s.choice = some (.request n ⟨tag, .configWrite o v⟩)) (hg : regAt o = some g) (hr : rowOfWrite g v = some c) :
    exec c s = .next ((s.takeRequest n).admitRegWrite n tag g v) := by
  have hwrite : hasOwnRow o v = false → execConfigWrite s = .next ((s.takeRequest n).admitRegWrite n tag g v) :=
    fun h => admitRequest_of hc rfl (by simp only [h, State.admitConfigWrite, hg]; rfl)
  have hrow : ∀ p : Reg → Bool, p g = true → s.admitWriteRow p = .next ((s.takeRequest n).admitRegWrite n tag g v) :=
    fun p hp => admitRequest_of hc rfl (by simp only [hg, hp, if_true])
  cases g with
  | nodeCommand m =>
    cases hcmd : v.getLsbD 0 || v.getLsbD 1 with
    | true => simp only [rowOfWrite, hcmd, if_true, reduceCtorEq] at hr
    | false =>
      simp only [rowOfWrite, hcmd, Bool.false_eq_true, if_false, Option.some.injEq] at hr
      subst hr
      exact hwrite (by simp only [hasOwnRow, hg]; exact hcmd)
  | errorAck => cases hr; exact hrow _ rfl
  | alertClear => cases hr; exact hrow _ rfl
  | errorCount d => cases hr; exact hrow _ rfl
  | poolSize => cases hr; exact hrow _ rfl
  | enable r => cases hr; exact hrow _ rfl
  | base r => cases hr; exact hrow _ rfl
  | limit r => cases hr; exact hrow _ rfl
  | attr r => cases hr; exact hrow _ rfl
  | _ => cases hr; exact hwrite (by simp only [hasOwnRow, hg])

/-- A request whose admission the arbiter chose is refused with the REFUSE in its node's queue. -/
theorem refuse_takeRequest {s : State} {n : NodeId} {r : ReqMsg} (hc : s.choice = some (.request n r)) (tag : Tag)
    (kind : MsgKind) (line : Option LineAddr) (reason : Reason) :
    (s.takeRequest n).refuse n tag kind line reason = { s.takeRequest n with
      nodes := tset (s.takeRequest n).nodes n { (s.takeRequest n).node n with
        outQ := ((s.takeRequest n).node n).outQ ++ [OutMsg.refuse tag reason] } }.raise .refusal
        { node := some n, tag := some tag, kind := some kind, place := line.map Place.line
          detail := some (.reason reason) } := by
  have hlink : (s.node n).link ≠ .down := (choice_request hc).1
  exact refuse_up (by rwa [takeRequest_link]) tag kind line reason

theorem admitRegWrite_refused {s : State} {n : NodeId} {tag : Tag} {g : Reg} {v : RegValue} {reason : Reason}
    (h : s.writeRefusal g v = some reason) :
    s.admitRegWrite n tag g v = s.refuse n tag .configWrite none reason := by
  simp only [State.admitRegWrite, h]

theorem admitRegWrite_done {s : State} {n : NodeId} {tag : Tag} {g : Reg} {v : RegValue}
    (h : s.writeRefusal g v = none) : s.admitRegWrite n tag g v = (s.doneRequest n tag false).writeReg g v := by
  simp only [State.admitRegWrite, h]

/-- Settles O44: the first of the checks that fails gives the reason; else DONE and the effect. -/
theorem configWritesAreCheckedAndAnswered : Obligations.ConfigWritesAreCheckedAndAnswered := by
  intro s n tag o v hc taken sent refused
  have hrefused : ∀ reason, taken.refuse n tag .configWrite none reason = refused reason :=
    refuse_takeRequest hc tag .configWrite none
  refine ⟨fun hg => ?unmapped, fun g c hg hrow => ?_⟩
  case unmapped =>
    rw [← hrefused]
    refine show execConfigWrite s = _ from admitRequest_of hc rfl ?_
    simp only [hasOwnRow, State.admitConfigWrite, hg]
    rfl
  rw [exec_regWrite hc hg hrow]
  refine ⟨fun hro => ?readOnly, fun hro hrange => ?range, fun hro hrange hbusy => ?busy, fun hro hrange hfree => ?done⟩
  case readOnly => rw [admitRegWrite_refused (writeRefusal_readOnly hro v), hrefused]
  case range => rw [admitRegWrite_refused (writeRefusal_outOfRange hro hrange), hrefused]
  case busy => rw [admitRegWrite_refused (writeRefusal_busy hro hrange hbusy), hrefused]
  case done => rw [admitRegWrite_done (writeRefusal_none hro hrange hfree), doneRequest_takeRequest hc]

/-! ## RELINK -/

/-- A message queued, or dropped on a link that is DOWN, changes no link. -/
theorem send_link (s : State) (n m : NodeId) (x : OutMsg) : ((s.send n x).node m).link = (s.node m).link := by
  by_cases hdown : (s.node n).link = .down
  · rw [send_down hdown]
  · rw [send_up hdown]
    change (tget (tset s.nodes n _) m).link = (tget s.nodes m).link
    by_cases hm : n = m
    · subst hm
      rw [tget_tset_same]
      rfl
    · rw [tget_tset_ne _ _ hm]

/-- Settles O46. -/
theorem relinkRetrainsAnActiveLink : Obligations.RelinkRetrainsAnActiveLink := by
  intro s n m tag o v hc hg h0 h1 taken sent
  have hdone : taken.doneRequest n tag false = sent := doneRequest_takeRequest hc tag false
  have hexec : exec .relink s = .next (if (sent.node m).link = .active then sent.enterRetraining m .retrainCommand
      else sent) := by
    refine show execRelink s = _ from admitRequest_of hc rfl ?_
    simp only [hg, commandsRelink, commandsLoss, h0, h1, Bool.not_false, Bool.and_self, if_true]
    rw [← hdone]
  have hlink : (sent.node m).link = (s.node m).link := by
    rw [← hdone, State.doneRequest, send_link, takeRequest_link]
  rw [hexec, hlink]
  refine ⟨fun hl => ?active, fun hl => by rw [if_neg hl]⟩
  rw [if_pos hl, enterRetraining_eq]

end Sys2Proof.Machine

/-! What a register takes and when a write of it is busy (R113, R161, R162, R164). -/

namespace Sys2Proof.Machine

/-! ## Registers -/

theorem mem8 (r : RegionNo) : r ∈ List.finRange 8 := List.mem_finRange r

/-- The pool's size is busy while some region is enabled. -/
theorem anyEnabled_iff (s : State) : s.anyEnabled = true ↔ ∃ q, (tget s.regions q).enabled = true := by
  simp [State.anyEnabled, List.any_eq_true]

/-- A region is enabled only where the pool has a size and the region ends below it (R162). -/
theorem regionBusy_enable (s : State) (r : RegionNo) (v : RegValue) : s.regionBusy (.enable r) v = true ↔
    (tget s.regions r).enabled = false ∧ v.getLsbD 0 = true
      ∧ ¬(0 < s.poolSize.toNat ∧ (tget s.regions r).limit.toNat < s.poolSize.toNat * 1024) := by
  simp only [State.regionBusy, Bool.and_eq_true, Bool.not_eq_true', Bool.and_eq_false_iff, decide_eq_false_iff_not,
    gib_lt_iff, and_assoc, not_and_or]

/-- The registers whose writes can be busy (R161 check 5). -/
theorem regionBusy_register {s : State} {g : Reg} {v : RegValue} (h : s.regionBusy g v = true) :
    g = .poolSize ∨ ∃ q, g = .base q ∨ g = .limit q ∨ g = .attr q ∨ g = .enable q := by
  cases g with
  | poolSize => exact .inl rfl
  | base q => exact .inr ⟨q, .inl rfl⟩
  | limit q => exact .inr ⟨q, .inr (.inl rfl)⟩
  | attr q => exact .inr ⟨q, .inr (.inr (.inl rfl))⟩
  | enable q => exact .inr ⟨q, .inr (.inr (.inr rfl))⟩
  | _ => cases h

/-- The registers marked read only in R164. -/
theorem readOnly_iff (g : Reg) : g.readOnly = true ↔
    g ∈ [Reg.id, .hubStatus, .validCount, .quarCount, .errorPending, .alertStatus, .walkStatus]
    ∨ (∃ n, g = .nodeStatus n ∨ g = .walkRecord n) ∨ ∃ c w, g = .errorRecord c w := by
  cases g <;> simp [Reg.readOnly]

/-- The values out of a field's range (R161 check 4). -/
theorem outOfRange_iff (g : Reg) (v : RegValue) : g.outOfRange v = true ↔
    ((g = .probeTiming ∨ g = .relinkTimeout) ∧ v.extractLsb' 0 16 = 0)
    ∨ (g = .poolSize ∧ 64 < (v.extractLsb' 0 7).toNat) ∨ (∃ n, g = .nodeControl n ∧ v.extractLsb' 2 2 = 3)
    ∨ ∃ r, g = .attr r ∧ v.extractLsb' 0 2 = 3 := by
  cases g <;> simp [Reg.outOfRange]

/-- NODE-CONTROL takes a grade code that names a grade. -/
theorem writeReg_nodeControl (s : State) (n : NodeId) {v : RegValue} {grade : Grade}
    (h : gradeOf (v.extractLsb' 2 2) = some grade) : s.writeReg (.nodeControl n) v = { s with
      nodes := tset s.nodes n { s.node n with
        enable := v.getLsbD 0, target := ⟨if v.getLsbD 1 then .x16 else .x8, grade⟩, priority := v.extractLsb' 4 2
        patienceLimit := v.extractLsb' 8 8 } } := by
  rw [State.writeReg, modNode_eq, Node.control, h]
  rfl

/-- ATTR takes a kind code that names a kind. -/
theorem writeReg_attr (s : State) (r : RegionNo) {v : RegValue} {kind : RegionKind}
    (h : regionKindOf (v.extractLsb' 0 2) = some kind) : s.writeReg (.attr r) v = { s with
      regions := tset s.regions r { tget s.regions r with
        kind := kind, readSet := v.extractLsb' 8 4, writeSet := v.extractLsb' 12 4 } } := by
  rw [State.writeReg, State.modRegion, h]
  rfl

/-- Settles O45. -/
theorem registersTakeTheirFieldsUnlessBusy : Obligations.RegistersTakeTheirFieldsUnlessBusy :=
  ⟨fun s _ n r => ⟨rfl, rfl, rfl, rfl, fun _ h => writeReg_nodeControl s n h, rfl, rfl,
      fun _ h => writeReg_attr s r h, rfl, rfl, rfl⟩,
    fun s r v => ⟨.rfl, .rfl, .rfl, regionBusy_enable s r v, anyEnabled_iff s⟩,
    readOnly_iff, outOfRange_iff, fun _ _ _ h => regionBusy_register h⟩

end Sys2Proof.Machine

/-! The ways of the directory: their check, their read and their full write (chapter 1). -/

namespace Sys2Proof.Machine

/-! ## The check of a way -/

theorem check_twoBits {x : Way} (h : x.damage = .twoBits) : x.check = (.uncorrectable, none) := by
  simp only [Way.check, h]

theorem check_intact {x : Way} (h : x.damage = .intact) : x.check = formed .clean x.written := by
  simp only [Way.check, h]

theorem check_oneBit {x : Way} (h : x.damage = .oneBit) : x.check = formed .corrected x.written := by
  simp only [Way.check, h]

/-- What is stored as R2 has it is found as it was written. -/
theorem formed_wellFormed {found : CheckResult} {r : Option Record} (h : ∀ q, r = some q → q.wellFormed = true) :
    formed found r = (found, r) := by
  cases r with
  | none => rfl
  | some q => simp only [formed, h q rfl, if_true]

/-- A record that breaks R2 is found UNCORRECTABLE. -/
theorem formed_malformed {found : CheckResult} {q : Record} (h : q.wellFormed = false) :
    formed found (some q) = (.uncorrectable, none) := by
  simp only [formed, h, Bool.false_eq_true, if_false]

/-- The sets of one node. -/
theorem members_length_one (t : NodeSet) : (NodeSet.members t).length = 1 ↔ ∃ n, t = NodeSet.single n := by
  revert t
  decide

/-- R2's law of a record. -/
theorem wellFormed_iff (q : Record) : q.wellFormed = true ↔
    (q.state = .shared ∧ q.sharers ≠ 0) ∨ (q.state = .held ∧ ∃ n, q.sharers = NodeSet.single n) := by
  cases h : q.state <;> simp [Record.wellFormed, h, members_length_one]

/-! ## The read of one way -/

/-- What a read returns for a way in which a record, or VACANT, was found. -/
def WayRead.found : Option Record → WayRead
  | some q => .record q
  | none => .vacant

section
variable {s : State} {k : SetIdx} {w : WayNo} {x : Way}

theorem readWay_quarantined (hx : s.way k w = x) (h : x.quarantined = true) (reader : Reader) (kind : MsgKind) :
    s.readWay k w reader kind = (s, .quarantined) := by
  simp only [State.readWay, hx, h, if_true]

theorem readWay_clean (hx : s.way k w = x) (hq : x.quarantined = false) {o : Option Record}
    (h : x.check = (.clean, o)) (reader : Reader) (kind : MsgKind) :
    s.readWay k w reader kind = (s, WayRead.found o) := by
  simp only [State.readWay, hx, hq, h, Bool.false_eq_true, if_false]
  cases o <;> rfl

theorem readWay_corrected (hx : s.way k w = x) (hq : x.quarantined = false) {o : Option Record}
    (h : x.check = (.corrected, o)) (reader : Reader) (kind : MsgKind) : s.readWay k w reader kind
      = ((if x.pin = .none then s.putWay k w { x with written := o, damage := .intact } else s).raise .dirCorrected
          (dirEvent kind k w (.reader reader)), WayRead.found o) := by
  simp only [State.readWay, hx, hq, h, Bool.false_eq_true, if_false]
  cases o <;> rfl

theorem readWay_uncorrectable (hx : s.way k w = x) (hq : x.quarantined = false) {o : Option Record}
    (h : x.check = (.uncorrectable, o)) (reader : Reader) (kind : MsgKind) : s.readWay k w reader kind
      = if x.pin = .none then
          ((s.storeWay k w { x with quarantined := true }).raise .dirUncorrected (dirEvent kind k w (.reader reader)),
            .quarantined)
        else (s.raise .dirUncorrected (dirEvent kind k w (.reader reader)), .unreadable) := by
  simp only [State.readWay, hx, hq, h, Bool.false_eq_true, if_false]

end

/-- The mark on a way: the valid count loses a way that was valid, the quarantined count gains one. -/
theorem storeWay_marked {s : State} {k : SetIdx} {w : WayNo} {x : Way} (hx : s.way k w = x)
    (hq : x.quarantined = false) : s.storeWay k w { x with quarantined := true }
      = { s.putWay k w { x with quarantined := true } with
          dir := { (s.putWay k w { x with quarantined := true }).dir with
            validCount := s.dir.validCount - x.written.isSome.toNat
            quarCount := s.dir.quarCount + 1 } } := by
  have hcounts : (s.putWay k w { x with quarantined := true }).dir.validCount = s.dir.validCount
      ∧ (s.putWay k w { x with quarantined := true }).dir.quarCount = s.dir.quarCount := ⟨rfl, rfl⟩
  simp only [State.storeWay, hx, hq, Way.counted, hcounts, Bool.not_true, Bool.not_false, Bool.and_false, Bool.and_true,
    Bool.toNat_false, Bool.toNat_true, Nat.add_zero, Nat.sub_zero]

/-- Settles O54: the check by the wrong bits, and each result's row of the read. -/
theorem waysAreCheckedAndRead : Obligations.WaysAreCheckedAndRead := by
  refine ⟨fun x => ⟨check_twoBits, ?malformed, fun hwf => ⟨fun h => ?intact, fun h => ?oneBit⟩, wellFormed_iff⟩,
    fun s k w reader kind x hx => ⟨fun hq => readWay_quarantined hx hq reader kind, fun hq => ⟨fun o h => ?clean,
      fun o h hp => ?keptPinned, fun o h hp => ?rewritten, fun o h hp => ?unreadable, fun o h hp => ?marked⟩⟩⟩
  case malformed =>
    rintro q hw hbad (h | h)
    · rw [check_intact h, hw, formed_malformed hbad]
    · rw [check_oneBit h, hw, formed_malformed hbad]
  case intact => rw [check_intact h, formed_wellFormed hwf]
  case oneBit => rw [check_oneBit h, formed_wellFormed hwf]
  case clean => rw [readWay_clean hx hq h]; cases o <;> rfl
  case keptPinned => rw [readWay_corrected hx hq h, if_neg hp]; cases o <;> rfl
  case rewritten => rw [readWay_corrected hx hq h, if_pos hp]; cases o <;> rfl
  case unreadable => rw [readWay_uncorrectable hx hq h, if_neg hp]; rfl
  case marked => rw [readWay_uncorrectable hx hq h, if_pos hp, storeWay_marked hx hq]; rfl

/-! ## The full write of a way -/

/-- What a write of a malformed record stores: VACANT; a malformed HELD record is told. -/
theorem normalWrite_malformed {q : Record} (h : q.wellFormed = false) :
    normalWrite (some q) = (none, decide (q.state = .held)) := by
  cases hs : q.state with
  | shared =>
    have hempty : q.sharers = 0 := by simpa [Record.wellFormed, hs] using h
    simp [normalWrite, hs, hempty]
  | held =>
    have hmany : (NodeSet.members q.sharers).length ≠ 1 := by simpa [Record.wellFormed, hs] using h
    simp [normalWrite, hs, hmany]

/-- A malformed HELD record, the one whose write raises an event. -/
theorem normalWrite_told {r : Option Record} : (normalWrite r).2 = true ↔
    ∃ q, r = some q ∧ q.wellFormed = false ∧ q.state = .held := by
  cases r with
  | none => simp [normalWrite]
  | some q =>
    cases hq : q.wellFormed with
    | true => simp [normalWrite_wellFormed hq, hq]
    | false => simp [normalWrite_malformed hq, hq]

/-- A full write stores the record, or VACANT, and may raise the event of a malformed write. -/
theorem writeWay_eq (s : State) (k : SetIdx) (w : WayNo) (r : Option Record) (kind : MsgKind) :
    s.writeWay k w r kind =
      (if (normalWrite r).2 then
        (s.storeWay k w { s.way k w with written := (normalWrite r).1, damage := .intact, quarantined := false }).raise
          .dirUncorrected (dirEvent kind k w .malformedWrite)
      else s.storeWay k w
        { s.way k w with written := (normalWrite r).1, damage := .intact, quarantined := false }) := rfl

theorem dirSet_raise (s : State) (c : ErrClass) (r : ErrRec) (k : SetIdx) : (s.raise c r).dirSet k = s.dirSet k := by
  rw [State.dirSet, State.dirSet, raise_status, raise_walker, raise_dir]

/-- The way a full write of a record stores, over the way there was. -/
def Way.rewritten (x : Way) (r : Option Record) : Way :=
  { x with written := (normalWrite r).1, damage := .intact, quarantined := false }

/-- A full write leaves the sets and the counts as the storing of its way does; an event touches neither. -/
theorem writeWay_stores (s : State) (k : SetIdx) (w : WayNo) (r : Option Record) (kind : MsgKind) :
    (s.writeWay k w r kind).dir = (s.storeWay k w ((s.way k w).rewritten r)).dir
    ∧ (s.writeWay k w r kind).dirSet = (s.storeWay k w ((s.way k w).rewritten r)).dirSet := by
  rw [writeWay_eq]
  split
  · exact ⟨raise_dir _ _ _, funext fun j => dirSet_raise _ _ _ j⟩
  · exact ⟨rfl, rfl⟩

/-- A write that is no malformed HELD record raises no event. -/
theorem writeWay_quiet {s : State} {k : SetIdx} {w : WayNo} {r : Option Record} {kind : MsgKind}
    (h : (normalWrite r).2 = false) :
    (s.writeWay k w r kind).errors = s.errors ∧ (s.writeWay k w r kind).nodes = s.nodes := by
  rw [writeWay_eq, h]
  exact ⟨rfl, rfl⟩

/-- A malformed HELD record raises the event of a malformed write (R2). -/
theorem writeWay_malformed {s : State} {k : SetIdx} {w : WayNo} {r : Option Record} {kind : MsgKind}
    (h : (normalWrite r).2 = true) : (s.writeWay k w r kind).errors = tset s.errors 6
      ((s.cls 6).capture { kind := some kind, place := some (.way k w), detail := some .malformedWrite }) := by
  rw [writeWay_eq, h, if_pos rfl, raise_errors]
  rfl

/-! ## Recency -/

/-- The way that becomes the most recent leaves its place in an order that lists it once. -/
theorem recent_split {before after : List WayNo} {w : WayNo} (h : (before ++ w :: after).Nodup) :
    recent (before ++ w :: after) w = before ++ after ++ [w] := by
  obtain ⟨hbefore, hafter⟩ : w ∉ before ∧ w ∉ after := by
    simp only [List.nodup_append, List.nodup_cons, List.mem_cons] at h
    obtain ⟨-, ⟨hafter, -⟩, hdisjoint⟩ := h
    exact ⟨fun hw => hdisjoint w hw w (.inl rfl) rfl, hafter⟩
  have hkeep : ∀ L : List WayNo, w ∉ L → L.filter (· ≠ w) = L := fun L hL =>
    List.filter_eq_self.2 fun v hv => by simp only [ne_eq, decide_eq_true_eq]; rintro rfl; exact hL hv
  rw [recent, List.filter_append, List.filter_cons, hkeep _ hbefore, hkeep _ hafter]
  simp

/-- Settles O55: the record stored, the event of a malformed one, the rest of the set and the counts; and the order
with a way made the most recent. -/
theorem waysAreWrittenWholeAndMadeRecent : Obligations.WaysAreWrittenWholeAndMadeRecent := by
  refine ⟨fun s k w r kind hready hwf hvalid hquar => ?_, fun before after w hperm =>
    ⟨recent_split (hperm.nodup_iff.2 (by decide)), recent_ordered hperm w⟩⟩
  intro t stored
  obtain ⟨hdir, hsets⟩ : t.dir = (s.storeWay k w ((s.way k w).rewritten r)).dir
      ∧ t.dirSet = (s.storeWay k w ((s.way k w).rewritten r)).dirSet := writeWay_stores s k w r kind
  have hset : ∀ j, t.dirSet j
      = if k = j then { s.dirSet k with ways := tset (s.dirSet k).ways w ((s.way k w).rewritten r) } else s.dirSet j :=
    fun j => by rw [hsets]; exact dirSet_storeWay hready hwf k j w _
  have hway : ∀ v, t.way k v = if w = v then (s.way k w).rewritten r else s.way k v := fun v => by
    rw [State.way, hsets]; exact way_storeWay hready hwf k w v _
  have hstored : t.way k w = (s.way k w).rewritten r := by rw [hway, if_pos rfl]
  have hstores : ∀ o, (normalWrite r).1 = o → stored o := fun o ho => hstored.trans (by rw [Way.rewritten, ho])
  refine ⟨fun q hr hq => ?whole, fun hr => ?vacant, fun q hr hq => ?malformed, fun q hr hq hheld => ?told,
    fun hquiet => ?untold, fun v hv => ?otherWays, fun j hj => ?otherSets, ?order, ?valid, ?quar⟩
  case whole => exact hstores _ (by rw [hr, normalWrite_wellFormed hq])
  case vacant => exact hstores _ (by rw [hr]; rfl)
  case malformed => exact hstores _ (by rw [hr, normalWrite_malformed hq])
  case told => exact writeWay_malformed (normalWrite_told.2 ⟨q, hr, hq, hheld⟩)
  case untold =>
    refine writeWay_quiet (Bool.eq_false_iff.2 fun htold => ?_)
    obtain ⟨q, hr, hbad, hheld⟩ := normalWrite_told.1 htold
    rcases hquiet q hr with hgood | hshared
    · rw [hbad] at hgood; exact Bool.false_ne_true hgood
    · rw [hheld] at hshared; cases hshared
  case otherWays => rw [hway, if_neg hv.symm]
  case otherSets => rw [hset, if_neg hj.symm]
  case order => rw [hset, if_pos rfl]
  case valid =>
    have hcount : t.dir.validCount
        = s.dir.validCount + ((s.way k w).rewritten r).counted.toNat - (s.way k w).counted.toNat := by rw [hdir]; rfl
    rw [hcount, hstored]
    omega
  case quar =>
    rw [hdir]
    rfl

end Sys2Proof.Machine

/-! The loss of a node: by its link, by a timer, and by FORCE-LOST (chapters 2, 9 and 12, R142). -/

namespace Sys2Proof.Machine

/-! ## Link loss -/

/-- The state in which a node whose partner is gone is lost: its presence withdrawn and the LINK event raised. -/
def State.partnerTold (s : State) (us : List DirUpset) (n : NodeId) : State :=
  ((s.damaged us).modNode n (fun x => { x with presence := false })).raise .link (linkEvent n .partnerGone)

theorem partnerTold_eq (s : State) (us : List DirUpset) (n : NodeId) : s.partnerTold us n
    = { s.damaged us with nodes := tset s.nodes n { s.node n with presence := false } }.raise .link
      { node := some n, detail := some (.link .partnerGone) } := by
  rw [State.partnerTold, modNode_damaged]
  rfl

theorem exec_partnerGone_up {s : State} {n : NodeId} (h : (s.node n).link = .active ∨ (s.node n).link = .retraining)
    (us : List DirUpset) :
    exec (.partnerGone n us) s = settle ((Work.of (s.partnerTold us n)).loseNode n .partnerGone) := by
  change execPartnerGone n us s = _
  rcases h with h | h <;> simp only [execPartnerGone, node_modNode_same, node_damaged, h, State.partnerTold]

theorem exec_relinkExpired {s : State} {n : NodeId} (hl : (s.node n).link = .retraining)
    (ht : (s.node n).relinkTimer = some 0) (us : List DirUpset) : exec (.relinkExpired n us) s
      = settle ((Work.of ((s.damaged us).raise .link (linkEvent n .relinkExpired))).loseNode n .relinkExpired) := by
  change execRelinkExpired n us s = _
  simp only [execRelinkExpired, node_damaged, hl, ht, and_self, if_true]

section
variable (s : State) (us : List DirUpset) (n : NodeId)

/-- The withdrawal of the presence signal and its event leave the table, the pool's operations, the way-wait list and
the directory as they are. -/
theorem partnerTold_entries : (s.partnerTold us n).entries = s.entries := by
  rw [State.partnerTold, raise_entries]; exact damaged_entries s us

theorem partnerTold_poolQueue : (s.partnerTold us n).poolQueue = s.poolQueue := by
  rw [State.partnerTold, raise_poolQueue]; exact damaged_poolQueue s us

theorem partnerTold_issueWait : (s.partnerTold us n).issueWait = s.issueWait := by
  rw [State.partnerTold, raise_issueWait]; exact damaged_issueWait s us

theorem partnerTold_wayWait : (s.partnerTold us n).wayWait = s.wayWait := by
  rw [State.partnerTold, raise_wayWait]; exact damaged_wayWait s us

theorem partnerTold_dir : (s.partnerTold us n).dir = (s.damaged us).dir := by
  rw [State.partnerTold, raise_dir]; rfl

theorem partnerTold_status : (s.partnerTold us n).status = s.status := by
  rw [State.partnerTold, raise_status]; exact damaged_status s us

theorem partnerTold_entry (e : EntryId) : (s.partnerTold us n).entry e = s.entry e := by
  rw [State.entry, partnerTold_entries]; rfl

theorem partnerTold_membership : ((s.partnerTold us n).node n).membership = (s.node n).membership := by
  rw [State.partnerTold, raise_membership]
  rw [node_modNode_same, node_damaged]

end

/-- A MEMBER or LEAVING node whose presence signal is withdrawn still is. -/
theorem partnerTold_joined {s : State} {n : NodeId}
    (h : (s.node n).membership = .member ∨ (s.node n).membership = .leaving) (us : List DirUpset) :
    ((s.partnerTold us n).node n).joined = true := joined_of (by rwa [partnerTold_membership])

/-- The members of a set read with the same storage in a READY hub. -/
theorem dirSet_of_dir {s t : State} (hr : s.status = .ready) (status : t.status = s.status) (dir : t.dir = s.dir)
    (k : SetIdx) : t.dirSet k = s.dirSet k := by
  rw [dirSet_ready hr, dirSet_ready (status.trans hr), dir]

/-- Settles O10: the loss with no entry concerned; with a QUEUED one; and with one in WAYWAIT, without a successor and
with one that is BLOCKED. -/
theorem linkLossLosesTheNode : Obligations.LinkLossLosesTheNode := by
  refine ⟨fun s n us hm hnone => ⟨fun hl => ?gone, fun hl ht => ?expired⟩, ?concerned⟩
  case gone =>
    obtain ⟨t, ht, hlost, hentries, hqueue, hwait⟩ := settle_lose_plain (s.partnerTold us n) n .partnerGone
      (partnerTold_joined hm us) (fun e => by rw [partnerTold_entry]; exact hnone e)
    rw [partnerTold_eq] at hlost
    exact ⟨t, (exec_partnerGone_up hl us).trans ht, hlost, hentries.trans (partnerTold_entries s us n),
      hqueue.trans (partnerTold_poolQueue s us n), hwait.trans (partnerTold_issueWait s us n)⟩
  case expired =>
    obtain ⟨t, hrun, hlost, hentries, hqueue, hwait⟩ := settle_lose_plain
      ((s.damaged us).raise .link (linkEvent n .relinkExpired)) n .relinkExpired
      (joined_of (by rw [raise_membership, node_damaged]; exact hm))
      (fun e => by rw [entry_raise, entry_damaged]; exact hnone e)
    refine ⟨t, (exec_relinkExpired hl ht us).trans hrun, hlost, ?_, ?_, ?_⟩
    · rw [hentries, raise_entries, damaged_entries]
    · rw [hqueue, raise_poolQueue, damaged_poolQueue]
    · rw [hwait, raise_issueWait, damaged_issueWait]
  intro s n us e r hm hl others he hcls hfrom told lost
  have htold : told = s.partnerTold us n := (partnerTold_eq s us n).symm
  have hothers : ∀ f, f ≠ e → (told.entry f).unconcerned n ∧ (told.entry f).standing := fun f hf => by
    rw [htold, partnerTold_entry]; exact others f hf
  have hentry : told.entry e = r := by rw [htold, partnerTold_entry, he]
  have hisFrom : r.isFrom n = true := (isFrom_iff r n).2 hfrom
  have hjoined : (told.node n).joined = true := by rw [htold]; exact partnerTold_joined hm us
  have hrun : exec (.partnerGone n us) s = settle ((Work.of told).loseNode n .partnerGone) := by
    rw [htold]; exact exec_partnerGone_up hl us
  have hqueued : told.poolQueue = s.poolQueue := by rw [htold, partnerTold_poolQueue]
  have hwaits : told.issueWait = s.issueWait := by rw [htold, partnerTold_issueWait]
  refine ⟨fun p hph _ hpred => ?queued, fun hph => ?waiting⟩
  case queued =>
    obtain ⟨t, hsettle, hlost, hentries, hqueue, hwait⟩ := settle_lose_queued (c := .partnerGone) (p := p) hjoined
      hothers hentry hcls hisFrom hph (fun g => by rw [htold, partnerTold_entry]; exact hpred g)
    refine ⟨t, hrun.trans hsettle, hlost, ?_, hqueue.trans hqueued, hwait.trans hwaits⟩
    rw [hentries, htold, partnerTold_entries, partnerTold_entry]
  intro served rest bare honly
  have hbare : told.bare e = bare := by
    refine table_ext fun g => ?_
    rw [tget_bare, htold, partnerTold_entry]
    change _ = tget (Vector.ofFn _) g
    rw [tget_ofFn]
    rfl
  have hrest : told.waitWithout e = rest := by rw [State.waitWithout, htold, partnerTold_wayWait]
  have honly' : ∀ a b, (told.entry a).serves e = true → (told.entry b).serves e = true → a = b := fun a b ha hb => by
    rw [htold, partnerTold_entry] at ha hb
    exact honly a b ha hb
  have hline : ∀ m ∈ rest, (tget bare m.entry).line = (s.entry m.entry).line := fun m hmem => by
    have hne : m.entry ≠ e := by simpa using (List.mem_filter.1 hmem).2
    rw [← hbare, tget_bare, if_neg hne, htold, partnerTold_entry]
    split <;> rfl
  have hstands : ∀ f, (tget bare f).standing := fun f => by rw [← hbare]; exact (bare_holds hothers f).2
  have conclude : ∀ (W : List Member) (E : Vector Entry 48), (∃ t, settle ((Work.of told).loseNode n .partnerGone) = .next t
      ∧ LostIn { told with wayWait := W } t n .partnerGone ∧ t.entries = E ∧ t.poolQueue = told.poolQueue
      ∧ t.issueWait = told.issueWait) → lost { told with wayWait := W } E := by
    rintro W E ⟨t, hsettle, hlost, hentries, hqueue, hwait⟩
    exact ⟨t, hrun.trans hsettle, hlost, hentries, hqueue.trans hqueued, hwait.trans hwaits⟩
  refine ⟨fun hs hbehind => ?alone, fun f y k hs hfe hy hyph hyl hk hready => ?heir⟩
  case alone =>
    refine conclude rest bare (settle_lose_waiting hjoined hothers hentry hcls hisFrom hph honly'
      (.inl ⟨hs, hrest.symm, hbare.symm⟩) hstands fun m hmem _ hset => hbehind m hmem ?_)
    rwa [hline m hmem] at hset
  intro set u hclear hben hsound hmiss hnotall hnoway
  refine conclude (rest ++ [⟨f, .blocked⟩]) (tset bare f { y with phase := .wayWait, kind := k, snapshot := some .miss })
    (settle_lose_waiting hjoined hothers hentry hcls hisFrom hph honly'
    (.inr ⟨f, hs, fun z hz hzw hzd hzs ns => ?activates⟩) (fun g => ?standing) fun m hmem hseek hset => ?behind)
  case standing =>
    by_cases hg : f = g
    · rw [hg, tget_tset_same]
      exact ⟨nofun, nofun⟩
    · rw [tget_tset_ne _ _ hg]
      exact hstands g
  case behind =>
    rcases List.mem_append.1 hmem with hold | hnew
    · obtain ⟨hmf, hfree⟩ := hclear m hold
      rw [tget_tset_ne _ _ (Ne.symm hmf), hline m hold] at hset
      exact absurd hset (hfree hseek)
    · obtain rfl := List.mem_singleton.1 hnew
      simp
  case activates =>
    have hzset : z.dirSet set = u.dirSet set := by
      refine dirSet_of_dir (s := u) ((damaged_status s us).trans hready) ?_ ?_ set
      · rw [hzs, htold, partnerTold_status]; exact (damaged_status s us).symm
      · rw [hzd, htold, partnerTold_dir]
    have hway : ∀ v, z.way set v = u.way set v := fun v => by rw [State.way, hzset]; rfl
    have hzentry : ∀ g, g ≠ e → z.entry g = if (s.entry g).serves e then { s.entry g with beneficiary := none }
        else s.entry g := fun g hg => by rw [State.entry, hz, tget_bare, if_neg hg, htold, partnerTold_entry]
    have hzf : z.entry f = y := by
      have hserve : y.serves e = false := by rcases hk with ⟨h, -⟩ | ⟨h | h, -⟩ <;> simp [Entry.serves, h]
      rw [hzentry f hfe, hy, hserve]
      rfl
    have hzmem : ∀ m ∈ z.wayWait, m ∈ rest := fun m hmem => by rwa [hzw, hrest] at hmem
    have hset : LineAddr.set y.line = set := by rw [hyl]
    rw [activate_blocked hzf hk (fun m hmem => (hclear m (hzmem m hmem)).1) ?seeks ?served (by rwa [hset, hzset])
      (by rwa [hset, hzset, hyl]) (by simpa only [hset, hway] using hnotall)
      (fun v => by rw [hset, hway]; exact (hnoway v).1) (fun v => by rw [hset, hway]; exact (hnoway v).2), hz, hbare,
      hzw, hrest]
    case seeks =>
      intro m hmem hseek
      rw [hset, State.setOf, State.entry, hz, hbare, hline m (hzmem m hmem)]
      exact (hclear m (hzmem m hmem)).2 hseek
    case served =>
      intro g hphase hkind
      by_cases hg : g = e
      · rw [hg, State.entry, hz, tget_bare, if_pos rfl] at hphase
        exact absurd rfl hphase
      · rw [hzentry g hg] at hphase hkind ⊢
        cases hserve : (s.entry g).serves e with
        | true => simp
        | false =>
          rw [hserve] at hphase hkind
          exact hben g hphase hkind

end Sys2Proof.Machine

/-! The end of GATHER in the common form of one entry's work (R25, R62), and the parts of a loss that concern one
entry (R38, R143, R145). -/

namespace Sys2Proof.Machine

/-! ## The end of GATHER -/

/-- The pool write an entry owes as it enters FINISH, issued. -/
def State.writeOwed (s : State) (e : EntryId) : Option Buffer → State
  | some b => s.issueWrite e b
  | none => s

/-- An entry past GATHER, its outcome fixed. -/
def Entry.finished (x : Entry) (promote : Bool) : Entry :=
  { x with outcome := x.fixedOutcome promote, phase := .finish }

theorem queueReply_orphan {s : State} {e : EntryId} (h : (s.entry e).orphaned = true) : s.queueReply e = s := if_pos h

theorem queueReply_none {s : State} {e : EntryId} {x : Entry} (hx : s.entry e = x) (h : x.reply e s.promote = none) :
    s.queueReply e = s := by
  cases ho : x.orphaned <;> simp only [State.queueReply, hx, ho, h, Bool.false_eq_true, if_true, if_false]

theorem queueReply_some {s : State} {e : EntryId} {x : Entry} {m : OutMsg} (hx : s.entry e = x)
    (ho : x.orphaned = false) (h : x.reply e s.promote = some m) : s.queueReply e = if m.isGrant then
      (s.send x.originNode m).modEntry e (fun x => { x with confirm := .awaited x.originNode })
    else s.send x.originNode m := by
  simp only [State.queueReply, hx, ho, h, Bool.false_eq_true, if_false]

/-- GATHER ends with the outcome, the reply, and FINISH with its pool write (R25). -/
theorem endGather_eq {s z : State} {e : EntryId} {y : Entry}
    (hz : (s.modEntry e (fun x => { x with outcome := x.fixedOutcome s.promote })).queueReply e = z)
    (hy : z.entry e = y) :
    s.endGather e = (z.setEntry e { y with phase := .finish }).writeOwed e y.finishWrite := by
  have hkeeps : ({ y with phase := .finish } : Entry).finishWrite = y.finishWrite := rfl
  simp only [State.endGather, hz, entry_modEntry_same, hy, hkeeps]
  simp only [State.modEntry, hy]
  cases y.finishWrite <;> rfl

section
variable {d : State} {ns : Vector Node 4} {es : Vector Entry 48} {e : EntryId} {X : Entry} {q : List PoolOp}

/-- GATHER ends with no reply: of an orphan, or where none is due. -/
theorem form_endGather_silent (h : X.orphaned = true ∨ X.reply e d.promote = none) :
    (State.form d ns es e X q).endGather e
      = (State.form d ns es e (X.finished d.promote) q).writeOwed e X.finishWrite := by
  have hquiet : (State.form d ns es e { X with outcome := X.fixedOutcome d.promote } q).queueReply e
      = State.form d ns es e { X with outcome := X.fixedOutcome d.promote } q := by
    rcases h with h | h
    · exact queueReply_orphan (by rw [form_entry]; exact h)
    · exact queueReply_none (form_entry ..) h
  rw [endGather_eq (by rw [form_mod]; exact hquiet) (form_entry ..), form_setEntry]
  rfl

/-- GATHER ends with a reply: it joins the origin's queue, and a grant's CONFIRM is awaited. -/
theorem form_endGather_reply {m : OutMsg} (ho : X.orphaned = false) (hr : X.reply e d.promote = some m)
    (hl : (tget ns X.originNode).link ≠ .down) : (State.form d ns es e X q).endGather e
      = (State.form d (tset ns X.originNode { tget ns X.originNode with outQ := (tget ns X.originNode).outQ ++ [m] }) es e
          { X.finished d.promote with confirm := if m.isGrant then .awaited X.originNode else X.confirm } q).writeOwed e
          X.finishWrite := by
  have hsent : (State.form d ns es e { X with outcome := X.fixedOutcome d.promote } q).queueReply e
      = State.form d (tset ns X.originNode { tget ns X.originNode with outQ := (tget ns X.originNode).outQ ++ [m] }) es e
          { X with outcome := X.fixedOutcome d.promote
                   confirm := if m.isGrant then .awaited X.originNode else X.confirm } q := by
    rw [queueReply_some (x := { X with outcome := X.fixedOutcome d.promote }) (form_entry ..) ho hr, form_send _ _ _ _ _ _ _ _ (by exact hl)]
    cases m.isGrant
    · rfl
    · rw [if_pos rfl, form_mod]
      rfl
  rw [endGather_eq (by rw [form_mod]; exact hsent) (form_entry ..), form_setEntry]
  rfl

theorem form_writeOwed {b : Buffer} (hq : q.length < 32) (hw : d.issueWait = []) :
    (State.form d ns es e X q).writeOwed e (some b)
      = State.form d ns es e { X with poolOp := .writeOut } (q ++ [⟨.entry e, X.line, some b⟩]) :=
  form_issueWrite _ _ _ _ _ _ _ hq hw

end

/-! ## What a phase waits for -/

/-- GATHER is over when every probe is answered, no pool operation stands and no return is awaited (R25). -/
theorem gatherDone_iff (x : Entry) : x.gatherDone = true ↔
    (∀ k, (x.probe k).unanswered = false) ∧ x.poolOp = .none ∧ x.awaited = none := by
  simp only [Entry.gatherDone, Bool.and_eq_true, decide_eq_true_eq, all_nodes, Bool.not_eq_true', and_assoc]

/-- FINISH is over when no CONFIRM is awaited, no pool operation stands and no straggler is waited for (R25). -/
theorem finishDone_iff (x : Entry) : x.finishDone = true ↔
    (∀ n, x.confirm ≠ .awaited n) ∧ x.poolOp = .none ∧ ∀ k, (x.probe k).straggling = false := by
  simp only [Entry.finishDone, Bool.and_eq_true, decide_eq_true_eq, all_nodes, Bool.not_eq_true', and_assoc]
  cases x.confirm <;> simp

/-! ## A node's records in one entry -/

section
variable {g : State} {n : NodeId} {e : EntryId} {x : Entry} {p : Probe}

theorem setEntry_self (hx : g.entry e = x) : g.setEntry e x = g := by
  rw [← hx]
  exact (form_eq e g).symm

/-- An unanswered PROBE-DROP takes its LOST answer, which asks nothing of the entry (R145). -/
theorem probeLost_drop (hx : g.entry e = x) (hp : x.probe n = p) (hu : p.unanswered = true) (hk : p.kind = some .drop) :
    State.probeLost n g e = g.setEntry e (x.setProbe n { p with status := .lost, timer := .stopped }) := by
  simp only [State.probeLost, State.modEntry, hx, hp, hu, hk, if_true]
  rfl

/-- A straggler wait ends (R38). -/
theorem probeLost_straggler (hx : g.entry e = x) (hp : x.probe n = p) (hu : p.unanswered = false)
    (hs : p.straggling = true) :
    State.probeLost n g e = g.setEntry e (x.setProbe n { p with timer := .stopped, waitEnded := true }) := by
  simp only [State.probeLost, State.modEntry, hx, hp, hu, hs, Bool.false_eq_true, if_false, if_true]

theorem probeLost_of_none (hx : g.entry e = x) (hu : (x.probe n).unanswered = false)
    (hs : (x.probe n).straggling = false) : State.probeLost n g e = g := by
  simp only [State.probeLost, hx, hu, hs, Bool.false_eq_true, if_false]

theorem waitLost_of_ne (hx : g.entry e = x) (h : x.awaited ≠ some n) : State.waitLost n g e = g := by
  simp only [State.waitLost, hx, h, if_false]

/-- A return awaited from the lost node ends in 64 zero bytes of poison (R145). -/
theorem waitLost_awaited (hx : g.entry e = x) (h : x.awaited = some n) : State.waitLost n g e = g.setEntry e { x with
    awaited := none, returnTimer := .stopped, buffer := some ⟨0, true⟩, poolStale := true, settledByLoss := true } := by
  simp only [State.waitLost, hx, h, if_true, State.settleLost, State.takeData, modEntry_modEntry_same]
  rw [State.modEntry, hx]

theorem aimedLost_of_phase (hx : g.entry e = x) (h : x.phase ≠ .free) :
    State.aimedLost n g e = State.waitLost n (State.probeLost n g e) e := by
  rw [State.aimedLost, hx, if_pos ((inUse_iff x).2 h)]

/-- An entry of another origin is not orphaned. -/
theorem orphan_of_other (hx : g.entry e = x) (h : x.isFrom n = false) : State.orphan n g e = g := by
  simp only [State.orphan, Entry.orphans, hx, h, Bool.false_and, Bool.false_eq_true, if_false]

/-- An orphan in FINISH whose pool write is out: its confirm is taken as received (R143). -/
theorem orphan_grantee (hx : g.entry e = x) (ho : x.orphans n = true) (hp : x.phase = .finish) (hop : x.poolOp ≠ .none)
    (hc : x.confirm = .awaited n) : State.orphan n g e
      = g.setEntry e { x with orphaned := true, confirm := .received, confirmTimer := .stopped } := by
  have hgather : ¬(x.kind.coherent = true ∧ x.phase = .gather ∧ x.poolOp = .waiting) := by simp [hp]
  have hwrite : ¬(x.phase = .finish ∧ x.poolStale = true ∧ x.poolOp = .none) := by simp [hop]
  simp only [State.orphan, hx, ho, if_true, entry_modEntry_same, hgather, hwrite, if_false]
  rw [State.modEntry, hx, hc, if_pos rfl]

theorem requestIn_of_phase {ph : Phase} (h : x.phase ≠ ph) : x.requestIn n ph = false := by
  simp [Entry.requestIn, h]

theorem requestIn_of_other {ph : Phase} (h : x.isFrom n = false) : x.requestIn n ph = false := by
  simp [Entry.requestIn, h]

theorem standing_of_gather (hp : x.phase = .gather) (hd : x.gatherDone = false) : x.standing :=
  ⟨fun _ => hd, fun h => absurd (hp.symm.trans h) (by simp)⟩

theorem standing_of_finish (hp : x.phase = .finish) (hd : x.finishDone = false) : x.standing :=
  ⟨fun h => absurd (hp.symm.trans h) (by simp), fun _ => hd⟩

end

/-- A loss that concerns one entry, orphaned as Y and then settled as X, which stands. -/
theorem settle_lose_one {s : State} {n : NodeId} {c : LossCause} {us : List DirUpset} {e : EntryId} {Y X : Entry}
    (hm : (s.node n).membership = .member ∨ (s.node n).membership = .leaving)
    (others : ∀ f, f ≠ e → (s.entry f).unconcerned n ∧ (s.entry f).standing)
    (hph : (s.entry e).phase = .gather ∨ (s.entry e).phase = .finish) (hX : X.standing)
    (horphan : ∀ g : State, g.entry e = s.entry e → State.orphan n g e = g.setEntry e Y)
    (haimed : ∀ g : State, g.entry e = Y → State.aimedLost n g e = g.setEntry e X) :
    ∃ t, settle ((Work.of (s.damaged us)).loseNode n c) = .next t ∧ LostIn (s.damaged us) t n c
      ∧ t.poolQueue = s.poolQueue ∧ t.issueWait = s.issueWait ∧ t.entries = tset s.entries e X := by
  have hnot : ∀ ph, ph = .queued ∨ ph = .wayWait → (s.entry e).phase ≠ ph := by
    rintro ph (rfl | rfl) <;> rcases hph with h | h <;> rw [h] <;> simp
  refine finish_lose s n c us e hm others (requestIn_of_phase (hnot _ (.inl rfl)))
    (requestIn_of_phase (hnot _ (.inr rfl))) X hX fun g hg => ⟨g.setEntry e Y, horphan g ?_, ⟨Y, rfl⟩, ?_⟩
  · rw [State.entry, hg]; rfl
  · rw [haimed _ (by rw [setEntry_form, form_entry])]
    simp only [State.setEntry, tset_tset_same]

/-! ## Timers -/

/-- Settles O23. -/
theorem unansweredProbeIsSentAgain : Obligations.UnansweredProbeIsSentAgain := by
  intro s e n us p k hp ht hk ha hsends hl
  have hexec : exec (.probeTimerExpiry e n us) s = .next ((s.damaged us).probeAgain e n k) := by
    change execProbeTimerExpiry e n us s = _
    simp only [execProbeTimerExpiry, entry_damaged, damaged_retries, hp, ht, hk, ha, hsends, and_self, if_true]
  rw [hexec, State.probeAgain, entry_damaged, hp, setEntry_form, damaged_nodes, damaged_entries, form_send _ _ _ _ _ _ _ _ hl]
  rfl

/-- A probe timer that runs out with copies unanswered and no sends left loses the node (R30). -/
theorem exec_probeTimerExpiry_lost {s : State} {e : EntryId} {n : NodeId} {p : Probe} {k : ProbeKind}
    (hp : (s.entry e).probe n = p) (ht : p.timer = .running 0) (hk : p.kind = some k)
    (hspent : ¬(p.answers = 0 ∧ p.sends ≤ s.retries.toNat)) (hlate : p.answers < p.sends) (us : List DirUpset) :
    exec (.probeTimerExpiry e n us) s = settle ((Work.of (s.damaged us)).loseNode n .probeTimeout) := by
  change execProbeTimerExpiry e n us s = _
  simp only [execProbeTimerExpiry, entry_damaged, damaged_retries, hp, ht, hk, hspent, hlate, if_true, if_false]

/-- Settles O24: the LOST answer of an unanswered probe, and the end of a straggler wait. -/
theorem silentNodeIsLost : Obligations.SilentNodeIsLost := by
  intro s e n us p hm hp ht hk hph hop hfrom haw hwait others
  have hlose : ∀ P : Probe, (∀ g : State, g.entry e = s.entry e →
      State.probeLost n g e = g.setEntry e ((s.entry e).setProbe n P)) →
      ∃ t, settle ((Work.of (s.damaged us)).loseNode n .probeTimeout) = .next t
        ∧ LostIn (s.damaged us) t n .probeTimeout ∧ t.poolQueue = s.poolQueue ∧ t.issueWait = s.issueWait
        ∧ t.entries = tset s.entries e ((s.entry e).setProbe n P) := fun P hlost => by
    refine settle_lose_one (Y := s.entry e) hm others (.inl hph)
      (standing_of_gather hph (gatherDone_of_poolOp (by simp [Entry.setProbe, hop])))
      (fun g hg => by rw [orphan_of_other hg hfrom, setEntry_self hg]) fun g hg => ?_
    rw [aimedLost_of_phase hg (by simp [hph]), hlost g hg,
      waitLost_of_ne (x := (s.entry e).setProbe n P) (by rw [setEntry_form, form_entry]) (by simp [Entry.setProbe, haw])]
  refine ⟨fun ha hsends hst => ?silent, fun ha hsends hst => ?straggler⟩
  case silent =>
    rw [exec_probeTimerExpiry_lost hp ht hk (by omega) (by omega)]
    exact hlose _ fun g hg => probeLost_drop hg hp (by simp [Probe.unanswered, hst]) hk
  case straggler =>
    rw [exec_probeTimerExpiry_lost hp ht hk (by omega) hsends]
    exact hlose _ fun g hg => probeLost_straggler hg hp (by simp [Probe.unanswered, hst])
      (by simp [Probe.straggling, hst, hsends, hwait])

/-- Settles O25: the grantee's entry is orphaned with its confirm taken as received, and its write stands. -/
theorem granteeThatDoesNotConfirmIsLost : Obligations.GranteeThatDoesNotConfirmIsLost := by
  intro s e n us hm hph hk hfrom hc ht hop haw hprobes others
  have hexec : exec (.confirmTimerExpiry e us) s
      = settle ((Work.of (s.damaged us)).loseNode n .confirmTimeout) := by
    change execConfirmTimerExpiry e us s = _
    simp only [execConfirmTimerExpiry, entry_damaged, hc, ht]
  have horphans : (s.entry e).orphans n = true := by
    have hcls : (s.entry e).kind.cls = .request := by
      revert hk; cases (s.entry e).kind <;> simp [WorkKind.coherent, WorkKind.cls]
    simp [Entry.orphans, hfrom, hph, hcls]
  rw [hexec]
  refine settle_lose_one (Y := { s.entry e with orphaned := true, confirm := .received, confirmTimer := .stopped }) hm
    others (.inr hph) (standing_of_finish hph (finishDone_of_poolOp (by simp [hop])))
    (fun g hg => ?orphan) fun g hg => ?aimed
  case orphan =>
    exact orphan_grantee hg horphans hph (by simp [hop]) hc
  case aimed =>
    obtain ⟨hun, hst⟩ := hprobes n
    rw [aimedLost_of_phase hg (by simp [hph]), probeLost_of_none hg hun hst, waitLost_of_ne hg (by simp [haw]),
      setEntry_self hg]

/-! ## A return that is not coming -/

/-- After a loss the end of one entry's GATHER is all that is left to do. -/
theorem settle_endChecks_one {s t : State} {e : EntryId} (hp : (s.entry e).phase = .gather)
    (hd : (s.entry e).gatherDone = true) (ht : s.endGather e = t) (hs : ∀ f, f ≠ e → (s.entry f).standing)
    (hstands : ∀ f, (t.entry f).standing) : settle ⟨s, endChecks, []⟩ = .next t := by
  obtain ⟨before, after, hsplit⟩ := List.append_of_mem (mem48 e)
  set checks : EntryId → List Task := fun f => [.checkGather f, .checkFinish f]
  have hchecks : endChecks = before.flatMap checks ++ .checkGather e :: .checkFinish e :: after.flatMap checks := by
    rw [endChecks, hsplit, List.flatMap_append, List.flatMap_cons]
    rfl
  have hlength : (before.flatMap checks).length + (2 + (after.flatMap checks).length) = 96 := by
    have : endChecks.length = 96 := by decide
    rw [hchecks] at this
    simp only [List.length_append, List.length_cons] at this
    omega
  have hbefore : ∀ f ∈ before, f ≠ e := by
    have hnodup := nodup48
    rw [hsplit, List.nodup_append] at hnodup
    rintro f hf rfl
    exact hnodup.2.2 f hf f List.mem_cons_self rfl
  have hidle : ∀ (u : State) (L : List EntryId), (∀ f ∈ L, (u.entry f).standing) → ∀ k ∈ L.flatMap checks, k.idle u :=
    fun u L hL k hk => by
      obtain ⟨f, hf, hkf⟩ := List.mem_flatMap.1 hk
      obtain ⟨hg, hfin⟩ := idle_checks (hL f hf)
      simp only [checks, List.mem_cons, List.not_mem_nil, or_false] at hkf
      rcases hkf with rfl | rfl
      · exact hg
      · exact hfin
  have htail : ∀ k ∈ Task.checkFinish e :: .checkFinish e :: after.flatMap checks, k.idle t := by
    simp only [List.mem_cons]
    rintro k (rfl | rfl | hk)
    · exact (idle_checks (hstands e)).2
    · exact (idle_checks (hstands e)).2
    · exact hidle t after (fun f _ => hstands f) k hk
  refine settle_eq (fuel := 0 + (Task.checkFinish e :: .checkFinish e :: after.flatMap checks).length + 1
    + (before.flatMap checks).length) (by simp only [List.length_cons]; show _ ≤ 100000; omega) ?_
  rw [hchecks, run_idle (hidle s before fun f hf => hs f (hbefore f hf)), run_endGather hp hd, ht]
  have := run_idle htail 0 [] []
  rwa [List.append_nil, run_rest] at this

/-- A record of a lost node touches the walker alone. -/
theorem recordLoss_keeps (z : State) (n : NodeId) : (z.recordLoss n).nodes = z.nodes
    ∧ (z.recordLoss n).entries = z.entries ∧ (z.recordLoss n).poolQueue = z.poolQueue
    ∧ (z.recordLoss n).issueWait = z.issueWait := by
  have h := recordLoss_rest z n
  exact ⟨(congrArg State.nodes h :), (congrArg State.entries h :), (congrArg State.poolQueue h :), (congrArg State.issueWait h :)⟩

/-- Settles O26: the awaited FLUSH settles with poison, and its GATHER ends with the poison write out. -/
theorem awaitedReturnEndsInLoss : Obligations.AwaitedReturnEndsInLoss := by
  intro s e n us T hm hph hk hsnap hfrom haw ht hop horph hprobes hst others hport
  set u := s.damaged us with hu
  set g := u.nodeGone n .returnTimeout with hg
  set d := g.recordLoss n with hd
  set X : Entry := { s.entry e with
    awaited := none, returnTimer := .stopped, buffer := some ⟨0, true⟩, poolStale := true, settledByLoss := true } with hX
  have hexec : exec (.returnWaitExpiry e us) s = settle ((Work.of u).loseNode n .returnTimeout) := by
    change execReturnWaitExpiry e us s = _
    simp only [execReturnWaitExpiry, entry_damaged, haw, ht]
    rfl
  have hgentries : g.entries = s.entries := (gone_entries ..).trans (damaged_entries s us)
  have hgentry : ∀ f, g.entry f = s.entry f := fun f => by rw [State.entry, hgentries]; rfl
  obtain ⟨hdnodes, hdentries, hdqueue, hdwait⟩ := recordLoss_keeps g n
  have hqueue : d.poolQueue = s.poolQueue := (hdqueue.trans (gone_misc ..).1).trans (damaged_poolQueue s us)
  have hwait : d.issueWait = [] := ((hdwait.trans (gone_misc ..).2).trans (damaged_issueWait s us)).trans hport.2
  have haimed : State.aimedLost n g e = g.setEntry e X := by
    rw [aimedLost_of_phase (hgentry e) (by simp [hph]), probeLost_of_none (hgentry e) (hprobes n) hst,
      waitLost_awaited (hgentry e) haw]
  have hlost : (Work.of u).loseNode n .returnTimeout
      = ⟨State.form d d.nodes s.entries e X s.poolQueue, endChecks, []⟩ := by
    rw [lose_special (o := g) (a := g.setEntry e X) u n .returnTimeout e (joined_of (by rwa [hu, node_damaged]))
      (fun f hf => by rw [hu, entry_damaged]; exact (others f hf).1) (requestIn_of_other (by rwa [hu, entry_damaged]))
      (requestIn_of_other (by rwa [hu, entry_damaged])) (orphan_of_other (hgentry e) hfrom)
      (fun f _ => by rw [hgentry, hu, entry_damaged]) haimed ?_]
    · have hframe : (g.setEntry e X).recordLoss n = { d with
          entries := tset g.entries e X, poolQueue := g.poolQueue, issueWait := g.issueWait } :=
        recordLoss_frame g n (tset g.entries e X) g.poolQueue g.issueWait
      rw [hframe, hgentries, ← hdqueue, ← hdwait, ← hqueue]
      rfl
    · intro f hf
      rw [hu, entry_damaged, setEntry_form, form_entry_ne _ _ _ _ _ _ hf, hgentries]
      rfl
  set Y : Entry := { X.finished d.promote with poolOp := .writeOut } with hY
  have hend : (State.form d d.nodes s.entries e X s.poolQueue).endGather e
      = State.form d d.nodes s.entries e Y (s.poolQueue ++ [⟨.entry e, X.line, some ⟨0, true⟩⟩]) := by
    have hreply : X.reply e d.promote = none := by simp [Entry.reply, hX, hk, hsnap]
    have hwrite : X.finishWrite = some ⟨0, true⟩ := by simp [Entry.finishWrite, hX, hk, WorkKind.writesStale]
    rw [form_endGather_silent (.inr hreply), hwrite, form_writeOwed hport.1 hwait]
    rfl
  have hother : ∀ {Z q f}, f ≠ e → ((State.form d d.nodes s.entries e Z q).entry f).standing := fun hf => by
    rw [form_entry_ne _ _ _ _ _ _ hf]; exact (others _ hf).2
  have hsettle := settle_endChecks_one (t := State.form d d.nodes s.entries e Y _)
    (by rw [form_entry]; exact hph) (by rw [form_entry]; exact (gatherDone_iff X).2 ⟨hprobes, hop, rfl⟩)
    hend (fun f hf => hother hf) fun f => by
      by_cases hf : f = e
      · rw [hf, form_entry]
        exact standing_of_finish rfl (finishDone_of_poolOp (by simp [hY]))
      · exact hother hf
  refine ⟨State.form d d.nodes s.entries e Y (s.poolQueue ++ [⟨.entry e, X.line, some ⟨0, true⟩⟩]),
    by rw [hexec, hlost]; exact hsettle, ?lost, hwait, rfl, ?entries⟩
  case lost =>
    exact lost_of u n .returnTimeout (tset s.entries e Y) _ d.issueWait
  case entries =>
    have houtcome : X.fixedOutcome d.promote = .vacant := by simp [Entry.fixedOutcome, hX, hk, hsnap]
    change tset s.entries e Y = _
    rw [hY, Entry.finished, houtcome]

end Sys2Proof.Machine

/-! FORCE-LOST (R127, R142, R163). -/

namespace Sys2Proof.Machine

/-- The write of FORCE-LOST is answered DONE, and then its node is lost. -/
theorem exec_forceLost {s : State} {us : List DirUpset} {n m : NodeId} {tag : Tag} {o : Offset} {v : RegValue}
    (hc : (s.damaged us).choice = some (.request n ⟨tag, .configWrite o v⟩)) (hg : regAt o = some (.nodeCommand m))
    (hv : v.getLsbD 1 = true) : exec (.forceLost us) s
      = settle ((Work.of (((s.damaged us).takeRequest n).doneRequest n tag false)).loseNode m .forced) := by
  refine show execForceLost us s = _ from admitRequest_passed hc rfl ?_
  simp only [hg, commandsLoss, hv, if_true]

/-- An answered request leaves the table, the pool's operations and every membership as they are. -/
theorem done_keeps {s u : State} {n : NodeId} {x : Node} (hu : u = { s.takeRequest n with
    nodes := tset (s.takeRequest n).nodes n x }) : u.entries = s.entries ∧ u.poolQueue = s.poolQueue
      ∧ u.issueWait = s.issueWait := by
  subst hu
  exact ⟨rfl, rfl, rfl⟩

theorem takeRequest_membership (s : State) (n m : NodeId) :
    ((s.takeRequest n).node m).membership = (s.node m).membership := by
  rw [node_takeRequest]
  split
  · rename_i h; subst h; rfl
  · split
    · unfold Node.passedOver; split <;> rfl
    · rfl

theorem send_membership (s : State) (n m : NodeId) (x : OutMsg) :
    ((s.send n x).node m).membership = (s.node m).membership := by
  by_cases hdown : (s.node n).link = .down
  · rw [send_down hdown]
  · rw [send_up hdown]
    change (tget (tset s.nodes n _) m).membership = (tget s.nodes m).membership
    by_cases hm : n = m
    · subst hm
      rw [tget_tset_same]
      rfl
    · rw [tget_tset_ne _ _ hm]

/-- A node that is no member is not lost. -/
theorem loseNode_absent {s : State} {m : NodeId} (h : (s.node m).membership = .absent ∨ (s.node m).membership = .lost)
    (c : LossCause) : (Work.of s).loseNode m c = Work.of s := by
  refine if_neg ?_
  change ¬(s.node m).joined = true
  rcases h with h | h <;> simp [Node.joined, h]

/-- Settles O47: a node that is no member is left alone; the loss with no entry concerned, and with one whose waiting
READ is withdrawn. -/
theorem forceLostLosesAMember : Obligations.ForceLostLosesAMember := by
  refine ⟨fun s us n m tag o v => ?_, fun s us n m k tag o v e => ?_⟩
  · intro u hc hg hv taken sent
    have hdone : taken.doneRequest n tag false = sent := doneRequest_takeRequest hc tag false
    have hmember : (sent.node m).membership = (s.node m).membership := by
      rw [← hdone, State.doneRequest, send_membership, takeRequest_membership, node_damaged]
    obtain ⟨hentries, hqueue, hwait⟩ := done_keeps (u := sent) (s := u) rfl
    rw [exec_forceLost hc hg hv, hdone]
    refine ⟨fun habsent => ?absent, fun hjoined hnone => ?member⟩
    case absent => rw [loseNode_absent (by rwa [hmember]), settle_of]
    case member =>
      obtain ⟨t, hrun, hlost, hes, hq, hw⟩ := settle_lose_plain sent m .forced (joined_of (by rwa [hmember]))
        (fun e => by rw [State.entry, hentries, ← State.entry, entry_damaged]; exact hnone e)
      exact ⟨t, hrun, hlost, (hes.trans hentries).trans (damaged_entries s us),
        (hq.trans hqueue).trans (damaged_poolQueue s us), (hw.trans hwait).trans (damaged_issueWait s us)⟩
  · intro u hc hg hv hjoined others hk hph hop hfrom hconf haw hun hst hother taken sent
    have hdone : taken.doneRequest n tag false = sent := doneRequest_takeRequest hc tag false
    have hmember : (sent.node m).membership = (s.node m).membership := by
      rw [← hdone, State.doneRequest, send_membership, takeRequest_membership, node_damaged]
    obtain ⟨hentries, hqueue, hwait⟩ := done_keeps (u := sent) (s := u) rfl
    have hentry : ∀ f, sent.entry f = s.entry f := fun f => by
      rw [State.entry, hentries, ← State.entry, entry_damaged]
    rw [exec_forceLost hc hg hv, hdone]
    obtain ⟨t, hrun, hlost, hq, hw, hes⟩ := lose_withdraw sent m .forced e (joined_of (by rwa [hmember]))
      (fun f hf => by rw [hentry]; exact others f hf) (by rwa [hentry]) (by rwa [hentry]) (by rwa [hentry])
      (by rwa [hentry]) (by rwa [hentry]) (by rwa [hentry]) (by rwa [hentry]) (by rwa [hentry]) k (by rwa [hentry])
    refine ⟨t, hrun, hlost, (hq.trans hqueue).trans (damaged_poolQueue s us), ?_, ?_⟩
    · rw [hw, hwait, damaged_issueWait]
    · rw [hes, hentries, damaged_entries, hentry]

end Sys2Proof.Machine

/-! Answers to probes and the CONFIRM: what is accepted, and what the first answer of a holder brings (R31 to R34, R41
to R43). -/

namespace Sys2Proof.Machine

/-! ## What is heard -/

/-- The state in which an answer is matched: the frame received ends the run of damaged receipts on an ACTIVE link; on a
RETRAINING one it was received before (R37, R129). -/
theorem answerRow_heard {s u : State} {n : NodeId} {m : WireMsg} {us : List DirUpset}
    (hu : ((s.node n).link = .active ∧ u = { s.damaged us with
        nodes := tset s.nodes n { s.node n with damagedCount := 0 } })
      ∨ ((s.node n).link = .retraining ∧ u = s.damaged us)) {k : AnswerKind} (hm : m.answer = some k) :
    (s.damaged us).answerRow n k m = settle (u.matchKind n m k) := by
  rcases hu with ⟨hl, rfl⟩ | ⟨hl, rfl⟩
  · rw [answerRow_eq (by rwa [node_damaged]) hm, State.frameAccepted, modNode_damaged]
  · rw [answerRow_retraining (by rwa [node_damaged]) hm]

theorem heard_entries {s u : State} {n : NodeId} {us : List DirUpset}
    (hu : ((s.node n).link = .active ∧ u = { s.damaged us with
        nodes := tset s.nodes n { s.node n with damagedCount := 0 } })
      ∨ ((s.node n).link = .retraining ∧ u = s.damaged us)) (e : EntryId) : u.entry e = s.entry e := by
  rcases hu with ⟨-, rfl⟩ | ⟨-, rfl⟩ <;> exact entry_damaged s us e

theorem accepts_iff (x : Entry) (n : NodeId) (l : LineAddr) : x.accepts n l = true ↔
    x.phase ≠ .free ∧ x.line = l ∧ ((x.probe n).status = .sent
      ∨ ((x.probe n).status = .queuedOut ∧ 2 ≤ (x.probe n).sends)
      ∨ ((x.probe n).status = .answered ∧ (x.probe n).answers < (x.probe n).sends)) := by
  simp only [Entry.accepts, Bool.and_eq_true, inUse_iff, decide_eq_true_eq, and_assoc]
  cases (x.probe n).status <;> simp

/-- Settles O18. -/
theorem answersAreAcceptedOrDiscarded : Obligations.AnswersAreAcceptedOrDiscarded := by
  refine ⟨accepts_iff, fun s n m us u hu => ?_⟩
  intro answered
  refine ⟨fun hno => ?answers, fun hno hm => ?confirm⟩
  case answers =>
    have hdiscarded : ∀ k : AnswerKind, m.answer = some k → u.matchKind n m k = u.matchAnswer n k m →
        (s.damaged us).answerRow n k m = .next (answered k.msgKind) := fun k hm hmatch => by
      rw [answerRow_heard hu hm, hmatch,
        matchAnswer_discarded (fun e he => by rw [heard_entries hu]; exact hno e he), settle_of]
      rfl
    exact ⟨fun hm => hdiscarded _ hm rfl, fun hm => hdiscarded _ hm rfl, fun hm => hdiscarded _ hm rfl⟩
  case confirm =>
    change (s.damaged us).answerRow n .confirm m = _
    rw [answerRow_heard hu hm]
    change settle (u.matchConfirm n m) = _
    rw [matchConfirm_discarded (fun e he => by rw [heard_entries hu]; exact hno e he), settle_of]

end Sys2Proof.Machine

/-! What a holder's first answer brings to the entry that waits for it (R41 to R43). -/

namespace Sys2Proof.Machine

/-! ## The answer counted -/

/-- A probe record after one more answer (R31, R32). -/
def Probe.counted (p : Probe) : Probe :=
  { p with status := .answered, answers := p.answers + 1
           timer := if p.answers + 1 = p.sends then .stopped else p.timer }

section
variable {d : State} {ns : Vector Node 4} {es : Vector Entry 48} {e : EntryId} {X : Entry} {q : List PoolOp} {M : NodeId}
  {p : Probe} {m : WireMsg} {k : AnswerKind}

/-- A first answer is counted and goes to the work. -/
theorem form_acceptAnswer_first (hp : X.probe M = p) (hst : p.status ≠ .answered) :
    (State.form d ns es e X q).acceptAnswer e M k m
      = (State.form d ns es e (X.setProbe M p.counted) q).firstAnswer e M k m := by
  simp only [State.acceptAnswer, form_entry, form_mod, hp, hst, if_false]
  rfl

/-- A copy's answer is counted, and no more. -/
theorem form_acceptAnswer_copy (hp : X.probe M = p) (hst : p.status = .answered) :
    (State.form d ns es e X q).acceptAnswer e M k m = State.form d ns es e (X.setProbe M p.counted) q := by
  simp only [State.acceptAnswer, form_entry, form_mod, hp, hst, if_true]
  rfl

/-- The holder's data reaches the buffer, and whether it keeps its copy is noted (R42). -/
theorem form_firstAnswer_yieldData (hk : (X.probe M).kind = some .yield) (hm : X.mark M = .none) :
    (State.form d ns es e X q).firstAnswer e M .ackData m = State.form d ns es e { X with
      holderKept := m.keep, buffer := some ⟨m.data, m.poison⟩, poolStale := true } q := by
  simp only [State.firstAnswer, form_entry, hk, hm, ne_eq, not_true_eq_false, decide_false, Bool.false_and,
    Bool.false_eq_true, if_false, if_true, form_mod, State.takeData]

/-- The holder held a clean copy: the pool holds the newest data (R42, R43). -/
theorem form_firstAnswer_yieldClean (hk : (X.probe M).kind = some .yield) (hm : X.mark M = .none) :
    (State.form d ns es e X q).firstAnswer e M .ackClean m
      = (State.form d ns es e { X with holderKept := m.keep } q).settleNoData e := by
  simp only [State.firstAnswer, form_entry, hk, hm, ne_eq, not_true_eq_false, decide_false, Bool.false_and,
    Bool.false_eq_true, if_false, if_true, form_mod]

/-- The holder has nothing: its return is awaited (R43). -/
theorem form_firstAnswer_yieldMiss (hk : (X.probe M).kind = some .yield) (hm : X.mark M = .none) :
    (State.form d ns es e X q).firstAnswer e M .miss m = (State.form d ns es e X q).await e M := by
  simp only [State.firstAnswer, form_entry, hk, hm, ne_eq, not_true_eq_false, decide_false, Bool.false_and,
    Bool.false_eq_true, if_false, State.settleMiss]

/-- A FETCH reads the pool where a holder's part settles without data (R43, R44). -/
theorem form_settleNoData_fetch (hk : X.kind = .fetchS ∨ X.kind = .fetchH) :
    (State.form d ns es e X q).settleNoData e = (State.form d ns es e X q).issueRead e := by
  rcases hk with hk | hk <;> simp only [State.settleNoData, form_entry, hk]

end

/-! ## Running the step -/

/-- The end of one entry's GATHER, and a FINISH that goes on. -/
theorem settle_gatherEnds {z t : State} {e : EntryId} (hp : (z.entry e).phase = .gather)
    (hd : (z.entry e).gatherDone = true) (ht : z.endGather e = t) (hf : (Task.checkFinish e).idle t)
    {more : List Task} (hm : more = [] ∨ more = [.checkFinish e]) :
    settle ⟨z, .checkGather e :: more, []⟩ = .next t := by
  rcases hm with rfl | rfl
  · refine settle_eq (fuel := 2) (by decide) ?_
    rw [run_endGather hp hd, ht]
    exact run_idle_one hf 0
  · refine settle_eq (fuel := 3) (by decide) ?_
    rw [run_endGather hp hd, ht, run_task, hf _ rfl]
    exact run_idle_one hf 0

/-- An entry whose GATHER goes on brings the step to rest. -/
theorem settle_gathers {z : State} {e : EntryId} (hp : (z.entry e).phase = .gather) (hd : (z.entry e).gatherDone = false)
    {more : List Task} (hm : more = [] ∨ more = [.checkFinish e]) : settle ⟨z, .checkGather e :: more, []⟩ = .next z := by
  have hs : (z.entry e).standing := standing_of_gather hp hd
  rcases hm with rfl | rfl
  · exact settle_checkGather hs
  · exact settle_checks hs

theorem originNode_of {x : Entry} {N : NodeId} (h : x.origin.map Origin.node = some N) : x.originNode = N := by
  cases ho : x.origin with
  | none => simp [ho] at h
  | some o => simpa [Entry.originNode, ho] using h

theorem probe_setProbe (x : Entry) (n k : NodeId) (p : Probe) :
    (x.setProbe n p).probe k = if n = k then p else x.probe k := tget_tset _ _ _ _

theorem probe_setProbe_same (x : Entry) (n : NodeId) (p : Probe) : (x.setProbe n p).probe n = p := tget_tset_same _ _ _

/-- Damage to the directory leaves what is not the directory's. -/
theorem damaged_restored (s : State) (us : List DirUpset) :
    { s.damaged us with nodes := s.nodes, entries := s.entries, poolQueue := s.poolQueue } = s.damaged us := by
  rw [← damaged_nodes s us, ← damaged_entries s us, ← damaged_poolQueue s us]

/-! ## A FETCH-S over a line held by another -/

/-- The entry once its one PROBE-YIELD is answered. -/
def Entry.yieldAnswered (x : Entry) (M : NodeId) : Entry :=
  x.setProbe M { x.probe M with status := .answered, answers := 1, timer := .stopped }

theorem kind_yieldAnswered (x : Entry) (M : NodeId) : ((x.yieldAnswered M).probe M).kind = (x.probe M).kind := by
  rw [Entry.yieldAnswered, probe_setProbe_same]

section
variable {s : State} {N M : NodeId} {m : WireMsg} {us : List DirUpset} {e : EntryId} {k : AnswerKind}

/-- The holder's answer is the first, and goes to the entry's work. -/
theorem yieldAnswer_heard {ns : Vector Node 4} (h : WaitsForHolder (s.entry e) N M) (hline : (s.entry e).line = m.line)
    (hns : ((s.node M).link = .active ∧ ns = tset s.nodes M { s.node M with damagedCount := 0 })
      ∨ ((s.node M).link = .retraining ∧ ns = s.nodes)) (hno : m.entryNo = entryCode e) (hm : m.answer = some k)
    (hk : ∀ u : State, u.matchKind M m k = u.matchAnswer M k m) : (s.damaged us).answerRow M k m
      = settle ⟨(State.form (s.damaged us) ns s.entries e ((s.entry e).yieldAnswered M) s.poolQueue).firstAnswer e M k m,
          [.checkGather e, .checkFinish e], []⟩ := by
  obtain ⟨hph, -, -, -, -, -, -, hst, hsends, hanswers, -⟩ := h
  set u : State := State.form (s.damaged us) ns s.entries e (s.entry e) s.poolQueue with hu
  have hheard : (s.damaged us).answerRow M k m = settle (u.matchKind M m k) := by
    refine answerRow_heard ?_ hm
    rcases hns with ⟨hl, rfl⟩ | ⟨hl, rfl⟩
    · exact .inl ⟨hl, by rw [hu, ← frameAccepted_form, State.frameAccepted, modNode_damaged]⟩
    · exact .inr ⟨hl, (form_eq2 e s us).symm⟩
  have hcounted : ((s.entry e).probe M).counted
      = { (s.entry e).probe M with status := .answered, answers := 1, timer := .stopped } := by
    simp [Probe.counted, hsends, hanswers]
  have haccepts : (s.entry e).accepts M m.line = true :=
    (accepts_iff _ _ _).2 ⟨by simp [hph], hline, .inl hst⟩
  rw [hheard, hk, matchAnswer_accepted hno (by rwa [hu, form_entry]), hu,
    form_acceptAnswer_first rfl (by simp [hst]), hcounted]
  rfl

/-- What still stands of the entry's GATHER after the holder's answer: nothing. -/
theorem yieldAnswered_gathered (h : WaitsForHolder (s.entry e) N M) (k : NodeId) :
    (((s.entry e).yieldAnswered M).probe k).unanswered = false := by
  obtain ⟨-, -, -, -, -, -, -, -, -, -, -, -, -, -, hothers⟩ := h
  rw [Entry.yieldAnswered, probe_setProbe]
  split
  · rfl
  · rename_i hk
    exact hothers k (Ne.symm hk)

end

/-- The data that a holder gives goes to the origin with the grant, and to the pool (R48, R59). -/
theorem form_endGather_yieldData {d : State} {ns : Vector Node 4} {es : Vector Entry 48} {e : EntryId} {X : Entry}
    {q : List PoolOp} {N M : NodeId} {b : Buffer} (hk : X.kind = .fetchS)
    (ho : X.origin.map Origin.node = some N) (horph : X.orphaned = false)
    (hsnap : X.snapshot = some (.hit .held (NodeSet.single M))) (hb : X.buffer = some b) (hs : X.poolStale = true)
    (hl : (tget ns N).link ≠ .down) (hq : q.length < 32) (hw : d.issueWait = []) :
    (State.form d ns es e X q).endGather e
      = State.form d (tset ns N { tget ns N with outQ := (tget ns N).outQ ++ [OutMsg.grantS X.originTag e X.line b] }) es e
          { X with outcome := .record .shared (if M ≠ N ∧ X.holderKept then NodeSet.with (NodeSet.single N) M
                     else NodeSet.single N)
                   confirm := .awaited N, phase := .finish, poolOp := .writeOut }
          (q ++ [⟨.entry e, X.line, some b⟩]) := by
  have hN : X.originNode = N := originNode_of ho
  have hreply : X.reply e d.promote = some (.grantS X.originTag e X.line b) := by
    simp only [Entry.reply, hk, hsnap, hb, Option.getD_some]
  have hwrite : X.finishWrite = some b := by simp [Entry.finishWrite, hk, hs, hb, WorkKind.writesStale]
  have houtcome : X.fixedOutcome d.promote = .record .shared (if M ≠ N ∧ X.holderKept then
      NodeSet.with (NodeSet.single N) M else NodeSet.single N) := by
    simp only [Entry.fixedOutcome, hk, hsnap, holder_single, hN]
    split <;> rfl
  rw [form_endGather_reply horph hreply (by rwa [hN]), hwrite, form_writeOwed hq hw, hN, Entry.finished, houtcome]
  rfl

/-- The step of a holder's answer with data: the grant and the pool write are out, and the CONFIRM is awaited. -/
theorem settle_yieldData {d : State} {ns : Vector Node 4} {es : Vector Entry 48} {e : EntryId} {X : Entry}
    {q : List PoolOp} {N M : NodeId} {b : Buffer} (hph : X.phase = .gather) (hk : X.kind = .fetchS)
    (ho : X.origin.map Origin.node = some N) (horph : X.orphaned = false)
    (hsnap : X.snapshot = some (.hit .held (NodeSet.single M))) (hb : X.buffer = some b) (hs : X.poolStale = true)
    (hun : ∀ k, (X.probe k).unanswered = false) (hop : X.poolOp = .none) (haw : X.awaited = none)
    (hl : (tget ns N).link ≠ .down) (hq : q.length < 32) (hw : d.issueWait = []) {more : List Task}
    (hm : more = [] ∨ more = [.checkFinish e]) : settle ⟨State.form d ns es e X q, .checkGather e :: more, []⟩
      = .next (State.form d
          (tset ns N { tget ns N with outQ := (tget ns N).outQ ++ [OutMsg.grantS X.originTag e X.line b] }) es e
          { X with outcome := .record .shared (if M ≠ N ∧ X.holderKept then NodeSet.with (NodeSet.single N) M
                     else NodeSet.single N)
                   confirm := .awaited N, phase := .finish, poolOp := .writeOut }
          (q ++ [⟨.entry e, X.line, some b⟩])) :=
  settle_gatherEnds (by rwa [form_entry]) (by rw [form_entry]; exact (gatherDone_iff X).2 ⟨hun, hop, haw⟩)
    (form_endGather_yieldData hk ho horph hsnap hb hs hl hq hw)
    (idle_checkFinish (.inr (by rw [form_entry]; exact finishDone_of_poolOp (by simp)))) hm

/-- Settles O20. -/
theorem holderGivesDataToFetchS : Obligations.HolderGivesDataToFetchS := by
  intro s N M m us e h hline hlink hup hport hno hm
  have hgathered := yieldAnswered_gathered h
  have hheard := yieldAnswer_heard (us := us) h hline (.inl ⟨hlink, rfl⟩) hno hm (fun _ => rfl)
  obtain ⟨hph, hkind, horigin, horph, hNM, hsnap, hyield, -, -, -, hmark, haw, hop, -, -⟩ := h
  set X : Entry := { (s.entry e).yieldAnswered M with
    holderKept := m.keep, buffer := some ⟨m.data, m.poison⟩, poolStale := true } with hX
  set ns := tset s.nodes M { s.node M with damagedCount := 0 } with hns
  have hN : tget ns N = s.node N := tget_tset_ne _ _ (Ne.symm hNM)
  have hrun : exec (.ackData M m us) s = .next (State.form (s.damaged us)
      (tset ns N { tget ns N with outQ := (tget ns N).outQ ++ [OutMsg.grantS X.originTag e X.line ⟨m.data, m.poison⟩] })
      s.entries e
      { X with outcome := .record .shared (if M ≠ N ∧ X.holderKept then NodeSet.with (NodeSet.single N) M
                 else NodeSet.single N)
               confirm := .awaited N, phase := .finish, poolOp := .writeOut }
      (s.poolQueue ++ [⟨.entry e, X.line, some ⟨m.data, m.poison⟩⟩])) := by
    change (s.damaged us).answerRow M .ackData m = _
    rw [hheard, form_firstAnswer_yieldData (X := (s.entry e).yieldAnswered M)
      ((kind_yieldAnswered _ M).trans hyield) hmark]
    exact settle_yieldData (X := X) hph hkind horigin horph hsnap rfl rfl hgathered hop haw (by rwa [hN]) hport.1
      ((damaged_issueWait s us).trans hport.2) (.inr rfl)
  refine ⟨_, hrun, ?origin, ?holder, fun k hkN hkM => ?others, ?entry, fun f hf => ?entries, ?queue, ?rest⟩
  case origin => rw [form_node, tget_tset_same, hN, ← hline]; rfl
  case holder => rw [form_node, tget_tset_ne _ _ hNM, hns, tget_tset_same]
  case others => rw [form_node, tget_tset_ne _ _ (Ne.symm hkN), hns, tget_tset_ne _ _ (Ne.symm hkM)]; rfl
  case entry =>
    rw [form_entry]
    simp only [hX, ne_eq, Ne.symm hNM, not_false_eq_true, true_and]
    rfl
  case entries => rw [form_entry_ne _ _ _ _ _ _ hf]; rfl
  case queue => rw [← hline]; rfl
  case rest => exact damaged_restored s us

/-! ## A holder's part settled without data -/

section
variable {d : State} {ns : Vector Node 4} {es : Vector Entry 48} {e f : EntryId} {X r : Entry} {q : List PoolOp}
  {M : NodeId}

/-- With no return of the node in the chain, its return is awaited and the timer starts (R35, R71). -/
theorem form_await_none (h : (State.form d ns es e X q).queuedReturn e M = none) :
    (State.form d ns es e X q).await e M = State.form d ns es e { X with
      awaited := some M
      returnTimer := if (tget ns M).link = .retraining then .frozen d.waitSpan else .running d.waitSpan } q := by
  simp only [State.await, h, form_mod]
  rfl

/-- No return of the node stands in a chain none of whose entries is of the node. -/
theorem form_queuedReturn_none {s : State} (hs : X.successor = (s.entry e).successor) (hph : X.phase = .gather)
    (hnone : ∀ f ∈ s.chainAfter 48 e, (s.entry f).isFrom M = false) :
    (State.form d ns s.entries e X q).queuedReturn e M = none := by
  have hchain : (State.form d ns s.entries e X q).chainAfter 48 e = s.chainAfter 48 e :=
    chainAfter_congr (fun g => by
      by_cases hg : g = e
      · rw [hg, form_entry, hs]
      · rw [form_entry_ne _ _ _ _ _ _ hg]; rfl) 48 e
  rw [State.queuedReturn, hchain, List.find?_eq_none]
  intro f hf hfound
  simp only [Bool.and_eq_true, decide_eq_true_eq] at hfound
  obtain ⟨⟨hqueued, -⟩, hfrom⟩ := hfound
  by_cases hfe : f = e
  · rw [hfe, form_entry, hph] at hqueued
    cases hqueued
  · rw [form_entry_ne _ _ _ _ _ _ hfe] at hfrom
    exact Bool.false_ne_true ((hnone f hf).symm.trans hfrom)

variable {ns' : Vector Node 4} {es' : Vector Entry 48} {X' : Entry}

/-- A QUEUED return in the chain merges at once: answered, unlinked and freed (R68). -/
theorem form_await_data {b : Buffer} (hf : (State.form d ns es e X q).queuedReturn e M = some f)
    (hr : (State.form d ns es e X q).entry f = r)
    (hm : (((State.form d ns es e X q).doneReturn M r.originTag).unlink f).freeUp f = State.form d ns' es' e X' q)
    (hk : r.kind = .returnD) (hb : r.buffer = some b) : (State.form d ns es e X q).await e M
      = State.form d ns' es' e ({ X' with buffer := some b, poolStale := true }.setMark M .returnD) q := by
  simp only [State.await, hf, hr, hm, hk, hb, State.takeData, form_mod]

theorem form_await_clean (hf : (State.form d ns es e X q).queuedReturn e M = some f)
    (hr : (State.form d ns es e X q).entry f = r)
    (hm : (((State.form d ns es e X q).doneReturn M r.originTag).unlink f).freeUp f = State.form d ns' es' e X' q)
    (hk : r.kind = .returnC) : (State.form d ns es e X q).await e M
      = (State.form d ns' es' e (X'.setMark M .returnC) q).settleNoData e := by
  simp only [State.await, hf, hr, hm, hk, form_mod]

end

section
variable {s : State} {N M : NodeId} {m : WireMsg} {us : List DirUpset} {e : EntryId} {ns : Vector Node 4}

/-- A MISS of a holder none of whose returns stands in the chain: its return is awaited (R43). -/
theorem settle_yieldMiss (h : WaitsForHolder (s.entry e) N M) (hline : (s.entry e).line = m.line)
    (hns : ((s.node M).link = .active ∧ ns = tset s.nodes M { s.node M with damagedCount := 0 })
      ∨ ((s.node M).link = .retraining ∧ ns = s.nodes))
    (hchain : ∀ f ∈ s.chainAfter 48 e, (s.entry f).isFrom M = false) (hno : m.entryNo = entryCode e)
    (hm : m.answer = some .miss) : exec (.miss M m us) s = .next (State.form (s.damaged us) ns s.entries e
      { (s.entry e).yieldAnswered M with
        awaited := some M
        returnTimer := if (tget ns M).link = .retraining then .frozen s.waitSpan else .running s.waitSpan }
      s.poolQueue) := by
  have hheard := yieldAnswer_heard (us := us) h hline hns hno hm (fun _ => rfl)
  obtain ⟨hph, -, -, -, -, -, hyield, -, -, -, hmark, -, -, -, -⟩ := h
  have hspan : (s.damaged us).waitSpan = s.waitSpan := by
    rw [State.waitSpan, damaged_probeTimeout, damaged_retries]; rfl
  change (s.damaged us).answerRow M .miss m = _
  rw [hheard, form_firstAnswer_yieldMiss (X := (s.entry e).yieldAnswered M) ((kind_yieldAnswered _ M).trans hyield) hmark,
    form_await_none (X := (s.entry e).yieldAnswered M) (form_queuedReturn_none rfl hph hchain), hspan]
  refine settle_gathers (by rwa [form_entry]) ?_ (.inr rfl)
  rw [form_entry, Bool.eq_false_iff, ne_eq, gatherDone_iff]
  simp

end

/-- Settles O21: the clean answer; the MISS on an ACTIVE and on a RETRAINING link; and the MISS with a return queued in
the chain. -/
theorem holderSettlesWithoutData : Obligations.HolderSettlesWithoutData := by
  refine ⟨fun s N M m us e h hline hlink hport hno hm => ?clean, fun s N M m us e h hline hlink hchain hno hm => ?active,
    fun s N M m us e h hline hlink hchain hno hm => ?retraining,
    fun s N M m us e f p before after r h hkept hline hlink hup hport hno hm hchain hbefore hr hrp hrf hfe hpf hpred => ?_⟩
  case clean =>
    have hheard := yieldAnswer_heard (us := us) h hline (.inl ⟨hlink, rfl⟩) hno hm (fun _ => rfl)
    obtain ⟨hph, hkind, -, -, -, -, hyield, -, -, -, hmark, -, -, -, -⟩ := h
    change (s.damaged us).answerRow M .ackClean m = _
    rw [hheard, form_firstAnswer_yieldClean (X := (s.entry e).yieldAnswered M) ((kind_yieldAnswered _ M).trans hyield)
      hmark, form_settleNoData_fetch (X := { (s.entry e).yieldAnswered M with holderKept := m.keep }) (.inl hkind),
      form_issueRead _ _ _ _ _ _ hport.1 ((damaged_issueWait s us).trans hport.2)]
    refine (settle_gathers (by rwa [form_entry]) ?_ (.inr rfl)).trans ?_
    · rw [form_entry]; exact gatherDone_of_poolOp (by simp)
    · rw [← hline]; rfl
  case active =>
    rw [settle_yieldMiss h hline (.inl ⟨hlink, rfl⟩) hchain hno hm, tget_tset_same]
    simp only [hlink, reduceCtorEq, if_false]
    rw [← damaged_poolQueue s us]
    rfl
  case retraining =>
    rw [settle_yieldMiss h hline (.inr ⟨hlink, rfl⟩) hchain hno hm]
    have htimer : (tget s.nodes M).link = .retraining := hlink
    rw [htimer, if_pos rfl, ← damaged_poolQueue s us, ← damaged_nodes s us]
    rfl
  intro answered merged
  have hheard := yieldAnswer_heard (us := us) h hline (.inl ⟨hlink, rfl⟩) hno hm (fun _ => rfl)
  have hgathered := yieldAnswered_gathered h
  obtain ⟨hph, hkind, horigin, horph, hNM, hsnap, hyield, -, -, -, hmark, haw, hop, -, -⟩ := h
  set X := (s.entry e).yieldAnswered M with hX
  set ns := tset s.nodes M { s.node M with damagedCount := 0 } with hns
  set ns' := tset s.nodes M { s.node M with
    damagedCount := 0, outQ := (s.node M).outQ ++ [OutMsg.done r.originTag .ret false false] } with hns'
  set es' := tset (tset s.entries p { s.entry p with successor := r.successor }) f Entry.free with hes'
  have hwait : (s.damaged us).issueWait = [] := (damaged_issueWait s us).trans hport.2
  have hqueued : ∀ h : r.kind.cls = .ret, (State.form (s.damaged us) ns s.entries e X s.poolQueue).queuedReturn e M = some f :=
    fun hk => form_queuedReturn rfl hph hchain hfe hbefore (by rwa [hr]) (by rwa [hr]) (by rwa [hr])
  have hfound : (State.form (s.damaged us) ns s.entries e X s.poolQueue).entry f = r := by
    rw [form_entry_ne _ _ _ _ _ _ hfe]; exact hr
  have hmerged : (((State.form (s.damaged us) ns s.entries e X s.poolQueue).doneReturn M r.originTag).unlink f).freeUp f
      = State.form (s.damaged us) ns' es' e answered s.poolQueue := by
    rw [State.doneReturn, form_send _ _ _ _ _ _ _ _ (by rw [hns, tget_tset_same]; simp [hlink]),
      form_unlink (X := X) rfl hph hph hfe hpf hpred, hr, hns, tget_tset_same, tset_tset_same]
    rfl
  have hmiss : exec (.miss M m us) s = settle ⟨(State.form (s.damaged us) ns s.entries e X s.poolQueue).await e M,
      [.checkGather e, .checkFinish e], []⟩ := by
    change (s.damaged us).answerRow M .miss m = _
    rw [hheard, form_firstAnswer_yieldMiss (X := (s.entry e).yieldAnswered M) ((kind_yieldAnswered _ M).trans hyield)
      hmark]
  rw [hmiss]
  refine ⟨fun b hk hb => ?data, fun hk => ?noData⟩
  case data =>
    rw [form_await_data (hqueued (by rw [hk]; rfl)) hfound hmerged hk hb]
    set Y : Entry := { answered with buffer := some b, poolStale := true }.setMark M .returnD with hY
    have hN : tget ns' N = s.node N := tget_tset_ne _ _ (Ne.symm hNM)
    refine (settle_yieldData (X := Y) (M := M) hph hkind horigin horph hsnap rfl rfl hgathered hop haw
      (by rwa [hN]) hport.1 hwait (.inr rfl)).trans ?_
    have hkeeps : ¬(M ≠ N ∧ Y.holderKept = true) := fun ⟨_, h⟩ => Bool.false_ne_true (hkept.symm.trans h)
    simp only [hkeeps, if_false, hN, ← hline]
    rfl
  case noData =>
    rw [form_await_clean (hqueued (by rw [hk]; rfl)) hfound hmerged hk, form_settleNoData_fetch (X := answered.setMark M .returnC)
      (.inl hkind), form_issueRead _ _ _ _ _ _ hport.1 hwait]
    refine (settle_gathers (by rwa [form_entry]) ?_ (.inr rfl)).trans ?_
    · rw [form_entry]; exact gatherDone_of_poolOp (by simp)
    · rw [← hline]; rfl

end Sys2Proof.Machine

/-! The CONFIRM that ends an entry's wait, and the successor that activates after it (R26, R34). -/

namespace Sys2Proof.Machine

/-! ## The record written -/

/-- A set that names no lost node loses none. -/
theorem and_not_of_and_zero (a b : NodeSet) (h : a &&& b = 0) : a &&& ~~~b = a := by
  revert a b
  decide

/-- The outcome of an entry that is no orphan is written whole where it names no lost node (R26, R144). -/
theorem finalRecord_record {x : Entry} {st : DirState} {T lost : NodeSet} (ho : x.outcome = .record st T)
    (horph : x.orphaned = false) (hl : T &&& lost = 0) (hT : st = .shared → T ≠ 0) :
    x.finalRecord lost = some ⟨LineAddr.tag x.line, st, T⟩ := by
  have hwrite : x.outcomeToWrite = .record st T := by simp only [Entry.outcomeToWrite, ho]
  have hkeep : T &&& ~~~lost = T := and_not_of_and_zero T lost hl
  cases st with
  | shared => simp only [Entry.finalRecord, hwrite, hkeep, hT rfl, if_false]
  | held => simp only [Entry.finalRecord, hwrite, Entry.vacantByLoss, horph, Bool.false_and, Bool.false_eq_true, if_false]

/-- The lost nodes are read off the memberships. -/
theorem lostNodes_congr {s t : State} (h : ∀ n, (t.node n).membership = (s.node n).membership) :
    t.lostNodes = s.lostNodes := by
  simp only [State.lostNodes, h]

/-- A node in a table with one node's entry replaced by a node of the same membership. -/
theorem lostNodes_nodes {s : State} {n : NodeId} {x : Node} (h : x.membership = (s.node n).membership) :
    { s with nodes := tset s.nodes n x }.lostNodes = s.lostNodes :=
  lostNodes_congr (fun k => by
    change (tget (tset s.nodes n x) k).membership = _
    by_cases hk : n = k
    · rw [← hk, tget_tset_same, h]
    · rw [tget_tset_ne _ _ hk]; rfl)

/-! ## CONFIRM -/

theorem confirms_iff (x : Entry) (n : NodeId) (l : LineAddr) : x.confirms n l = true ↔
    x.phase ≠ .free ∧ x.line = l ∧ x.confirm = .awaited n ∧ x.confirmTimer ≠ .stopped := by
  simp only [Entry.confirms, Bool.and_eq_true, inUse_iff, decide_eq_true_eq, and_assoc]

/-- The entry once its CONFIRM has come. -/
def Entry.confirmed (x : Entry) : Entry := { x with confirm := .received, confirmTimer := .stopped }

/-- The CONFIRM of an entry in FINISH is received, and the end of its FINISH is checked (R34). -/
theorem exec_confirm {s : State} {n : NodeId} {m : WireMsg} {us : List DirUpset} {e : EntryId}
    (hlink : (s.node n).link = .active) (hno : m.entryNo = entryCode e) (hm : m.answer = some .confirm)
    (hph : (s.entry e).phase = .finish) (hline : (s.entry e).line = m.line) (hc : (s.entry e).confirm = .awaited n)
    (ht : (s.entry e).confirmTimer ≠ .stopped) : exec (.confirm n m us) s
      = settle ⟨{ s.damaged us with
          nodes := tset s.nodes n { s.node n with damagedCount := 0 }
          entries := tset s.entries e (s.entry e).confirmed }, [.checkFinish e], []⟩ := by
  set u : State := { s.damaged us with nodes := tset s.nodes n { s.node n with damagedCount := 0 } } with hu
  have huentry : u.entry e = s.entry e := entry_damaged s us e
  change (s.damaged us).answerRow n .confirm m = _
  rw [answerRow_heard (.inl ⟨hlink, rfl⟩) hm]
  change settle (u.matchConfirm n m) = _
  rw [matchConfirm_accepted hno (by rw [huentry]; exact (confirms_iff _ _ _).2 ⟨by simp [hph], hline, hc, ht⟩),
    State.modEntry, huentry, State.setEntry, hu]
  simp only [damaged_entries]
  rfl

/-- The state in which an entry's CONFIRM has been heard on an undamaged directory. -/
def State.heardConfirm (s : State) (n : NodeId) (e : EntryId) : State :=
  { s with nodes := tset s.nodes n { s.node n with damagedCount := 0 }
           entries := tset s.entries e (s.entry e).confirmed }

theorem heardConfirm_entry (s : State) (n : NodeId) (e : EntryId) :
    (s.heardConfirm n e).entry e = (s.entry e).confirmed := tget_tset_same _ _ _

theorem heardConfirm_entry_ne (s : State) (n : NodeId) {e f : EntryId} (h : f ≠ e) :
    (s.heardConfirm n e).entry f = s.entry f := tget_tset_ne _ _ (Ne.symm h)

theorem heardConfirm_line (s : State) (n : NodeId) (e f : EntryId) :
    ((s.heardConfirm n e).entry f).line = (s.entry f).line := by
  by_cases hf : f = e
  · rw [hf, heardConfirm_entry]; rfl
  · rw [heardConfirm_entry_ne s n hf]

theorem heardConfirm_lostNodes (s : State) (n : NodeId) (e : EntryId) :
    (s.heardConfirm n e).lostNodes = s.lostNodes := lostNodes_nodes (s := { s with
      entries := tset s.entries e (s.entry e).confirmed }) rfl

/-- No member of the way-wait list is of the set, heard or not. -/
theorem heardConfirm_quiet {s : State} {n : NodeId} {e : EntryId} {k : SetIdx} {w : WayNo} (h : s.quiet k w) :
    (s.heardConfirm n e).quiet k w := by
  obtain ⟨hmembers, hstall⟩ := h
  refine ⟨fun m hm => ?_, hstall⟩
  rw [State.setOf, heardConfirm_line]
  exact hmembers m hm

theorem confirmed_finishDone {x : Entry} (hop : x.poolOp = .none) (hst : ∀ k, (x.probe k).straggling = false) :
    x.confirmed.finishDone = true := (finishDone_iff _).2 ⟨by simp [Entry.confirmed], hop, hst⟩

/-! ## The successor's probes -/

/-- A completing entry is freed while its successor's probes are out. -/
theorem probing_freeUp {D : State} {ns : Vector Node 4} {es : Vector Entry 48} {e f : EntryId} {Y : Entry}
    {q : List PoolOp} {k : ProbeKind} {T : NodeSet} (h : f ≠ e) :
    ((State.form D ns es f Y q).probing f Y k T).freeUp e
      = { D with nodes := ns, entries := tset es e Entry.free, poolQueue := q }.probing f Y k T := by
  simp only [State.freeUp, State.setEntry, State.probing, State.form, tset_tset_same]
  rw [tset_comm h]
  rfl

/-- A FLUSH or a recall of a record asks its nodes to give the line up: sharers to drop it, the holder to surrender
it. -/
def recallProbe : DirState → ProbeKind
  | .shared => .drop
  | .held => .surrender

theorem recallProbe_eq (st : DirState) :
    recallProbe st = match st with | .shared => .drop | .held => .surrender := by cases st <;> rfl

/-- A FLUSH probes every node of the record it finds (R57, R58). -/
theorem form_startWork_flush {d : State} {ns : Vector Node 4} {es : Vector Entry 48} {e : EntryId} {X : Entry}
    {q : List PoolOp} {st : DirState} {T : NodeSet} (hk : X.kind = .flush) (hs : X.snapshot = some (.hit st T))
    (hh : st = .held → ∃ n, T = NodeSet.single n)
    (hr : ∀ m, NodeSet.has T m = true → (tget ns m).joined = true ∧ (tget ns m).link ≠ .down) :
    (State.form d ns es e X q).startWork e = (State.form d ns es e X q).probing e X (recallProbe st) T := by
  cases st with
  | shared =>
    simp only [State.startWork, form_entry, hk, hs]
    exact form_dropAll _ _ _ _ _ _ T hr
  | held =>
    obtain ⟨n, rfl⟩ := hh rfl
    obtain ⟨hj, hl⟩ := hr n (by simp [has_single])
    simp only [State.startWork, form_entry, hk, hs, holder_single]
    exact form_probeOne _ _ _ _ _ _ _ n hj hl

section
variable {D : State} {e f : EntryId} {Y : Entry} {k : ProbeKind} {T : NodeSet}

/-- Probes out leave every other entry. -/
theorem probing_entry_ne (h : e ≠ f) : (D.probing f Y k T).entry e = D.entry e := tget_tset_ne _ _ (Ne.symm h)

theorem probing_line (f : EntryId) : ((D.probing f Y k T).entry f).line = Y.line :=
  (congrArg Entry.line (tget_tset_same D.entries f _) :)

/-- An entry with a probe out gathers on. -/
theorem probing_idle (h : T ≠ 0) : (Task.checkGather f).idle (D.probing f Y k T) := by
  obtain ⟨m, hm⟩ := exists_has h
  exact idle_checkGather (.inr (gatherDone_false (probing_unanswered f hm)))

end

/-- A way written and pinned anew leaves the way-wait list and the walker. -/
theorem closeWay_wayWait (z : State) (k : SetIdx) (w : WayNo) (r : Option Record) (p : Pin) :
    ((z.closeWay k w r).setPin k w p).wayWait = z.wayWait := by
  simp only [State.closeWay, setPin_wayWait, touch_wayWait, storeWay_wayWait]

theorem closeWay_walker (z : State) (k : SetIdx) (w : WayNo) (r : Option Record) (p : Pin) :
    ((z.closeWay k w r).setPin k w p).walker = z.walker := by
  simp only [State.closeWay, setPin_walker, touch_walker, storeWay_walker]

theorem closeWay_nodes (z : State) (k : SetIdx) (w : WayNo) (r : Option Record) (p : Pin) :
    ((z.closeWay k w r).setPin k w p).nodes = z.nodes := by
  simp only [State.closeWay, setPin_nodes, touch_nodes, storeWay_nodes]

theorem closeWay_entries (z : State) (k : SetIdx) (w : WayNo) (r : Option Record) (p : Pin) :
    ((z.closeWay k w r).setPin k w p).entries = z.entries := by
  simp only [State.closeWay, setPin_entries, touch_entries, storeWay_entries]

theorem closeWay_poolQueue (z : State) (k : SetIdx) (w : WayNo) (r : Option Record) (p : Pin) :
    ((z.closeWay k w r).setPin k w p).poolQueue = z.poolQueue := by
  simp only [State.closeWay, setPin_poolQueue, touch_poolQueue, storeWay_poolQueue]

theorem closeWay_issueWait (z : State) (k : SetIdx) (w : WayNo) (r : Option Record) (p : Pin) :
    ((z.closeWay k w r).setPin k w p).issueWait = z.issueWait := by
  simp only [State.closeWay, setPin_issueWait, touch_issueWait, storeWay_issueWait]

/-- A way is pinned without regard to the table. -/
theorem setPin_freeUp (u : State) (e : EntryId) (k : SetIdx) (w : WayNo) (p : Pin) :
    (u.freeUp e).setPin k w p = (u.setPin k w p).freeUp e := rfl

/-- The state after the completion of e, its way pinned by the successor. -/
theorem closeWay_passed (z : State) (e : EntryId) (k : SetIdx) (w : WayNo) (r : Option Record) (p : Pin) :
    ((z.closeWay k w r).freeUp e).setPin k w p = { (z.closeWay k w r).setPin k w p with
      nodes := z.nodes, entries := tset z.entries e Entry.free, poolQueue := z.poolQueue } := by
  rw [setPin_freeUp, State.freeUp, State.setEntry, closeWay_entries]
  congr 1

/-- A record as R2 has it names a node. -/
theorem sharers_ne_zero {q : Record} (h : q.wellFormed = true) : q.sharers ≠ 0 := by
  rcases (wellFormed_iff q).1 h with ⟨-, hq⟩ | ⟨-, n, hn⟩
  · exact hq
  · have hsingle : ∀ n, NodeSet.single n ≠ 0 := by decide
    rw [hn]
    exact hsingle n

/-- Damaged receipts have nothing to do with whether a node can be probed. -/
theorem reaches_heard {s : State} {n : NodeId} {T : NodeSet} (h : s.reaches T) (m : NodeId)
    (hm : NodeSet.has T m = true) : (tget (tset s.nodes n { s.node n with damagedCount := 0 }) m).joined = true
      ∧ (tget (tset s.nodes n { s.node n with damagedCount := 0 }) m).link ≠ .down := by
  by_cases hn : n = m
  · subst hn
    rw [tget_tset_same]
    exact h n hm
  · rw [tget_tset_ne _ _ hn]
    exact h m hm

/-- A FETCH-S over SHARED reads the pool (R46). -/
theorem startWork_fetchShared {v : State} {e : EntryId} {x : Entry} {T : NodeSet} (hx : v.entry e = x)
    (hk : x.kind = .fetchS) (hs : x.snapshot = some (.hit .shared T)) : v.startWork e = v.issueRead e := by
  simp only [State.startWork, hx, hk, hs]

/-- Settles O22: the CONFIRM while the pool write is out; the completion; and the completion with a successor. -/
theorem confirmEndsTheWait : Obligations.ConfirmEndsTheWait := by
  refine ⟨fun s n m us e hlink hno hm hph hline hc ht hop => ?writing, ?completes, ?successor⟩
  case writing =>
    rw [exec_confirm hlink hno hm hph hline hc ht]
    refine settle_checkFinish (e := e) (standing_of_finish ?_ (finishDone_of_poolOp ?_))
    · exact (congrArg Entry.phase (tget_tset_same s.entries e _)).trans hph
    · exact (congrArg Entry.poolOp (tget_tset_same s.entries e _)).trans_ne (by rw [Entry.confirmed, hop]; simp)
  case completes =>
    intro s n m e w st T hready hwf hlink hno hm hph hline hc ht hop hst hw hout horph hkind hshared hheld hlost hsucc
      hposted hwaits hstall
    set z := s.heardConfirm n e with hz
    have hrun : ∃ t, Work.run 8 ⟨z, [.checkFinish e], []⟩ = some t
        ∧ CompletedIn z t e (LineAddr.set m.line) w (some ⟨LineAddr.tag m.line, st, T⟩) := by
      refine run_complete (heardConfirm_entry s n e) hready hwf hw (by rw [← hline]; rfl) hsucc (fun h => ?_) hposted
        ?_ (fun q hq => ?_) hph (confirmed_finishDone hop hst) (heardConfirm_quiet ⟨hwaits, hstall⟩)
      · rcases hkind with h' | h' | h' <;> exact absurd (h'.symm.trans h) (by simp)
      · rw [hz, heardConfirm_lostNodes, ← hline]
        exact finalRecord_record hout horph hlost hshared
      · obtain rfl := Option.some.inj hq
        cases st with
        | shared => simpa [Record.wellFormed] using hshared rfl
        | held => simpa [Record.wellFormed] using hheld rfl
    obtain ⟨t, hrun, hcompleted⟩ := hrun
    have hexec : exec (.confirm n m []) s = .next t := by
      rw [exec_confirm hlink hno hm hph hline hc ht, damaged_nil]
      exact settle_eq (fuel := 8) (by decide) hrun
    obtain ⟨hentries, hway, horder, hways, hsets, hvalid, hquar, hseed, hrest⟩ :=
      completedIn_entry (B := { s with nodes := tset s.nodes n { s.node n with damagedCount := 0 } }) hcompleted
    refine ⟨t, hexec, ?_, fun f hf => ?_, hway, horder, hways, hsets, hvalid, hquar, hseed, ?_, ?_⟩
    · rw [State.entry, hentries, tget_tset_same]
    · rw [State.entry, hentries, tget_tset_ne _ _ (Ne.symm hf)]; rfl
    · exact congrArg (fun u : State => { u with nodes := s.nodes }) hrest
    · exact (congrArg State.nodes hrest :)
  case successor =>
    intro s n m e f w st T x y hx hy hready hwf hlink hno hm hph hline hc ht hop hst hw hout horph hkind hwell hlost
      hposted hsucc hfe hyph hyl set hquiet hothers base begun
    subst hx
    set z := s.heardConfirm n e with hz
    have hzentry : z.entry e = (s.entry e).confirmed := heardConfirm_entry s n e
    have hzf : z.entry f = y := (heardConfirm_entry_ne s n hfe).trans hy
    have hwell' : (⟨LineAddr.tag m.line, st, T⟩ : Record).wellFormed = true := hwell
    have hexec : ∀ t, Work.run 7 ⟨z, [.checkFinish e], []⟩ = some t → exec (.confirm n m []) s = .next t := fun t hrun => by
      rw [exec_confirm hlink hno hm hph hline hc ht, damaged_nil]
      exact settle_eq (fuel := 7) (by decide) hrun
    set D := (z.closeWay set w (some ⟨LineAddr.tag m.line, st, T⟩)).setPin set w (.entry f) with hD
    have hnext : ∀ V : State, y.kind.plain = false → y.kind ≠ .recall →
        decidedKind y.kind y.originNode (.hit st T) = y.kind →
        V = (State.form D z.nodes z.entries f begun z.poolQueue).startWork f → (Task.checkGather f).idle V →
        V.entry e = (s.entry e).confirmed → V.wayWait = z.wayWait → V.walker = z.walker →
        (∀ g, (V.entry g).line = (z.entry g).line) → exec (.confirm n m []) s = .next (V.freeUp e) :=
      fun V hplain hrecall hdecided hV hidle hVe hVw hVs hVl => hexec _ (run_complete_hit hzentry hzf hready hwf hw
        (congrArg LineAddr.set hline :) (congrArg LineAddr.tag hline :) hsucc
        (fun h => by rcases hkind with h' | h' | h' <;> exact absurd (h'.symm.trans h) (by simp)) hposted
        (by
          rw [hz, heardConfirm_lostNodes, ← hline]
          refine finalRecord_record hout horph hlost fun hshared => ?_
          subst hshared
          simpa [Record.wellFormed] using hwell)
        hwell' hph (confirmed_finishDone hop hst) (hyl.trans hline.symm) hplain hrecall hdecided
        (heardConfirm_quiet hquiet) hothers hV hidle hVe hVw hVs hVl)
    have hDw : D.wayWait = z.wayWait := closeWay_wayWait ..
    have hDi : D.issueWait = z.issueWait := closeWay_issueWait z set w _ _
    have hDs : D.walker = z.walker := closeWay_walker ..
    refine ⟨(z.closeWay set w (some ⟨LineAddr.tag m.line, st, T⟩)).freeUp e, ?_, fun hk hreach => ?flush,
      fun hk hshared hport => ?fetch⟩
    · exact completedIn_entry (X := (s.entry e).confirmed) (completedIn_of (z := z) hready hwf)
    case flush =>
      have hV : (State.form D z.nodes z.entries f begun z.poolQueue).startWork f
          = (State.form D z.nodes z.entries f begun z.poolQueue).probing f begun (recallProbe st) T :=
        form_startWork_flush hk rfl
          (fun hheld => by
            rcases (wellFormed_iff _).1 hwell with ⟨hshared, -⟩ | ⟨-, hsingle⟩
            · exact absurd (hheld.symm.trans hshared) (by simp)
            · exact hsingle)
          (reaches_heard hreach)
      have hrun := hnext ((State.form D z.nodes z.entries f begun z.poolQueue).probing f begun (recallProbe st) T)
        (by rw [hk]; rfl) (by rw [hk]; simp) (by rw [hk]; rfl) hV.symm (probing_idle (sharers_ne_zero hwell))
        (by rw [probing_entry_ne (Ne.symm hfe), form_entry_ne _ _ _ _ _ _ (Ne.symm hfe)]; exact hzentry) hDw hDs
        (fun g => ?line)
      case line =>
        by_cases hg : g = f
        · rw [hg, probing_line, hzf]
        · rw [probing_entry_ne hg, form_entry_ne _ _ _ _ _ _ hg]; rfl
      rw [hrun, probing_freeUp hfe, hD, ← closeWay_passed, recallProbe_eq] <;> rfl
    case fetch =>
      subst hshared
      have hV : (State.form D z.nodes z.entries f begun z.poolQueue).startWork f = State.form D z.nodes z.entries f
          { begun with poolOp := .readOut } (z.poolQueue ++ [⟨.entry f, y.line, none⟩]) := by
        rw [startWork_fetchShared (x := begun) (form_entry ..) hk rfl]
        exact form_issueRead D z.nodes z.entries f begun z.poolQueue hport.1 (hDi.trans hport.2)
      rw [hnext _ (by rw [hk]; rfl) (by rw [hk]; simp) (by rw [hk]; rfl) hV.symm
        (idle_checkGather (.inr (by rw [form_entry]; exact gatherDone_of_poolOp (by simp))))
        (by rw [form_entry_ne _ _ _ _ _ _ (Ne.symm hfe)]; exact hzentry) hDw hDs (fun g => ?line)]
      case line =>
        by_cases hg : g = f
        · rw [hg, form_entry, hzf]
        · rw [form_entry_ne _ _ _ _ _ _ hg]; rfl
      rw [closeWay_passed, ← hD, ← hyl]
      simp only [State.freeUp, State.setEntry, State.form]
      rw [tset_comm hfe]
      rfl

end Sys2Proof.Machine

/-! Decode, the arbiter, and the answers to requests that are refused (chapter 8). -/

namespace Sys2Proof.Machine

/-! ## Decode -/

/-- A line's tag is its number divided by the number of sets. -/
theorem toNat_tag (l : LineAddr) : (LineAddr.tag l).toNat = l.toNat / 16384 := by
  have h : l.toNat < 2 ^ 30 := l.isLt
  rw [LineAddr.tag, BitVec.extractLsb'_toNat, Nat.shiftRight_eq_div_pow,
    Nat.mod_eq_of_lt (by simp only [Nat.reducePow] at h ⊢; omega)]

theorem covers_iff (x : Region) (l : LineAddr) : x.covers l = true ↔
    x.enabled = true ∧ x.base.toNat ≤ l.toNat / 16384 ∧ l.toNat / 16384 ≤ x.limit.toNat := by
  simp only [Region.covers, Bool.and_eq_true, decide_eq_true_eq, BitVec.le_def, toNat_tag, and_assoc]

/-- The lowest index with a property is the one found. -/
theorem find_lowest {k : Nat} {p : Fin k → Bool} {r : Fin k} (h : p r = true) (hl : ∀ q, q < r → p q = false) :
    (List.finRange k).find? p = some r := by
  rw [List.find?_eq_some_iff_getElem]
  refine ⟨h, r.val, by simp, by simp, fun j hj => ?_⟩
  simpa using hl ⟨j, by omega⟩ hj

theorem decidingRegion_beyond {s : State} {l : LineAddr} (h : s.beyondSize l = true) : s.decidingRegion l = none := if_pos h

theorem decidingRegion_within {s : State} {l : LineAddr} (h : s.beyondSize l = false) : s.decidingRegion l
    = ((List.finRange 8).find? (fun r => (tget s.regions r).covers l)).map (fun r => tget s.regions r) :=
  if_neg (by rw [h]; exact Bool.false_ne_true)

section
variable {s : State} {n : NodeId} {b : ReqBody} {l : LineAddr}

theorem decodeRefusal_leaving (hb : b.isConfig = false) (h : (s.node n).membership = .leaving) :
    s.decodeRefusal n b = some .leaving := by
  rw [State.decodeRefusal, hb, if_neg Bool.false_ne_true, if_pos h]

theorem decodeRefusal_noRegion (hb : b.isConfig = false) (h : (s.node n).membership ≠ .leaving) (hl : b.line = some l)
    (hg : s.decidingRegion l = none) : s.decodeRefusal n b = some .noRegion := by
  simp only [State.decodeRefusal, hb, h, hl, hg, Bool.false_eq_true, if_false]

/-- A line with a deciding region is checked against it. -/
theorem decodeRefusal_region (hb : b.isConfig = false) (h : (s.node n).membership ≠ .leaving) (hl : b.line = some l)
    {g : Region} (hg : s.decidingRegion l = some g) : s.decodeRefusal n b = g.refusal n b := by
  simp only [State.decodeRefusal, hb, h, hl, hg, Bool.false_eq_true, if_false]

end

/-- The checks against the deciding region of a request, by its kind. -/
theorem region_refusal {b : ReqBody} {plain reads : Bool} (hp : b.isPlain = plain) (hr : b.reads = reads) (g : Region)
    (n : NodeId) : ((g.kind = .coherent ↔ plain = true) → g.refusal n b = some .kind)
      ∧ (¬(g.kind = .coherent ↔ plain = true) →
          (NodeSet.has (if reads then g.readSet else g.writeSet) n = false → g.refusal n b = some .denied)
          ∧ (NodeSet.has (if reads then g.readSet else g.writeSet) n = true → g.refusal n b = none)) := by
  have hkind : decide (g.kind = .coherent) = b.isPlain ↔ (g.kind = .coherent ↔ plain = true) := by
    rw [hp, ← Bool.coe_iff_coe, decide_eq_true_eq]
  refine ⟨fun h => if_pos (hkind.2 h), fun h => ⟨fun hset => ?_, fun hset => ?_⟩⟩
  · rw [Region.refusal, if_neg (mt hkind.1 h), hr, if_neg (by rw [hset]; exact Bool.false_ne_true)]
  · rw [Region.refusal, if_neg (mt hkind.1 h), hr, if_pos hset]

/-- Settles O32: the search finds the lowest region that covers the line, and decode's checks come in their order. -/
theorem decodeByTheDecidingRegion : Obligations.DecodeByTheDecidingRegion := by
  refine ⟨fun s l => ⟨fun h => decidingRegion_beyond ((beyondSize_iff s l).2 h), fun h => ?region⟩,
    fun s n b l plain reads hb => ?line, fun s n => ⟨fun o => rfl, fun o v => rfl, fun h => ?leaving, fun h => ?passed⟩⟩
  case region =>
    have hin : s.beyondSize l = false := by
      rw [← Bool.not_eq_true, beyondSize_iff]
      exact Nat.not_le.2 h
    have hcov : ∀ r, (tget s.regions r).covers l = true ↔ (tget s.regions r).enabled = true
        ∧ (tget s.regions r).base.toNat ≤ l.toNat / 16384 ∧ l.toNat / 16384 ≤ (tget s.regions r).limit.toNat :=
      fun r => covers_iff _ _
    rw [decidingRegion_within hin]
    refine ⟨fun r hr hlow => ?_, fun hnone => ?_⟩
    · rw [find_lowest (p := fun r => (tget s.regions r).covers l) ((hcov r).2 hr)
        (fun q hq => by rw [← Bool.not_eq_true, hcov]; exact hlow q hq)]
      rfl
    · rw [List.find?_eq_none.2 (fun r _ => by rw [hcov]; exact hnone r)]
      rfl
  case line =>
    obtain ⟨hconfig, hline, hplain, hreads⟩ : b.isConfig = false ∧ b.line = some l ∧ b.isPlain = plain
        ∧ b.reads = reads := by
      rcases hb with hb | ⟨mask, data, rfl, rfl, rfl⟩
      · simp only [List.mem_cons, Prod.mk.injEq, List.not_mem_nil, or_false] at hb
        rcases hb with ⟨rfl, rfl, rfl⟩ | ⟨rfl, rfl, rfl⟩ | ⟨rfl, rfl, rfl⟩ | ⟨rfl, rfl, rfl⟩ | ⟨rfl, rfl, rfl⟩
        all_goals exact ⟨rfl, rfl, rfl, rfl⟩
      · exact ⟨rfl, rfl, rfl, rfl⟩
    refine ⟨decodeRefusal_leaving hconfig, fun h => ⟨decodeRefusal_noRegion hconfig h hline, fun g hg => ?_⟩⟩
    rw [decodeRefusal_region hconfig h hline hg]
    exact region_refusal hplain hreads g n
  case leaving => exact ⟨if_pos h, if_pos h⟩
  case passed => exact ⟨if_neg h, if_neg h⟩

/-! ## The arbiter -/

/-- The first node from a pointer upward for which there is an answer. -/
theorem firstFrom_of {α : Type} {p k : NodeId} {f : NodeId → Option α} {a : α} (h : f (p + k) = some a)
    (hb : ∀ j, j < k → f (p + j) = none) : firstFrom p f = some a := by
  have h0 : p + 0 = p := add_zero p
  rw [firstFrom]
  simp only [List.findSome?_cons]
  match k, h, hb with
  | 0, h, _ => simp only [h0] at h; rw [h]
  | 1, h, hb => rw [← h0, hb 0 (by decide), h0, h]
  | 2, h, hb => rw [← h0, hb 0 (by decide), h0, hb 1 (by decide), h]
  | 3, h, hb => rw [← h0, hb 0 (by decide), h0, hb 1 (by decide), hb 2 (by decide), h]

theorem firstFrom_none {α : Type} {p : NodeId} {f : NodeId → Option α} (h : ∀ n, f n = none) : firstFrom p f = none :=
  List.findSome?_eq_none_iff.2 (fun n _ => h n)

/-- A running maximum stays within a bound on its terms. -/
theorem foldl_max_le {p : NodeId → Bool} {v : NodeId → Nat} {top : Nat} (h : ∀ m, p m = true → v m ≤ top) :
    ∀ (ns : List NodeId) (acc : Nat), acc ≤ top → ns.foldl (fun a m => if p m then max a (v m) else a) acc ≤ top
  | [], _, hacc => hacc
  | m :: ns, acc, hacc => by
    refine foldl_max_le h ns _ ?_
    change (if p m then max acc (v m) else acc) ≤ top
    split
    next hm => exact Nat.max_le.2 ⟨hacc, h m hm⟩
    next => exact hacc

/-- A running maximum is at least each of its terms, and its start. -/
theorem le_foldl_max {p : NodeId → Bool} {v : NodeId → Nat} : ∀ (ns : List NodeId) (acc : Nat),
    acc ≤ ns.foldl (fun a m => if p m then max a (v m) else a) acc
      ∧ ∀ m ∈ ns, p m = true → v m ≤ ns.foldl (fun a m => if p m then max a (v m) else a) acc
  | [], acc => ⟨le_refl acc, nofun⟩
  | m :: ns, acc => by
    obtain ⟨hacc, hns⟩ := le_foldl_max (p := p) (v := v) ns (if p m then max acc (v m) else acc)
    refine ⟨le_trans ?_ hacc, fun k hk hp => ?_⟩
    · split
      · exact Nat.le_max_left _ _
      · exact le_refl _
    · rcases List.mem_cons.1 hk with rfl | hk
      · refine le_trans ?_ hacc
        rw [if_pos hp]
        exact Nat.le_max_right _ _
      · exact hns k hk hp

/-- The highest priority is that of an eligible node that none exceeds. -/
theorem topPriority_eq {s : State} {n : NodeId} (hn : (s.eligibleRequest n).isSome = true)
    (h : ∀ m, (s.eligibleRequest m).isSome = true → (s.node m).effectivePriority ≤ (s.node n).effectivePriority) :
    s.topPriority = (s.node n).effectivePriority :=
  le_antisymm (foldl_max_le h allNodes 0 (Nat.zero_le _))
    ((le_foldl_max (p := fun m => (s.eligibleRequest m).isSome) (v := fun m => (s.node m).effectivePriority) allNodes
      0).2 n ((by decide : ∀ n : NodeId, n ∈ allNodes) n) hn)

/-- The arbiter takes the first eligible return from the return pointer upward. -/
theorem choice_first_return {s : State} {k : NodeId} {r : RetMsg} (h : s.eligibleReturn (s.returnPtr + k) = some r)
    (hb : ∀ j, j < k → s.eligibleReturn (s.returnPtr + j) = none) : s.choice = some (.ret (s.returnPtr + k) r) := by
  rw [State.choice, firstFrom_of (k := k) (by rw [h]; rfl) (fun j hj => by rw [hb j hj]; rfl)]

/-- Where no return is eligible, the choice is among the requests of the highest priority. -/
theorem choice_no_return {s : State} (h : ∀ n, s.eligibleReturn n = none) : s.choice = firstFrom s.requestPtr (fun n =>
    if (s.node n).effectivePriority = s.topPriority then (s.eligibleRequest n).map (Choice.request n) else none) := by
  rw [State.choice, firstFrom_none (fun n => by rw [h n]; rfl)]

theorem choice_first_request {s : State} {k : NodeId} {r : ReqMsg} (hret : ∀ n, s.eligibleReturn n = none)
    (h : s.eligibleRequest (s.requestPtr + k) = some r)
    (hp : ∀ m, (s.eligibleRequest m).isSome → (s.node m).effectivePriority ≤ (s.node (s.requestPtr + k)).effectivePriority)
    (hb : ∀ j, j < k → s.eligibleRequest (s.requestPtr + j) = none
      ∨ (s.node (s.requestPtr + j)).effectivePriority < (s.node (s.requestPtr + k)).effectivePriority) :
    s.choice = some (.request (s.requestPtr + k) r) := by
  have htop := topPriority_eq (by rw [h]; rfl) hp
  rw [choice_no_return hret]
  refine firstFrom_of (k := k) (by rw [if_pos htop.symm, h]; rfl) (fun j hj => ?_)
  rcases hb j hj with hnone | hlow
  · rw [hnone, Option.map_none, ite_self]
  · rw [if_neg (by rw [htop]; exact Nat.ne_of_lt hlow)]

/-- A node passed over below the stop of its counter. -/
theorem passedOver_below {x : Node} (h : x.patience < 255) : x.passedOver = { x with
    patience := x.patience + 1
    urgent := x.urgent || (decide (x.patienceLimit ≠ 0) && decide (x.patienceLimit.toNat ≤ x.patience + 1)) } := if_pos h

/-- The counter stops. -/
theorem passedOver_full {x : Node} (h : x.patience = 255) : x.passedOver = x := if_neg (by rw [h]; exact Nat.lt_irrefl _)

/-! ## Who is eligible -/

theorem offers_iff (s : State) (n : NodeId) : s.offers n = true ↔
    ((s.node n).link = .active ∨ (s.node n).link = .retraining)
      ∧ ((s.node n).membership = .member ∨ (s.node n).membership = .leaving) := by
  rw [State.offers, Bool.and_eq_true, linked_iff, joined_iff]

/-- The entries in use besides recalls. -/
theorem workInUse_eq (s : State) : s.workInUse
    = (List.finRange 48).countP (fun e => decide ((s.entry e).phase ≠ .free ∧ (s.entry e).kind ≠ .recall)) := by
  refine List.countP_congr (fun e _ => ?_)
  rw [Bool.and_eq_true, decide_eq_true_eq, decide_eq_true_eq, inUse_iff, Ne, Ne, Ne, cls_recall_iff]

theorem freeEntry_isSome (s : State) : s.freeEntry.isSome = true ↔ ∃ e, (s.entry e).phase = .free := by
  simp [State.freeEntry, List.find?_isSome, mem48, Entry.inUse]

theorem roomForWork_iff (s : State) : s.roomForWork = true ↔
    (List.finRange 48).countP (fun e => decide ((s.entry e).phase ≠ .free ∧ (s.entry e).kind ≠ .recall)) < 44
      ∧ ∃ e, (s.entry e).phase = .free := by
  rw [State.roomForWork, Bool.and_eq_true, decide_eq_true_eq, workInUse_eq, freeEntry_isSome]
  rfl

theorem hasUnposted_iff (s : State) (n : NodeId) : s.hasUnposted n = false ↔
    ∀ e, (s.entry e).phase ≠ .free → (s.entry e).kind.cls = .request → (s.entry e).origin.map Origin.node = some n →
      (s.entry e).posted = true := by
  rw [← Bool.not_eq_true, State.hasUnposted, any_entries]
  simp only [Bool.and_eq_true, inUse_iff, decide_eq_true_eq, isFrom_iff, Bool.not_eq_true', not_exists, not_and,
    Bool.not_eq_false, and_imp]

/-- A value that a condition admits. -/
theorem ite_some_iff {α : Type} {a r : α} {p : α → Prop} [DecidablePred p] :
    (if p a then some a else none) = some r ↔ some a = some r ∧ p r := by
  by_cases h : p a
  · simp only [h, if_true, Option.some.injEq]
    exact ⟨fun e => ⟨e, e ▸ h⟩, fun e => e.1⟩
  · simp only [h, if_false, Option.some.injEq, reduceCtorEq, false_iff, not_and]
    exact fun e => e ▸ h

theorem eligibleRequest_iff (s : State) (n : NodeId) (r : ReqMsg) : s.eligibleRequest n = some r ↔
    s.offers n = true ∧ (s.node n).requestQ.head? = some r
      ∧ ((s.decodeRefusal n r.body).isSome = true ∨ s.ready n r.body = true) := by
  unfold State.eligibleRequest
  by_cases h : s.offers n = true
  · rw [if_pos h, and_iff_right h]
    cases (s.node n).requestQ with
    | nil => exact ⟨nofun, nofun⟩
    | cons a q =>
      exact ite_some_iff (p := fun r : ReqMsg => (s.decodeRefusal n r.body).isSome = true ∨ s.ready n r.body = true)
  · rw [if_neg h]
    exact ⟨nofun, fun g => absurd g.1 h⟩

theorem eligibleReturn_iff (s : State) (n : NodeId) (r : RetMsg) : s.eligibleReturn n = some r ↔
    s.offers n = true ∧ (s.node n).returnQ.head? = some r
      ∧ ((s.mergeTarget n r.line).isSome = true ∨ s.roomForWork = true) := by
  unfold State.eligibleReturn
  by_cases h : s.offers n = true
  · rw [if_pos h, and_iff_right h]
    cases (s.node n).returnQ with
    | nil => exact ⟨nofun, nofun⟩
    | cons a q =>
      exact ite_some_iff (p := fun r : RetMsg => (s.mergeTarget n r.line).isSome = true ∨ s.roomForWork = true)
  · rw [if_neg h]
    exact ⟨nofun, fun g => absurd g.1 h⟩

theorem unanswered_iff (p : Probe) : p.unanswered = true ↔ p.status = .queuedOut ∨ p.status = .sent := by
  unfold Probe.unanswered
  cases p.status <;> simp

theorem active_iff (x : Entry) : x.active = true ↔ x.phase ≠ .free ∧ x.phase ≠ .queued := by
  unfold Entry.active
  cases x.phase <;> simp

theorem mergeTarget_iff (s : State) (n : NodeId) (l : LineAddr) (e : EntryId) : s.mergeTarget n l = some e ↔
    s.activeOn l = some e ∧ (s.entry e).mark n = .none
      ∧ (((s.entry e).probe n).status = .queuedOut ∨ ((s.entry e).probe n).status = .sent
        ∨ (s.entry e).awaited = some n) := by
  unfold State.mergeTarget
  cases s.activeOn l with
  | none => simp
  | some f =>
    simp only [Bool.and_eq_true, Bool.or_eq_true, decide_eq_true_eq, unanswered_iff, or_assoc]
    constructor
    · intro h
      split at h
      next hc =>
        cases h
        exact ⟨rfl, hc.2, hc.1⟩
      next => cases h
    · rintro ⟨h, hm, hw⟩
      cases h
      exact if_pos ⟨hw, hm⟩

/-- The entry active on a line is an active entry of the line, and there is one where any entry is. -/
theorem activeOn_spec (s : State) (l : LineAddr) (e : EntryId) :
    (s.activeOn l = some e → (s.entry e).line = l ∧ (s.entry e).phase ≠ .free ∧ (s.entry e).phase ≠ .queued)
      ∧ ((s.entry e).line = l → (s.entry e).phase ≠ .free → (s.entry e).phase ≠ .queued → s.activeOn l ≠ none) := by
  refine ⟨fun h => ?_, fun hl hf hq h => ?_⟩
  · have := List.find?_some h
    rw [Bool.and_eq_true, decide_eq_true_eq, active_iff] at this
    exact ⟨this.2, this.1⟩
  · have := List.find?_eq_none.1 h e (mem48 e)
    rw [Bool.and_eq_true, decide_eq_true_eq, active_iff] at this
    exact this ⟨⟨hf, hq⟩, hl⟩

theorem cls_request_iff (k : WorkKind) : k.cls = .request ↔ k ≠ .returnD ∧ k ≠ .returnC ∧ k ≠ .recall := by
  cases k <;> simp [WorkKind.cls]

/-- Settles O33. -/
theorem arbiterChoosesAndCounts : Obligations.ArbiterChoosesAndCounts := by
  refine ⟨fun s => ⟨?returns, fun hret => ⟨?requests, ?nothing⟩⟩, fun s n => ?passed, fun s n => ?eligible⟩
  case returns =>
    rintro k n r rfl h hb
    exact choice_first_return h hb
  case requests =>
    rintro k n r rfl h hp hb
    exact choice_first_request hret h hp hb
  case nothing =>
    intro hreq
    rw [choice_no_return hret]
    exact firstFrom_none (fun n => by rw [hreq n, Option.map_none, ite_self])
  case passed =>
    refine ⟨rfl, ?_, fun m hm h => ?_, fun m hm h hlow => ?_, fun m hm hfull => ?_, rfl⟩
    · rw [node_takeRequest, if_pos rfl]
      rfl
    · rw [node_takeRequest, if_neg hm, h]
      rfl
    · rw [node_takeRequest, if_neg hm, if_pos h, passedOver_below hlow]
    · rw [node_takeRequest, if_neg hm, passedOver_full hfull, ite_self]
  case eligible =>
    intro work room offers fits
    have hready : ∀ b, s.ready n b = true ↔ fits b := by
      intro b
      cases b with
      | configRead o => exact ⟨fun _ => trivial, fun _ => rfl⟩
      | configWrite o v => exact ⟨fun _ => trivial, fun _ => rfl⟩
      | order => exact Option.isNone_iff_eq_none
      | leave =>
        simp only [State.ready, Bool.and_eq_true, Option.isNone_iff_eq_none, Bool.not_eq_true', hasUnposted_iff]
        rfl
      | plainWrite l mask data =>
        simp only [State.ready, Bool.or_eq_true, decide_eq_true_eq, roomForWork_iff]
        rfl
      | fetchS l => exact roomForWork_iff s
      | fetchH l => exact roomForWork_iff s
      | upgrade l => exact roomForWork_iff s
      | flush l => exact roomForWork_iff s
      | plainRead l => exact roomForWork_iff s
    refine ⟨fun r => ?_, fun r => ?_, mergeTarget_iff s n, activeOn_spec s, rfl, cls_request_iff⟩
    · rw [eligibleRequest_iff, offers_iff, hready, Option.isSome_iff_ne_none]
    · rw [eligibleReturn_iff, offers_iff, roomForWork_iff, Option.isSome_iff_ne_none]

/-! ## Refusals -/

/-- An entry that is refused the way it needs passes to FINISH with its refusal, and its FINISH is checked. -/
theorem form_dirFault {z : State} {e : EntryId} {X : Entry} {n : NodeId} {tag : Tag} {ts : List Task} {ns : List Notice}
    (hX : X.origin = some ⟨n, tag⟩) (hk : X.kind ≠ .recall) (hwait : ∀ m ∈ z.wayWait, m.entry ≠ e)
    (hben : ∀ f, f ≠ e → (z.entry f).phase ≠ .free → (z.entry f).kind = .recall → (z.entry f).beneficiary ≠ some e)
    (hlink : (z.node n).link ≠ .down) :
    Work.dirFault ⟨State.form z z.nodes z.entries e X z.poolQueue, ts, ns⟩ e
      = ⟨(State.form z (tset z.nodes n { z.node n with outQ := (z.node n).outQ ++ [OutMsg.refuse tag .dirFault] })
          z.entries e { X with phase := .finish } z.poolQueue).raise .refusal
          { node := some n, tag := some tag, kind := some X.admitted.msgKind, place := some (.line X.line)
            detail := some (.reason .dirFault) }, .checkFinish e :: ts, ns⟩ := by
  have hnode : X.originNode = n := originNode_of (by rw [hX]; rfl)
  have htag : X.originTag = tag := by rw [Entry.originTag, hX]; rfl
  have hdrop := (form_dropBeneficiary z z.nodes z.entries e { X with phase := .finish } z.poolQueue hk hben).2
  simp only [Work.dirFault, Work.mod, Work.push, State.leaveWait, form_entry, hnode, htag]
  rw [leaveList_none (by exact hwait), form_mod, hdrop, form_send _ _ _ _ _ _ _ _ hlink]
  rfl

/-- A refusal of decode is queued to the node that asked, whatever the row. -/
theorem admitRequest_refuses {s : State} {work : State → NodeId → Tag → ReqBody → Option Work} {n : NodeId} {tag : Tag}
    {b : ReqBody} {reason : Reason} {k : Work} (hc : s.choice = some (.request n ⟨tag, b⟩))
    (hd : s.decodeRefusal n b = some reason) (hw : work (s.takeRequest n) n tag b = some k) :
    s.admitRequest work = .next ({ s.takeRequest n with
        nodes := tset (s.takeRequest n).nodes n { (s.takeRequest n).node n with
          outQ := ((s.takeRequest n).node n).outQ ++ [OutMsg.refuse tag reason] } }.raise .refusal
        { node := some n, tag := some tag, kind := some b.msgKind, place := b.line.map Place.line
          detail := some (.reason reason) }) := by
  rw [admitRequest_refused hc hd hw, refuse_takeRequest hc]

/-- Settles O34: a refusal of decode goes out at the admission; one for want of a way that is not QUARANTINED goes out
as the entry activates, and the entry completes in the same step. -/
theorem refusedRequestsAreAnswered : Obligations.RefusedRequestsAreAnswered := by
  refine ⟨fun s us n tag c b kind place reason hrow => ?decode,
    fun s n tag l e c b kind hrow hk ha hfree hs hq => ?dirFault⟩
  case decode =>
    intro u hc hd taken
    rcases hrow with ⟨rfl, ⟨rfl, rfl, rfl, rfl⟩ | ⟨rfl, rfl, rfl, rfl⟩ | ⟨l, rfl, ⟨rfl, rfl, rfl⟩ | ⟨mask, data, rfl, rfl, rfl⟩⟩⟩
      | ⟨l, rfl, ⟨rfl, rfl, rfl⟩ | ⟨rfl, rfl, rfl⟩ | ⟨rfl, rfl, rfl⟩ | ⟨rfl, rfl, rfl⟩⟩
    · exact show execOrder s = _ from admitRequest_refuses hc hd rfl
    · exact show execLeave s = _ from admitRequest_refuses hc hd rfl
    · exact show execPlainRead s = _ from admitRequest_refuses hc hd rfl
    · exact show execPlainWrite s = _ from admitRequest_refuses hc hd rfl
    · exact show execFetchS us s = _ from admitRequest_refuses hc hd rfl
    · exact show execFetchH us s = _ from admitRequest_refuses hc hd rfl
    · exact show execUpgrade us s = _ from admitRequest_refuses hc hd rfl
    · exact show execFlush us s = _ from admitRequest_refuses hc hd rfl
  case dirFault =>
    intro taken
    obtain ⟨hc, -, -, -, hwait, hben⟩ := id ha
    have hlink : (taken.node n).link ≠ .down := by
      rw [takeRequest_link]
      exact (choice_request hc).1
    have hkind : decidedKind kind n .miss ≠ .recall := by
      rcases coherent_kind hrow with rfl | rfl | rfl | rfl <;> simp [decidedKind]
    refine exec_misses e (fuel := 2) hrow hk ha hs (fun v => .inl (hq v)) (by decide) ?_
    have hall := (allQuarantined_sound (s := taken) (k := LineAddr.set l) hs .activation kind.msgKind).2 hq
    set X : Entry := { requestEntry kind n tag l false 0 0 with
      kind := decidedKind kind n .miss, snapshot := some .miss } with hX
    set u : State := { taken with nodes := tset taken.nodes n { taken.node n with
      outQ := (taken.node n).outQ ++ [OutMsg.refuse tag .dirFault] } } with hu
    set event : ErrRec := { node := some n, tag := some tag, kind := some kind.msgKind, place := some (.line l)
                            detail := some (.reason .dirFault) } with hevent
    have hfault : Work.dirFault ⟨State.form taken taken.nodes taken.entries e X taken.poolQueue, [], []⟩ e
        = ⟨(State.form u u.nodes s.entries e { X with phase := .finish } s.poolQueue).raise .refusal event,
          [.checkFinish e], []⟩ := form_dirFault (n := n) (tag := tag) rfl hkind hwait (fun f _ => hben f) hlink
    have hself : (State.form (u.raise .refusal event) (u.raise .refusal event).nodes s.entries e { X with
        phase := .finish } s.poolQueue).freeUp e = u.raise .refusal event := by
      have hentry : (u.raise .refusal event).entry e = Entry.free := by
        rw [State.entry, raise_entries]
        exact hfree
      have hform := (form_eq e (u.raise .refusal event)).symm
      rw [hentry, raise_entries, raise_poolQueue] at hform
      rw [State.freeUp, form_setEntry]
      exact hform
    change Work.run 2 (if (taken.readSet (LineAddr.set l) .activation kind.msgKind).2.allQuarantined then
      Work.dirFault ⟨State.form taken taken.nodes taken.entries e X taken.poolQueue, [], []⟩ e else _) = _
    rw [if_pos hall, hfault, form_raise, finish_plain _ e _ (form_entry ..) rfl rfl hkind rfl rfl 0]
    exact congrArg some hself

end Sys2Proof.Machine

/-! What an admitted request asks for first: pool reads, probes, a way, or nothing at all (chapter 6; R26, R45 to R60). -/

namespace Sys2Proof.Machine

/-! ## A coherent request activates -/

/-- A coherent request admitted for a line with no active entry is placed in its entry and activates. -/
theorem exec_activates {s : State} {n : NodeId} {tag : Tag} {l : LineAddr} {e : EntryId} {c : Instr} {b : ReqBody}
    {kind : WorkKind} (hrow : (c, b, kind) ∈ coherentRequests l) (hc : s.choice = some (.request n ⟨tag, b⟩))
    (hd : s.decodeRefusal n b = none) (hfree : s.freeEntry = some e) (hactive : s.activeOn l = none) :
    exec c s = settle ⟨(s.takeRequest n).setEntry e (requestEntry kind n tag l false 0 0), [.activate e], []⟩ := by
  have hadmit : (s.takeRequest n).admitLine n tag kind l
      = ⟨(s.takeRequest n).setEntry e (requestEntry kind n tag l false 0 0), [.activate e], []⟩ :=
    allocate_eq rfl hfree hactive
  rw [← hadmit]
  simp only [coherentRequests, List.mem_cons, Prod.mk.injEq, List.not_mem_nil, or_false] at hrow
  rcases hrow with ⟨rfl, rfl, rfl⟩ | ⟨rfl, rfl, rfl⟩ | ⟨rfl, rfl, rfl⟩ | ⟨rfl, rfl, rfl⟩
  · exact show execFetchS [] s = _ from admitRequest_passed hc hd rfl
  · exact show execFetchH [] s = _ from admitRequest_passed hc hd rfl
  · exact show execUpgrade [] s = _ from admitRequest_passed hc hd rfl
  · exact show execFlush [] s = _ from admitRequest_passed hc hd rfl

/-- An entry that has begun its work as kind k: on way w, with what its read said as the snapshot. -/
def Entry.begun (kind k : WorkKind) (n : NodeId) (tag : Tag) (l : LineAddr) (w : Option WayNo) (d : Snapshot) : Entry :=
  { Entry.asked kind n tag l with phase := .gather, kind := k, way := w, snapshot := some d }

theorem coherent_read {kind : WorkKind} (h : kind = .fetchS ∨ kind = .fetchH ∨ kind = .upgrade ∨ kind = .flush) :
    kind.plain = false ∧ kind ≠ .recall := by
  rcases h with rfl | rfl | rfl | rfl <;> exact ⟨rfl, by decide⟩

/-- Over a sound set with an unpinned HIT the request pins the way and its work begins; the step ends as that work
runs. -/
theorem exec_begins {s : State} {n : NodeId} {tag : Tag} {l : LineAddr} {e : EntryId} {c : Instr} {b : ReqBody}
    {kind : WorkKind} {w : WayNo} {st : DirState} {T : NodeSet} (hrow : (c, b, kind) ∈ coherentRequests l)
    (hc : s.choice = some (.request n ⟨tag, b⟩)) (hd : s.decodeRefusal n b = none) (hfree : s.freeEntry = some e)
    (hactive : s.activeOn l = none) (hwait : ∀ m ∈ s.wayWait, m.entry ≠ e) (hs : (s.dirSet (LineAddr.set l)).sound)
    (hit : (s.dirSet (LineAddr.set l)).hitAt w ⟨LineAddr.tag l, st, T⟩) {fuel : Nat} {t : State}
    (hf : fuel + 1 ≤ Config.settleBound)
    (hrun : Work.run fuel ⟨(State.form ((s.takeRequest n).setPin (LineAddr.set l) w (.entry e)) (s.takeRequest n).nodes
        s.entries e (Entry.begun kind (decidedKind kind n (.hit st T)) n tag l (some w) (.hit st T))
        s.poolQueue).startWork e, [.checkGather e], []⟩ = some t) : exec c s = .next t := by
  obtain ⟨hplain, hrecall⟩ := coherent_read (coherent_kind hrow)
  rw [exec_activates hrow hc hd hfree hactive]
  refine settle_eq hf ?_
  rw [run_task]
  have hentry : ((s.takeRequest n).setEntry e (requestEntry kind n tag l false 0 0)).entry e
      = requestEntry kind n tag l false 0 0 := tget_tset_same _ _ _
  change Work.run fuel (Work.activate _ e) = _
  rw [activate_hit hentry hplain hrecall hs hit, ← hrun, State.beginWork, State.leaveWait, leaveList_none (by exact hwait)]
  have hpinned : ((s.takeRequest n).setEntry e (requestEntry kind n tag l false 0 0)).setPin
      (LineAddr.set (requestEntry kind n tag l false 0 0).line) w (.entry e)
      = State.form ((s.takeRequest n).setPin (LineAddr.set l) w (.entry e)) (s.takeRequest n).nodes s.entries e
        (requestEntry kind n tag l false 0 0) s.poolQueue := rfl
  rw [hpinned, form_mod]
  rfl

/-- An entry placed in the table with a pool operation does not end its GATHER. -/
theorem gatherDone_of_table {v : State} {es : Vector Entry 48} {e : EntryId} {X : Entry} (h : v.entries = tset es e X)
    (hop : X.poolOp ≠ .none) : (v.entry e).gatherDone = false := by
  rw [State.entry, h, tget_tset_same]
  exact gatherDone_of_poolOp hop

/-- An entry that awaits a return does not end its GATHER. -/
theorem gatherDone_of_awaited {x : Entry} {m : NodeId} (h : x.awaited = some m) : x.gatherDone = false := by
  rw [← Bool.not_eq_true, gatherDone_iff]
  intro hdone
  simp [h] at hdone

/-- An entry that is not done gathering ends the step. -/
theorem run_gathers {u : State} {e : EntryId} (h : (u.entry e).gatherDone = false) (fuel : Nat) :
    Work.run (fuel + 1) ⟨u, [.checkGather e], []⟩ = some u := run_idle_one (idle_checkGather (.inr h)) fuel

/-! ## Work that reads the pool -/

/-- The pool port takes an entry's READ, or the READ joins the issue-wait list (R105). -/
theorem form_issueRead_waits {s d : State} {ns : Vector Node 4} {e : EntryId} {X : Entry} (h : ¬s.portFree)
    (hw : d.issueWait = s.issueWait) : (State.form d ns s.entries e X s.poolQueue).issueRead e
      = { State.form d ns s.entries e X s.poolQueue with
          entries := tset s.entries e { X with poolOp := .waiting }
          issueWait := s.issueWait ++ [⟨.entry e, X.line, none⟩] } := by
  rw [form_issueRead_full _ _ _ _ _ _ (by rw [hw]; exact h), hw]
  rfl

/-- A FETCH-S over SHARED, and a FETCH-H over SHARED by its own node, read the pool and probe nobody (R46, R50). -/
theorem startWork_readsShared {v : State} {e : EntryId} {x : Entry} {T : NodeSet} (hx : v.entry e = x)
    (hk : x.kind = .fetchS ∨ (x.kind = .fetchH ∧ T = NodeSet.single x.originNode)) (hs : x.snapshot = some (.hit .shared T)) :
    v.startWork e = v.issueRead e := by
  rcases hk with hk | ⟨hk, hT⟩
  · exact startWork_fetchShared hx hk hs
  · have halone : ∀ n : NodeId, NodeSet.members (NodeSet.without (NodeSet.single n) n) = [] := by decide
    simp only [State.startWork, hx, hk, hs, hT, State.dropAll, halone, List.foldl_nil]

theorem startWork_missRead {v : State} {e : EntryId} {x : Entry} (hx : v.entry e = x)
    (hk : x.kind = .fetchS ∨ x.kind = .fetchH) (hs : x.snapshot = some .miss) : v.startWork e = v.issueRead e := by
  rcases hk with hk | hk <;> simp only [State.startWork, hx, hk, hs]

/-- A plain entry's step ends as its work starts, where that leaves it gathering. -/
theorem settle_started {u v : State} {e : EntryId} {x : Entry} (hx : x.kind.plain = true)
    (hw : (State.form u u.nodes u.entries e { x with phase := .gather } u.poolQueue).startWork e = v)
    (hd : (v.entry e).gatherDone = false) : settle ⟨u.setEntry e x, [.activate e], []⟩ = .next v := by
  refine settle_eq (fuel := 2) (by decide) ?_
  rw [run_task]
  change Work.run 1 (Work.activate ⟨u.setEntry e x, [], []⟩ e) = _
  rw [activate_plain (by rw [setEntry_form, form_entry]; exact hx), setEntry_form, State.enterGather, form_mod, hw]
  exact run_gathers hd 0

/-- A PLAIN-READ admitted for a line with no active entry is placed in its entry and activates. -/
theorem exec_plainRead {s : State} {n : NodeId} {tag : Tag} {l : LineAddr} {e : EntryId}
    (hc : s.choice = some (.request n ⟨tag, .plainRead l⟩)) (hd : s.decodeRefusal n (.plainRead l) = none)
    (hfree : s.freeEntry = some e) (hactive : s.activeOn l = none) : exec .plainRead s
      = settle ⟨(s.takeRequest n).setEntry e (requestEntry .plainRead n tag l false 0 0), [.activate e], []⟩ := by
  have hadmit : (s.takeRequest n).admitLine n tag .plainRead l
      = ⟨(s.takeRequest n).setEntry e (requestEntry .plainRead n tag l false 0 0), [.activate e], []⟩ :=
    allocate_eq rfl hfree hactive
  rw [← hadmit]
  exact show execPlainRead s = _ from admitRequest_passed hc hd rfl

theorem startWork_plainRead {v : State} {e : EntryId} {x : Entry} (hx : v.entry e = x) (hk : x.kind = .plainRead) :
    v.startWork e = v.issueRead e := by
  simp only [State.startWork, hx, hk]

/-! ## Work that probes -/

section
variable (d : State) (ns : Vector Node 4) (es : Vector Entry 48) (e : EntryId) (X Y : Entry) (q : List PoolOp)
  (k : ProbeKind) (T : NodeSet)

/-- Probes made replace the entry. -/
theorem probing_form : (State.form d d.nodes d.entries e Y d.poolQueue).probing e X k T = d.probing e X k T := by
  simp only [State.probing, State.form, tset_tset_same]
  rfl

/-- An entry with its probes out issues its READ. -/
theorem issueRead_probing (hq : q.length < 32) (hw : d.issueWait = []) :
    ((State.form d ns es e Y q).probing e X k T).issueRead e
      = { (State.form d ns es e Y q).probing e { X with poolOp := .readOut } k T with
          poolQueue := q ++ [⟨.entry e, X.line, none⟩] } := by
  have hform : (State.form d ns es e Y q).probing e X k T = State.form d (Vector.ofFn (fun m => if NodeSet.has T m then
      { tget ns m with outQ := (tget ns m).outQ ++ [.probe k e X.line] } else tget ns m)) es e
      { X with probes := Vector.ofFn (fun m => if NodeSet.has T m then madeProbe k else X.probe m) } q := by
    simp only [State.probing, State.form, tset_tset_same]
    rfl
  rw [hform, form_issueRead _ _ _ _ _ _ hq hw]
  simp only [State.probing, State.form, tset_tset_same]
  rfl

end

/-- An entry with probes out does not end its GATHER. -/
theorem gatherDone_probing {s : State} {e : EntryId} {x : Entry} {k : ProbeKind} {T : NodeSet} (hT : T ≠ 0) :
    ((s.probing e x k T).entry e).gatherDone = false := by
  obtain ⟨m, hm⟩ := exists_has hT
  exact gatherDone_false (probing_unanswered e hm)

theorem single_ne_zero : ∀ m : NodeId, NodeSet.single m ≠ 0 := by decide

/-- A kind that is not UPGRADE is decided by its request. -/
theorem decidedKind_same {kind : WorkKind} (h : kind ≠ .upgrade) (n : NodeId) (d : Snapshot) :
    decidedKind kind n d = kind := by
  cases kind with
  | upgrade => exact absurd rfl h
  | _ => rfl

theorem without_reaches {s : State} {T : NodeSet} (h : s.reaches T) (n : NodeId) : s.reaches (NodeSet.without T n) :=
  fun m hm => h m (has_and T _ m hm)

/-- A coherent request whose work over an unpinned HIT leaves it gathering. -/
theorem exec_begins_gathers {s v : State} {n : NodeId} {tag : Tag} {l : LineAddr} {e : EntryId} {c : Instr} {b : ReqBody}
    {kind k : WorkKind} {w : WayNo} {st : DirState} {T : NodeSet} (hrow : (c, b, kind) ∈ coherentRequests l)
    (hc : s.choice = some (.request n ⟨tag, b⟩)) (hd : s.decodeRefusal n b = none) (hfree : s.freeEntry = some e)
    (hactive : s.activeOn l = none) (hwait : ∀ m ∈ s.wayWait, m.entry ≠ e) (hs : (s.dirSet (LineAddr.set l)).sound)
    (hit : (s.dirSet (LineAddr.set l)).hitAt w ⟨LineAddr.tag l, st, T⟩) (hk : decidedKind kind n (.hit st T) = k)
    (hw : (State.form ((s.takeRequest n).setPin (LineAddr.set l) w (.entry e)) (s.takeRequest n).nodes s.entries e
      (Entry.begun kind k n tag l (some w) (.hit st T)) s.poolQueue).startWork e = v)
    (hg : (v.entry e).gatherDone = false) : exec c s = .next v := by
  refine exec_begins (fuel := 1) hrow hc hd hfree hactive hwait hs hit (by decide) ?_
  rw [hk, hw]
  exact run_gathers hg 0

/-! ## Seeking a way -/

section
variable {D : State} {e : EntryId} {X : Entry} {rd : SetRead} {ts : List Task} {nts : List Notice}

/-- An entry that seeks a way of a set nobody sought a way of is served at once (R79, R81). -/
theorem seek_oldest (hwait : ∀ m ∈ D.wayWait, m.entry ≠ e)
    (hold : ∀ m ∈ D.wayWait, m.cond.seeks = true → D.setOf m.entry ≠ LineAddr.set X.line) :
    Work.seek ⟨State.form D D.nodes D.entries e X D.poolQueue, ts, nts⟩ e rd
      = Work.serve ⟨State.form { D with wayWait := D.wayWait ++ [⟨e, .behind⟩] } D.nodes D.entries e
        { X with phase := .wayWait } D.poolQueue, ts, nts⟩ e rd := by
  obtain ⟨holdest, hdemote⟩ := (form_oldest { D with wayWait := D.wayWait ++ [⟨e, .behind⟩] } D.nodes D.entries e
    { X with phase := .wayWait } D.poolQueue (s := D) (c := .behind) rfl hwait rfl rfl).1 hold
  have hset : (State.form D D.nodes D.entries e X D.poolQueue).setOf e = LineAddr.set X.line := by
    rw [State.setOf, form_entry]
  simp only [Work.seek, Work.mod, form_wait, setCond_joins e hwait, hset]
  rw [if_pos (by rw [holdest]; rfl), hdemote]

/-- A seeker stands BEHIND an older one of its set (R79, R81). -/
theorem seek_behind (hwait : ∀ m ∈ D.wayWait, m.entry ≠ e)
    (hold : ∃ m ∈ D.wayWait, m.cond.seeks = true ∧ D.setOf m.entry = LineAddr.set X.line) :
    Work.seek ⟨State.form D D.nodes D.entries e X D.poolQueue, ts, nts⟩ e rd
      = ⟨State.form { D with wayWait := D.wayWait ++ [⟨e, .behind⟩] } D.nodes D.entries e
        { X with phase := .wayWait } D.poolQueue, ts, nts⟩ := by
  have holder := (form_oldest { D with wayWait := D.wayWait ++ [⟨e, .behind⟩] } D.nodes D.entries e
    { X with phase := .wayWait } D.poolQueue (s := D) (c := .behind) rfl hwait rfl rfl).2 hold
  have hset : (State.form D D.nodes D.entries e X D.poolQueue).setOf e = LineAddr.set X.line := by
    rw [State.setOf, form_entry]
  simp only [Work.seek, Work.mod, form_wait, setCond_joins e hwait, hset]
  exact if_neg holder

/-- A seeker served while no recall runs for it takes the least recent free way and begins its work (R82). -/
theorem serve_takes {w : WayNo} {L : List Member} (hD : D.wayWait = L ++ [⟨e, .behind⟩]) (hL : ∀ m ∈ L, m.entry ≠ e)
    (hun : rd.unreadable = []) (hall : rd.allQuarantined = false)
    (hway : rd.freeWay (D.dirSet (LineAddr.set X.line)).order = some w) (hk : X.kind ≠ .recall)
    (hben : ∀ f, f ≠ e → (D.entry f).phase ≠ .free → (D.entry f).kind = .recall → (D.entry f).beneficiary ≠ some e) :
    Work.serve ⟨State.form D D.nodes D.entries e X D.poolQueue, ts, nts⟩ e rd
      = ⟨(State.form { D.setPin (LineAddr.set X.line) w (.entry e) with wayWait := L } D.nodes D.entries e
          { X with phase := .gather, snapshot := some .miss, way := some w
                   kind := decidedKind X.kind X.originNode .miss } D.poolQueue).startWork e,
        .checkGather e :: ts, nts ++ [.oldestLeft (LineAddr.set X.line)]⟩ := by
  have hset : (State.form D D.nodes D.entries e X D.poolQueue).setOf e = LineAddr.set X.line := by
    rw [State.setOf, form_entry]
  have horder : ((State.form D D.nodes D.entries e X D.poolQueue).dirSet (LineAddr.set X.line)).order
      = (D.dirSet (LineAddr.set X.line)).order := rfl
  have hdrop := (form_dropBeneficiary D D.nodes D.entries e X D.poolQueue hk hben).2
  have hpin : (State.form D D.nodes D.entries e X D.poolQueue).setPin (LineAddr.set X.line) w (.entry e)
      = State.form (D.setPin (LineAddr.set X.line) w (.entry e)) D.nodes D.entries e X D.poolQueue := rfl
  have hleave : (State.form (D.setPin (LineAddr.set X.line) w (.entry e)) D.nodes D.entries e X D.poolQueue).leaveList e
      = State.form { D.setPin (LineAddr.set X.line) w (.entry e) with wayWait := L } D.nodes D.entries e X
        D.poolQueue := by
    have hfilter : (L ++ [(⟨e, .behind⟩ : Member)]).filter (fun m => decide (m.entry ≠ e)) = L := by
      rw [List.filter_append, List.filter_eq_self.2 (fun m hm => by simpa using hL m hm)]
      simp
    have hlist : (State.form (D.setPin (LineAddr.set X.line) w (.entry e)) D.nodes D.entries e X D.poolQueue).wayWait
        = L ++ [⟨e, .behind⟩] := hD
    rw [State.leaveList, hlist, hfilter]
    rfl
  simp only [Work.serve, hun, hall, hset, horder, hway, hdrop, hpin, Work.mod, Work.begin, Work.push, Work.note,
    State.beginWork, State.leaveWait, hleave, form_mod, ne_eq, not_true_eq_false, if_false, Bool.false_eq_true,
    List.cons_append, List.nil_append]

end

/-- A set that nobody seeks a way of has nobody to serve. -/
theorem run_oldestLeft {u : State} {k : SetIdx} (h : u.oldestSeeker k = none) (fuel : Nat) :
    Work.run (fuel + 1) ⟨u, [], [.oldestLeft k]⟩ = some u := by
  have hserve : Work.notice ⟨u, [], []⟩ (.oldestLeft k) = ⟨u, [], []⟩ := by
    change Work.serveFresh _ _ _ = _
    simp only [Work.serveFresh, h]
  rw [run_notice, hserve, run_rest]

/-- Settles O36: the work each request starts with, by the record its read finds. -/
theorem fetchesAndPlainReadsReadThePool : Obligations.FetchesAndPlainReadsReadThePool := by
  refine ⟨?shared, ?plainRead, ?probes, ?miss, ?full⟩
  case shared =>
    intro s n tag l e w T c b kind hrow hc hd hfree hactive hport hs hit hwait
    have hmem : (c, b, kind) ∈ coherentRequests l := by
      rcases hrow with ⟨rfl, rfl, rfl⟩ | ⟨rfl, rfl, rfl, -⟩ <;> simp [coherentRequests]
    have hk : kind = .fetchS ∨ (kind = .fetchH ∧ T = NodeSet.single n) := by
      rcases hrow with ⟨-, -, rfl⟩ | ⟨-, -, rfl, hT⟩
      · exact .inl rfl
      · exact .inr ⟨rfl, hT⟩
    have hne : kind ≠ .upgrade := by
      rcases hk with rfl | ⟨rfl, -⟩ <;> decide
    refine exec_begins_gathers hmem hc hd hfree hactive hwait hs hit (decidedKind_same hne ..)
      ((startWork_readsShared (form_entry ..) hk rfl).trans (form_issueRead _ _ _ _ _ _ hport.1 hport.2)) ?_
    exact gatherDone_of_table rfl (by simp)
  case plainRead =>
    intro s n tag l e hc hd hfree hactive hport
    rw [exec_plainRead hc hd hfree hactive]
    exact settle_read (u := s.takeRequest n) (x := requestEntry .plainRead n tag l false 0 0) rfl
      (fun v hv => startWork_plainRead hv rfl) hport
  case probes =>
    intro s n h tag l e w st T c b kind hrow ha hs hit taken x others
    obtain ⟨hc, hd, hfree, hactive, hwait, -⟩ := ha
    have hstart : ∀ {k v}, decidedKind kind n (.hit st T) = k → (State.form taken (s.takeRequest n).nodes s.entries e
        (x k) s.poolQueue).startWork e = v → (v.entry e).gatherDone = false → exec c s = .next v :=
      fun hk hw hg => exec_begins_gathers hrow hc hd hfree hactive hwait hs hit hk hw hg
    have hreach : ∀ {S}, s.reaches S → ∀ m, NodeSet.has S m = true →
        (tget (s.takeRequest n).nodes m).joined = true ∧ (tget (s.takeRequest n).nodes m).link ≠ .down := by
      intro S hS m hm
      obtain ⟨hj, hl⟩ := hS m hm
      exact ⟨(takeRequest_joined s n m).trans hj, (takeRequest_link s n m).trans_ne hl⟩
    have hprobing : ∀ (X Y : Entry) k S, (State.form taken (s.takeRequest n).nodes s.entries e X s.poolQueue).probing e Y k S
        = taken.probing e Y k S := fun X Y k S => probing_form taken e Y X k S
    refine ⟨?shared, ?held⟩
    case shared =>
      rintro rfl hre
      refine ⟨fun hkind hport => ?_, fun hkind hmem hothers => ?_, fun hkind hT => ?_⟩
      · have hk : decidedKind kind n (.hit .shared T) = .fetchH := by
          rcases hkind with rfl | ⟨rfl, hmem⟩
          · rfl
          · simp [decidedKind, hmem]
        refine hstart hk ?_ (gatherDone_of_table rfl (by simp))
        have hdrop : (State.form taken (s.takeRequest n).nodes s.entries e (x .fetchH) s.poolQueue).startWork e
            = ((State.form taken (s.takeRequest n).nodes s.entries e (x .fetchH) s.poolQueue).dropAll e others).issueRead e := by
          simp only [State.startWork, form_entry]
          rfl
        rw [hdrop, form_dropAll _ _ _ _ _ _ _ (hreach (without_reaches hre n)),
          issueRead_probing taken _ _ _ _ _ _ _ _ hport.1 hport.2, hprobing]
        rfl
      · have hk : decidedKind kind n (.hit .shared T) = .upgrade := by simp [hkind, decidedKind, hmem]
        refine hstart hk ?_ (gatherDone_probing hothers)
        have hdrop : (State.form taken (s.takeRequest n).nodes s.entries e (x .upgrade) s.poolQueue).startWork e
            = (State.form taken (s.takeRequest n).nodes s.entries e (x .upgrade) s.poolQueue).dropAll e others := by
          simp only [State.startWork, form_entry]
          rfl
        rw [hdrop, form_dropAll _ _ _ _ _ _ _ (hreach (without_reaches hre n)), hprobing]
      · subst hkind
        refine hstart rfl ?_ (gatherDone_probing hT)
        rw [form_startWork_flush (st := .shared) rfl rfl nofun (hreach hre), hprobing]
        rfl
    case held =>
      rintro rfl rfl
      have hholder : ∀ {k p}, h ≠ n → s.reaches (NodeSet.single h) → decidedKind kind n (.hit .held (NodeSet.single h)) = k →
          (State.form taken (s.takeRequest n).nodes s.entries e (x k) s.poolQueue).startWork e
            = (State.form taken (s.takeRequest n).nodes s.entries e (x k) s.poolQueue).makeProbe e p h →
          exec c s = .next (taken.probing e (x k) p (NodeSet.single h)) := by
        intro k p hne hre hk hw
        obtain ⟨hj, hl⟩ := hreach hre h (by simp [has_single])
        refine hstart hk ?_ (gatherDone_probing (single_ne_zero h))
        rw [hw, form_probeOne _ _ _ _ _ _ _ _ hj hl, hprobing]
      have hother : ∀ {α : Type} (a b : α), h ≠ n → (if NodeSet.holder (NodeSet.single h) = n then a else b) = b :=
        fun a b hne => if_neg (by rwa [holder_single])
      refine ⟨fun hne hre => ⟨fun hkind => ?_, fun hkind => ?_⟩, fun hre hkind => ?_, fun heq hkind => ?_⟩
      · subst hkind
        refine hholder hne hre rfl ?_
        simp only [State.startWork, form_entry]
        exact (hother _ _ hne).trans (by rw [holder_single])
      · have hk : decidedKind kind n (.hit .held (NodeSet.single h)) = .fetchH := by
          rcases hkind with rfl | rfl
          · rfl
          · exact hother _ _ hne
        refine hholder hne hre hk ?_
        simp only [State.startWork, form_entry]
        exact (hother _ _ hne).trans (by rw [holder_single])
      · subst hkind
        refine hstart rfl ?_ (gatherDone_probing (single_ne_zero h))
        rw [form_startWork_flush (st := .held) rfl rfl (fun _ => ⟨h, rfl⟩) (hreach hre), hprobing]
        rfl
      · subst heq
        have hne : kind ≠ .upgrade := by
          rcases hkind with rfl | rfl <;> decide
        refine hstart (decidedKind_same hne ..) ?_ ?_
        · have hawait : (State.form taken (s.takeRequest h).nodes s.entries e (x kind) s.poolQueue).startWork e
              = (State.form taken (s.takeRequest h).nodes s.entries e (x kind) s.poolQueue).await e h := by
            rcases hkind with rfl | rfl <;> simp only [State.startWork, form_entry] <;> exact if_pos (holder_single h)
          have hlink : (tget (s.takeRequest h).nodes h).link = (s.node h).link := takeRequest_link s h h
          rw [hawait, form_await _ _ _ _ _ _ _ rfl, hlink]
          rfl
        · exact gatherDone_of_awaited (congrArg Entry.awaited (tget_tset_same s.entries e _) :)
  case miss =>
    intro s n tag l e w c b kind k hrow hkind ha hport hs hmiss hfirst hnone
    obtain ⟨hc, -, -, -, hwait, hben⟩ := id ha
    have hk : decidedKind kind n .miss = k ∧ (k = .fetchS ∨ k = .fetchH) ∧ kind ≠ .flush := by
      rcases hkind with ⟨rfl, rfl⟩ | ⟨rfl | rfl, rfl⟩ <;> simp [decidedKind]
    obtain ⟨hdecided, hfetch, hflush⟩ := hk
    have hrecall : k ≠ .recall := by
      rcases hfetch with rfl | rfl <;> decide
    set taken := s.takeRequest n with htaken
    have hall : (taken.readSet (LineAddr.set l) .activation kind.msgKind).2.allQuarantined = false := by
      rw [← Bool.not_eq_true, allQuarantined_sound (s := taken) (k := LineAddr.set l) hs]
      exact fun hq => absurd (hq w) (by rw [show (taken.way (LineAddr.set l) w).quarantined = false from hfirst.1.1]; simp)
    refine exec_misses e (fuel := 3) hrow hflush ha hs hmiss (by decide) ?_
    set X : Entry := { requestEntry kind n tag l false 0 0 with
      kind := decidedKind kind n .miss, snapshot := some .miss } with hX
    change Work.run 3 (if (taken.readSet (LineAddr.set l) .activation kind.msgKind).2.allQuarantined then _ else
      Work.seek ⟨State.form taken taken.nodes taken.entries e X taken.poolQueue, [], []⟩ e
        (taken.readSet (LineAddr.set l) .activation kind.msgKind).2) = _
    rw [hall, if_neg Bool.false_ne_true]
    have hseek := seek_oldest (D := taken) (X := X) (ts := []) (nts := [])
      (rd := (taken.readSet (LineAddr.set l) .activation kind.msgKind).2) hwait hnone
    have htake := serve_takes (D := { taken with wayWait := taken.wayWait ++ [⟨e, .behind⟩] })
      (X := { X with phase := .wayWait }) (ts := []) (nts := [])
      (rd := (taken.readSet (LineAddr.set l) .activation kind.msgKind).2) rfl hwait
      (unreadable_sound (s := taken) (k := LineAddr.set l) hs .activation kind.msgKind) hall
      (freeWay_first (s := taken) (k := LineAddr.set l) hs hfirst .activation kind.msgKind) (by rwa [hX, hdecided])
      (fun f _ => hben f)
    refine (congrArg (Work.run 3) (hseek.trans htake)).trans ?_
    set u : State := { taken.setPin (LineAddr.set l) w (.entry e) with wayWait := s.wayWait } with hu
    set Y : Entry := { Entry.begun kind k n tag l (some w) .miss with poolOp := .readOut } with hY
    have hstart : (State.form u taken.nodes s.entries e (Entry.begun kind k n tag l (some w) .miss)
        s.poolQueue).startWork e = State.form u taken.nodes s.entries e Y (s.poolQueue ++ [⟨.entry e, l, none⟩]) :=
      (startWork_missRead (form_entry ..) hfetch rfl).trans (form_issueRead _ _ _ _ _ _ hport.1 hport.2)
    have hkind' : decidedKind (decidedKind kind n .miss) n .miss = k := by
      rw [hdecided]
      exact decidedKind_same (by rcases hfetch with rfl | rfl <;> decide) n .miss
    have hbegun : ({ X with phase := .gather, snapshot := some .miss, way := some w
                            kind := decidedKind X.kind X.originNode .miss } : Entry)
        = Entry.begun kind k n tag l (some w) .miss := by
      rw [← hkind']
      rfl
    change Work.run 3 ⟨(State.form u taken.nodes s.entries e { X with
      phase := .gather, snapshot := some .miss, way := some w, kind := decidedKind X.kind X.originNode .miss }
      s.poolQueue).startWork e, [.checkGather e], [.oldestLeft (LineAddr.set l)]⟩ = _
    rw [hbegun, hstart, run_task, idle_checkGather (.inr (gatherDone_of_table rfl (by simp [hY]))) _ rfl,
      run_oldestLeft (form_oldest_none u taken.nodes s.entries e Y _ (s := s) rfl hwait rfl hnone)]
    rfl
  case full =>
    intro s n tag l e hport waiting
    refine ⟨fun hc hd hfree hactive => ?_, fun w T c b kind hrow ha hk hs hit => ?_⟩
    · rw [exec_plainRead hc hd hfree hactive]
      refine settle_started rfl ((startWork_plainRead (form_entry ..) rfl).trans (form_issueRead_waits hport rfl)) ?_
      exact gatherDone_of_table rfl (by simp)
    · obtain ⟨hc, hd, hfree, hactive, hwait, -⟩ := ha
      have hne : kind ≠ .upgrade := by
        rcases hk with rfl | ⟨rfl, -⟩ <;> decide
      refine exec_begins_gathers hrow hc hd hfree hactive hwait hs hit (decidedKind_same hne ..)
        ((startWork_readsShared (form_entry ..) hk rfl).trans (form_issueRead_waits hport rfl)) ?_
      exact gatherDone_of_table rfl (by simp)

end Sys2Proof.Machine

/-! UPGRADE, FLUSH and returns that are answered as they activate (chapter 6; R45, R56, R57, R69, R70). -/

namespace Sys2Proof.Machine

/-! ## The end of a step in which an entry's GATHER ends -/

/-- An entry with a way completes in a state that holds it in its table. -/
theorem run_complete_form {u : State} {N : Vector Node 4} {e : EntryId} {X : Entry} {w : WayNo} {r : Option Record}
    (hst : u.status = .ready) (hwf : Directory.wf u.dir) (hw : X.way = some w) (hs : X.successor = none)
    (hk : X.kind ≠ .recall) (hp : X.posted = false)
    (hr : X.finalRecord (State.form u N u.entries e X u.poolQueue).lostNodes = r)
    (hrw : ∀ q, r = some q → q.wellFormed = true) (hph : X.phase = .finish) (hfd : X.finishDone = true)
    (hwait : ∀ m ∈ u.wayWait, m.entry ≠ e) (hq : u.quiet (LineAddr.set X.line) w) :
    ∃ t, Work.run 8 ⟨State.form u N u.entries e X u.poolQueue, [.checkFinish e], []⟩ = some t
      ∧ CompletedIn { u with nodes := N } t e (LineAddr.set X.line) w r := by
  obtain ⟨hsets, hstall⟩ := hq
  have hquiet : (State.form u N u.entries e X u.poolQueue).quiet (LineAddr.set X.line) w :=
    ⟨fun m hm => by rw [form_setOf _ _ _ _ _ _ rfl (hwait m hm)]; exact hsets m hm, hstall⟩
  obtain ⟨t, hrun, hcompleted⟩ := run_complete (z := State.form u N u.entries e X u.poolQueue) (form_entry ..) hst hwf hw
    rfl hs (fun h => absurd h hk) hp hr hrw hph hfd hquiet
  exact ⟨t, hrun, completedIn_entry (X := X) hcompleted⟩

/-- A pinned way leaves the directory canonical. -/
theorem wf_setPin {s : State} (h : Directory.wf s.dir) (k : SetIdx) (w : WayNo) (p : Pin) :
    Directory.wf (s.setPin k w p).dir := Directory.wf_putDirSet h _ _

theorem gatherDone_begun (kind k : WorkKind) (n : NodeId) (tag : Tag) (l : LineAddr) (w : Option WayNo) (d : Snapshot) :
    (Entry.begun kind k n tag l w d).gatherDone = true :=
  (gatherDone_iff _).2 ⟨(by decide : ∀ m, (Entry.free.probe m).unanswered = false), rfl, rfl⟩

theorem writeOwed_none (s : State) (e : EntryId) : s.writeOwed e none = s := rfl

/-- An entry that was FREE before the step is FREE as it was. -/
theorem form_freeUp_restored {d : State} {ns : Vector Node 4} {e : EntryId} {X : Entry} (h : d.entry e = Entry.free) :
    (State.form d ns d.entries e X d.poolQueue).freeUp e = { d with nodes := ns } := by
  have hform := (form_eq e { d with nodes := ns }).symm
  have hentry : ({ d with nodes := ns } : State).entry e = Entry.free := h
  rw [hentry] at hform
  rw [State.freeUp, form_setEntry]
  exact hform

/-- An UPGRADE over SHARED by its own node alone probes nobody (R56). -/
theorem startWork_upgradeAlone {v : State} {e : EntryId} {x : Entry} {n : NodeId} (hx : v.entry e = x)
    (hk : x.kind = .upgrade) (hs : x.snapshot = some (.hit .shared (NodeSet.single n))) (hn : x.originNode = n) :
    v.startWork e = v := by
  have halone : ∀ n : NodeId, NodeSet.members (NodeSet.without (NodeSet.single n) n) = [] := by decide
  simp only [State.startWork, hx, hk, hs, hn, State.dropAll, halone, List.foldl_nil]

/-- An UPGRADE over HELD by its own node raises a PROTOCOL event (R56). -/
theorem startWork_upgradeHeld {v : State} {e : EntryId} {x : Entry} {T : NodeSet} (hx : v.entry e = x)
    (hk : x.kind = .upgrade) (hs : x.snapshot = some (.hit .held T)) : v.startWork e = v.raise .protocol
      { node := some x.originNode, tag := some x.originTag, kind := some .upgrade, place := some (.line x.line)
        detail := some .state } := by
  simp only [State.startWork, hx, hk, hs]

/-- Settles O37: each of the three ends its GATHER as it activates. -/
theorem upgradeAndFlushAnsweredAtOnce : Obligations.UpgradeAndFlushAnsweredAtOnce := by
  refine ⟨fun s n tag l e w hc hd hfree hactive hs hit hwait => ?grant,
    fun s n tag l e hc hd hfree hentry hactive hs hmiss hwait => ?flush, fun s n tag l e w hst hwf ha hs hit hq => ?state⟩
  case grant =>
    intro taken
    have hlink : (tget (s.takeRequest n).nodes n).link ≠ .down := (takeRequest_link s n n).trans_ne (choice_request hc).1
    have hdecided : decidedKind .upgrade n (.hit .shared (NodeSet.single n)) = .upgrade := by
      simp [decidedKind, has_single]
    refine exec_begins (kind := .upgrade) (fuel := 2) (by simp [coherentRequests]) hc hd hfree hactive hwait hs hit (by decide) ?_
    rw [hdecided, startWork_upgradeAlone (n := n) (form_entry ..) rfl rfl rfl,
      run_endGather (by rw [form_entry]; rfl) (by rw [form_entry]; exact gatherDone_begun ..),
      form_endGather_reply rfl rfl hlink]
    change Work.run 1 ⟨State.writeOwed _ e none, _, _⟩ = _
    rw [writeOwed_none]
    exact run_idle_one (idle_checkFinish (.inr (by rw [form_entry]; rfl))) 0
  case flush =>
    intro taken
    have hlink : (tget taken.nodes n).link ≠ .down := (takeRequest_link s n n).trans_ne (choice_request hc).1
    have hasked : (taken.setEntry e (requestEntry .flush n tag l false 0 0)).entry e
        = requestEntry .flush n tag l false 0 0 := tget_tset_same _ _ _
    have hbegins : (taken.setEntry e (requestEntry .flush n tag l false 0 0)).beginWork e .miss none
        = State.form taken taken.nodes taken.entries e (Entry.begun .flush .flush n tag l none .miss) taken.poolQueue := by
      rw [State.beginWork, State.leaveWait, leaveList_none (by exact hwait), setEntry_form, form_mod]
      simp only [State.startWork, form_entry]
      rfl
    rw [exec_activates (kind := .flush) (by simp [coherentRequests]) hc hd hfree hactive]
    refine settle_eq (fuel := 4) (by decide) ?_
    rw [run_task]
    change Work.run 3 (Work.activate _ e) = _
    rw [activate_miss hasked rfl nofun (by exact hs) rfl (by exact hmiss), hbegins,
      run_endGather (by rw [form_entry]; rfl) (by rw [form_entry]; exact gatherDone_begun ..),
      form_endGather_reply rfl rfl hlink]
    refine (finish_plain _ e _ (form_entry ..) rfl rfl (by intro h; cases h) rfl rfl 0).trans ?_
    exact congrArg some (form_freeUp_restored hentry)
  case state =>
    intro u
    obtain ⟨hc, hd, hfree, hactive, hwait, -⟩ := ha
    set D := (s.takeRequest n).setPin (LineAddr.set l) w (.entry e) with hD
    set X := Entry.begun .upgrade .upgrade n tag l (some w) (.hit .held (NodeSet.single n)) with hX
    have hlink : (tget u.nodes n).link ≠ .down :=
      (raise_link D .protocol _ n).trans_ne ((takeRequest_link s n n).trans_ne (choice_request hc).1)
    have hdecided : decidedKind .upgrade n (.hit .held (NodeSet.single n)) = .upgrade := by
      simp [decidedKind, holder_single]
    have hstart : (State.form D (s.takeRequest n).nodes s.entries e X s.poolQueue).startWork e
        = State.form u u.nodes u.entries e X u.poolQueue := by
      rw [startWork_upgradeHeld (x := X) (form_entry ..) rfl rfl]
      refine (form_raise D D.entries e X D.poolQueue .protocol _).trans ?_
      rw [raise_entries, raise_poolQueue]
      rfl
    set N := tset u.nodes n { u.node n with outQ := (u.node n).outQ ++ [OutMsg.refuse tag .state] } with hN
    have hwaits : u.wayWait = s.wayWait := raise_wayWait D .protocol _
    have hentries : u.entries = s.entries := raise_entries D .protocol _
    have hquiet : u.quiet (LineAddr.set l) w := by
      refine ⟨fun m hm => ?_, ?_⟩
      · rw [State.setOf, State.entry, hentries]
        exact hq.1 m (hwaits ▸ hm)
      · exact (congrArg Walker.stall (raise_walker D .protocol _)).trans_ne hq.2
    obtain ⟨t, hrun, hcompleted⟩ := run_complete_form (u := u) (N := N) (e := e) (X := X.finished u.promote) (w := w)
      (r := some ⟨LineAddr.tag l, .held, NodeSet.single n⟩) ((raise_status D .protocol _).trans hst)
      (by rw [show u.dir = D.dir from raise_dir ..]; exact wf_setPin hwf ..) rfl rfl nofun rfl rfl
      (fun q h => by obtain rfl := Option.some.inj h; exact heldBy_wellFormed _ n) rfl rfl (fun m hm => hwait m (hwaits ▸ hm))
      hquiet
    refine ⟨t, exec_begins (kind := .upgrade) (fuel := 9) (by simp [coherentRequests]) hc hd hfree hactive hwait hs hit (by decide) ?_,
      hcompleted⟩
    rw [hdecided]
    change Work.run 9 ⟨(State.form D (s.takeRequest n).nodes s.entries e X s.poolQueue).startWork e, _, _⟩ = _
    rw [hstart, run_endGather (by rw [form_entry]; rfl) (by rw [form_entry]; exact gatherDone_begun ..),
      form_endGather_reply rfl rfl hlink]
    exact hrun

end Sys2Proof.Machine

/-! Entries that queue behind their line's active entry, and entries that wait for a way (chapters 5 and 6; R23, R80,
R124, R125). -/

namespace Sys2Proof.Machine

/-! ## Behind the active entry of a line -/

section
variable {s t : State} {e a last : EntryId} {x : Entry}

/-- An entry allocated for a line with an active entry stands behind the last of the line's chain (R23, R125). -/
theorem allocate_behind (ht : t.entries = s.entries) (hfree : s.freeEntry = some e) (ha : s.activeOn x.line = some a)
    (hc : s.chainTail a = last) (hne : last ≠ e) : t.allocate x = Work.of { t with
      entries := tset (tset s.entries e x) last { s.entry last with successor := some e } } := by
  simp only [State.allocate, freeEntry_congr ht, hfree]
  exact enter_behind ht ha hc hne

theorem mergeTarget_congr (ht : t.entries = s.entries) (n : NodeId) (l : LineAddr) :
    t.mergeTarget n l = s.mergeTarget n l := by
  unfold State.mergeTarget
  rw [activeOn_congr ht]
  cases s.activeOn l with
  | none => rfl
  | some e =>
    have he : t.entry e = s.entry e := by rw [State.entry, ht]; rfl
    simp only [he]

end

theorem damaged_takeRequest_entries (s : State) (us : List DirUpset) (n : NodeId) :
    ((s.damaged us).takeRequest n).entries = s.entries := damaged_entries s us

/-- A request other than a posted write queues without an answer. -/
theorem requests_queue_behind {s : State} {us : List DirUpset} {n : NodeId} {tag : Tag} {l : LineAddr} {c : Instr}
    {b : ReqBody} {kind : WorkKind} {mask : ByteMask} {data : LineData} {e a last : EntryId}
    (hrow : (mask = 0 ∧ data = 0 ∧ ((c = .fetchS us ∧ b = .fetchS l ∧ kind = .fetchS)
        ∨ (c = .fetchH us ∧ b = .fetchH l ∧ kind = .fetchH) ∨ (c = .upgrade us ∧ b = .upgrade l ∧ kind = .upgrade)
        ∨ (c = .flush us ∧ b = .flush l ∧ kind = .flush)
        ∨ (us = [] ∧ c = .plainRead ∧ b = .plainRead l ∧ kind = .plainRead)))
      ∨ (us = [] ∧ mask ≠ 0 ∧ s.postsTo l = false ∧ c = .plainWrite ∧ b = .plainWrite l mask data
        ∧ kind = .plainWrite))
    (hch : (s.damaged us).choice = some (.request n ⟨tag, b⟩)) (hd : (s.damaged us).decodeRefusal n b = none)
    (hfree : s.freeEntry = some e) (ha : s.activeOn l = some a) (hc : s.chainTail a = last) (hne : last ≠ e) :
    exec c s = .next { (s.damaged us).takeRequest n with
      entries := tset (tset s.entries e (requestEntry kind n tag l false mask data)) last
        { s.entry last with successor := some e } } := by
  have hqueue := allocate_behind (x := requestEntry kind n tag l false mask data) (damaged_takeRequest_entries s us n)
    hfree ha hc hne
  rcases hrow with ⟨rfl, rfl, ⟨rfl, rfl, rfl⟩ | ⟨rfl, rfl, rfl⟩ | ⟨rfl, rfl, rfl⟩ | ⟨rfl, rfl, rfl⟩ | ⟨rfl, rfl, rfl, rfl⟩⟩
    | ⟨rfl, hmask, hpost, rfl, rfl, rfl⟩
  · exact show execFetchS us s = _ from admitRequest_of hch hd (congrArg some hqueue)
  · exact show execFetchH us s = _ from admitRequest_of hch hd (congrArg some hqueue)
  · exact show execUpgrade us s = _ from admitRequest_of hch hd (congrArg some hqueue)
  · exact show execFlush us s = _ from admitRequest_of hch hd (congrArg some hqueue)
  · exact show execPlainRead s = _ from admitRequest_of hch hd (congrArg some hqueue)
  · have hadmit : (s.takeRequest n).admitPlainWrite n tag l mask data
        = (s.takeRequest n).allocate (requestEntry .plainWrite n tag l false mask data) := by
      have hpost' : (s.takeRequest n).postsTo l = false := hpost
      simp only [State.admitPlainWrite, hmask, hpost', if_false, Bool.false_eq_true]
    exact show execPlainWrite s = _ from admitRequest_of hch hd (congrArg some (hadmit.trans hqueue))

/-- A posted write that queues is answered and counted first (R98, R99). -/
theorem postedWrite_queues_behind {s : State} {n : NodeId} {tag : Tag} {l : LineAddr} {mask : ByteMask} {data : LineData}
    {e a last : EntryId} (hmask : mask ≠ 0) (hpost : s.postsTo l = true)
    (hch : s.choice = some (.request n ⟨tag, .plainWrite l mask data⟩))
    (hd : s.decodeRefusal n (.plainWrite l mask data) = none) (hfree : s.freeEntry = some e)
    (ha : s.activeOn l = some a) (hc : s.chainTail a = last) (hne : last ≠ e) :
    exec .plainWrite s = .next { (s.takeRequest n).modNode n (fun x => { x with
        outQ := x.outQ ++ [OutMsg.done tag .request false false], posted := x.posted + 1 }) with
      entries := tset (tset s.entries e (requestEntry .plainWrite n tag l true mask data)) last
        { s.entry last with successor := some e } } := by
  have hpost' : (s.takeRequest n).postsTo l = true := hpost
  have hdone : (s.takeRequest n).doneRequest n tag false = (s.takeRequest n).modNode n (fun x => { x with
      outQ := x.outQ ++ [OutMsg.done tag .request false false] }) := doneRequest_takeRequest hch tag false
  have hadmit : (s.takeRequest n).admitPlainWrite n tag l mask data = State.allocate ((s.takeRequest n).modNode n
      (fun x => { x with outQ := x.outQ ++ [OutMsg.done tag .request false false], posted := x.posted + 1 }))
      (requestEntry .plainWrite n tag l true mask data) := by
    simp only [State.admitPlainWrite, hmask, hpost', if_true, if_false]
    rw [hdone, modNode_modNode_same]
  have hqueue := allocate_behind (t := (s.takeRequest n).modNode n (fun x => { x with
      outQ := x.outQ ++ [OutMsg.done tag .request false false], posted := x.posted + 1 })) (s := s)
    (x := requestEntry .plainWrite n tag l true mask data) rfl hfree ha hc hne
  exact show execPlainWrite s = _ from admitRequest_of hch hd (congrArg some (hadmit.trans hqueue))

/-- A return that does not merge queues with its data (R63, R64). -/
theorem return_queues_behind {s : State} {us : List DirUpset} {n : NodeId} {r : RetMsg} {e a last : EntryId}
    (hch : (s.damaged us).choice = some (.ret n r)) (hm : s.mergeTarget n r.line = none) (hfree : s.freeEntry = some e)
    (ha : s.activeOn r.line = some a) (hc : s.chainTail a = last) (hne : last ≠ e) {d : Bool} (hdata : r.data.isSome = d) :
    (s.damaged us).admitReturnRow d = .next { s.damaged us with
      returnPtr := n + 1
      nodes := tset s.nodes n { s.node n with returnQ := (s.node n).returnQ.tail }
      entries := tset (tset s.entries e (returnEntry n r)) last { s.entry last with successor := some e } } := by
  have hentries : ((s.damaged us).takeReturn n).entries = s.entries := damaged_entries s us
  have htaken : (s.damaged us).takeReturn n = { s.damaged us with
      returnPtr := n + 1, nodes := tset s.nodes n { s.node n with returnQ := (s.node n).returnQ.tail } } := by
    rw [State.takeReturn, modNode_damaged]
  have hadmit : ((s.damaged us).takeReturn n).admitReturn n r = Work.of { (s.damaged us).takeReturn n with
      entries := tset (tset s.entries e (returnEntry n r)) last { s.entry last with successor := some e } } := by
    simp only [State.admitReturn, mergeTarget_congr hentries, hm]
    exact allocate_behind (x := returnEntry n r) hentries hfree ha hc hne
  simp only [State.admitReturnRow, hch, hdata, if_true]
  rw [hadmit, settle_of, htaken]

/-! ## What a read decides for an entry -/

section
variable {k : Work} {e : EntryId} {rd : SetRead} {x : Entry} {w : WayNo} {r : Record}

theorem afterRead_hit (hx : k.s.entry e = x) (h : rd.hit (LineAddr.tag x.line) = some (w, r, .none)) :
    k.afterRead e rd = (k.mod (fun s => s.setPin (LineAddr.set x.line) w (.entry e))).begin e (.hit r.state r.sharers)
      (some w) := by
  simp only [Work.afterRead, hx, h, State.setOf]
  rw [← hx]
  rfl

/-- A HIT pinned by another sends the entry to wait for that way. -/
theorem afterRead_pinned {p : Pin} (hx : k.s.entry e = x) (h : rd.hit (LineAddr.tag x.line) = some (w, r, p))
    (hp : p ≠ .none) : k.afterRead e rd = k.mod (fun s => s.wait e (.pin [w])) := by
  cases p with
  | none => exact absurd rfl hp
  | entry f => simp only [Work.afterRead, hx, h]
  | walker => simp only [Work.afterRead, hx, h]

/-- A set that cannot be read whole sends the entry to wait for the ways it cannot read. -/
theorem afterRead_unreadable (hx : k.s.entry e = x) (h : rd.hit (LineAddr.tag x.line) = none) (hu : rd.unreadable ≠ []) :
    k.afterRead e rd
      = k.mod (fun s => (s.modEntry e (fun x => { x with snapshot := some .miss })).wait e (.pin rd.unreadable)) := by
  simp only [Work.afterRead, hx, h, hu, ne_eq, not_false_eq_true, if_true]

theorem afterRead_begins (hx : k.s.entry e = x) (h : rd.hit (LineAddr.tag x.line) = none) (hu : rd.unreadable = [])
    (hn : x.kind.needsWay = false) : k.afterRead e rd = k.begin e .miss none := by
  simp only [Work.afterRead, hx, h, hu, hn, ne_eq, not_true_eq_false, Bool.false_eq_true, if_false]

/-- The kind a miss decides. -/
theorem decidedKind_miss (kind : WorkKind) (n : NodeId) :
    decidedKind kind n .miss = if kind = .upgrade then .fetchH else kind := by
  cases kind <;> rfl

theorem afterRead_needsWay (hx : k.s.entry e = x) (h : rd.hit (LineAddr.tag x.line) = none) (hu : rd.unreadable = [])
    (hn : x.kind.needsWay = true) : k.afterRead e rd =
      let sought := k.mod (fun s => s.modEntry e (fun x =>
        { x with kind := if x.kind = .upgrade then .fetchH else x.kind, snapshot := some .miss }))
      if rd.allQuarantined then sought.dirFault e else sought.seek e rd := by
  simp only [Work.afterRead, hx, h, hu, hn, decidedKind_miss, ne_eq, not_true_eq_false, if_false, if_true]

end

/-- A PIN member told of another way does nothing (R80). -/
theorem reread_other {k : Work} {e : EntryId} {w : WayNo} {ws : List WayNo}
    (hc : k.s.wayWait.find? (fun m => decide (m.entry = e)) = some ⟨e, .pin ws⟩) (h : w ∉ ws) : k.reread e w = k := by
  simp only [Work.reread, State.condOf, hc, Option.map_some, List.contains_eq_mem, h, decide_false, Bool.false_eq_true,
    if_false]

/-- A PIN member told of a way it waits for reads its set again (R80). -/
theorem reread_mem {k : Work} {e : EntryId} {w : WayNo} {ws : List WayNo} {x : Entry}
    (hc : k.s.wayWait.find? (fun m => decide (m.entry = e)) = some ⟨e, .pin ws⟩) (h : w ∈ ws) (hx : k.s.entry e = x) :
    k.reread e w = Work.afterRead ⟨(k.s.readSet (LineAddr.set x.line) .wayWait x.kind.msgKind).1, k.stack, k.notices⟩ e
      (k.s.readSet (LineAddr.set x.line) .wayWait x.kind.msgKind).2 := by
  simp only [Work.reread, State.condOf, hc, Option.map_some, List.contains_eq_mem, h, decide_true, if_true, read_eq,
    State.setOf, hx]

/-- Over a sound set the read changes nothing. -/
theorem reread_sound {k : Work} {e : EntryId} {w : WayNo} {ws : List WayNo} {x : Entry}
    (hc : k.s.wayWait.find? (fun m => decide (m.entry = e)) = some ⟨e, .pin ws⟩) (h : w ∈ ws) (hx : k.s.entry e = x)
    (hs : (k.s.dirSet (LineAddr.set x.line)).sound) :
    k.reread e w = k.afterRead e (k.s.readSet (LineAddr.set x.line) .wayWait x.kind.msgKind).2 := by
  rw [reread_mem hc h hx, (readSet_sound hs .wayWait x.kind.msgKind).1]

end Sys2Proof.Machine

/-! A seeker that finds no free way, and a return as it activates (chapters 5 and 6; R69, R70, R81 to R84). -/

namespace Sys2Proof.Machine

/-! ## A seeker served without a free way -/

section
variable {D : State} {e : EntryId} {X : Entry} {rd : SetRead} {ts : List Task} {nts : List Notice} {L : List Member}

/-- A seeker placed at the list's tail in condition c. -/
def State.sought (D : State) (e : EntryId) (X : Entry) (L : List Member) (c : WaitCond) : State :=
  State.form { D with wayWait := L ++ [⟨e, c⟩] } D.nodes D.entries e { X with phase := .wayWait } D.poolQueue

theorem entry_sought (c : WaitCond) : (D.sought e X L c).entry e = { X with phase := .wayWait } := form_entry ..

theorem setOf_sought (c : WaitCond) : (D.sought e X L c).setOf e = LineAddr.set X.line := by
  rw [State.setOf, entry_sought]

theorem dirSet_sought (c : WaitCond) (k : SetIdx) : (D.sought e X L c).dirSet k = D.dirSet k := rfl

theorem wait_sought (hL : ∀ m ∈ L, m.entry ≠ e) (c c' : WaitCond) :
    (D.sought e X L c).wait e c' = D.sought e X L c' := by
  rw [State.sought, form_wait]
  simp only [setCond_last e hL]
  rfl

theorem recallFor_sought (hk : X.kind ≠ .recall)
    (hben : ∀ f, f ≠ e → (D.entry f).phase ≠ .free → (D.entry f).kind = .recall → (D.entry f).beneficiary ≠ some e)
    (c : WaitCond) : (D.sought e X L c).recallFor e = none :=
  (form_dropBeneficiary _ D.nodes D.entries e { X with phase := .wayWait } D.poolQueue hk hben).1

/-- With no free way and no recall running for it a seeker waits by what its set and the table offer (R82, cases 4 to
6). -/
theorem serve_waits (hL : ∀ m ∈ L, m.entry ≠ e) (hk : X.kind ≠ .recall)
    (hben : ∀ f, f ≠ e → (D.entry f).phase ≠ .free → (D.entry f).kind = .recall → (D.entry f).beneficiary ≠ some e)
    (hun : rd.unreadable = []) (hall : rd.allQuarantined = false)
    (hfree : rd.freeWay (D.dirSet (LineAddr.set X.line)).order = none) (c : WaitCond) :
    (rd.victim (D.dirSet (LineAddr.set X.line)).order = none →
      Work.serve ⟨D.sought e X L c, ts, nts⟩ e rd = ⟨D.sought e X L .blocked, ts, nts⟩)
    ∧ ∀ v r, rd.victim (D.dirSet (LineAddr.set X.line)).order = some (v, r) →
      ((D.sought e X L c).recallAvailable = false →
        Work.serve ⟨D.sought e X L c, ts, nts⟩ e rd = ⟨D.sought e X L .stalled, ts, nts⟩)
      ∧ ((D.sought e X L c).recallAvailable = true → Work.serve ⟨D.sought e X L c, ts, nts⟩ e rd
          = Work.recall ⟨D.sought e X L .recalling, ts, nts⟩ (LineAddr.set X.line) v r .all (some e) .wayWait) := by
  refine ⟨fun hv => ?_, fun v r hv => ⟨fun hr => ?_, fun hr => ?_⟩⟩
  · simp only [Work.serve, hun, hall, setOf_sought, dirSet_sought, hfree, recallFor_sought hk hben, hv, Work.mod,
      wait_sought hL, ne_eq, not_true_eq_false, if_false, Bool.false_eq_true, Option.isSome_none]
  · simp only [Work.serve, hun, hall, setOf_sought, dirSet_sought, hfree, recallFor_sought hk hben, hv, hr, Work.mod,
      wait_sought hL, ne_eq, not_true_eq_false, if_false, Bool.false_eq_true, Option.isSome_none]
  · simp only [Work.serve, hun, hall, setOf_sought, dirSet_sought, hfree, recallFor_sought hk hben, hv, hr, Work.mod,
      wait_sought hL, ne_eq, not_true_eq_false, if_false, if_true, Bool.false_eq_true, Option.isSome_none]

end

/-- What a seeker that finds no free way does as it is admitted (R81 to R84). -/
theorem seeker_waits {s : State} {n : NodeId} {tag : Tag} {l : LineAddr} {e : EntryId} {c : Instr} {b : ReqBody}
    {kind k : WorkKind} (hrow : (c, b, kind) ∈ coherentRequests l)
    (hkind : (kind = .fetchS ∧ k = .fetchS) ∨ ((kind = .fetchH ∨ kind = .upgrade) ∧ k = .fetchH))
    (ha : s.admits n tag b l e) (hs : (s.dirSet (LineAddr.set l)).sound)
    (hmiss : (s.dirSet (LineAddr.set l)).misses (LineAddr.tag l))
    (hsome : ∃ v, (s.way (LineAddr.set l) v).quarantined = false) :
    let set := LineAddr.set l
    let taken := s.takeRequest n
    let waiting (x : WaitCond) : State := { taken with
      entries := tset s.entries e { Entry.asked kind n tag l with phase := .wayWait, kind := k, snapshot := some .miss }
      wayWait := s.wayWait ++ [⟨e, x⟩] }
    ((∃ m ∈ s.wayWait, m.cond.seeks = true ∧ s.setOf m.entry = set) → exec c s = .next (waiting .behind))
    ∧ ((∀ m ∈ s.wayWait, m.cond.seeks = true → s.setOf m.entry ≠ set) → (∀ v, ¬(s.way set v).free) →
      ((∀ v, ¬(s.way set v).recallable) → exec c s = .next (waiting .blocked))
      ∧ ∀ v r, (s.dirSet set).first Way.recallable v → (s.way set v).written = some r →
        (4 ≤ s.recallsInUse ∨ (∀ f, f ≠ e → (s.entry f).phase ≠ .free) → exec c s = .next (waiting .stalled))
        ∧ ∀ f, s.recallsInUse < 4 → f ≠ e → (s.entry f).phase = .free →
          (∀ g, g < f → g ≠ e → (s.entry g).phase ≠ .free) → s.activeOn (lineOf r.tag set) = none → s.reaches r.sharers →
          exec c s = .next ({ (waiting .recalling).setPin set v (.entry f) with recallMark := .wayWait }.probing f
            { Entry.free with
              phase := .gather, kind := .recall, admitted := .recall, line := lineOf r.tag set, way := some v
              scope := some .all, beneficiary := some e, creation := some r
              snapshot := some (.hit r.state r.sharers) } (recallProbe r.state) r.sharers)) := by
  intro set taken waiting
  obtain ⟨-, -, hfe, -, hwait, hben⟩ := id ha
  have hk : decidedKind kind n .miss = k ∧ (k = .fetchS ∨ k = .fetchH) ∧ kind ≠ .flush := by
    rcases hkind with ⟨rfl, rfl⟩ | ⟨rfl | rfl, rfl⟩ <;> simp [decidedKind]
  obtain ⟨hdecided, hfetch, hflush⟩ := hk
  have hrecall : k ≠ .recall := by
    rcases hfetch with rfl | rfl <;> decide
  set rd := (taken.readSet set .activation kind.msgKind).2 with hrd
  have hun : rd.unreadable = [] := unreadable_sound (s := taken) (k := set) hs .activation kind.msgKind
  have hall : rd.allQuarantined = false := by
    obtain ⟨v, hv⟩ := hsome
    rw [← Bool.not_eq_true, hrd, allQuarantined_sound (s := taken) (k := set) hs]
    exact fun hq => absurd (hq v) (by rw [show (taken.way set v).quarantined = false from hv]; simp)
  set X : Entry := { requestEntry kind n tag l false 0 0 with kind := k, snapshot := some .miss } with hX
  have hsought : ∀ x, taken.sought e X s.wayWait x = waiting x := fun x => rfl
  have hexec : ∀ {t : State} {fuel : Nat}, fuel + 1 ≤ Config.settleBound →
      Work.run fuel (Work.seek ⟨State.form taken taken.nodes taken.entries e X taken.poolQueue, [], []⟩ e rd) = some t →
      exec c s = .next t := by
    intro t fuel hf hrun
    refine exec_misses e hrow hflush ha hs hmiss hf ?_
    change Work.run fuel (if rd.allQuarantined then _ else Work.seek ⟨State.form taken taken.nodes taken.entries e
      { requestEntry kind n tag l false 0 0 with kind := decidedKind kind n .miss, snapshot := some .miss }
      taken.poolQueue, [], []⟩ e rd) = _
    rw [hall, if_neg Bool.false_ne_true, hdecided]
    exact hrun
  refine ⟨fun hold => ?behind, fun hnone hnofree => ?oldest⟩
  case behind =>
    refine hexec (fuel := 0) (by decide) ?_
    rw [seek_behind (D := taken) (X := X) hwait hold]
    exact run_rest 0 _
  case oldest =>
    have hserve : Work.seek ⟨State.form taken taken.nodes taken.entries e X taken.poolQueue, [], []⟩ e rd
        = Work.serve ⟨taken.sought e X s.wayWait .behind, [], []⟩ e rd := seek_oldest (D := taken) (X := X) hwait hnone
    obtain ⟨hblocked, hvictim⟩ := serve_waits (D := taken) (e := e) (X := X) (L := s.wayWait) (ts := []) (nts := [])
      hwait hrecall (fun f _ => hben f) hun hall (freeWay_none (s := taken) (k := set) hs hnofree ..) .behind
    have hefree : (s.entry e).phase = .free := freeEntry_free e hfe
    have hcls : k.cls ≠ .recall := by
      rcases hfetch with rfl | rfl <;> decide
    have hcount : ∀ x, (taken.sought e X s.wayWait x).recallsInUse = s.recallsInUse := fun x =>
      form_recallsInUse _ _ _ _ _ _ rfl hefree hcls
    have hothers : ∀ x g, g ≠ e → (taken.sought e X s.wayWait x).entry g = s.entry g :=
      fun x g hg => form_entry_ne _ _ _ _ _ _ hg
    have hwaits : ∀ x, ((taken.sought e X s.wayWait x).entry e).phase ≠ .free := fun x => by
      rw [entry_sought]
      exact (by decide : Phase.wayWait ≠ .free)
    refine ⟨fun hv => ?blocked, fun v r hfirst hr => ⟨fun hno => ?stalled, fun f hlim hfe' hffree hlow hao hre => ?recalling⟩⟩
    case blocked =>
      refine hexec (fuel := 0) (by decide) ?_
      rw [hserve, hblocked (victim_none (s := taken) (k := set) hs hv ..)]
      exact run_rest 0 _
    case stalled =>
      refine hexec (fuel := 0) (by decide) ?_
      rw [hserve, (hvictim v r (victim_first (s := taken) (k := set) hs hfirst hr ..)).1 ?_]
      · exact run_rest 0 _
      · rw [State.recallAvailable, Bool.and_eq_false_iff, decide_eq_false_iff_not, hcount]
        refine hno.imp (fun h => Nat.not_lt.2 h) (fun h => ?_)
        rw [freeEntry_none (fun g => ?_)]
        · rfl
        · by_cases hg : g = e
          · rw [hg]
            exact hwaits _
          · rw [hothers _ g hg]
            exact h g hg
    case recalling =>
      have hffree' : ∀ x, (taken.sought e X s.wayWait x).freeEntry = some f := fun x => by
        refine freeEntry_of (by rw [hothers x f hfe']; exact hffree) (fun g hg => ?_)
        by_cases hge : g = e
        · rw [hge]
          exact hwaits _
        · rw [hothers _ g hge]
          exact hlow g hg hge
      have havail : (taken.sought e X s.wayWait .behind).recallAvailable = true := by
        rw [State.recallAvailable, hcount, hffree', Bool.and_eq_true, decide_eq_true_eq]
        exact ⟨hlim, rfl⟩
      have hwell : r.wellFormed = true := (hs v).2 r hr
      have htag : r.tag ≠ LineAddr.tag l := (hmiss v).resolve_left (by rw [hfirst.1.1]; simp) r hr
      have hactive : (taken.sought e X s.wayWait .recalling).activeOn (lineOf r.tag set) = none := by
        rw [← hao]
        exact form_activeOn _ _ _ _ _ _ rfl hefree (lineOf_ne htag)
      have hreach : (taken.sought e X s.wayWait .recalling).reaches (scopeNodes (some .all) r.sharers) := fun m hm => by
        obtain ⟨hj, hl⟩ := hre m hm
        exact ⟨(takeRequest_joined s n m).trans hj, (takeRequest_link s n m).trans_ne hl⟩
      have hmade := recall_made (W := taken.sought e X s.wayWait .recalling) (k := set) (v := v) (b := some e)
        (party := .wayWait) (ns := []) (hffree' _) hactive hwell hreach (fun _ => rfl)
      refine hexec (fuel := 1) (by decide) ?_
      rw [hserve, (hvictim v r (victim_first (s := taken) (k := set) hs hfirst hr ..)).2 havail]
      refine (congrArg (Work.run 1) hmade).trans ((run_idle_one (probing_idle (sharers_ne_zero hwell)) 0).trans ?_)
      rw [recallProbe_eq] <;> rfl

end Sys2Proof.Machine

/-! A return that activates (R69, R70), and what the entries of a line's chain and the way-wait list do, taken
together. -/

namespace Sys2Proof.Machine

/-! ## A return that is answered as it activates -/

/-- A return's entry once its work has begun without its data: a RETURN-C, or a RETURN-D whose data is discarded. -/
def Entry.backed (kind : WorkKind) (n : NodeId) (r : RetMsg) (w : Option WayNo) (d : Snapshot) : Entry :=
  { Entry.free with
    phase := .gather, kind := kind, admitted := kind, origin := some ⟨n, r.tag⟩, line := r.line, way := w
    snapshot := some d }

/-- The record that the return of node n leaves of a record (R69). -/
def leftRecord (tag : DirTag) (n : NodeId) (T : NodeSet) : DirState → Option Record
  | .held => if T = NodeSet.single n then none else some ⟨tag, .held, T⟩
  | .shared => if NodeSet.without T n = 0 then none else some ⟨tag, .shared, NodeSet.without T n⟩

section
variable {v : State} {e : EntryId} {kind : WorkKind} {n : NodeId} {r : RetMsg} {w : Option WayNo} {d : Snapshot}

theorem gatherDone_backed : (Entry.backed kind n r w d).gatherDone = true :=
  (gatherDone_iff _).2 ⟨(by decide : ∀ m, (Entry.free.probe m).unanswered = false), rfl, rfl⟩

/-- Its GATHER ends with DONE (R69). -/
theorem endGather_backed (hk : kind = .returnD ∨ kind = .returnC) (hl : (v.node n).link ≠ .down) :
    (State.form v v.nodes v.entries e (Entry.backed kind n r w d) v.poolQueue).endGather e
      = State.form v (tset v.nodes n { v.node n with outQ := (v.node n).outQ ++ [OutMsg.done r.tag .ret false false] })
          v.entries e ((Entry.backed kind n r w d).finished v.promote) v.poolQueue := by
  rcases hk with rfl | rfl <;> exact form_endGather_reply rfl rfl hl

theorem run_backed (hk : kind = .returnD ∨ kind = .returnC) (hl : (v.node n).link ≠ .down) (fuel : Nat) :
    Work.run (fuel + 1) ⟨State.form v v.nodes v.entries e (Entry.backed kind n r w d) v.poolQueue, [.checkGather e], []⟩
      = Work.run fuel ⟨State.form v (tset v.nodes n { v.node n with
          outQ := (v.node n).outQ ++ [OutMsg.done r.tag .ret false false] }) v.entries e
          ((Entry.backed kind n r w d).finished v.promote) v.poolQueue, [.checkFinish e], []⟩ := by
  rw [run_endGather (by rw [form_entry]; rfl) (by rw [form_entry]; exact gatherDone_backed), endGather_backed hk hl]

end

theorem finalRecord_vacant {x : Entry} (h : x.outcome = .vacant) (lost : NodeSet) : x.finalRecord lost = none := by
  simp only [Entry.finalRecord, Entry.outcomeToWrite, h]

/-- An entry that changes nothing writes what it found (R13). -/
theorem finalRecord_noChange {x : Entry} {st : DirState} {T lost : NodeSet} (h : x.outcome = .noChange)
    (hs : x.snapshot = some (.hit st T)) (horph : x.orphaned = false) (hl : st = .shared → T &&& lost = 0)
    (hT : st = .shared → T ≠ 0) : x.finalRecord lost = some ⟨LineAddr.tag x.line, st, T⟩ := by
  have hwrite : x.outcomeToWrite = .record st T := by simp only [Entry.outcomeToWrite, h, hs]
  cases st with
  | shared => simp only [Entry.finalRecord, hwrite, and_not_of_and_zero T lost (hl rfl), hT rfl, if_false]
  | held => simp only [Entry.finalRecord, hwrite, Entry.vacantByLoss, horph, Bool.false_and, Bool.false_eq_true, if_false]

theorem without_and_zero : ∀ (T lost : NodeSet) (n : NodeId), T &&& lost = 0 → NodeSet.without T n &&& lost = 0 := by
  decide

theorem without_of_not_has : ∀ (T : NodeSet) (n : NodeId), NodeSet.has T n = false → NodeSet.without T n = T := by decide

/-- What the completion of a return writes (R26, R69, R70). -/
theorem finalRecord_backed {kind : WorkKind} {n : NodeId} {r : RetMsg} {w : Option WayNo} {st : DirState} {T lost : NodeSet}
    (hk : kind = .returnD ∨ kind = .returnC) (hwell : (⟨LineAddr.tag r.line, st, T⟩ : Record).wellFormed = true)
    (hlost : st = .shared → T &&& lost = 0) (p : Bool) :
    ((Entry.backed kind n r w (.hit st T)).finished p).finalRecord lost = leftRecord (LineAddr.tag r.line) n T st := by
  cases st with
  | held =>
    have hout : ((Entry.backed kind n r w (.hit .held T)).finished p).outcome
        = if NodeSet.holder T = n then .vacant else .noChange := by rcases hk with rfl | rfl <;> rfl
    obtain ⟨m, hm⟩ : ∃ m, T = NodeSet.single m := by
      rcases (wellFormed_iff _).1 hwell with ⟨hshared, -⟩ | ⟨-, hsingle⟩
      · cases hshared
      · exact hsingle
    subst hm
    rw [holder_single] at hout
    by_cases hmn : m = n
    · rw [finalRecord_vacant (hout.trans (if_pos hmn)), hmn]
      exact (if_pos rfl).symm
    · have hne : NodeSet.single m ≠ NodeSet.single n := fun h => hmn (by rw [← holder_single m, h, holder_single])
      rw [finalRecord_noChange (hout.trans (if_neg hmn)) rfl rfl nofun nofun]
      exact (if_neg hne).symm
  | shared =>
    have hout : ((Entry.backed kind n r w (.hit .shared T)).finished p).outcome
        = if NodeSet.has T n then sharedOrVacant (NodeSet.without T n) else .noChange := by rcases hk with rfl | rfl <;> rfl
    have hT : T ≠ 0 := sharers_ne_zero hwell
    by_cases hhas : NodeSet.has T n = true
    · rw [if_pos hhas] at hout
      by_cases hzero : NodeSet.without T n = 0
      · rw [finalRecord_vacant (hout.trans (if_pos hzero))]
        exact (if_pos hzero).symm
      · rw [finalRecord_record (hout.trans (if_neg hzero)) rfl (without_and_zero T lost n (hlost rfl)) (fun _ => hzero)]
        exact (if_neg hzero).symm
    · have hsame := without_of_not_has T n (Bool.not_eq_true _ ▸ hhas)
      rw [finalRecord_noChange (hout.trans (if_neg hhas)) rfl rfl (fun _ => hlost rfl) (fun _ => hT)]
      simp only [leftRecord, hsame, hT, if_false]
      rfl

theorem leftRecord_wellFormed {tag : DirTag} {n : NodeId} {T : NodeSet} {st : DirState} {q : Record}
    (hwell : (⟨tag, st, T⟩ : Record).wellFormed = true) (h : leftRecord tag n T st = some q) : q.wellFormed = true := by
  cases st with
  | held =>
    simp only [leftRecord] at h
    split at h
    · cases h
    · obtain rfl := Option.some.inj h
      exact hwell
  | shared =>
    simp only [leftRecord] at h
    split at h
    next => cases h
    next hne =>
      obtain rfl := Option.some.inj h
      simpa [Record.wellFormed] using hne

/-- A return over a HIT completes in the step it activates in (R69, R70). -/
theorem run_backed_hit {v : State} {e : EntryId} {kind : WorkKind} {n : NodeId} {r : RetMsg} {w : WayNo} {st : DirState}
    {T : NodeSet} (hk : kind = .returnD ∨ kind = .returnC) (hl : (v.node n).link ≠ .down)
    (hwell : (⟨LineAddr.tag r.line, st, T⟩ : Record).wellFormed = true) (hst : v.status = .ready)
    (hwf : Directory.wf v.dir) (hlost : st = .shared → T &&& v.lostNodes = 0) (hwait : ∀ m ∈ v.wayWait, m.entry ≠ e)
    (hq : v.quiet (LineAddr.set r.line) w) :
    ∃ t, Work.run 9 ⟨State.form v v.nodes v.entries e (Entry.backed kind n r (some w) (.hit st T)) v.poolQueue,
        [.checkGather e], []⟩ = some t
      ∧ CompletedIn { v with nodes := tset v.nodes n { v.node n with
          outQ := (v.node n).outQ ++ [OutMsg.done r.tag .ret false false] } } t e (LineAddr.set r.line) w
          (leftRecord (LineAddr.tag r.line) n T st) := by
  have hsame : (State.form v (tset v.nodes n { v.node n with
      outQ := (v.node n).outQ ++ [OutMsg.done r.tag .ret false false] }) v.entries e
      ((Entry.backed kind n r (some w) (.hit st T)).finished v.promote) v.poolQueue).lostNodes = v.lostNodes :=
    lostNodes_nodes rfl
  rw [run_backed hk hl]
  refine run_complete_form hst hwf rfl rfl ?_ rfl ?_ (fun q h => leftRecord_wellFormed hwell h) rfl ?_ hwait hq
  · rcases hk with rfl | rfl
    · exact (by decide : WorkKind.returnD ≠ .recall)
    · exact (by decide : WorkKind.returnC ≠ .recall)
  · rw [hsame]
    exact finalRecord_backed hk hwell hlost _
  · exact (finishDone_iff _).2 ⟨nofun, rfl, (by decide : ∀ m, (Entry.free.probe m).straggling = false)⟩

/-- A return on a miss is answered and gone, where its entry was FREE. -/
theorem run_backed_miss {v : State} {e : EntryId} {kind : WorkKind} {n : NodeId} {r : RetMsg}
    (hk : kind = .returnD ∨ kind = .returnC) (hl : (v.node n).link ≠ .down) (he : v.entry e = Entry.free) :
    Work.run 3 ⟨State.form v v.nodes v.entries e (Entry.backed kind n r none .miss) v.poolQueue, [.checkGather e], []⟩
      = some { v with nodes := tset v.nodes n { v.node n with
          outQ := (v.node n).outQ ++ [OutMsg.done r.tag .ret false false] } } := by
  rw [run_backed hk hl]
  refine (finish_plain _ e _ (form_entry ..) rfl rfl ?_ rfl ?_ 0).trans (congrArg some (form_freeUp_restored he))
  · rcases hk with rfl | rfl
    · exact (by decide : WorkKind.returnD ≠ .recall)
    · exact (by decide : WorkKind.returnC ≠ .recall)
  · exact (finishDone_iff _).2 ⟨nofun, rfl, (by decide : ∀ m, (Entry.free.probe m).straggling = false)⟩

/-! ## A return admitted -/

/-- A return's entry as its work begins. -/
def Entry.returning (n : NodeId) (r : RetMsg) (w : Option WayNo) (d : Snapshot) : Entry :=
  { returnEntry n r with phase := .gather, snapshot := some d, way := w }

/-- The kind of a return's entry is by its data. -/
theorem returnEntry_kind (n : NodeId) (r : RetMsg) :
    (returnEntry n r).kind.plain = false ∧ (returnEntry n r).kind ≠ .recall ∧ (returnEntry n r).kind.needsWay = false
      ∧ ∀ m d, decidedKind (returnEntry n r).kind m d = (returnEntry n r).kind := by
  have hkind : (returnEntry n r).kind = if r.data.isSome then .returnD else .returnC := rfl
  rw [hkind]
  cases r.data.isSome <;> exact ⟨rfl, nofun, rfl, fun m d => rfl⟩

section
variable {s : State} {n : NodeId} {r : RetMsg} {e : EntryId}

/-- A return over an unpinned HIT of a sound set pins the way and begins its work. -/
theorem exec_return_hit {w : WayNo} {st : DirState} {T : NodeSet} (hch : s.choice = some (.ret n r))
    (hm : s.mergeTarget n r.line = none) (hfree : s.freeEntry = some e) (hactive : s.activeOn r.line = none)
    (hwait : ∀ m ∈ s.wayWait, m.entry ≠ e) (hs : (s.dirSet (LineAddr.set r.line)).sound)
    (hit : (s.dirSet (LineAddr.set r.line)).hitAt w ⟨LineAddr.tag r.line, st, T⟩) {fuel : Nat} {t : State}
    (hf : fuel + 1 ≤ Config.settleBound)
    (hrun : Work.run fuel ⟨(State.form ((s.takeReturn n).setPin (LineAddr.set r.line) w (.entry e)) (s.takeReturn n).nodes
      s.entries e (Entry.returning n r (some w) (.hit st T)) s.poolQueue).startWork e, [.checkGather e], []⟩ = some t) :
    exec (if r.data.isSome then .returnD [] else .returnC []) s = .next t := by
  obtain ⟨hplain, hrecall, -, hdecided⟩ := returnEntry_kind n r
  rw [exec_return e hch hm hfree hactive]
  refine settle_eq hf ?_
  rw [run_task]
  have hentry : ((s.takeReturn n).setEntry e (returnEntry n r)).entry e = returnEntry n r := tget_tset_same _ _ _
  change Work.run fuel (Work.activate _ e) = _
  rw [activate_hit hentry hplain hrecall hs hit, ← hrun, State.beginWork, State.leaveWait, leaveList_none (by exact hwait)]
  have hpinned : ((s.takeReturn n).setEntry e (returnEntry n r)).setPin (LineAddr.set (returnEntry n r).line) w (.entry e)
      = State.form ((s.takeReturn n).setPin (LineAddr.set r.line) w (.entry e)) (s.takeReturn n).nodes s.entries e
        (returnEntry n r) s.poolQueue := rfl
  rw [hpinned, form_mod, hdecided]
  rfl

/-- A return on a miss begins its work with no way. -/
theorem exec_return_miss (hch : s.choice = some (.ret n r)) (hm : s.mergeTarget n r.line = none)
    (hfree : s.freeEntry = some e) (hactive : s.activeOn r.line = none) (hwait : ∀ m ∈ s.wayWait, m.entry ≠ e)
    (hs : (s.dirSet (LineAddr.set r.line)).sound) (hmiss : (s.dirSet (LineAddr.set r.line)).misses (LineAddr.tag r.line))
    {fuel : Nat} {t : State} (hf : fuel + 1 ≤ Config.settleBound)
    (hrun : Work.run fuel ⟨(State.form (s.takeReturn n) (s.takeReturn n).nodes s.entries e
      (Entry.returning n r none .miss) s.poolQueue).startWork e, [.checkGather e], []⟩ = some t) :
    exec (if r.data.isSome then .returnD [] else .returnC []) s = .next t := by
  obtain ⟨hplain, hrecall, hneeds, hdecided⟩ := returnEntry_kind n r
  rw [exec_return e hch hm hfree hactive]
  refine settle_eq hf ?_
  rw [run_task]
  have hentry : ((s.takeReturn n).setEntry e (returnEntry n r)).entry e = returnEntry n r := tget_tset_same _ _ _
  change Work.run fuel (Work.activate _ e) = _
  rw [activate_miss hentry hplain hrecall hs hneeds hmiss, ← hrun, State.beginWork, State.leaveWait,
    leaveList_none (by exact hwait), setEntry_form, form_mod, hdecided]
  rfl

end

section
variable {D : State} {e : EntryId} {n : NodeId} {r : RetMsg} {w : Option WayNo} {d : Snapshot}

/-- A RETURN-C asks for nothing. -/
theorem startWork_returnC (hr : r.data = none) :
    (State.form D D.nodes D.entries e (Entry.returning n r w d) D.poolQueue).startWork e
      = State.form D D.nodes D.entries e (Entry.backed .returnC n r w d) D.poolQueue := by
  have hentry : Entry.returning n r w d = Entry.backed .returnC n r w d := by
    simp only [Entry.returning, returnEntry, hr, Entry.backed]
    rfl
  rw [hentry]
  simp only [State.startWork, form_entry, Entry.backed]

/-- The RETURN-D of a node that is not the line's holder is discarded with a PROTOCOL event (R70). -/
theorem startWork_returnD_discarded (hr : r.data.isSome = true) (hd : ∀ T, d = .hit .held T → NodeSet.holder T ≠ n) :
    (State.form D D.nodes D.entries e (Entry.returning n r w d) D.poolQueue).startWork e
      = State.form (D.raise .protocol (returnEvent n r.tag r.line)) (D.raise .protocol (returnEvent n r.tag r.line)).nodes
          (D.raise .protocol (returnEvent n r.tag r.line)).entries e (Entry.backed .returnD n r w d)
          (D.raise .protocol (returnEvent n r.tag r.line)).poolQueue := by
  have hstart : (State.form D D.nodes D.entries e (Entry.returning n r w d) D.poolQueue).startWork e
      = ((State.form D D.nodes D.entries e (Entry.returning n r w d) D.poolQueue).raise .protocol
          (returnEvent n r.tag r.line)).modEntry e (fun x => { x with buffer := none }) := by
    have hkind : (Entry.returning n r w d).kind = .returnD := if_pos hr
    have hsnap : (Entry.returning n r w d).snapshot = some d := rfl
    cases d with
    | miss =>
      simp only [State.startWork, form_entry, hkind, hsnap]
      rfl
    | hit st T =>
      cases st with
      | shared =>
        simp only [State.startWork, form_entry, hkind, hsnap]
        rfl
      | held =>
        simp only [State.startWork, form_entry, hkind, hsnap]
        exact if_neg (hd T rfl)
  rw [hstart, form_raise, form_mod, raise_entries, raise_poolQueue]
  have hentry : ({ Entry.returning n r w d with buffer := none } : Entry) = Entry.backed .returnD n r w d := by
    simp only [Entry.returning, returnEntry, hr, Entry.backed]
    rfl
  rw [hentry]

end

end Sys2Proof.Machine

/-! Entries behind the active entry of their line, and at the way-wait list, taken together. -/

namespace Sys2Proof.Machine

/-! ## What a taken return and a raised event leave -/

theorem takeReturn_link (s : State) (n m : NodeId) : ((s.takeReturn n).node m).link = (s.node m).link := by
  change (tget (tset s.nodes n _) m).link = (tget s.nodes m).link
  by_cases hm : n = m
  · subst hm
    rw [tget_tset_same]
    rfl
  · rw [tget_tset_ne _ _ hm]

theorem lostNodes_takeReturn (s : State) (n : NodeId) : (s.takeReturn n).lostNodes = s.lostNodes :=
  lostNodes_nodes rfl

theorem quiet_raise {s : State} {k : SetIdx} {w : WayNo} (h : s.quiet k w) (c : ErrClass) (r : ErrRec) :
    (s.raise c r).quiet k w := by
  obtain ⟨hsets, hstall⟩ := h
  refine ⟨fun m hm => ?_, by rwa [raise_walker]⟩
  rw [State.setOf, State.entry, raise_entries]
  exact hsets m (by rwa [raise_wayWait] at hm)

/-! ## A return as it activates -/

/-- The holder's data on a HIT: the record goes and its data is written (R70). -/
theorem returnD_of_holder {s : State} {n : NodeId} {r : RetMsg} {e : EntryId} {w : WayNo} {b : Buffer}
    (hch : s.choice = some (.ret n r)) (hm : s.mergeTarget n r.line = none) (hfree : s.freeEntry = some e)
    (hactive : s.activeOn r.line = none) (hwait : ∀ m ∈ s.wayWait, m.entry ≠ e)
    (hs : (s.dirSet (LineAddr.set r.line)).sound)
    (hit : (s.dirSet (LineAddr.set r.line)).hitAt w ⟨LineAddr.tag r.line, .held, NodeSet.single n⟩)
    (hb : r.data = some b) (hport : s.portFree) :
    exec (.returnD []) s = .next { (s.takeReturn n).setPin (LineAddr.set r.line) w (.entry e) with
      entries := tset s.entries e { Entry.free with
        phase := .finish, kind := .returnD, admitted := .returnD, origin := some ⟨n, r.tag⟩, line := r.line
        way := some w, snapshot := some (.hit .held (NodeSet.single n)), buffer := some b, poolStale := true
        outcome := .vacant, poolOp := .writeOut }
      poolQueue := s.poolQueue ++ [⟨.entry e, r.line, some b⟩] } := by
  have hrow : (if r.data.isSome then Instr.returnD [] else .returnC []) = .returnD [] := if_pos (by rw [hb]; rfl)
  set D := (s.takeReturn n).setPin (LineAddr.set r.line) w (.entry e) with hD
  set X : Entry := { Entry.backed .returnD n r (some w) (.hit .held (NodeSet.single n)) with buffer := some b } with hX
  have hentry : Entry.returning n r (some w) (.hit .held (NodeSet.single n)) = X := by
    simp only [Entry.returning, returnEntry, hb, hX, Entry.backed]
    rfl
  have hstart : (State.form D (s.takeReturn n).nodes s.entries e X s.poolQueue).startWork e
      = State.form D (s.takeReturn n).nodes s.entries e { X with poolStale := true } s.poolQueue := by
    have hmod := form_mod D (s.takeReturn n).nodes s.entries e X s.poolQueue (fun x => { x with poolStale := true })
    rw [← hmod]
    simp only [State.startWork, form_entry]
    exact if_pos (holder_single n)
  have hout : ({ X with poolStale := true } : Entry).finished D.promote
      = { X with poolStale := true, outcome := .vacant, phase := .finish } := by
    have houtcome : ({ X with poolStale := true } : Entry).fixedOutcome D.promote = .vacant := if_pos (holder_single n)
    rw [Entry.finished, houtcome]
  have hdone : ({ X with poolStale := true } : Entry).gatherDone = true :=
    gatherDone_backed (kind := .returnD) (n := n) (r := r) (w := some w) (d := .hit .held (NodeSet.single n))
  rw [← hrow]
  refine exec_return_hit (fuel := 2) hch hm hfree hactive hwait hs hit (by decide) ?_
  rw [hentry, hstart, run_endGather (by rw [form_entry]; rfl) (by rw [form_entry]; exact hdone),
    form_endGather_silent (.inr rfl), hout]
  change Work.run 1 ⟨State.writeOwed (State.form D (s.takeReturn n).nodes s.entries e _ s.poolQueue) e (some b), _, _⟩ = _
  rw [form_writeOwed (d := D) hport.1 hport.2]
  exact run_idle_one (idle_checkFinish (.inr (finishDone_of_poolOp (by rw [form_entry]; simp)))) 0

/-- A return over a HIT that is not the holder's own with data is answered and completes (R69, R70). -/
theorem return_completes {s : State} {n : NodeId} {r : RetMsg} {e : EntryId} {w : WayNo} {st : DirState} {T : NodeSet}
    (hch : s.choice = some (.ret n r)) (hm : s.mergeTarget n r.line = none) (hfree : s.freeEntry = some e)
    (hactive : s.activeOn r.line = none) (hwait : ∀ m ∈ s.wayWait, m.entry ≠ e)
    (hs : (s.dirSet (LineAddr.set r.line)).sound)
    (hit : (s.dirSet (LineAddr.set r.line)).hitAt w ⟨LineAddr.tag r.line, st, T⟩) (hst : s.status = .ready)
    (hwf : Directory.wf s.dir) (hq : s.quiet (LineAddr.set r.line) w) (hlost : st = .shared → T &&& s.lostNodes = 0) :
    let pinned := (s.takeReturn n).setPin (LineAddr.set r.line) w (.entry e)
    let done (u : State) : State := { u with nodes := tset u.nodes n { u.node n with
      outQ := (u.node n).outQ ++ [OutMsg.done r.tag .ret false false] } }
    (r.data = none → ∃ t, exec (.returnC []) s = .next t ∧ CompletedIn (done pinned) t e (LineAddr.set r.line) w
        (leftRecord (LineAddr.tag r.line) n T st))
    ∧ (r.data.isSome = true → ¬(st = .held ∧ T = NodeSet.single n) → ∃ t, exec (.returnD []) s = .next t
        ∧ CompletedIn (done (pinned.raise .protocol (returnEvent n r.tag r.line))) t e (LineAddr.set r.line) w
          (leftRecord (LineAddr.tag r.line) n T st)) := by
  intro pinned done
  have hwell : (⟨LineAddr.tag r.line, st, T⟩ : Record).wellFormed = true := (hs w).2 _ hit.1
  have hlink : (pinned.node n).link ≠ .down := (takeReturn_link s n n).trans_ne (choice_return hch).1
  have hpinlost : pinned.lostNodes = s.lostNodes := lostNodes_takeReturn s n
  have hpinquiet : pinned.quiet (LineAddr.set r.line) w := hq
  have hpinwf : Directory.wf pinned.dir := wf_setPin hwf _ _ _
  refine ⟨fun hr => ?_, fun hr hne => ?_⟩
  · have hrow : (if r.data.isSome then Instr.returnD [] else .returnC []) = .returnC [] := if_neg (by rw [hr]; simp)
    obtain ⟨t, hrun, hcompleted⟩ := run_backed_hit (v := pinned) (e := e) (kind := .returnC) (n := n) (.inr rfl) hlink
      hwell hst hpinwf (by rwa [hpinlost]) hwait hpinquiet
    refine ⟨t, ?_, hcompleted⟩
    rw [← hrow]
    refine exec_return_hit (fuel := 9) hch hm hfree hactive hwait hs hit (by decide) ?_
    rw [← hrun]
    exact congrArg (fun u : State => Work.run 9 ⟨u, [.checkGather e], []⟩) (startWork_returnC (D := pinned) hr)
  · have hrow : (if r.data.isSome then Instr.returnD [] else .returnC []) = .returnD [] := if_pos hr
    have hother : ∀ S, Snapshot.hit st T = .hit .held S → NodeSet.holder S ≠ n := by
      intro S hS hn
      injection hS with hst' hT
      subst hst' hT
      rcases (wellFormed_iff _).1 hwell with ⟨hshared, -⟩ | ⟨-, m, hsingle⟩
      · cases hshared
      · refine hne ⟨rfl, hsingle.trans ?_⟩
        have hm : NodeSet.holder T = m := by rw [show T = NodeSet.single m from hsingle, holder_single]
        rw [← hn, hm]
    set raised := pinned.raise .protocol (returnEvent n r.tag r.line) with hraised
    have hraisedlost : raised.lostNodes = s.lostNodes :=
      (lostNodes_congr (fun m => raise_membership pinned _ _ m)).trans hpinlost
    obtain ⟨t, hrun, hcompleted⟩ := run_backed_hit (v := raised) (e := e) (kind := .returnD) (n := n) (.inl rfl)
      ((raise_link pinned _ _ n).trans_ne hlink) hwell ((raise_status pinned _ _).trans hst)
      (by rw [hraised, raise_dir]; exact hpinwf) (by rwa [hraisedlost]) (by rw [hraised, raise_wayWait]; exact hwait)
      (quiet_raise hpinquiet _ _)
    refine ⟨t, ?_, hcompleted⟩
    rw [← hrow]
    refine exec_return_hit (fuel := 9) hch hm hfree hactive hwait hs hit (by decide) ?_
    rw [← hrun]
    exact congrArg (fun u : State => Work.run 9 ⟨u, [.checkGather e], []⟩)
      (startWork_returnD_discarded (D := pinned) hr hother)

/-- A return on a miss is answered, and changes nothing else but for the event of discarded data (R69, R70). -/
theorem return_misses {s : State} {n : NodeId} {r : RetMsg} {e : EntryId}
    (hch : s.choice = some (.ret n r)) (hm : s.mergeTarget n r.line = none) (hfree : s.freeEntry = some e)
    (hactive : s.activeOn r.line = none) (hwait : ∀ m ∈ s.wayWait, m.entry ≠ e)
    (hs : (s.dirSet (LineAddr.set r.line)).sound) (hmiss : (s.dirSet (LineAddr.set r.line)).misses (LineAddr.tag r.line))
    (he : s.entry e = Entry.free) :
    let done (u : State) : State := { u with nodes := tset u.nodes n { u.node n with
      outQ := (u.node n).outQ ++ [OutMsg.done r.tag .ret false false] } }
    (r.data = none → exec (.returnC []) s = .next (done (s.takeReturn n)))
    ∧ (r.data.isSome = true →
        exec (.returnD []) s = .next (done ((s.takeReturn n).raise .protocol (returnEvent n r.tag r.line)))) := by
  intro done
  have hlink : ((s.takeReturn n).node n).link ≠ .down := (takeReturn_link s n n).trans_ne (choice_return hch).1
  refine ⟨fun hr => ?_, fun hr => ?_⟩
  · have hrow : (if r.data.isSome then Instr.returnD [] else .returnC []) = .returnC [] := if_neg (by rw [hr]; simp)
    rw [← hrow]
    refine exec_return_miss (fuel := 3) hch hm hfree hactive hwait hs hmiss (by decide) ?_
    refine (congrArg (fun u : State => Work.run 3 ⟨u, [.checkGather e], []⟩)
      (startWork_returnC (D := s.takeReturn n) hr)).trans ?_
    exact run_backed_miss (.inr rfl) hlink he
  · have hrow : (if r.data.isSome then Instr.returnD [] else .returnC []) = .returnD [] := if_pos hr
    rw [← hrow]
    refine exec_return_miss (fuel := 3) hch hm hfree hactive hwait hs hmiss (by decide) ?_
    refine (congrArg (fun u : State => Work.run 3 ⟨u, [.checkGather e], []⟩)
      (startWork_returnD_discarded (D := s.takeReturn n) hr (fun T h => by cases h))).trans ?_
    exact run_backed_miss (.inl rfl) ((raise_link _ _ _ n).trans_ne hlink) (by rw [State.entry, raise_entries]; exact he)

/-! ## Entries that wait for a way in other hands -/

/-- The entry of a request or a return that activates and cannot act on what it reads (R80; log 18). -/
theorem pinned_waits {s u : State} {l : LineAddr} {c : Instr} {e : EntryId} {x : Entry}
    (h : (∃ n tag b, (c, b, x.kind) ∈ coherentRequests l ∧ s.admits n tag b l e ∧ x = Entry.asked x.kind n tag l
        ∧ u = s.takeRequest n)
      ∨ (∃ n r, s.choice = some (.ret n r) ∧ s.mergeTarget n r.line = none ∧ s.freeEntry = some e
        ∧ s.activeOn r.line = none ∧ (∀ m ∈ s.wayWait, m.entry ≠ e) ∧ r.line = l
        ∧ (r.data = none ∧ c = .returnC [] ∧ x.kind = .returnC ∨ r.data.isSome = true ∧ c = .returnD [] ∧ x.kind = .returnD)
        ∧ x = { Entry.asked x.kind n r.tag l with buffer := r.data } ∧ u = s.takeReturn n)) :
    exec c s = settle ⟨u.setEntry e { x with phase := .queued }, [.activate e], []⟩
      ∧ (∀ m ∈ s.wayWait, m.entry ≠ e) ∧ u.entries = s.entries ∧ u.wayWait = s.wayWait ∧ u.dirSet = s.dirSet
      ∧ x.line = l ∧ x.snapshot = none ∧ x.kind.plain = false ∧ x.kind ≠ .recall := by
  rcases h with ⟨n, tag, b, hrow, ⟨hc, hd, hfree, hactive, hwait, -⟩, hx, rfl⟩
    | ⟨n, r, hch, hm, hfree, hactive, hwait, rfl, hdata, hx, rfl⟩
  · obtain ⟨hplain, hrecall⟩ := coherent_read (coherent_kind hrow)
    have hentry : ({ x with phase := .queued } : Entry) = requestEntry x.kind n tag l false 0 0 := by
      conv_lhs => rw [hx]
      rfl
    rw [hentry]
    exact ⟨exec_activates hrow hc hd hfree hactive, hwait, rfl, rfl, rfl, by rw [hx]; rfl, by rw [hx]; rfl, hplain, hrecall⟩
  · have hrow : (if r.data.isSome then Instr.returnD [] else .returnC []) = c
        ∧ (if r.data.isSome then WorkKind.returnD else .returnC) = x.kind := by
      rcases hdata with ⟨hr, rfl, hk⟩ | ⟨hr, rfl, hk⟩
      · rw [hr, hk]
        exact ⟨rfl, rfl⟩
      · rw [hr, hk]
        exact ⟨rfl, rfl⟩
    obtain ⟨hc, hkind⟩ := hrow
    have hentry : ({ x with phase := .queued } : Entry) = returnEntry n r := by
      simp only [returnEntry, hkind]
      conv_lhs => rw [hx]
      rfl
    obtain ⟨hplain, hrecall, -⟩ := returnEntry_kind n r
    have hsame : (returnEntry n r).kind = x.kind := hkind
    rw [hentry, ← hc]
    exact ⟨exec_return e hch hm hfree hactive, hwait, rfl, rfl, rfl, by rw [hx]; rfl, by rw [hx]; rfl, hsame ▸ hplain,
      hsame ▸ hrecall⟩

/-- Settles O35, each part from the rule of its own. -/
theorem entriesQueueBehindTheActiveEntry : Obligations.EntriesQueueBehindTheActiveEntry := by
  refine ⟨fun s us n tag l c b kind mask data e a last hrow => ?requests,
    fun s n tag l mask data e a last hmask hpost hch hd hfree ha hc hne => ?posted,
    fun s us n r e a last => ?returns, fun s n tag l e c b kind k hrow hkind ha hs hmiss hsome => ?seekers,
    fun s n r e w st T hch hm hfree hactive hwait hs => ?activates, fun s u l c e w x h => ?pinned,
    fun k e w ws x hc hx => ?reread⟩
  case requests =>
    intro u hch hd hfree ha hc hne
    exact requests_queue_behind hrow hch hd hfree ha hc hne
  case posted => exact postedWrite_queues_behind hmask hpost hch hd hfree ha hc hne
  case returns =>
    intro u hch hm hfree ha hc hne entered
    refine ⟨fun hr => ?_, fun hr => ?_⟩
    · refine (return_queues_behind hch hm hfree ha hc hne hr).trans ?_
      simp only [returnEntry, hr, if_true]
      rfl
    · have hnone : r.data.isSome = false := by rw [hr]; rfl
      refine (return_queues_behind hch hm hfree ha hc hne hnone).trans ?_
      simp only [returnEntry, hnone, if_false, Bool.false_eq_true]
      rfl
  case seekers => exact seeker_waits hrow hkind ha hs hmiss hsome
  case activates =>
    intro set tag taken done event
    refine ⟨fun hit => ?hit, fun hmiss he => return_misses hch hm hfree hactive hwait hs hmiss he⟩
    intro pinned
    refine ⟨fun b hb hst hT hport => ?_, fun hst hwf hq hlost => ?_⟩
    · subst hst hT
      exact returnD_of_holder hch hm hfree hactive hwait hs hit hb hport
    · intro left
      have hleft : left = leftRecord tag n T st := by
        cases st <;> rfl
      rw [hleft]
      exact return_completes hch hm hfree hactive hwait hs hit hst hwf hq hlost
  case pinned =>
    intro set waiting
    obtain ⟨hexec, hwait, hentries, hlist, hsets, hline, hsnap, hplain, hrecall⟩ := pinned_waits h
    obtain ⟨hwalker, hunreadable⟩ := activate_pins (X := { x with phase := .queued }) (w := w) e hentries hlist hwait hplain
      hrecall
    subst hline
    rw [hexec]
    refine ⟨fun st T hs hh => ?_, fun hh => ?_⟩
    · rw [hwalker st T (by rw [hsets]; exact hs) (by rw [hsets]; exact hh)]
      simp only [hsnap]
      rfl
    · exact hunreadable (by rw [hsets]; exact hh)
  case reread =>
    intro set tag
    refine ⟨reread_other hc, fun hw hs => ⟨fun v st T hh => ?_, fun v st T hh => ?_, fun hmiss => ?_⟩, fun hw v hh => ?_⟩
    · rw [reread_sound hc hw hx hs]
      exact afterRead_hit hx (hit_hitAt hs hh ..)
    · rw [reread_sound hc hw hx hs]
      exact afterRead_pinned hx (hit_walkerHit hs hh ..) nofun
    · intro sought
      have hnone := hit_misses hs hmiss .wayWait x.kind.msgKind
      have hun := unreadable_sound hs .wayWait x.kind.msgKind
      rw [reread_sound hc hw hx hs]
      refine ⟨fun hn => afterRead_begins hx hnone hun hn, fun hn => ⟨fun hq => ?_, fun hsome => ?_⟩⟩
      · rw [afterRead_needsWay hx hnone hun hn]
        exact if_pos ((allQuarantined_sound hs ..).2 hq)
      · rw [afterRead_needsWay hx hnone hun hn]
        refine if_neg (fun hq => ?_)
        obtain ⟨v, hv⟩ := hsome
        exact absurd ((allQuarantined_sound hs ..).1 hq v) (by rw [hv]; simp)
    · obtain ⟨hraised, -⟩ := readSet_unreadableAt hh .wayWait x.kind.msgKind
      have hun := unreadable_unreadableAt hh .wayWait x.kind.msgKind
      rw [reread_mem hc hw hx, afterRead_unreadable (x := x) ?_ (hit_unreadableAt hh ..) (by rw [hun]; simp), hun, hraised]
      · rfl
      · rw [hraised, State.entry, raise_entries]
        exact hx

end Sys2Proof.Machine

/-! The completion of pool reads (chapter 7; R93, R95 to R97, R105, R106, R110, R111). -/

namespace Sys2Proof.Machine

/-! ## What an event of a READ leaves -/

section
variable (u : State) (e : EntryId) (r : ReadResult)

theorem readEvent_promote : (u.readEvent e r).promote = u.promote := (congrArg State.promote (readEvent_rest u e r) :)
theorem readEvent_correctWb : (u.readEvent e r).correctWb = u.correctWb :=
  (congrArg State.correctWb (readEvent_rest u e r) :)
theorem readEvent_issueWait : (u.readEvent e r).issueWait = u.issueWait :=
  (congrArg State.issueWait (readEvent_rest u e r) :)
theorem readEvent_entries : (u.readEvent e r).entries = u.entries := (congrArg State.entries (readEvent_rest u e r) :)

/-- The issue-wait list has no part in an event. -/
theorem readEvent_withIssueWait (waiting : List PoolOp) :
    ({ u with issueWait := waiting }.readEvent e r) = { u.readEvent e r with issueWait := waiting } := by
  have hraise : ∀ c x, ({ u with issueWait := waiting } : State).raise c x = { u.raise c x with issueWait := waiting } := by
    intro c x
    rw [raise_congr (s := u) (t := { u with issueWait := waiting }) c x rfl rfl rfl rfl rfl]
    exact congrArg (fun z : State => { z with issueWait := waiting })
      (raise_congr (s := u) (t := u) c x rfl rfl rfl rfl rfl).symm
  cases r with
  | clean => rfl
  | poisoned => rfl
  | corrected k => exact hraise _ _
  | uncorrectable k => exact hraise _ _
  | beyondSize => exact hraise _ _

end

/-! ## A READ completes -/

/-- The completion of a READ is the entry's: the data and result reach it, and its GATHER is checked. -/
theorem exec_poolReadComplete {s : State} {e : EntryId} {l : LineAddr} {words : List WordUpset} {us : List DirUpset}
    (h : s.completable (.entry e) = some ⟨.entry e, l, none⟩) : exec (.poolReadComplete e words us) s
      = settle ⟨((s.damaged us).poolDamaged l words).readCompletes e l, [.checkGather e], []⟩ := by
  change execPoolReadComplete e words us s = _
  simp only [execPoolReadComplete, completable_damaged, h]
  rfl

/-- The entry and the port after its READ, for work that is no plain write (R106, R110). -/
theorem readCompletes_form {v D : State} {e : EntryId} {l : LineAddr} {r : ReadResult} {d : LineData} {es : Vector Entry 48}
    {q : List PoolOp} (hretire : v.retireOp (.entry e)
      = State.form D D.nodes es e { v.entry e with poolOp := .none } q) (hD : D.entry e = v.entry e)
    (hread : v.poolRead l = (r, d)) (hk : (v.entry e).kind ≠ .plainWrite) :
    v.readCompletes e l = State.form (D.readEvent e r) (D.readEvent e r).nodes es e { v.entry e with
      poolOp := .none, buffer := some ⟨d, r.poison⟩, poolStale := false
      owesWriteBack := r.isCorrected && D.correctWb } q := by
  have hevent := form_readEvent D es e { v.entry e with poolOp := .none } q r (by rw [hD]) (by rw [hD]) (by rw [hD])
  have hwb : (State.form (D.readEvent e r) (D.readEvent e r).nodes es e { v.entry e with poolOp := .none } q).correctWb
      = D.correctWb := readEvent_correctWb D e r
  simp only [State.readCompletes, hread, hretire, hevent, form_mod, form_entry, hwb, Entry.takeRead, hk, if_false,
    false_and]

/-- A write of some bytes merges its bytes into what its READ delivers, and tells of a posted one that met poison (R95 to
R97). -/
theorem readCompletes_partWrite {v : State} {e : EntryId} {l : LineAddr} {r : ReadResult} {d : LineData}
    (hw : v.issueWait = []) (hread : v.poolRead l = (r, d)) (hk : (v.entry e).kind = .plainWrite) {event : State}
    (hevent : event = if (v.entry e).posted = true ∧ r.poison = true then
      (v.readEvent e r).raise .poolUncorrected (v.entryEvent e (some .postedMerge)) else v.readEvent e r) :
    v.readCompletes e l = State.form event event.nodes v.entries e { v.entry e with
      poolOp := .none, poolStale := false
      buffer := some ⟨mergeBytes (v.entry e).mask d (v.entry e).writeData, r.poison⟩ }
      (v.poolQueue.filter (fun p => decide (p.owner ≠ .entry e))) := by
  set q := v.poolQueue.filter (fun p => decide (p.owner ≠ .entry e)) with hq
  have hread' := form_readEvent v v.entries e { v.entry e with poolOp := .none } q r rfl rfl rfl
  set X : Entry := { v.entry e with
    poolOp := .none, poolStale := false
    buffer := some ⟨mergeBytes (v.entry e).mask d (v.entry e).writeData, r.poison⟩ } with hX
  have htake : Entry.takeRead { v.entry e with poolOp := .none } r d
      (State.form (v.readEvent e r) (v.readEvent e r).nodes v.entries e { v.entry e with poolOp := .none } q).correctWb = X :=
    if_pos hk
  have hentryEvent : (State.form (v.readEvent e r) (v.readEvent e r).nodes v.entries e X q).entryEvent e
      (some .postedMerge) = v.entryEvent e (some .postedMerge) := by
    simp only [State.entryEvent, form_entry, hX]
  have hkX : X.kind = .plainWrite := hk
  have hmerged : v.readCompletes e l = if X.kind = .plainWrite ∧ X.posted = true ∧ r.poison = true then
      (State.form (v.readEvent e r) (v.readEvent e r).nodes v.entries e X q).raise .poolUncorrected
        (v.entryEvent e (some .postedMerge))
      else State.form (v.readEvent e r) (v.readEvent e r).nodes v.entries e X q := by
    have hretire : v.retireOp (.entry e) = State.form v v.nodes v.entries e { v.entry e with poolOp := .none } q :=
      retireOp_alone_form hw
    simp only [State.readCompletes, hread, hretire, hread', form_mod, form_entry, htake, hentryEvent]
  rw [hmerged, hevent]
  by_cases hpost : (v.entry e).posted = true ∧ r.poison = true
  · rw [if_pos ⟨hkX, hpost⟩, if_pos hpost]
    exact form_raise _ _ _ _ _ _ _
  · rw [if_neg (fun h => hpost h.2), if_neg hpost]

/-! ## The grant of a FETCH -/

/-- A FETCH whose data stands in its buffer: the grant that goes out and the record it fixes (R45, R46, R50 to R53). -/
theorem fetch_reply {X : Entry} {e : EntryId} {b : Buffer} {N : NodeId} {kind : WorkKind} {snap : Snapshot}
    {grant : OutMsg} {st : DirState} {A : NodeSet} {p : Bool} (hk : X.kind = kind) (hs : X.snapshot = some snap)
    (hb : X.buffer = some b) (hn : X.originNode = N)
    (h : (kind = .fetchS ∧ grant = .grantS X.originTag e X.line b ∧ st = .shared
        ∧ ((snap = .miss ∧ p = false ∧ A = NodeSet.single N)
          ∨ (∃ T, snap = .hit .shared T ∧ A = NodeSet.with T N)
          ∨ ∃ M, snap = .hit .held (NodeSet.single M)
            ∧ A = if M ≠ N ∧ X.holderKept then NodeSet.with (NodeSet.single N) M else NodeSet.single N))
      ∨ (((kind = .fetchS ∧ snap = .miss ∧ p = true) ∨ kind = .fetchH)
        ∧ grant = .grantH X.originTag e X.line (some b) ∧ st = .held ∧ A = NodeSet.single N)) :
    X.reply e p = some grant ∧ X.fixedOutcome p = .record st A ∧ grant.isGrant = true := by
  rcases h with ⟨rfl, rfl, rfl, ⟨rfl, rfl, rfl⟩ | ⟨T, rfl, rfl⟩ | ⟨M, rfl, rfl⟩⟩
    | ⟨⟨rfl, rfl, rfl⟩ | rfl, rfl, rfl, rfl⟩
  · simp [Entry.reply, Entry.fixedOutcome, hk, hs, hb, hn, OutMsg.isGrant]
  · simp [Entry.reply, Entry.fixedOutcome, hk, hs, hb, hn, OutMsg.isGrant]
  · have hrecord : X.fixedOutcome p = if M ≠ N ∧ X.holderKept then .record .shared (NodeSet.with (NodeSet.single N) M)
        else .record .shared (NodeSet.single N) := by
      simp only [Entry.fixedOutcome, hk, hs, hn, holder_single]
    refine ⟨by simp [Entry.reply, hk, hs, hb], ?_, rfl⟩
    rw [hrecord]
    split <;> rfl
  · simp [Entry.reply, Entry.fixedOutcome, hk, hs, hb, hn, OutMsg.isGrant]
  · simp [Entry.reply, Entry.fixedOutcome, hk, hb, hn, OutMsg.isGrant]

/-- What an entry whose READ delivered data owes the pool: the corrected write-back, where it is due (R60). -/
theorem finishWrite_read {X : Entry} {b : Buffer} {wb : Bool} (hk : X.kind ≠ .plainWrite) (hstale : X.poolStale = false)
    (hwb : X.owesWriteBack = wb) (hb : X.buffer = some b) :
    X.finishWrite = if wb then some ⟨b.data, false⟩ else none := by
  simp only [Entry.finishWrite, hk, hstale, hwb, hb, if_false, Bool.false_and, Bool.false_eq_true, Option.map_some]

/-- Settles O29: the grant of a FETCH goes out with the data its READ delivers. -/
theorem readCompletesForSharedFetchS : Obligations.ReadCompletesForSharedFetchS := by
  intro s e l words us N r d kind snap grant st A v tag hc hwait hlen hph hk hsnap hline horigin horph haw hun hlink hread
    hgrant rest u wb
  obtain ⟨hventries, hvnodes, hvqueue, hvwait, hvwb⟩ := poolDamaged_fields s us l words
  have hve : v.entry e = s.entry e := by rw [State.entry, hventries]; rfl
  have hvpromote : v.promote = s.promote :=
    (congrArg State.promote (poolDamaged_rest (s.damaged us) l words) :).trans (damaged_promote s us)
  have hkind : kind = .fetchS ∨ kind = .fetchH := by
    rcases hgrant with ⟨rfl, -⟩ | ⟨⟨rfl, -⟩ | rfl, -⟩
    · exact .inl rfl
    · exact .inl rfl
    · exact .inr rfl
  have hplain : (s.entry e).kind ≠ .plainWrite := by
    rw [hk]
    rcases hkind with rfl | rfl <;> decide
  set D := v.readEvent e r with hD
  set X : Entry := { s.entry e with
    poolOp := .none, buffer := some ⟨d, r.poison⟩, poolStale := false, owesWriteBack := wb } with hX
  have hform : v.readCompletes e l = State.form D D.nodes s.entries e X rest := by
    rw [readCompletes_form (retireOp_alone_form (hvwait.trans hwait)) rfl hread (by rw [hve]; exact hplain), hve, hventries,
      hvqueue, hvwb]
  have hnode : X.originNode = N := originNode_of horigin
  have hpromote : D.promote = s.promote := (readEvent_promote v e r).trans hvpromote
  obtain ⟨hreply, hfixed, hisGrant⟩ := fetch_reply (X := X) (e := e) (p := D.promote) hk hsnap rfl hnode
    (by rw [hpromote, show X.line = l from hline]; exact hgrant)
  have hu : u = State.form D D.nodes s.entries e { s.entry e with poolOp := .none } rest :=
    form_readEvent v s.entries e { s.entry e with poolOp := .none } rest r (by rw [hve]) (by rw [hve]) (by rw [hve])
  rw [exec_poolReadComplete hc]
  change settle ⟨v.readCompletes e l, _, _⟩ = _
  rw [hform]
  refine settle_gatherEnds (by rw [form_entry]; exact hph) (by rw [form_entry, gatherDone_iff]; exact ⟨hun, rfl, haw⟩) ?_ ?_
    (.inl rfl)
  · have hfinished : X.finished D.promote = { X with outcome := .record st A, phase := .finish } := by
      rw [Entry.finished, hfixed]
    have hup : (tget D.nodes X.originNode).link ≠ .down := by
      rw [hnode]
      exact (readEvent_link v e r N).trans_ne (by rw [State.node, hvnodes]; exact hlink)
    rw [form_endGather_reply (X := X) horph hreply hup, finishWrite_read (X := X) hplain rfl rfl rfl, hisGrant, if_pos rfl,
      hfinished, hnode, hu]
    clear_value wb
    cases wb
    · rfl
    · rw [← hline]
      exact form_writeOwed (d := D) (retired_lt (completable_mem hc).1 rfl hlen)
        ((readEvent_issueWait v e r).trans (hvwait.trans hwait))
  · refine idle_checkFinish (.inr ?_)
    rw [State.entry, tget_tset_same]
    rfl

end Sys2Proof.Machine

/-! The completion of the pool reads of plain requests (R93, R95 to R97, R105). -/

namespace Sys2Proof.Machine

/-! ## A PLAIN-READ is answered -/

/-- An entry of a PLAIN-READ whose READ has delivered its data. -/
structure Entry.Delivered (X : Entry) (l : LineAddr) (N : NodeId) (tag : Tag) (b : Buffer) (wb : Bool) : Prop where
  phase : X.phase = .gather
  kind : X.kind = .plainRead
  line : X.line = l
  way : X.way = none
  origin : X.origin = some ⟨N, tag⟩
  kept : X.orphaned = false
  awaited : X.awaited = none
  confirm : X.confirm = .notNeeded
  probes : ∀ k, (X.probe k).unanswered = false ∧ (X.probe k).straggling = false
  successor : X.successor = none
  posted : X.posted = false
  poolOp : X.poolOp = .none
  buffer : X.buffer = some b
  stale : X.poolStale = false
  writeBack : X.owesWriteBack = wb

section
variable {D : State} {es : Vector Entry 48} {e : EntryId} {X : Entry} {q : List PoolOp} {l : LineAddr} {N : NodeId}
  {tag : Tag} {b : Buffer} {wb : Bool}

/-- Its GATHER ends with the DATA, and the corrected write-back where it is due (R60, R93). -/
theorem endGather_delivered (h : X.Delivered l N tag b wb) (hl : (D.node N).link ≠ .down) :
    (State.form D D.nodes es e X q).endGather e = (State.form D (tset D.nodes N { D.node N with
        outQ := (D.node N).outQ ++ [OutMsg.data tag l b] }) es e
        { X with outcome := .noChange, phase := .finish } q).writeOwed e (if wb then some ⟨b.data, false⟩ else none) := by
  have hnode : X.originNode = N := originNode_of (by rw [h.origin]; rfl)
  have htag : X.originTag = tag := by rw [Entry.originTag, h.origin]; rfl
  have hreply : X.reply e D.promote = some (.data tag l b) := by simp [Entry.reply, h.kind, h.buffer, htag, h.line]
  have hfixed : X.finished D.promote = { X with outcome := .noChange, phase := .finish } := by
    simp only [Entry.finished, Entry.fixedOutcome, h.kind]
  have hplain : X.kind ≠ .plainWrite := by rw [h.kind]; decide
  rw [form_endGather_reply h.kept hreply (by rw [hnode]; exact hl), finishWrite_read hplain h.stale h.writeBack h.buffer,
    hfixed, hnode]
  rfl

/-- The entry, which holds no way, is gone with its answer. -/
theorem settle_delivered (h : X.Delivered l N tag b false) (hl : (D.node N).link ≠ .down) :
    settle ⟨State.form D D.nodes es e X q, [.checkGather e], []⟩ = .next { D with
      nodes := tset D.nodes N { D.node N with outQ := (D.node N).outQ ++ [OutMsg.data tag l b] }
      entries := tset es e Entry.free, poolQueue := q } := by
  refine settle_eq (fuel := 3) (by decide) ?_
  rw [run_endGather (by rw [form_entry]; exact h.phase)
    (by rw [form_entry, gatherDone_iff]; exact ⟨fun k => (h.probes k).1, h.poolOp, h.awaited⟩), endGather_delivered h hl,
    if_neg Bool.false_ne_true, writeOwed_none]
  refine (finish_plain _ e { X with outcome := .noChange, phase := .finish } (form_entry ..) h.way h.successor
    (by rw [h.kind]; decide) rfl ?_ 0).trans ?_
  · exact (finishDone_iff _).2 ⟨by simp [h.confirm], h.poolOp, fun k => (h.probes k).2⟩
  · simp only [h.posted, Bool.false_eq_true, if_false, State.freeUp, form_setEntry]
    rfl

/-- With a corrected write-back due the entry stays for it. -/
theorem settle_delivered_writeBack (h : X.Delivered l N tag b true) (hl : (D.node N).link ≠ .down) (hq : q.length < 32)
    (hw : D.issueWait = []) : settle ⟨State.form D D.nodes es e X q, [.checkGather e], []⟩ = .next { D with
      nodes := tset D.nodes N { D.node N with outQ := (D.node N).outQ ++ [OutMsg.data tag l b] }
      entries := tset es e { X with outcome := .noChange, phase := .finish, poolOp := .writeOut }
      poolQueue := q ++ [⟨.entry e, l, some ⟨b.data, false⟩⟩] } := by
  refine settle_gatherEnds (by rw [form_entry]; exact h.phase)
    (by rw [form_entry, gatherDone_iff]; exact ⟨fun k => (h.probes k).1, h.poolOp, h.awaited⟩) ?_ ?_ (.inl rfl)
  · rw [endGather_delivered h hl, if_pos rfl, form_writeOwed hq hw, ← h.line]
    rfl
  · refine idle_checkFinish (.inr ?_)
    rw [State.entry, tget_tset_same]
    exact finishDone_of_poolOp (by simp)

end

/-- The table once the head of the issue-wait list is accepted into the freed place (R105). -/
def State.accepting (s : State) (op : PoolOp) : Vector Entry 48 :=
  match op.owner with
  | .entry f => tset s.entries f { s.entry f with poolOp := if op.write.isSome then .writeOut else .readOut }
  | .walker => s.entries

theorem accepting_congr {s t : State} (h : t.entries = s.entries) (op : PoolOp) : t.accepting op = s.accepting op := by
  obtain ⟨owner, line, write⟩ := op
  cases owner with
  | walker => exact h
  | entry f => simp only [State.accepting, State.entry, h]

theorem retireOp_accepting {s : State} {e : EntryId} {op : PoolOp} {waiting : List PoolOp}
    (h : s.issueWait = op :: waiting) (ho : op.owner ≠ .entry e) : s.retireOp (.entry e)
      = State.form { s with issueWait := waiting } s.nodes (s.accepting op) e { s.entry e with poolOp := .none }
        (s.poolQueue.filter (fun p => decide (p.owner ≠ .entry e)) ++ [op]) := by
  rw [retireOp_accepts h ho]
  rfl

/-- Settles O30. -/
theorem readCompletesForPlainRead : Obligations.ReadCompletesForPlainRead := by
  refine ⟨fun s e l words us N tag r d => ?plainRead, fun s e l words us N tag r d => ?plainWrite⟩
  case plainRead =>
    intro v hc hph hk hline hway horigin horph haw hconfirm hprobes hsucc hposted hlink hread wb rest event answered
    obtain ⟨hventries, hvnodes, hvqueue, hvwait, hvwb⟩ := poolDamaged_fields s us l words
    have hventry : ∀ f, v.entry f = s.entry f := fun f => by rw [State.entry, hventries]; rfl
    have hplain : (v.entry e).kind ≠ .plainWrite := by rw [hventry, hk]; decide
    set X : Entry := { s.entry e with
      poolOp := .none, buffer := some ⟨d, r.poison⟩, poolStale := false, owesWriteBack := wb } with hX
    have hdelivered : ∀ w, wb = w → X.Delivered l N tag ⟨d, r.poison⟩ w := fun w hw =>
      ⟨hph, hk, hline, hway, horigin, horph, haw, hconfirm, hprobes, hsucc, hposted, rfl, rfl, rfl, hw⟩
    have hup : (event.node N).link ≠ .down :=
      (readEvent_link v e r N).trans_ne (by rw [State.node, hvnodes]; exact hlink)
    have hform : s.issueWait = [] → v.readCompletes e l = State.form event event.nodes s.entries e X rest := fun hwait => by
      rw [readCompletes_form (retireOp_alone_form (hvwait.trans hwait)) rfl hread hplain, hventry, hventries, hvqueue, hvwb]
    rw [exec_poolReadComplete hc]
    change (_ → _ → settle ⟨v.readCompletes e l, _, _⟩ = _) ∧ (_ → ∀ op waiting, _ → _ →
      settle ⟨v.readCompletes e l, _, _⟩ = _) ∧ (_ → _ → _ → settle ⟨v.readCompletes e l, _, _⟩ = _)
    refine ⟨fun hwb hwait => ?alone, fun hwb op waiting hwait howner => ?accepts, fun hwb hwait hlen => ?writeBack⟩
    case alone =>
      rw [hform hwait, settle_delivered (hdelivered false hwb) hup]
    case accepts =>
      have hvop : v.issueWait = op :: waiting := hvwait.trans hwait
      have hevent : ({ v with issueWait := waiting } : State).readEvent e r = { event with issueWait := waiting } :=
        readEvent_withIssueWait v e r waiting
      have hform' : v.readCompletes e l = State.form { event with issueWait := waiting } event.nodes (s.accepting op) e X
          (rest ++ [op]) := by
        have hwriteBack : ({ v with issueWait := waiting } : State).correctWb = s.correctWb := hvwb
        rw [readCompletes_form (D := { v with issueWait := waiting }) (retireOp_accepting hvop howner) rfl hread hplain,
          hevent, hventry, accepting_congr hventries, hvqueue, hwriteBack]
      rw [hform']
      exact settle_delivered (D := { event with issueWait := waiting }) (hdelivered false hwb) hup
    case writeBack =>
      rw [hform hwait, settle_delivered_writeBack (hdelivered true hwb) hup (retired_lt (completable_mem hc).1 rfl hlen)
        ((readEvent_issueWait v e r).trans (hvwait.trans hwait)), hX, hwb]
  case plainWrite =>
    intro v hc hwait hlen hph hk hline hmask horigin haw hprobes hread merged rest event events
    obtain ⟨hventries, -, hvqueue, hvwait, -⟩ := poolDamaged_fields s us l words
    have hventry : v.entry e = s.entry e := by rw [State.entry, hventries]; rfl
    have hentryEvent : v.entryEvent e (some .postedMerge) = { node := some N, tag := some tag, kind := some .plainWrite
                                                              place := some (.line l), detail := some .postedMerge } := by
      simp only [State.entryEvent, hventry, horigin, hk, hline]
      rfl
    set X : Entry := { s.entry e with poolOp := .none, poolStale := false, buffer := some merged } with hX
    have hform : v.readCompletes e l = State.form events events.nodes s.entries e X rest := by
      rw [readCompletes_partWrite (event := events) (hvwait.trans hwait) hread (by rw [hventry]; exact hk)
        (by rw [hventry, hentryEvent]), hventry, hventries, hvqueue]
    have hevents : events.issueWait = [] := by
      have hquiet : event.issueWait = [] := (readEvent_issueWait v e r).trans (hvwait.trans hwait)
      simp only [events]
      split
      · rw [raise_issueWait]
        exact hquiet
      · exact hquiet
    have hkX : X.kind = .plainWrite := hk
    have hreply : X.reply e events.promote = none := by simp only [Entry.reply, hkX]
    have hfinished : X.finished events.promote = { X with outcome := .noChange, phase := .finish } := by
      simp only [Entry.finished, Entry.fixedOutcome, hkX]
    have hpart : ByteMask.full X.mask = false := decide_eq_false hmask
    have howed : X.finishWrite = some merged := by
      simp only [Entry.finishWrite, hkX, hpart, if_true, Bool.false_eq_true, if_false]
      rfl
    rw [exec_poolReadComplete hc]
    change settle ⟨v.readCompletes e l, _, _⟩ = _
    rw [hform]
    refine settle_gatherEnds (by rw [form_entry]; exact hph)
      (by rw [form_entry, gatherDone_iff]; exact ⟨hprobes, rfl, haw⟩) ?_ ?_ (.inl rfl)
    · rw [form_endGather_silent (.inr hreply), hfinished, howed,
        form_writeOwed (retired_lt (completable_mem hc).1 rfl hlen) hevents, ← hline]
      rfl
    · refine idle_checkFinish (.inr ?_)
      rw [State.entry, tget_tset_same]
      exact finishDone_of_poolOp (by simp)

end Sys2Proof.Machine

/-! The completion of pool writes (chapter 7; R59, R70, R95 to R101, R106, R108). -/

namespace Sys2Proof.Machine

/-! ## The line is stored -/

/-- A WRITE changes the pool alone. -/
theorem poolWrite_rest (s : State) (l : LineAddr) (b : Buffer) : { s.poolWrite l b with pool := s.pool } = s := by
  unfold State.poolWrite
  split <;> rfl

/-- The hub's state after a WRITE has been stored, but for the pool. -/
theorem poolWrite_fields (s : State) (us : List DirUpset) (l : LineAddr) (b : Buffer) :
    let W := (s.damaged us).poolWrite l b
    W.entries = s.entries ∧ W.nodes = s.nodes ∧ W.poolQueue = s.poolQueue ∧ W.issueWait = s.issueWait
      ∧ W.wayWait = s.wayWait ∧ W.walker = s.walker ∧ W.status = s.status ∧ W.dir = (s.damaged us).dir := by
  intro W
  have hrest : { W with pool := (s.damaged us).pool } = s.damaged us := poolWrite_rest (s.damaged us) l b
  exact ⟨(congrArg State.entries hrest :).trans (damaged_entries s us),
    (congrArg State.nodes hrest :).trans (damaged_nodes s us),
    (congrArg State.poolQueue hrest :).trans (damaged_poolQueue s us),
    (congrArg State.issueWait hrest :).trans (damaged_issueWait s us),
    (congrArg State.wayWait hrest :).trans (damaged_wayWait s us),
    (congrArg State.walker hrest :).trans (damaged_walker s us),
    (congrArg State.status hrest :).trans (damaged_status s us), (congrArg State.dir hrest :)⟩

/-- An entry whose WRITE is done. -/
def Entry.written (x : Entry) : Entry := { x with poolStale := false, poolOp := .none }

/-- The completion of a WRITE is the entry's: its FINISH is checked once the line is stored and the DONE due has gone
out. -/
theorem exec_poolWriteComplete {s : State} {e : EntryId} {l : LineAddr} {b : Buffer} {us : List DirUpset}
    (h : s.completable (.entry e) = some ⟨.entry e, l, some b⟩) : exec (.poolWriteComplete e us) s
      = settle ⟨(s.damaged us).writeCompletes e l b, [.checkFinish e], []⟩ := by
  change execPoolWriteComplete e us s = _
  simp only [execPoolWriteComplete, completable_damaged, h]
  rfl

section
variable {s : State} {e : EntryId} {l : LineAddr} {b : Buffer} {us : List DirUpset}

/-- The state in which the line is stored and the operation retired. -/
theorem stored_form (hw : s.issueWait = []) :
    ((((s.damaged us).poolWrite l b).retireOp (.entry e)).modEntry e (fun x => { x with poolStale := false }))
      = State.form ((s.damaged us).poolWrite l b) s.nodes s.entries e (s.entry e).written
        (s.poolQueue.filter (fun p => decide (p.owner ≠ .entry e))) := by
  obtain ⟨hentries, hnodes, hqueue, hwait, -⟩ := poolWrite_fields s us l b
  have hentry : ((s.damaged us).poolWrite l b).entry e = s.entry e := by rw [State.entry, hentries]; rfl
  rw [retireOp_alone_form (hwait.trans hw), form_mod, hentry, hentries, hnodes, hqueue]
  rfl

theorem writeCompletes_silent (hw : s.issueWait = []) (hr : (s.entry e).written.writeReply = none) :
    (s.damaged us).writeCompletes e l b = State.form ((s.damaged us).poolWrite l b) s.nodes s.entries e
      (s.entry e).written (s.poolQueue.filter (fun p => decide (p.owner ≠ .entry e))) := by
  simp only [State.writeCompletes, stored_form hw, form_entry, hr]

theorem writeCompletes_reply {N : NodeId} {m : OutMsg} (hw : s.issueWait = [])
    (hr : (s.entry e).written.writeReply = some m) (hn : (s.entry e).written.originNode = N)
    (hl : (s.node N).link ≠ .down) :
    (s.damaged us).writeCompletes e l b = State.form ((s.damaged us).poolWrite l b)
      (tset s.nodes N { s.node N with outQ := (s.node N).outQ ++ [m] }) s.entries e (s.entry e).written
      (s.poolQueue.filter (fun p => decide (p.owner ≠ .entry e))) := by
  simp only [State.writeCompletes, stored_form hw, form_entry, hr, hn]
  exact form_send _ _ _ _ _ _ _ _ hl

end

/-! ## A posted write is done -/

section
variable {z : State} {e : EntryId} {N : NodeId}

/-- A posted write whose node has no ORDER waiting is no longer counted (R99). -/
theorem postedDone_noOrder (hn : (z.entry e).originNode = N) (ho : (z.node N).orderSlot = none) :
    z.postedDone e = z.modNode N (fun x => { x with posted := x.posted - 1 }) := by
  have hslot : ((z.modNode N (fun x => { x with posted := x.posted - 1 })).node N).orderSlot = none := by
    rw [modNode_eq, State.node, tget_tset_same]
    exact ho
  simp only [State.postedDone, hn, hslot]

/-- A posted write an ORDER waits for leaves its slot, where others remain (R101). -/
theorem postedDone_orderWaits {o : OrderSlot} (hn : (z.entry e).originNode = N) (ho : (z.node N).orderSlot = some o)
    (hmore : ∃ f ∈ o.waiting, f ≠ e) : z.postedDone e = z.modNode N (fun x => { x with
      posted := x.posted - 1, orderSlot := some { o with waiting := o.waiting.filter (fun f => decide (f ≠ e)) } }) := by
  have hslot : ((z.modNode N (fun x => { x with posted := x.posted - 1 })).node N).orderSlot = some o := by
    rw [modNode_eq, State.node, tget_tset_same]
    exact ho
  have hne : o.waiting.filter (fun f => decide (f ≠ e)) ≠ [] := by
    obtain ⟨f, hf, hfe⟩ := hmore
    exact List.ne_nil_of_mem (List.mem_filter.2 ⟨hf, decide_eq_true hfe⟩)
  simp only [State.postedDone, hn, hslot, hne, ne_eq, not_false_eq_true, if_true]
  rw [modNode_modNode_same]

/-- The last posted write an ORDER waits for empties its slot, and the ORDER is answered (R101). -/
theorem postedDone_orderDone {tag : Tag} (hn : (z.entry e).originNode = N)
    (ho : (z.node N).orderSlot = some ⟨tag, [e]⟩) (hl : (z.node N).link ≠ .down) :
    z.postedDone e = z.modNode N (fun x => { x with
      posted := x.posted - 1, orderSlot := none, outQ := x.outQ ++ [OutMsg.done tag .request false false] }) := by
  set y := z.modNode N (fun x => { x with posted := x.posted - 1 }) with hy
  have hnode : y.node N = { z.node N with posted := (z.node N).posted - 1 } := tget_tset_same _ _ _
  have hslot : (y.node N).orderSlot = some ⟨tag, [e]⟩ := by
    rw [hnode]
    exact ho
  have hlast : [e].filter (fun f => decide (f ≠ e)) = [] := by simp
  have hdone : z.postedDone e = (y.modNode N (fun x => { x with orderSlot := none })).doneRequest N tag false := by
    simp only [State.postedDone, hn, ← hy, hslot, hlast, ne_eq, not_true_eq_false, if_false, List.cons_ne_self]
  have hup : ((y.modNode N (fun x => { x with orderSlot := none })).node N).link ≠ .down := by
    rw [modNode_eq, State.node, tget_tset_same, hnode]
    exact hl
  rw [hdone, hy, modNode_modNode_same]
  rw [hy, modNode_modNode_same] at hup
  exact (send_up hup _).trans (modNode_modNode_same z N _ (fun x => { x with
    outQ := x.outQ ++ [OutMsg.done tag .request false false] }))

end

/-- Settles O31: what the entry owes once its line is stored, and its completion where nothing else is awaited. -/
theorem writeCompletesForPlainWrite : Obligations.WriteCompletesForPlainWrite := by
  refine ⟨fun s e l b us N hc hw hph hk hway horigin horph hconfirm hst hsucc hlink => ?plainWrite,
    fun s e l b us hc hw hph => ?coherent⟩
  case plainWrite =>
    intro u done fewer
    set W := (s.damaged us).poolWrite l b with hW
    set rest := s.poolQueue.filter (fun op => decide (op.owner ≠ .entry e)) with hrest
    have hnode : (s.entry e).written.originNode = N := originNode_of horigin
    have hdone : (s.entry e).written.finishDone = true := by
      rw [finishDone_iff]
      exact ⟨by simp [Entry.written, hconfirm], rfl, hst⟩
    have hrecall : (s.entry e).written.kind ≠ .recall := by
      rw [show (s.entry e).written.kind = .plainWrite from hk]
      decide
    have hrun : ∀ ns, settle ⟨State.form W ns s.entries e (s.entry e).written rest, [.checkFinish e], []⟩
        = .next ((if (s.entry e).posted then (State.form W ns s.entries e (s.entry e).written rest).postedDone e
            else State.form W ns s.entries e (s.entry e).written rest).freeUp e) := fun ns =>
      settle_eq (fuel := 2) (by decide) (finish_plain _ e (s.entry e).written (form_entry ..) hway hsucc hrecall hph hdone 0)
    have hentry : ((State.form W s.nodes s.entries e (s.entry e).written rest).entry e).originNode = N := by
      rw [form_entry]
      exact hnode
    rw [exec_poolWriteComplete hc]
    refine ⟨fun hposted => ?_, fun hposted horder => ?_, fun hposted tag horder => ?_, fun hposted tag waiting horder hmore => ?_⟩
    · have hreply : (s.entry e).written.writeReply
          = some (.done (s.entry e).originTag .request (((s.entry e).buffer.map Buffer.poison).getD false) false) := by
        simp [Entry.writeReply, Entry.written, horph, hk, hposted, Entry.originTag]
      rw [writeCompletes_reply hw hreply hnode hlink, hrun, if_neg (by rw [hposted]; exact Bool.false_ne_true),
        State.freeUp, form_setEntry]
      rfl
    all_goals
      have hreply : (s.entry e).written.writeReply = none := by
        simp [Entry.writeReply, Entry.written, horph, hk, hposted]
      rw [writeCompletes_silent hw hreply, hrun, if_pos hposted]
    · rw [postedDone_noOrder hentry (by exact horder), form_modNode, State.freeUp, form_setEntry]
      rfl
    · rw [postedDone_orderDone hentry (by exact horder) hlink, form_modNode, State.freeUp, form_setEntry]
      rfl
    · rw [postedDone_orderWaits hentry (by exact horder) hmore, form_modNode, State.freeUp, form_setEntry]
      rfl
  case coherent =>
    intro stored
    set W := (s.damaged us).poolWrite l b with hW
    set rest := s.poolQueue.filter (fun op => decide (op.owner ≠ .entry e)) with hrest
    obtain ⟨hentries, hnodes, hqueue, hwait, hlist, hwalker, hstatus, hdir⟩ := poolWrite_fields s us l b
    have hstored : State.form W s.nodes s.entries e (s.entry e).written rest = stored := by
      rw [← hnodes]
      rfl
    have hfetch : (s.entry e).kind = .fetchS ∨ (s.entry e).kind = .fetchH → (s.entry e).written.writeReply = none := by
      rintro (hk | hk) <;> simp [Entry.writeReply, Entry.written, hk]
    rw [exec_poolWriteComplete hc]
    refine ⟨fun hk n hconfirm => ?waits, fun w hready hwf hway hq hsucc hposted hst => ?completes⟩
    case waits =>
      rw [writeCompletes_silent hw (hfetch hk), ← hstored]
      refine settle_checkFinish (e := e) (standing_of_finish ?_ ?_)
      · rw [State.entry, tget_tset_same]
        exact hph
      · rw [State.entry, tget_tset_same]
        simp [Entry.finishDone, Entry.written, hconfirm]
    case completes =>
      have hcompletes : ∀ ns r, (∀ m, (tget ns m).membership = (s.node m).membership) → (s.entry e).kind ≠ .recall →
          (∀ n, (s.entry e).confirm ≠ .awaited n) → (s.entry e).written.finalRecord s.lostNodes = r →
          (∀ q, r = some q → q.wellFormed = true) →
          ∃ t, settle ⟨State.form W ns s.entries e (s.entry e).written rest, [.checkFinish e], []⟩ = .next t
            ∧ CompletedIn (State.form W ns s.entries e (s.entry e).written rest) t e (LineAddr.set (s.entry e).line) w r := by
        intro ns r hmem hkind hconfirm hr hwell
        have hlost : (State.form W ns s.entries e (s.entry e).written rest).lostNodes = s.lostNodes := lostNodes_congr hmem
        have hline : ∀ f, ((State.form W ns s.entries e (s.entry e).written rest).entry f).line = (s.entry f).line := by
          intro f
          by_cases hf : f = e
          · rw [hf, form_entry]
            rfl
          · rw [form_entry_ne _ _ _ _ _ _ hf]
            rfl
        obtain ⟨hsets, hstall⟩ := hq
        have hzdir : Directory.wf (State.form W ns s.entries e (s.entry e).written rest).dir := by
          change Directory.wf W.dir
          rw [hdir]
          exact damaged_wf hwf us
        have hzquiet : (State.form W ns s.entries e (s.entry e).written rest).quiet (LineAddr.set (s.entry e).line) w := by
          refine ⟨fun m hm => ?_, ?_⟩
          · rw [State.setOf, hline]
            exact hsets m (hlist ▸ hm)
          · change W.walker.stall ≠ _
            rw [hwalker]
            exact hstall
        obtain ⟨t, hrun, hcompleted⟩ := run_complete (z := State.form W ns s.entries e (s.entry e).written rest)
          (form_entry ..) (hstatus.trans hready) hzdir hway rfl hsucc (fun h => absurd h hkind) hposted
          (by rw [hlost]; exact hr) hwell hph ((finishDone_iff _).2 ⟨hconfirm, rfl, hst⟩) hzquiet
        exact ⟨t, settle_eq (fuel := 8) (by decide) hrun, hcompleted⟩
      have hkind : ∀ {channel}, ((s.entry e).kind = .flush ∧ channel = Channel.request)
          ∨ ((s.entry e).kind = .returnD ∧ channel = .ret) → (s.entry e).kind ≠ .recall := by
        rintro channel (⟨hk, -⟩ | ⟨hk, -⟩) <;> rw [hk] <;> decide
      refine ⟨fun st T hk hconfirm horph hout hshared hheld hlost => ?fetch,
        fun N tag channel hk hconfirm hout horigin => ⟨fun horph hlink => ?answered, fun horph => ?orphan⟩⟩
      case fetch =>
        rw [writeCompletes_silent hw (hfetch hk), ← hstored]
        refine hcompletes _ _ (fun m => rfl) ?_ (by simp [hconfirm]) (finalRecord_record hout horph hlost hshared) ?_
        · rcases hk with hk | hk <;> rw [hk] <;> decide
        · rintro q h
          obtain rfl := Option.some.inj h
          cases st with
          | shared => simpa [Record.wellFormed] using hshared rfl
          | held => simpa [Record.wellFormed] using hheld rfl
      case answered =>
        have hreply : (s.entry e).written.writeReply = some (.done tag channel false false) := by
          rcases hk with ⟨hk, rfl⟩ | ⟨hk, rfl⟩ <;>
            simp [Entry.writeReply, Entry.written, horph, hk, Entry.originTag, horigin]
        have hnode : (s.entry e).written.originNode = N := originNode_of (by rw [Entry.written, horigin]; rfl)
        rw [writeCompletes_reply hw hreply hnode hlink, ← hstored]
        refine hcompletes _ none (fun m => ?_) (hkind hk) (by simp [hconfirm]) (finalRecord_vacant hout _) nofun
        by_cases hm : N = m
        · subst hm
          rw [tget_tset_same]
        · rw [tget_tset_ne _ _ hm]
          rfl
      case orphan =>
        have hreply : (s.entry e).written.writeReply = none := by simp [Entry.writeReply, Entry.written, horph]
        rw [writeCompletes_silent hw hreply, ← hstored]
        exact hcompletes _ none (fun m => rfl) (hkind hk) (by simp [hconfirm]) (finalRecord_vacant hout _) nofun

end Sys2Proof.Machine

/-! What the pool keeps: a line read after it was written, and the merge of a write's bytes (chapter 7; R96, R107 to
R110). -/

namespace Sys2Proof.Machine

/-! ## A line and its words -/

/-- A line is what its eight words are. -/
theorem line_eq_of_words {a b : LineData} (h : ∀ k, LineData.word a k = LineData.word b k) : a = b := by
  refine BitVec.eq_of_getLsbD_eq fun i hi => ?_
  have hbit : (LineData.word a ⟨i / 64, by omega⟩).getLsbD (i % 64)
      = (LineData.word b ⟨i / 64, by omega⟩).getLsbD (i % 64) := by rw [h]
  have hmod : i % 64 < 64 := by omega
  have hsplit : 64 * (i / 64) + i % 64 = i := by omega
  simpa [LineData.word, BitVec.getLsbD_extractLsb', hmod, hsplit] using hbit

/-- What a READ finds in the words of a line that a WRITE stored. -/
theorem read_written (b : Buffer) (l : LineAddr) (k : WordNo) : (tget (PoolLine.written b) k).read l k
    = if b.poison then (.marked, 0) else (.clean, LineData.word b.data k) := by
  rw [PoolLine.written, tget_ofFn]
  cases hb : b.poison <;> rfl

/-! ## The line written -/

section
variable {s : State} {l : LineAddr}

theorem poolWrite_beyond (h : s.beyondSize l = true) (b : Buffer) : s.poolWrite l b = s := by
  simp [State.poolWrite, h]

theorem poolRead_beyond (h : s.beyondSize l = true) : s.poolRead l = (.beyondSize, 0) := by
  simp [State.poolRead, h]

theorem poolWrite_pool (h : s.beyondSize l = false) (b : Buffer) :
    (s.poolWrite l b).pool = s.pool.putLine l (PoolLine.written b) := by
  simp [State.poolWrite, h]

theorem beyondSize_poolWrite (b : Buffer) (m : LineAddr) : (s.poolWrite l b).beyondSize m = s.beyondSize m := by
  unfold State.poolWrite
  split <;> rfl

theorem line_poolWrite (hwf : Memory.wf s.pool) (h : s.beyondSize l = false) (b : Buffer) (m : LineAddr) :
    (s.poolWrite l b).pool.line m = if l = m then PoolLine.written b else s.pool.line m := by
  rw [poolWrite_pool h, line_putLine hwf]

/-- A line reads as it was written: as it is, or POISONED with zeros. -/
theorem poolRead_poolWrite (hwf : Memory.wf s.pool) (h : s.beyondSize l = false) (b : Buffer) :
    (s.poolWrite l b).poolRead l = if b.poison then (.poisoned, 0) else (.clean, b.data) := by
  have hbeyond : (s.poolWrite l b).beyondSize l = false := (beyondSize_poolWrite b l).trans h
  have hfound : ∀ k, tget ((s.poolWrite l b).wordsFound l) k
      = if b.poison then (.marked, 0) else (.clean, LineData.word b.data k) := fun k => by
    rw [tget_wordsFound, line_poolWrite hwf h, if_pos rfl, read_written]
  have hconds : ∀ c ∈ ((s.poolWrite l b).wordsFound l).toList.map Prod.fst,
      c = if b.poison then WordCond.marked else .clean := by
    intro c hc
    rw [wordsFound_conditions, List.mem_map] at hc
    obtain ⟨k, -, rfl⟩ := hc
    rw [← tget_wordsFound, hfound k]
    cases b.poison <;> rfl
  have hlength : ((s.poolWrite l b).wordsFound l).toList.map Prod.fst
      = List.replicate 8 (if b.poison then WordCond.marked else .clean) := by
    rw [List.eq_replicate_iff]
    exact ⟨by simp, hconds⟩
  have hresult := poolRead_result hbeyond
  rw [hlength] at hresult
  have hdata : ((s.poolWrite l b).poolRead l).2 = if b.poison then 0 else b.data := line_eq_of_words fun k => by
    rw [poolRead_word hbeyond, hfound k]
    cases b.poison
    · rfl
    · simp [LineData.word]
  refine Prod.ext ?_ ?_
  · rw [hresult]
    cases b.poison
    · exact (by decide : readResult (List.replicate 8 .clean) = .clean)
    · exact (by decide : readResult (List.replicate 8 .marked) = .poisoned)
  · rw [hdata]
    cases b.poison <;> rfl

end

/-! ## The merge -/

theorem getLsbD_byteOf {b : Bool} {i : Nat} (h : i < 8) : (byteOf b).getLsbD i = b := by
  cases b <;> revert i <;> decide

/-- The bit mask of a byte mask has each flag in its byte's eight bits. -/
theorem getLsbD_spreadMask (m : ByteMask) : ∀ (n i : Nat), i < 8 * n → (spreadMask m n).getLsbD i = m.getLsbD (i / 8)
  | 0, _, h => by omega
  | n + 1, i, h => by
    rw [spreadMask, BitVec.getLsbD_cast, BitVec.getLsbD_append]
    by_cases hi : i < 8 * n
    · rw [if_pos hi]
      exact getLsbD_spreadMask m n i hi
    · have hdiv : i / 8 = n := by omega
      rw [if_neg hi, getLsbD_byteOf (by omega), hdiv]

theorem getLsbD_bits (m : ByteMask) {i : Nat} (h : i < 512) : (ByteMask.bits m).getLsbD i = m.getLsbD (i / 8) := by
  rw [ByteMask.bits, BitVec.getLsbD_cast, getLsbD_spreadMask m 64 i (by omega)]

/-- A merged byte is the write's where its flag is set, and the line's where it is not. -/
theorem byte_mergeBytes (mask : ByteMask) (old new : LineData) {k : Nat} (hk : k < 64) :
    LineData.byte (mergeBytes mask old new) k
      = if mask.getLsbD k then LineData.byte new k else LineData.byte old k := by
  refine BitVec.eq_of_getLsbD_eq fun i hi => ?_
  have hin : 8 * k + i < 512 := by omega
  have hdiv : (8 * k + i) / 8 = k := by omega
  have hbit : (ByteMask.bits mask)[8 * k + i] = mask.getLsbD k := by
    rw [← BitVec.getLsbD_eq_getElem, getLsbD_bits mask hin, hdiv]
  cases hm : mask.getLsbD k <;>
    simp [LineData.byte, mergeBytes, hi, hin, hbit, hm]

/-- Settles O28: a line written is read back word by word, and the merge takes the flagged bytes. -/
theorem wordsReadAsWritten : Obligations.WordsReadAsWritten := by
  refine ⟨fun l k w flips => ⟨rfl, rfl, rfl, rfl, rfl, rfl⟩, fun s l b hwf => ⟨fun hbeyond => ?_, fun hbelow => ?_⟩,
    fun mask old new k hk => byte_mergeBytes mask old new hk⟩
  · have h : s.beyondSize l = true := (beyondSize_iff s l).mpr hbeyond
    exact ⟨poolWrite_beyond h b, poolRead_beyond h⟩
  · have h : s.beyondSize l = false := by
      rw [← Bool.not_eq_true, beyondSize_iff]
      omega
    refine ⟨fun k => ?_, poolRead_poolWrite hwf h b, fun j hj => ?_, ?_, poolWrite_rest s l b⟩
    · rw [line_poolWrite hwf h, if_pos rfl, PoolLine.written, tget_ofFn]
      cases b.poison <;> rfl
    · rw [line_poolWrite hwf h, if_neg hj.symm]
    · rw [poolWrite_pool h]
      exact Memory.wf_putLine hwf l _

end Sys2Proof.Machine

/-! The layout of the messages (chapter 9; R166): what is read from a header built of its fields, and the headers of the
messages sent. -/

namespace Sys2Proof.Machine

/-! ## Headers received -/

/-- The header of a message about a line: its flags, the line, the entry number, the tag and the kind code. -/
def lineHeader (flags : BitVec 14) (line : LineAddr) (entry : BitVec 6) (tag : Tag) (kind : BitVec 8) : BitVec 64 :=
  flags ++ line ++ entry ++ tag ++ kind

/-- The header of a message about a register: the value, the offset, the tag and the kind code. -/
def regHeader (value : RegValue) (offset : Offset) (tag : Tag) (kind : BitVec 8) : BitVec 64 :=
  value ++ offset ++ 0#6 ++ tag ++ kind

section
variable (flags : BitVec 14) (line : LineAddr) (entry : BitVec 6) (tag : Tag) (kind : BitVec 8) (value : RegValue)
  (offset : Offset) (mask : ByteMask) (data : LineData)

/-- A bit of the header of a message about a line: its flags stand at bits 50 and above. -/
theorem getLsbD_lineHeader (i : Nat) : (lineHeader flags line entry tag kind).getLsbD (50 + i) = flags.getLsbD i := by
  change (flags ++ line ++ entry ++ tag ++ kind).getLsbD (50 + i) = _
  rw [BitVec.getLsbD_append, if_neg (by omega), BitVec.getLsbD_append, if_neg (by omega), BitVec.getLsbD_append,
    if_neg (by omega), BitVec.getLsbD_append, if_neg (by omega)]
  congr 1
  omega

theorem kindCode_lineHeader : WireMsg.kindCode ⟨lineHeader flags line entry tag kind, mask, data⟩ = kind := by
  change BitVec.extractLsb' 0 8 (flags ++ line ++ entry ++ tag ++ kind) = _
  exact BitVec.extractLsb'_append_eq_right

theorem tag_lineHeader : WireMsg.tag ⟨lineHeader flags line entry tag kind, mask, data⟩ = tag := by
  change BitVec.extractLsb' 8 6 (flags ++ line ++ entry ++ tag ++ kind) = _
  simp only [BitVec.extractLsb'_append_eq_of_le, BitVec.extractLsb'_append_eq_right, Nat.reduceLeDiff, Nat.reduceSub]

theorem entryNo_lineHeader : WireMsg.entryNo ⟨lineHeader flags line entry tag kind, mask, data⟩ = entry := by
  change BitVec.extractLsb' 14 6 (flags ++ line ++ entry ++ tag ++ kind) = _
  simp only [BitVec.extractLsb'_append_eq_of_le, BitVec.extractLsb'_append_eq_right, Nat.reduceLeDiff, Nat.reduceSub]

theorem line_lineHeader : WireMsg.line ⟨lineHeader flags line entry tag kind, mask, data⟩ = line := by
  change BitVec.extractLsb' 20 30 (flags ++ line ++ entry ++ tag ++ kind) = _
  simp only [BitVec.extractLsb'_append_eq_of_le, BitVec.extractLsb'_append_eq_right, Nat.reduceLeDiff, Nat.reduceSub]

theorem poison_lineHeader :
    WireMsg.poison ⟨lineHeader flags line entry tag kind, mask, data⟩ = flags.getLsbD 0 :=
  getLsbD_lineHeader flags line entry tag kind 0

theorem keep_lineHeader : WireMsg.keep ⟨lineHeader flags line entry tag kind, mask, data⟩ = flags.getLsbD 1 :=
  getLsbD_lineHeader flags line entry tag kind 1

theorem dataPresent_lineHeader :
    WireMsg.dataPresent ⟨lineHeader flags line entry tag kind, mask, data⟩ = flags.getLsbD 2 :=
  getLsbD_lineHeader flags line entry tag kind 2

theorem kindCode_regHeader : WireMsg.kindCode ⟨regHeader value offset tag kind, mask, data⟩ = kind := by
  change BitVec.extractLsb' 0 8 (value ++ offset ++ 0#6 ++ tag ++ kind) = _
  exact BitVec.extractLsb'_append_eq_right

theorem tag_regHeader : WireMsg.tag ⟨regHeader value offset tag kind, mask, data⟩ = tag := by
  change BitVec.extractLsb' 8 6 (value ++ offset ++ 0#6 ++ tag ++ kind) = _
  simp only [BitVec.extractLsb'_append_eq_of_le, BitVec.extractLsb'_append_eq_right, Nat.reduceLeDiff, Nat.reduceSub]

theorem offset_regHeader : WireMsg.offset ⟨regHeader value offset tag kind, mask, data⟩ = offset := by
  change BitVec.extractLsb' 20 12 (value ++ offset ++ 0#6 ++ tag ++ kind) = _
  simp only [BitVec.extractLsb'_append_eq_of_le, BitVec.extractLsb'_append_eq_right, Nat.reduceLeDiff, Nat.reduceSub]

theorem value_regHeader : WireMsg.value ⟨regHeader value offset tag kind, mask, data⟩ = value := by
  change BitVec.extractLsb' 32 32 (value ++ offset ++ 0#6 ++ tag ++ kind) = _
  simp only [BitVec.extractLsb'_append_eq_of_le, BitVec.extractLsb'_eq_self, Nat.reduceLeDiff, Nat.reduceSub]

/-- A header without a value has its data-present bit clear. -/
theorem dataPresent_regHeader_zero : WireMsg.dataPresent ⟨regHeader 0#32 offset tag kind, mask, data⟩ = false := by
  change (0#32 ++ offset ++ 0#6 ++ tag ++ kind).getLsbD 52 = _
  rw [BitVec.getLsbD_append, if_neg (by decide), BitVec.getLsbD_append, if_neg (by decide), BitVec.getLsbD_append,
    if_neg (by decide), BitVec.getLsbD_append, if_neg (by decide), BitVec.getLsbD_zero]

end

/-! ## The flags of a header -/

theorem flags_data (keep poison : Bool) :
    (0#11 ++ 1#1 ++ BitVec.ofBool keep ++ BitVec.ofBool poison : BitVec 14).getLsbD 0 = poison
    ∧ (0#11 ++ 1#1 ++ BitVec.ofBool keep ++ BitVec.ofBool poison : BitVec 14).getLsbD 1 = keep
    ∧ (0#11 ++ 1#1 ++ BitVec.ofBool keep ++ BitVec.ofBool poison : BitVec 14).getLsbD 2 = true := by
  revert keep poison
  decide

theorem flags_keep (keep : Bool) : (0#12 ++ BitVec.ofBool keep ++ 0#1 : BitVec 14).getLsbD 1 = keep
    ∧ (0#12 ++ BitVec.ofBool keep ++ 0#1 : BitVec 14).getLsbD 2 = false := by
  revert keep
  decide

/-! ## The messages received -/

section
variable (line : LineAddr) (entry : BitVec 6) (tag : Tag) (mask : ByteMask) (data : LineData)

/-- A request about a line, or one that names nothing, is read by its kind code. -/
theorem request_lineHeader {kind : BitVec 8} {b : ReqBody}
    (h : (kind, b) ∈ [(0x01#8, ReqBody.fetchS line), (0x02#8, .fetchH line), (0x03#8, .upgrade line),
      (0x04#8, .flush line), (0x05#8, .plainRead line), (0x07#8, .order), (0x0A#8, .leave)]) :
    WireMsg.request ⟨lineHeader 0#14 line 0#6 tag kind, mask, data⟩ = some ⟨tag, b⟩ := by
  simp only [List.mem_cons, Prod.mk.injEq, List.not_mem_nil, or_false] at h
  rcases h with ⟨rfl, rfl⟩ | ⟨rfl, rfl⟩ | ⟨rfl, rfl⟩ | ⟨rfl, rfl⟩ | ⟨rfl, rfl⟩ | ⟨rfl, rfl⟩ | ⟨rfl, rfl⟩ <;>
    simp [WireMsg.request, kindCode_lineHeader, tag_lineHeader, line_lineHeader, dataPresent_lineHeader, MsgKind.code]

theorem request_plainWrite : WireMsg.request
    ⟨lineHeader (0#11 ++ 1#1 ++ 0#2 : BitVec 14) line 0#6 tag 0x06#8, mask, data⟩
      = some ⟨tag, .plainWrite line mask data⟩ := by
  simp [WireMsg.request, kindCode_lineHeader, tag_lineHeader, line_lineHeader, dataPresent_lineHeader, MsgKind.code]

theorem request_configRead (offset : Offset) :
    WireMsg.request ⟨regHeader 0#32 offset tag 0x08#8, mask, data⟩ = some ⟨tag, .configRead offset⟩ := by
  simp [WireMsg.request, kindCode_regHeader, tag_regHeader, offset_regHeader, dataPresent_regHeader_zero, MsgKind.code]

theorem request_configWrite (offset : Offset) (value : RegValue) :
    WireMsg.request ⟨regHeader value offset tag 0x09#8, mask, data⟩ = some ⟨tag, .configWrite offset value⟩ := by
  simp [WireMsg.request, kindCode_regHeader, tag_regHeader, offset_regHeader, value_regHeader, MsgKind.code]

theorem ret_data (poison : Bool) : WireMsg.ret
    ⟨lineHeader (0#11 ++ 1#1 ++ 0#1 ++ BitVec.ofBool poison : BitVec 14) line 0#6 tag 0x0B#8, mask, data⟩
      = some ⟨tag, line, some ⟨data, poison⟩⟩ := by
  obtain ⟨hpoison, -, hdata⟩ := flags_data false poison
  change (0#11 ++ 1#1 ++ 0#1 ++ BitVec.ofBool poison : BitVec 14).getLsbD 0 = poison at hpoison
  change (0#11 ++ 1#1 ++ 0#1 ++ BitVec.ofBool poison : BitVec 14).getLsbD 2 = true at hdata
  simp only [WireMsg.ret, kindCode_lineHeader, tag_lineHeader, line_lineHeader, poison_lineHeader,
    dataPresent_lineHeader, hpoison, hdata, MsgKind.code]
  simp

theorem ret_clean : WireMsg.ret ⟨lineHeader 0#14 line 0#6 tag 0x0C#8, mask, data⟩ = some ⟨tag, line, none⟩ := by
  simp [WireMsg.ret, kindCode_lineHeader, tag_lineHeader, line_lineHeader, dataPresent_lineHeader, MsgKind.code]

/-- An answer is what its kind code says where its data-present bit fits the kind; its line, its entry number and its
flags are the header's. -/
theorem answer_lineHeader {flags : BitVec 14} {k : AnswerKind} {code : BitVec 8} (hcode : k.msgKind.code = code)
    (hdata : flags.getLsbD 2 = decide (k = AnswerKind.ackData)) :
    let m : WireMsg := ⟨lineHeader flags line entry tag code, mask, data⟩
    m.answer = some k ∧ m.line = line ∧ m.entryNo = entry ∧ m.keep = flags.getLsbD 1 ∧ m.poison = flags.getLsbD 0 := by
  have hkind : WireMsg.answerCode ⟨lineHeader flags line entry tag code, mask, data⟩ = some k := by
    simp only [WireMsg.answerCode, kindCode_lineHeader, ← hcode]
    cases k <;> decide
  refine ⟨?_, line_lineHeader .., entryNo_lineHeader .., keep_lineHeader .., poison_lineHeader ..⟩
  rw [WireMsg.answer, hkind, dataPresent_lineHeader, hdata]
  exact if_pos rfl

end

/-! ## Headers sent -/

/-- A field that ends within a word is below the word's bound. -/
theorem toNat_shiftLeft_lt {k low n : Nat} (x : BitVec k) (h : k + low ≤ n) : x.toNat <<< low < 2 ^ n := by
  rw [Nat.shiftLeft_eq]
  calc x.toNat * 2 ^ low < 2 ^ k * 2 ^ low := Nat.mul_lt_mul_of_pos_right x.isLt (Nat.two_pow_pos low)
    _ = 2 ^ (k + low) := (Nat.pow_add 2 k low).symm
    _ ≤ 2 ^ n := Nat.pow_le_pow_right (by decide) h

theorem toNat_headerField {k : Nat} (x : BitVec k) {low : Nat} (h : k + low ≤ 64) :
    (headerField x.toNat low).toNat = x.toNat <<< low := by
  rw [headerField, BitVec.toNat_ofNat, Nat.mod_eq_of_lt (toNat_shiftLeft_lt x h)]

/-- Two flags of a header about a line stand in its flag field. -/
theorem headerFlag_data (poison present : Bool) : headerFlag poison 50 ||| headerFlag present 52
    = headerField (0#11 ++ BitVec.ofBool present ++ 0#1 ++ BitVec.ofBool poison : BitVec 14).toNat 50 := by
  revert poison present
  decide

theorem headerFlag_done (poison ret : Bool) : headerFlag poison 50 ||| headerFlag ret 53
    = headerField (0#10 ++ BitVec.ofBool ret ++ 0#2 ++ BitVec.ofBool poison : BitVec 14).toNat 50 := by
  revert poison ret
  decide

theorem toNat_entryCode (e : EntryId) : (BitVec.ofNat 6 e.val).toNat = e.val := by
  rw [BitVec.toNat_ofNat]
  omega

section
variable (flags : BitVec 14) (line : LineAddr) (entry : BitVec 6) (tag : Tag) (kind : BitVec 8)

/-- The fields of a message about a line, put together. -/
theorem fields_lineHeader : headerField kind.toNat 0 ||| headerField tag.toNat 8 ||| headerField entry.toNat 14
    ||| headerField line.toNat 20 ||| headerField flags.toNat 50 = lineHeader flags line entry tag kind := by
  refine BitVec.eq_of_toNat_eq (Eq.trans ?_ (BitVec.toNat_append (flags ++ line ++ entry ++ tag) kind).symm)
  simp only [BitVec.toNat_append]
  simp only [BitVec.toNat_or, toNat_headerField, Nat.shiftLeft_or_distrib, ← Nat.shiftLeft_add,
    Nat.reduceAdd, Nat.reduceLeDiff, Nat.shiftLeft_zero]
  simp only [Nat.or_assoc, Nat.or_comm]

/-- The fields of a DONE. -/
theorem fields_done : headerField kind.toNat 0 ||| headerField tag.toNat 8 ||| headerField flags.toNat 50
    = (flags ++ 0#36 ++ tag ++ kind : BitVec 64) := by
  refine BitVec.eq_of_toNat_eq (Eq.trans ?_ (BitVec.toNat_append (flags ++ 0#36 ++ tag) kind).symm)
  simp only [BitVec.toNat_append]
  simp only [BitVec.toNat_or, toNat_headerField, Nat.shiftLeft_or_distrib, ← Nat.shiftLeft_add,
    Nat.reduceAdd, Nat.reduceLeDiff, Nat.shiftLeft_zero, BitVec.toNat_zero, Nat.or_zero]
  simp only [Nat.or_assoc, Nat.or_comm]

/-- The fields of a REFUSE. -/
theorem fields_refuse (code : BitVec 4) : headerField kind.toNat 0 ||| headerField tag.toNat 8
    ||| headerField code.toNat 56 = (0#4 ++ code ++ 0#42 ++ tag ++ kind : BitVec 64) := by
  refine BitVec.eq_of_toNat_eq (Eq.trans ?_ (BitVec.toNat_append (0#4 ++ code ++ 0#42 ++ tag) kind).symm)
  simp only [BitVec.toNat_append]
  simp only [BitVec.toNat_or, toNat_headerField, Nat.shiftLeft_or_distrib, ← Nat.shiftLeft_add,
    Nat.reduceAdd, Nat.reduceLeDiff, Nat.shiftLeft_zero, BitVec.toNat_zero, Nat.zero_shiftLeft, Nat.or_zero,
    Nat.zero_or]
  simp only [Nat.or_assoc, Nat.or_comm]

/-- The fields of a CONFIG-DATA. -/
theorem fields_configData (value : RegValue) : headerField kind.toNat 0 ||| headerField tag.toNat 8
    ||| headerField value.toNat 32 = (value ++ 0#18 ++ tag ++ kind : BitVec 64) := by
  refine BitVec.eq_of_toNat_eq (Eq.trans ?_ (BitVec.toNat_append (value ++ 0#18 ++ tag) kind).symm)
  simp only [BitVec.toNat_append]
  simp only [BitVec.toNat_or, toNat_headerField, Nat.shiftLeft_or_distrib, ← Nat.shiftLeft_add,
    Nat.reduceAdd, Nat.reduceLeDiff, Nat.shiftLeft_zero, BitVec.toNat_zero, Nat.or_zero]
  simp only [Nat.or_assoc, Nat.or_comm]

/-- The fields of an ALERT. -/
theorem fields_alert (classes : ClassSet) : headerField kind.toNat 0 ||| headerField classes.toNat 20
    = (0#34 ++ classes ++ 0#12 ++ kind : BitVec 64) := by
  refine BitVec.eq_of_toNat_eq (Eq.trans ?_ (BitVec.toNat_append (0#34 ++ classes ++ 0#12) kind).symm)
  simp only [BitVec.toNat_append]
  simp only [BitVec.toNat_or, toNat_headerField, ← Nat.shiftLeft_add,
    Nat.reduceAdd, Nat.reduceLeDiff, Nat.shiftLeft_zero, BitVec.toNat_zero, Nat.zero_shiftLeft, Nat.or_zero,
    Nat.zero_or]
  exact Nat.or_comm _ _

end

/-! ## The messages sent -/

/-- A field that holds 0 adds nothing to a header. -/
theorem headerField_zero (low : Nat) : headerField 0 low = 0#64 := by
  simp [headerField]

section
variable (tag : Tag) (e : EntryId) (line : LineAddr) (d : Buffer)

theorem header_grantS : (OutMsg.grantS tag e line d).header
    = lineHeader (0#11 ++ 1#1 ++ 0#1 ++ BitVec.ofBool d.poison) line (BitVec.ofNat 6 e.val) tag 0x11#8 := by
  rw [← fields_lineHeader, toNat_entryCode]
  exact (BitVec.or_assoc ..).trans (congrArg _ (headerFlag_data d.poison true))

theorem header_grantH_data : (OutMsg.grantH tag e line (some d)).header
    = lineHeader (0#11 ++ 1#1 ++ 0#1 ++ BitVec.ofBool d.poison) line (BitVec.ofNat 6 e.val) tag 0x12#8 := by
  rw [← fields_lineHeader, toNat_entryCode]
  exact (BitVec.or_assoc ..).trans (congrArg _ (headerFlag_data d.poison true))

theorem header_grantH_bare : (OutMsg.grantH tag e line none).header
    = lineHeader 0#14 line (BitVec.ofNat 6 e.val) tag 0x12#8 := by
  rw [← fields_lineHeader, toNat_entryCode]
  exact (BitVec.or_assoc ..).trans (congrArg _ (headerFlag_data false false))

theorem header_data : (OutMsg.data tag line d).header
    = lineHeader (0#11 ++ 1#1 ++ 0#1 ++ BitVec.ofBool d.poison) line 0#6 tag 0x13#8 := by
  rw [← fields_lineHeader, BitVec.toNat_zero, headerField_zero]
  refine (BitVec.or_assoc ..).trans ((congrArg _ (headerFlag_data d.poison true)).trans ?_)
  rw [BitVec.or_zero]
  rfl

theorem header_done (channel : Channel) (poison mark : Bool) : (OutMsg.done tag channel poison mark).header
    = (0#10 ++ BitVec.ofBool (decide (channel = .ret)) ++ 0#2 ++ BitVec.ofBool poison ++ 0#36 ++ tag ++ 0x14#8
      : BitVec 64) :=
  (BitVec.or_assoc ..).trans ((congrArg _ (headerFlag_done poison _)).trans (fields_done _ tag 0x14#8))

theorem header_refuse {r : Reason} {code : BitVec 4} (h : r.code = code.toNat) :
    (OutMsg.refuse tag r).header = (0#4 ++ code ++ 0#42 ++ tag ++ 0x15#8 : BitVec 64) := by
  rw [← fields_refuse, ← h]
  rfl

theorem header_probe {k : ProbeKind} {code : BitVec 8} (h : k.msgKind.code = code) :
    (OutMsg.probe k e line).header = lineHeader 0#14 line (BitVec.ofNat 6 e.val) 0#6 code := by
  rw [← fields_lineHeader, toNat_entryCode, BitVec.toNat_zero, BitVec.toNat_zero, headerField_zero, headerField_zero,
    BitVec.or_zero, BitVec.or_zero, ← h]
  rfl

end

/-- Settles O17: every field is read where it lies, and every header sent is built of its fields. -/
theorem requestFieldsAreRead : Obligations.RequestFieldsAreRead := by
  refine ⟨fun kind tag line offset value mask data b hk => ⟨request_lineHeader line tag mask data hk,
    request_plainWrite line tag mask data, request_configRead tag mask data offset,
    request_configWrite tag mask data offset value⟩,
    fun tag line entry poison keep mask data => ⟨ret_data line tag mask data poison, ret_clean line tag mask data,
      fun m k hm => ?answers⟩, ?sent, by decide⟩
  case answers =>
    obtain ⟨header, mask', data'⟩ := m
    simp only [List.mem_cons, Prod.mk.injEq, List.not_mem_nil, or_false] at hm
    obtain ⟨hkeep, hclean⟩ := flags_keep keep
    obtain ⟨hpoison, hkeep', hdata⟩ := flags_data keep poison
    rcases hm with ⟨rfl, rfl⟩ | ⟨rfl, rfl⟩ | ⟨rfl, rfl⟩ | ⟨rfl, rfl⟩
    · obtain ⟨hanswer, hline, hentry, hk, -⟩ := answer_lineHeader line entry 0#6 mask' data' (k := .ackClean)
        (code := 0x0D#8) rfl hclean
      exact ⟨hanswer, hline, hentry, fun _ => hk.trans hkeep, fun h => by cases h⟩
    · obtain ⟨hanswer, hline, hentry, hk, hp⟩ := answer_lineHeader line entry 0#6 mask' data' (k := .ackData)
        (code := 0x0E#8) rfl hdata
      exact ⟨hanswer, hline, hentry, fun _ => hk.trans hkeep', fun _ => hp.trans hpoison⟩
    · obtain ⟨hanswer, hline, hentry, -⟩ := answer_lineHeader line entry 0#6 mask' data' (k := .miss) (flags := 0#14)
        (code := 0x0F#8) rfl rfl
      exact ⟨hanswer, hline, hentry, fun h => h.elim (fun h => by cases h) (fun h => by cases h), fun h => by cases h⟩
    · obtain ⟨hanswer, hline, hentry, -⟩ := answer_lineHeader line entry 0#6 mask' data' (k := .confirm)
        (flags := 0#14) (code := 0x10#8) rfl rfl
      exact ⟨hanswer, hline, hentry, fun h => h.elim (fun h => by cases h) (fun h => by cases h), fun h => by cases h⟩
  case sent =>
    intro tag e line d value classes poison mark n hn
    subst hn
    refine ⟨header_grantS tag e line d, header_grantH_data tag e line d, header_grantH_bare tag e line,
      header_data tag line d, header_done tag .request poison mark, header_done tag .ret poison mark,
      fun r code hr => header_refuse tag ?_, fields_configData tag 0x16#8 value, fields_alert 0x17#8 classes,
      fun k code hk => ⟨header_probe e line ?_, rfl⟩, rfl, rfl, rfl, rfl, fun c => rfl, fun r => rfl, rfl, rfl⟩
    · simp only [List.mem_cons, Prod.mk.injEq, List.not_mem_nil, or_false] at hr
      rcases hr with ⟨rfl, rfl⟩ | ⟨rfl, rfl⟩ | ⟨rfl, rfl⟩ | ⟨rfl, rfl⟩ | ⟨rfl, rfl⟩ | ⟨rfl, rfl⟩ | ⟨rfl, rfl⟩
        | ⟨rfl, rfl⟩ <;> rfl
    · simp only [List.mem_cons, Prod.mk.injEq, List.not_mem_nil, or_false] at hk
      rcases hk with ⟨rfl, rfl⟩ | ⟨rfl, rfl⟩ | ⟨rfl, rfl⟩ <;> rfl

end Sys2Proof.Machine

/-! What a read of the Configuration Space answers (chapter 10; R161, R164, R165). -/

namespace Sys2Proof.Machine

/-! ## Fields of a register -/

@[simp] theorem toNat_regField {k : Nat} (x : BitVec k) {low : Nat} (h : k + low ≤ 32) :
    (regField x.toNat low).toNat = x.toNat <<< low := by
  rw [regField, BitVec.toNat_ofNat, Nat.mod_eq_of_lt (toNat_shiftLeft_lt x h)]

@[simp] theorem toNat_regFlag (b : Bool) {bit : Nat} (h : bit < 32) :
    (regFlag b bit).toNat = (BitVec.ofBool b).toNat <<< bit := by
  have hflag : regFlag b bit = regField (BitVec.ofBool b).toNat bit := by cases b <;> rfl
  rw [hflag, toNat_regField _ (by omega)]

/-- A number its field can hold is a field of that width. -/
theorem regField_ofNat {x k : Nat} (h : x < 2 ^ k) (low : Nat) :
    regField x low = regField (BitVec.ofNat k x).toNat low := by
  rw [BitVec.toNat_ofNat, Nat.mod_eq_of_lt h]

/-! ## Registers put together from their fields -/

theorem field_alone {k m : Nat} (x : BitVec k) (h : k ≤ 32) :
    (regField x.toNat 0).toNat = (0#m ++ x).toNat := by
  rw [toNat_regField x h, BitVec.toNat_append]
  simp

theorem flag_alone {m : Nat} (b : Bool) : (regFlag b 0).toNat = (0#m ++ BitVec.ofBool b).toNat := by
  rw [toNat_regFlag b (by decide), BitVec.toNat_append]
  simp

theorem fields_hubStatus (ready : Bool) (used : BitVec 6) (recalls : BitVec 3) :
    (regFlag ready 0 ||| regField used.toNat 8 ||| regField recalls.toNat 16).toNat
      = (0#13 ++ recalls ++ 0#2 ++ used ++ 0#7 ++ BitVec.ofBool ready).toNat := by
  simp only [BitVec.toNat_append]
  simp [Nat.shiftLeft_or_distrib, ← Nat.shiftLeft_add, Nat.or_assoc, Nat.or_comm]

theorem fields_hubControl (promote correctWb : Bool) :
    (regFlag promote 0 ||| regFlag correctWb 1).toNat
      = (0#30 ++ BitVec.ofBool correctWb ++ BitVec.ofBool promote).toNat := by
  simp only [BitVec.toNat_append]
  simp [Nat.or_comm]

theorem fields_probeTiming (timeout : BitVec 16) (retries : BitVec 2) :
    (regField timeout.toNat 0 ||| regField retries.toNat 16).toNat
      = (0#14 ++ retries ++ timeout).toNat := by
  simp only [BitVec.toNat_append]
  simp [Nat.or_comm]

theorem fields_alertControl (target : BitVec 2) (enable : Bool) :
    (regField target.toNat 0 ||| regFlag enable 8).toNat
      = (0#23 ++ BitVec.ofBool enable ++ 0#6 ++ target).toNat := by
  simp only [BitVec.toNat_append]
  simp [← Nat.shiftLeft_add, Nat.or_comm]

theorem fields_alertStatus (target : BitVec 2) (left : Bool) :
    (regFlag true 0 ||| regField target.toNat 4 ||| regFlag left 8).toNat
      = (0#23 ++ BitVec.ofBool left ++ 0#2 ++ target ++ 0#3 ++ BitVec.ofBool true).toNat := by
  simp only [BitVec.toNat_append]
  simp [Nat.shiftLeft_or_distrib, ← Nat.shiftLeft_add, Nat.or_assoc, Nat.or_comm]

theorem fields_walkStatus (busy : Bool) (pointer : SetIdx) :
    (regFlag busy 0 ||| regField pointer.toNat 16).toNat
      = (0#2 ++ pointer ++ 0#15 ++ BitVec.ofBool busy).toNat := by
  simp only [BitVec.toNat_append]
  simp [← Nat.shiftLeft_add, Nat.or_comm]

theorem fields_walkRecord (loss : Bool) (recalls : BitVec 3) (remaining : BitVec 15) :
    (regFlag true 0 ||| regFlag loss 1 ||| regField recalls.toNat 4 ||| regField remaining.toNat 16).toNat
      = (0#1 ++ remaining ++ 0#9 ++ recalls ++ 0#2 ++ BitVec.ofBool loss ++ BitVec.ofBool true).toNat := by
  simp only [BitVec.toNat_append]
  simp [Nat.shiftLeft_or_distrib, ← Nat.shiftLeft_add, Nat.or_assoc, Nat.or_comm]

theorem fields_nodeControl (enable : Bool) (lanes : BitVec 1) (grade priority : BitVec 2) (patience : BitVec 8) :
    (regFlag enable 0 ||| regField lanes.toNat 1 ||| regField grade.toNat 2 ||| regField priority.toNat 4
      ||| regField patience.toNat 8).toNat
      = (0#16 ++ patience ++ 0#2 ++ priority ++ grade ++ lanes ++ BitVec.ofBool enable).toNat := by
  simp only [BitVec.toNat_append]
  simp [Nat.shiftLeft_or_distrib, ← Nat.shiftLeft_add, Nat.or_assoc, Nat.or_comm]

theorem fields_nodeStatus (link membership lanes grade : BitVec 2) (mismatch : Bool) (posted : BitVec 6)
    (requests : BitVec 5) (returns : BitVec 4) :
    (regField link.toNat 0 ||| regField membership.toNat 2 ||| (regField lanes.toNat 4 ||| regField grade.toNat 6)
      ||| regFlag mismatch 8 ||| regField posted.toNat 9
      ||| (regField requests.toNat 16 ||| regField returns.toNat 24)).toNat
      = (0#4 ++ returns ++ 0#3 ++ requests ++ 0#1 ++ posted ++ BitVec.ofBool mismatch ++ grade ++ lanes ++ membership
        ++ link).toNat := by
  simp only [BitVec.toNat_append]
  simp [Nat.shiftLeft_or_distrib, ← Nat.shiftLeft_add, Nat.or_assoc, Nat.or_comm]

theorem fields_attr (kind : BitVec 2) (readSet writeSet : NodeSet) :
    (regField kind.toNat 0 ||| regField readSet.toNat 8 ||| regField writeSet.toNat 12).toNat
      = (0#16 ++ writeSet ++ readSet ++ 0#6 ++ kind).toNat := by
  simp only [BitVec.toNat_append]
  simp [Nat.shiftLeft_or_distrib, ← Nat.shiftLeft_add, Nat.or_assoc, Nat.or_comm]

theorem fields_way (set : SetIdx) (way : BitVec 3) :
    (regField set.toNat 0 ||| regField way.toNat 16).toNat
      = (0#13 ++ way ++ 0#2 ++ set).toNat := by
  simp only [BitVec.toNat_append]
  simp [← Nat.shiftLeft_add, Nat.or_comm]

theorem fields_recordFlags (further node tag kind place detail : Bool) :
    (regFlag true 0 ||| regFlag further 1 ||| regFlag node 4 ||| regFlag tag 5 ||| regFlag kind 6 ||| regFlag place 7
      ||| regFlag detail 8).toNat
      = (0#23 ++ BitVec.ofBool detail ++ BitVec.ofBool place ++ BitVec.ofBool kind ++ BitVec.ofBool tag
        ++ BitVec.ofBool node ++ 0#2 ++ BitVec.ofBool further ++ BitVec.ofBool true).toNat := by
  simp only [BitVec.toNat_append]
  simp [Nat.shiftLeft_or_distrib, ← Nat.shiftLeft_add, Nat.or_assoc, Nat.or_comm]

theorem fields_recordSource (node : BitVec 2) (tag : BitVec 6) (kind : BitVec 8) :
    (regField node.toNat 0 ||| regField tag.toNat 8 ||| regField kind.toNat 16).toNat
      = (0#8 ++ kind ++ 0#2 ++ tag ++ 0#6 ++ node).toNat := by
  simp only [BitVec.toNat_append]
  simp [Nat.shiftLeft_or_distrib, ← Nat.shiftLeft_add, Nat.or_assoc, Nat.or_comm]

/-! ## What the registers read -/

/-- The number of entries that hold some property is below 64. -/
theorem countP_entries_lt (p : EntryId → Bool) : (List.finRange 48).countP p < 2 ^ 6 := by
  have hle : (List.finRange 48).countP p ≤ (List.finRange 48).length := List.countP_le_length
  have hlength : (List.finRange 48).length = 48 := List.length_finRange
  omega

theorem inUse_count (s : State) :
    s.inUse = (List.finRange 48).countP (fun e => decide ((s.entry e).phase ≠ .free)) := by
  refine List.countP_congr fun e _ => ?_
  rw [decide_eq_true_eq, inUse_iff]

theorem recallsInUse_count (s : State) : s.recallsInUse
    = (List.finRange 48).countP (fun e => decide ((s.entry e).phase ≠ .free ∧ (s.entry e).kind = .recall)) := by
  refine List.countP_congr fun e _ => ?_
  rw [Bool.and_eq_true, decide_eq_true_eq, decide_eq_true_eq, inUse_iff, cls_recall_iff]

theorem regValue_hubStatus {s : State} (h : s.recallsInUse ≤ 4) :
    s.regValue .hubStatus = (0#13 ++ BitVec.ofNat 3 s.recallsInUse ++ 0#2 ++ BitVec.ofNat 6 s.inUse ++ 0#7
      ++ BitVec.ofBool (decide (s.status = .ready)) : BitVec 32) := by
  have hused : s.inUse < 2 ^ 6 := by
    rw [inUse_count]
    exact countP_entries_lt _
  change regFlag _ 0 ||| regField s.inUse 8 ||| regField s.recallsInUse 16 = _
  rw [regField_ofNat hused, regField_ofNat (k := 3) (x := s.recallsInUse) (by omega)]
  exact BitVec.eq_of_toNat_eq (fields_hubStatus _ _ _)

/-- The pending classes as ERROR-PENDING reads them. -/
theorem regValue_errorPending (s : State) (i : Nat) : (s.regValue .errorPending).getLsbD i = true
    ↔ ∃ c : Fin 10, i = c.val ∧ (s.cls c).pending = true := by
  have hbit : (s.regValue .errorPending).getLsbD i = s.pendingSet.getLsbD i := by
    change (regField s.pendingSet.toNat 0).getLsbD i = _
    rw [regField_eq, BitVec.shiftLeft_zero, BitVec.getLsbD_setWidth]
    by_cases hi : i < 32
    · simp [hi]
    · rw [BitVec.getLsbD_of_ge s.pendingSet i (by omega), Bool.and_false]
  rw [hbit]
  by_cases hi : i < 10
  · refine ⟨fun h => ⟨⟨i, hi⟩, rfl, (pendingSet_bit s ⟨i, hi⟩).symm.trans h⟩, ?_⟩
    rintro ⟨c, rfl, h⟩
    exact (pendingSet_bit s c).trans h
  · rw [BitVec.getLsbD_of_ge s.pendingSet i (by omega)]
    exact ⟨nofun, fun ⟨c, hc, _⟩ => absurd c.isLt (by omega)⟩

/-- The ALERT has left where the addressee's queue holds none. -/
theorem alertLeft_iff {s : State} {a : NodeId} (h : s.alert = .sent a) :
    s.alertLeft = true ↔ ∀ classes, OutMsg.alert classes ∉ (s.node a).outQ := by
  simp only [State.alertLeft, h, Bool.not_eq_true', List.any_eq_false]
  refine ⟨fun hnone classes hm => hnone _ hm rfl, fun hnone m hm halert => ?_⟩
  cases m with
  | alert classes => exact hnone classes hm
  | _ => cases halert

theorem regValue_alertStatus {s : State} {a : NodeId} (h : s.alert = .sent a) : s.regValue .alertStatus
    = (0#23 ++ BitVec.ofBool s.alertLeft ++ 0#2 ++ BitVec.ofNat 2 a.val ++ 0#3 ++ 1#1 : BitVec 32) := by
  have hvalue : s.regValue .alertStatus = regFlag true 0 ||| regField a.val 4 ||| regFlag s.alertLeft 8 := by
    simp only [State.regValue, h]
  rw [hvalue, regField_ofNat (k := 2) a.isLt]
  exact BitVec.eq_of_toNat_eq (fields_alertStatus _ _)

theorem walkerBusy_iff (s : State) :
    s.walkerBusy = true ↔ s.status = .init ∨ ∃ n, s.walker.record n ≠ none := by
  rw [State.walkerBusy, Bool.or_eq_true, decide_eq_true_eq, any_nodes]
  simp only [Option.isSome_iff_ne_none]
  rfl

/-! ## NODE-CONTROL, NODE-STATUS and the regions -/

theorem controlValue_fields {x : Node} {grade : BitVec 2} {lanes : BitVec 1}
    (hgrade : gradeCode x.target.grade = grade.toNat) (hlanes : lanesCode x.target.lanes = lanes.toNat) :
    x.controlValue
      = (0#16 ++ x.patienceLimit ++ 0#2 ++ x.priority ++ grade ++ lanes ++ BitVec.ofBool x.enable : BitVec 32) := by
  rw [Node.controlValue, hgrade, hlanes]
  exact BitVec.eq_of_toNat_eq (fields_nodeControl _ _ _ _ _)

theorem joined_fields {x : Node} {returns : BitVec 4} {requests : BitVec 5}
    (hreturns : returns = if x.joined then BitVec.ofNat 4 (8 - x.retCredits) else 0#4)
    (hrequests : requests = if x.joined then BitVec.ofNat 5 (16 - x.reqCredits) else 0#5) :
    (if x.joined then regField (16 - x.reqCredits) 16 ||| regField (8 - x.retCredits) 24 else 0)
      = regField requests.toNat 16 ||| regField returns.toNat 24 := by
  subst hreturns hrequests
  cases x.joined
  · exact (by decide : (0#32) = regField (0#5).toNat 16 ||| regField (0#4).toNat 24)
  · rw [if_pos rfl, if_pos rfl, if_pos rfl, ← regField_ofNat (by omega), ← regField_ofNat (by omega)]

theorem statusValue_fields {x : Node} {link membership lanes grade : BitVec 2} {requests : BitVec 5}
    {returns : BitVec 4} (hposted : x.posted < 64) (hlink : x.link.code = link.toNat)
    (hmembership : x.membership.code = membership.toNat)
    (hagreed : (x.agreed = none ∧ lanes = 0#2 ∧ grade = 0#2) ∨ ∃ t, x.agreed = some t
      ∧ lanesCode t.lanes + 1 = lanes.toNat ∧ gradeCode t.grade + 1 = grade.toNat)
    (hreturns : returns = if x.joined then BitVec.ofNat 4 (8 - x.retCredits) else 0#4)
    (hrequests : requests = if x.joined then BitVec.ofNat 5 (16 - x.reqCredits) else 0#5) :
    x.statusValue = (0#4 ++ returns ++ 0#3 ++ requests ++ 0#1 ++ BitVec.ofNat 6 x.posted ++ BitVec.ofBool x.mismatch
      ++ grade ++ lanes ++ membership ++ link : BitVec 32) := by
  have htarget : (match x.agreed with
      | none => 0
      | some t => regField (lanesCode t.lanes + 1) 4 ||| regField (gradeCode t.grade + 1) 6)
      = regField lanes.toNat 4 ||| regField grade.toNat 6 := by
    rcases hagreed with ⟨hnone, rfl, rfl⟩ | ⟨t, hsome, hl, hg⟩
    · rw [hnone]
      rfl
    · rw [hsome, ← hl, ← hg]
  have hvalue : x.statusValue = regField x.link.code 0 ||| regField x.membership.code 2
      ||| (regField lanes.toNat 4 ||| regField grade.toNat 6) ||| regFlag x.mismatch 8
      ||| regField x.posted 9 ||| (regField requests.toNat 16 ||| regField returns.toNat 24) := by
    rw [← htarget, ← joined_fields hreturns hrequests]
    rfl
  rw [hvalue, hlink, hmembership, regField_ofNat (k := 6) (x := x.posted) hposted]
  exact BitVec.eq_of_toNat_eq (fields_nodeStatus _ _ _ _ _ _ _ _)

theorem attrValue_fields {x : Region} {kind : BitVec 2} (h : x.kind.code = kind.toNat) :
    x.attrValue = (0#16 ++ x.writeSet ++ x.readSet ++ 0#6 ++ kind : BitVec 32) := by
  rw [Region.attrValue, h]
  exact BitVec.eq_of_toNat_eq (fields_attr _ _ _)

theorem walkRec_value {x : WalkRec} (hremaining : x.remaining < 2 ^ 15) (hrecalls : x.recalls < 8) :
    x.value = (0#1 ++ BitVec.ofNat 15 x.remaining ++ 0#9 ++ BitVec.ofNat 3 x.recalls ++ 0#2
      ++ BitVec.ofBool (decide (x.mode = .loss)) ++ 1#1 : BitVec 32) := by
  rw [WalkRec.value, regField_ofNat hremaining, regField_ofNat (k := 3) (x := x.recalls) hrecalls]
  exact BitVec.eq_of_toNat_eq (fields_walkRecord _ _ _)

/-! ## The record of an error class -/

section
variable {x : ClassState}

theorem recordWord_quiet (h : x.pending = false) (w : Fin 4) : x.recordWord w = 0 := by
  simp [ClassState.recordWord, h]

variable {r : ErrRec} (h : x.pending = true) (hr : x.first = some r)
include h hr

theorem recordWord_flags : x.recordWord 0 = (0#23 ++ BitVec.ofBool r.detail.isSome ++ BitVec.ofBool r.place.isSome
    ++ BitVec.ofBool r.kind.isSome ++ BitVec.ofBool r.tag.isSome ++ BitVec.ofBool r.node.isSome ++ 0#2
    ++ BitVec.ofBool x.further ++ 1#1 : BitVec 32) := by
  simp only [ClassState.recordWord, h, hr, Bool.not_true, Bool.false_eq_true, if_false, Option.getD_some]
  exact BitVec.eq_of_toNat_eq (fields_recordFlags _ _ _ _ _ _)

theorem recordWord_source : ∃ (kind : BitVec 8) (tag : BitVec 6) (node : BitVec 2),
    x.recordWord 1 = (0#8 ++ kind ++ 0#2 ++ tag ++ 0#6 ++ node : BitVec 32)
      ∧ (∀ k, r.kind = some k → kind = k.code) ∧ (∀ y, r.tag = some y → tag = y)
      ∧ ∀ y, r.node = some y → node = BitVec.ofNat 2 y.val := by
  let node : BitVec 2 := (r.node.map fun y => BitVec.ofNat 2 y.val).getD 0
  let tag : BitVec 6 := r.tag.getD 0
  let kind : BitVec 8 := (r.kind.map MsgKind.code).getD 0
  have hnode : (r.node.map Fin.val).getD 0 = node.toNat := by
    cases hn : r.node with
    | none => simp [node, hn]
    | some y => simp [node, hn]
  have htag : (r.tag.map BitVec.toNat).getD 0 = tag.toNat := by
    cases ht : r.tag <;> simp [tag, ht]
  have hkind : (r.kind.map (fun k => k.code.toNat)).getD 0 = kind.toNat := by
    cases hk : r.kind <;> simp [kind, hk]
  refine ⟨kind, tag, node, ?_, fun k hk => by simp [kind, hk], fun y hy => by simp [tag, hy],
    fun y hy => by simp [node, hy]⟩
  simp only [ClassState.recordWord, h, hr, Bool.not_true, Bool.false_eq_true, if_false, Option.getD_some, hnode, htag,
    hkind]
  exact BitVec.eq_of_toNat_eq (fields_recordSource _ _ _)

theorem recordWord_place {p : Place} (hp : r.place = some p) : x.recordWord 2 = p.value := by
  simp only [ClassState.recordWord, h, hr, Bool.not_true, Bool.false_eq_true, if_false, Option.getD_some, hp,
    Option.map_some]

theorem recordWord_detail {d : Detail} (hd : r.detail = some d) : x.recordWord 3 = BitVec.ofNat 32 d.code := by
  simp only [ClassState.recordWord, h, hr, Bool.not_true, Bool.false_eq_true, if_false, Option.getD_some, hd,
    Option.map_some, regField, Nat.shiftLeft_zero]

end

theorem place_way (k : SetIdx) (w : WayNo) :
    Place.value (.way k w) = (0#13 ++ BitVec.ofNat 3 w.val ++ 0#2 ++ k : BitVec 32) := by
  rw [Place.value, regField_ofNat (k := 3) w.isLt]
  exact BitVec.eq_of_toNat_eq (fields_way _ _)

/-! ## CONFIG_READ -/

section
variable {s : State} {n : NodeId} {tag : Tag} {o : Offset}

theorem exec_configRead (hc : s.choice = some (.request n ⟨tag, .configRead o⟩)) :
    exec .configRead s = .next ((s.takeRequest n).admitConfigRead n tag o) :=
  show execConfigRead s = _ from admitRequest_of hc rfl rfl

theorem admitConfigRead_found {g : Reg} (hg : regAt o = some g) (s : State) :
    s.admitConfigRead n tag o = s.send n (.configData tag (s.regValue g)) := by
  simp only [State.admitConfigRead, hg]

theorem admitConfigRead_nowhere (hg : regAt o = none) (s : State) :
    s.admitConfigRead n tag o = s.refuse n tag .configRead none .configOffset := by
  simp only [State.admitConfigRead, hg]

end

/-- Settles O43. -/
theorem configReadIsAnswered : Obligations.ConfigReadIsAnswered := by
  refine ⟨fun s n tag o hc => ?read, fun s => ?whole, fun s n r => ?banks,
    fun s c => ⟨fun w h => recordWord_quiet h w, fun h => ?count, fun r h hr => ?record⟩⟩
  case read =>
    intro taken sent
    refine ⟨fun g hg => ?_, fun hg => ?_⟩
    · have hlink : (taken.node n).link ≠ .down := by
        rw [takeRequest_link]
        exact (choice_request hc).1
      rw [exec_configRead hc, admitConfigRead_found hg, send_up hlink]
    · rw [exec_configRead hc, admitConfigRead_nowhere hg, refuse_takeRequest hc]
      rfl
  case whole =>
    intro used recalls
    refine ⟨rfl, fun h => ?_, BitVec.eq_of_toNat_eq (fields_hubControl _ _),
      BitVec.eq_of_toNat_eq (field_alone (m := 25) _ (by decide)), BitVec.eq_of_toNat_eq (fields_probeTiming _ _),
      BitVec.eq_of_toNat_eq (field_alone (m := 16) _ (by decide)), fun h => toNat_regField_zero (by omega),
      fun h => toNat_regField_zero (by omega), rfl, rfl, regValue_errorPending s,
      BitVec.eq_of_toNat_eq (field_alone (m := 22) _ (by decide)), ?_, fun h => ?_,
      fun a h => ⟨s.alertLeft, alertLeft_iff h, regValue_alertStatus h⟩,
      s.walkerBusy, walkerBusy_iff s, BitVec.eq_of_toNat_eq (fields_walkStatus _ _)⟩
    · have hused : s.inUse = used := inUse_count s
      have hrecalls : s.recallsInUse = recalls := recallsInUse_count s
      rw [regValue_hubStatus (by omega), hused, hrecalls]
    · change regField s.alertTarget.val 0 ||| regFlag s.pinEnable 8 = _
      rw [regField_ofNat (k := 2) s.alertTarget.isLt]
      exact BitVec.eq_of_toNat_eq (fields_alertControl _ _)
    · simp only [State.regValue, h]
  case banks =>
    refine ⟨?_, rfl, ?_, fun h => ?_, fun x h hremaining hrecalls => ?_⟩
    · rintro x rfl
      refine ⟨controlValue_fields ?_ ?_, fun hposted => ?_⟩
      · cases (s.node n).target.grade <;> rfl
      · cases (s.node n).target.lanes <;> rfl
      · have hjoined : (s.node n).joined = true ↔ (s.node n).membership = .member
            ∨ (s.node n).membership = .leaving := joined_iff (s.node n)
        refine statusValue_fields hposted ?_ ?_ ?_ (if_congr hjoined.symm rfl rfl) (if_congr hjoined.symm rfl rfl)
        · cases (s.node n).link <;> rfl
        · cases (s.node n).membership <;> rfl
        · cases hagreed : (s.node n).agreed with
          | none => exact Or.inl ⟨rfl, rfl, rfl⟩
          | some t =>
            obtain ⟨lanes, grade⟩ := t
            exact Or.inr ⟨⟨lanes, grade⟩, rfl, by cases lanes <;> cases grade <;> rfl, by cases grade <;> rfl⟩
    · rintro g rfl
      refine ⟨BitVec.eq_of_toNat_eq (field_alone (m := 16) _ (by decide)),
        BitVec.eq_of_toNat_eq (field_alone (m := 16) _ (by decide)), attrValue_fields ?_,
        BitVec.eq_of_toNat_eq (flag_alone (m := 31) _)⟩
      cases (tget s.regions r).kind <;> rfl
    · simp only [State.regValue, h, Option.map_none, Option.getD_none]
    · simp only [State.regValue, h, Option.map_some, Option.getD_some]
      rw [walkRec_value hremaining hrecalls]
      cases x.mode <;> rfl
  case count => exact toNat_regField_zero (by omega)
  case record =>
    refine ⟨recordWord_flags h hr, recordWord_source h hr, fun l hl => (recordWord_place h hr hl).trans ?_,
      fun k w hw => (recordWord_place h hr hw).trans (place_way k w),
      fun x code hx hcode => (recordWord_detail h hr hx).trans ?_⟩
    · exact BitVec.eq_of_toNat_eq (field_alone (m := 2) _ (by decide))
    · rcases hcode with hcode | ⟨e, rfl, rfl⟩ | ⟨k, -, rfl, rfl⟩
      · exact (by decide : ∀ p : Detail × BitVec 32, p ∈ _ → BitVec.ofNat 32 p.1.code = p.2) (x, code) hcode
      · exact BitVec.eq_of_toNat_eq (field_alone (m := 26) e (by decide))
      · rfl

end Sys2Proof.Machine

/-! Returns that merge into the active entry of their line (R64 to R67, R72). -/

namespace Sys2Proof.Machine

/-! ## The step of a return that merges -/

section
variable {s : State} {us : List DirUpset} {n : NodeId} {r : RetMsg} {e : EntryId} {b : Buffer}

theorem admitReturn_merges {u : State} (hm : u.mergeTarget n r.line = some e) :
    u.admitReturn n r = ⟨u.mergeReturn e n r, [.checkGather e], []⟩ := by
  simp only [State.admitReturn, hm]
  rfl

theorem mergeTarget_taken (hm : s.mergeTarget n r.line = some e) :
    ((s.damaged us).takeReturn n).mergeTarget n r.line = some e :=
  (mergeTarget_congr (damaged_entries s us) n r.line).trans hm

theorem exec_returnD_merges (hch : (s.damaged us).choice = some (.ret n r)) (hm : s.mergeTarget n r.line = some e)
    (hr : r.data = some b) : exec (.returnD us) s
      = settle ⟨((s.damaged us).takeReturn n).mergeReturn e n r, [.checkGather e], []⟩ := by
  change execReturnD us s = _
  simp only [execReturnD, State.admitReturnRow, hch, hr, Option.isSome_some, if_true,
    admitReturn_merges (mergeTarget_taken hm)]

theorem exec_returnC_merges (hch : (s.damaged us).choice = some (.ret n r)) (hm : s.mergeTarget n r.line = some e)
    (hr : r.data = none) : exec (.returnC us) s
      = settle ⟨((s.damaged us).takeReturn n).mergeReturn e n r, [.checkGather e], []⟩ := by
  change execReturnC us s = _
  simp only [execReturnC, State.admitReturnRow, hch, hr, Option.isSome_none, if_true,
    admitReturn_merges (mergeTarget_taken hm)]

/-- The state in which the return has left its queue and its DONE has gone out. -/
def State.returnDone (s : State) (us : List DirUpset) (n : NodeId) (r : RetMsg) : State := { s.damaged us with
  returnPtr := n + 1
  nodes := tset s.nodes n { s.node n with
    returnQ := (s.node n).returnQ.tail, outQ := (s.node n).outQ ++ [OutMsg.done r.tag .ret false false] } }

theorem doneReturn_taken (hch : (s.damaged us).choice = some (.ret n r)) :
    ((s.damaged us).takeReturn n).doneReturn n r.tag = s.returnDone us n r := by
  have hlink : (((s.damaged us).takeReturn n).node n).link ≠ .down :=
    (takeReturn_link _ n n).trans_ne (choice_return hch).1
  have hnode : ((s.damaged us).takeReturn n).node n = { s.node n with returnQ := (s.node n).returnQ.tail } := by
    change tget (tset (s.damaged us).nodes n _) n = _
    rw [tget_tset_same, State.node, damaged_nodes]
    rfl
  rw [State.doneReturn, send_up hlink, hnode]
  change ({ s.damaged us with returnPtr := _, nodes := tset (tset (s.damaged us).nodes n _) n _ } : State) = _
  rw [tset_tset_same, damaged_nodes]
  rfl

theorem returnDone_fields (s : State) (us : List DirUpset) (n : NodeId) (r : RetMsg) :
    (s.returnDone us n r).entries = s.entries ∧ (s.returnDone us n r).poolQueue = s.poolQueue
      ∧ (s.returnDone us n r).issueWait = s.issueWait ∧ (s.returnDone us n r).wayWait = s.wayWait
      ∧ (s.returnDone us n r).walker = s.walker ∧ (s.returnDone us n r).status = s.status
      ∧ (s.returnDone us n r).dir = (s.damaged us).dir :=
  ⟨damaged_entries s us, damaged_poolQueue s us, damaged_issueWait s us, damaged_wayWait s us, damaged_walker s us,
    damaged_status s us, rfl⟩

theorem returnDone_form (s : State) (us : List DirUpset) (n : NodeId) (r : RetMsg) (e : EntryId) : s.returnDone us n r
    = State.form (s.returnDone us n r) (s.returnDone us n r).nodes s.entries e (s.entry e)
        (s.returnDone us n r).poolQueue := by
  obtain ⟨hentries, -⟩ := returnDone_fields s us n r
  have h := form_eq e (s.returnDone us n r)
  rwa [State.entry, hentries] at h

theorem returnDone_link (m : NodeId) : ((s.returnDone us n r).node m).link = (s.node m).link := by
  change (tget (tset s.nodes n _) m).link = _
  by_cases hm : n = m
  · subst hm
    rw [tget_tset_same]
  · rw [tget_tset_ne _ _ hm]
    rfl

/-- The state that a merged return works in, as a state over the entry. -/
theorem merged_form (hch : (s.damaged us).choice = some (.ret n r)) (e : EntryId) :
    ((s.damaged us).takeReturn n).doneReturn n r.tag
      = State.form (s.returnDone us n r) (s.returnDone us n r).nodes s.entries e (s.entry e)
          (s.returnDone us n r).poolQueue :=
  (doneReturn_taken hch).trans (returnDone_form s us n r e)

theorem taken_entry (f : EntryId) : ((s.damaged us).takeReturn n).entry f = s.entry f := entry_damaged s us f

end

/-! ## What a merged return does -/

section
variable {u d : State} {ns : Vector Node 4} {es : Vector Entry 48} {e : EntryId} {X : Entry} {q : List PoolOp}
  {n : NodeId} {r : RetMsg} {b : Buffer} (hu : u.entry e = X)
  (hform : u.doneReturn n r.tag = State.form d ns es e X q)
include hu hform

/-- Data of a node asked to drop its copy is discarded (R65). -/
theorem mergeReturn_dropped (haw : X.awaited ≠ some n) (hk : (X.probe n).kind = some .drop) (hr : r.data = some b) :
    u.mergeReturn e n r = ((State.form d ns es e X q).raise .protocol (returnEvent n r.tag r.line)).modEntry e
      (fun x => x.setMark n .returnC) := by
  simp only [State.mergeReturn, hu, haw, hk, hr, hform, decide_false, decide_true, Bool.false_eq_true, if_false,
    Bool.not_false, Bool.true_and, if_true]

theorem mergeReturn_data (haw : X.awaited ≠ some n) (hk : (X.probe n).kind ≠ some .drop) (hr : r.data = some b) :
    u.mergeReturn e n r
      = State.form d ns es e { X.setMark n .returnD with buffer := some b, poolStale := true } q := by
  simp only [State.mergeReturn, hu, haw, hk, hr, hform, decide_false, Bool.false_eq_true, if_false, Bool.and_false,
    State.takeData, form_mod]
  rfl

theorem mergeReturn_clean (haw : X.awaited ≠ some n) (hr : r.data = none) :
    u.mergeReturn e n r = State.form d ns es e (X.setMark n .returnC) q := by
  simp only [State.mergeReturn, hu, haw, hr, hform, decide_false, Bool.false_eq_true, if_false, form_mod]

/-- An awaited return is awaited no more, and its data reaches the buffer (R65, R66). -/
theorem mergeReturn_awaited_data (haw : X.awaited = some n) (hr : r.data = some b) : u.mergeReturn e n r
    = State.form d ns es e { X.setMark n .returnD with
        awaited := none, returnTimer := .stopped, buffer := some b, poolStale := true } q := by
  simp only [State.mergeReturn, hu, haw, hr, hform, decide_true, if_true, Bool.not_true, Bool.false_and,
    Bool.false_eq_true, if_false, State.takeData, form_mod]
  rfl

theorem mergeReturn_awaited_clean (haw : X.awaited = some n) (hr : r.data = none) : u.mergeReturn e n r
    = (State.form d ns es e { X.setMark n .returnC with awaited := none, returnTimer := .stopped } q).settleNoData e := by
  simp only [State.mergeReturn, hu, haw, hr, hform, decide_true, if_true, form_mod]
  rfl

end

/-- A mark leaves what an entry waits for. -/
theorem gatherDone_setMark (x : Entry) (n : NodeId) (m : RetMark) : (x.setMark n m).gatherDone = x.gatherDone := rfl

/-- An entry with an unanswered probe gathers on. -/
theorem gatherDone_of_unanswered {x : Entry} {n : NodeId} (h : (x.probe n).unanswered = true) : x.gatherDone = false := by
  rw [← Bool.not_eq_true, gatherDone_iff]
  rintro ⟨hprobes, -⟩
  exact Bool.false_ne_true ((hprobes n).symm.trans h)

/-- The step of an entry that gathers on. -/
theorem settle_gathering {z : State} {e : EntryId} (h : (z.entry e).gatherDone = false) :
    settle ⟨z, [.checkGather e], []⟩ = .next z :=
  settle_eq (fuel := 1) (by decide) (run_gathers h 0)

/-! ## An awaited return ends GATHER -/

/-- An entry that awaits a return and nothing else. -/
structure Entry.AwaitsOnly (x : Entry) (n : NodeId) : Prop where
  phase : x.phase = .gather
  awaited : x.awaited = some n
  snapshot : x.snapshot = some (.hit .held (NodeSet.single n))
  poolOp : x.poolOp = .none
  probes : ∀ k, (x.probe k).unanswered = false
  confirm : x.confirm = .notNeeded

/-- An entry whose awaited return has come. -/
def Entry.returnedTo (x : Entry) (n : NodeId) (m : RetMark) : Entry :=
  { x.setMark n m with awaited := none, returnTimer := .stopped }

/-- An entry whose awaited return has come with data. -/
def Entry.dataReturned (x : Entry) (n : NodeId) (b : Buffer) : Entry :=
  { x.returnedTo n .returnD with buffer := some b, poolStale := true }

section
variable {d : State} {ns : Vector Node 4} {es : Vector Entry 48} {e : EntryId} {x : Entry} {q : List PoolOp}
  {n N : NodeId} {b : Buffer}

theorem gatherDone_returnedTo (h : x.AwaitsOnly n) (m : RetMark) : (x.returnedTo n m).gatherDone = true :=
  (gatherDone_iff _).2 ⟨h.probes, h.poolOp, rfl⟩

/-- A FETCH-H grants the holder's data (R54, R66). -/
theorem settle_returned_fetchH (h : x.AwaitsOnly n) (hk : x.kind = .fetchH) (ho : x.origin.map Origin.node = some N)
    (horph : x.orphaned = false) (hlost : x.settledByLoss = false) (howes : x.owesWriteBack = false)
    (hl : (tget ns N).link ≠ .down) :
    settle ⟨State.form d ns es e (x.dataReturned n b) q, [.checkGather e], []⟩ = .next (State.form d
      (tset ns N { tget ns N with outQ := (tget ns N).outQ ++ [OutMsg.grantH x.originTag e x.line (some b)] }) es e
      { x.dataReturned n b with
        outcome := .record .held (NodeSet.single N), confirm := .awaited N, phase := .finish } q) := by
  have hN : (x.dataReturned n b).originNode = N := originNode_of ho
  have hreply : (x.dataReturned n b).reply e d.promote = some (.grantH x.originTag e x.line (some b)) := by
    simp only [Entry.reply, Entry.dataReturned, Entry.returnedTo, Entry.setMark, hk, Option.getD_some]
    rfl
  have hwrite : (x.dataReturned n b).finishWrite = none := by
    simp [Entry.finishWrite, Entry.dataReturned, Entry.returnedTo, Entry.setMark, hk, horph, hlost, howes,
      WorkKind.writesStale]
  have hfixed : (x.dataReturned n b).fixedOutcome d.promote = .record .held (NodeSet.single N) := by
    rw [← hN]
    simp only [Entry.fixedOutcome, Entry.dataReturned, Entry.returnedTo, Entry.setMark, hk]
  have hend : (State.form d ns es e (x.dataReturned n b) q).endGather e = State.form d
      (tset ns N { tget ns N with outQ := (tget ns N).outQ ++ [OutMsg.grantH x.originTag e x.line (some b)] }) es e
      { x.dataReturned n b with
        outcome := .record .held (NodeSet.single N), confirm := .awaited N, phase := .finish } q := by
    rw [form_endGather_reply (X := x.dataReturned n b) horph hreply (by rwa [hN]), hwrite, writeOwed_none, hN,
      Entry.finished, hfixed]
    rfl
  refine settle_gatherEnds (by rw [form_entry]; exact h.phase) (by rw [form_entry]; exact gatherDone_returnedTo h .returnD)
    hend (idle_checkFinish (.inr ?_)) (.inl rfl)
  rw [form_entry]
  simp [Entry.finishDone]

/-- A FLUSH and a RECALL write the data to the pool (R57, R66, R86). -/
theorem settle_returned_writes (h : x.AwaitsOnly n) (hk : x.kind = .flush ∨ x.kind = .recall) (hq : q.length < 32)
    (hw : d.issueWait = []) : settle ⟨State.form d ns es e (x.dataReturned n b) q, [.checkGather e], []⟩
      = .next (State.form d ns es e { x.dataReturned n b with outcome := .vacant, phase := .finish, poolOp := .writeOut }
          (q ++ [⟨.entry e, x.line, some b⟩])) := by
  have hquiet : (x.dataReturned n b).reply e d.promote = none := by
    rcases hk with hk | hk <;> simp [Entry.reply, Entry.dataReturned, Entry.returnedTo, Entry.setMark, hk]
  have hwrite : (x.dataReturned n b).finishWrite = some b := by
    rcases hk with hk | hk <;>
      simp [Entry.finishWrite, Entry.dataReturned, Entry.returnedTo, Entry.setMark, hk, WorkKind.writesStale]
  have hfixed : (x.dataReturned n b).fixedOutcome d.promote = .vacant := by
    rcases hk with hk | hk <;>
      simp only [Entry.fixedOutcome, Entry.dataReturned, Entry.returnedTo, Entry.setMark, hk, h.snapshot]
  have hend : (State.form d ns es e (x.dataReturned n b) q).endGather e = State.form d ns es e
      { x.dataReturned n b with outcome := .vacant, phase := .finish, poolOp := .writeOut }
      (q ++ [⟨.entry e, x.line, some b⟩]) := by
    rw [form_endGather_silent (.inr hquiet), hwrite, form_writeOwed hq hw, Entry.finished, hfixed]
    rfl
  exact settle_gatherEnds (by rw [form_entry]; exact h.phase)
    (by rw [form_entry]; exact gatherDone_returnedTo h .returnD) hend
    (idle_checkFinish (.inr (finishDone_of_poolOp (by rw [form_entry]; simp)))) (.inl rfl)

/-- A FETCH reads the pool (R43, R67). -/
theorem settle_returned_reads (hk : x.kind = .fetchS ∨ x.kind = .fetchH) (hq : q.length < 32) (hw : d.issueWait = []) :
    settle ⟨(State.form d ns es e (x.returnedTo n .returnC) q).settleNoData e, [.checkGather e], []⟩
      = .next (State.form d ns es e { x.returnedTo n .returnC with poolOp := .readOut }
          (q ++ [⟨.entry e, x.line, none⟩])) := by
  rw [form_settleNoData_fetch (X := x.returnedTo n .returnC) hk, form_issueRead _ _ _ _ _ _ hq hw]
  exact settle_gathering (by rw [form_entry]; exact gatherDone_of_poolOp (by simp))

/-- A FLUSH and a RECALL settle without reading the pool. -/
theorem form_settleNoData_vacates {X : Entry} (hk : X.kind = .flush ∨ X.kind = .recall) :
    (State.form d ns es e X q).settleNoData e = State.form d ns es e X q := by
  rcases hk with hk | hk <;> simp only [State.settleNoData, form_entry, hk]

/-- An entry that its return left with nothing to write. -/
structure Entry.Clean (x : Entry) : Prop where
  stale : x.poolStale = false
  writeBack : x.owesWriteBack = false
  probes : ∀ k, (x.probe k).straggling = false

/-- An entry past the GATHER that its return ended, its way to be VACANT. -/
def Entry.vacates (x : Entry) (n : NodeId) : Entry :=
  { x.returnedTo n .returnC with outcome := .vacant, phase := .finish }

theorem endGather_vacates (h : x.AwaitsOnly n) (hc : x.Clean) :
    (x.kind = .flush → x.origin.map Origin.node = some N → x.orphaned = false → (tget ns N).link ≠ .down →
      (State.form d ns es e (x.returnedTo n .returnC) q).endGather e = State.form d
        (tset ns N { tget ns N with outQ := (tget ns N).outQ ++ [OutMsg.done x.originTag .request false false] }) es e
        (x.vacates n) q)
    ∧ (x.kind = .recall → (State.form d ns es e (x.returnedTo n .returnC) q).endGather e
        = State.form d ns es e (x.vacates n) q) := by
  have hwrite : x.kind = .flush ∨ x.kind = .recall → (x.returnedTo n .returnC).finishWrite = none := by
    rintro (hk | hk) <;>
      simp [Entry.finishWrite, Entry.returnedTo, Entry.setMark, hk, hc.stale, hc.writeBack]
  have hfixed : x.kind = .flush ∨ x.kind = .recall → (x.returnedTo n .returnC).fixedOutcome d.promote = .vacant := by
    rintro (hk | hk) <;> simp only [Entry.fixedOutcome, Entry.returnedTo, Entry.setMark, hk, h.snapshot]
  refine ⟨fun hk ho horph hl => ?_, fun hk => ?_⟩
  · have hN : (x.returnedTo n .returnC).originNode = N := originNode_of ho
    have hreply : (x.returnedTo n .returnC).reply e d.promote = some (.done x.originTag .request false false) := by
      simp only [Entry.reply, Entry.returnedTo, Entry.setMark, hk, hc.stale, Bool.false_eq_true, if_false]
      rfl
    rw [form_endGather_reply (X := x.returnedTo n .returnC) horph hreply (by rwa [hN]), hwrite (.inl hk), writeOwed_none,
      hN, Entry.finished, hfixed (.inl hk)]
    rfl
  · have hquiet : (x.returnedTo n .returnC).reply e d.promote = none := by
      simp only [Entry.reply, Entry.returnedTo, Entry.setMark, hk]
    rw [form_endGather_silent (.inr hquiet), hwrite (.inr hk), writeOwed_none, Entry.finished, hfixed (.inr hk)]
    rfl

/-- The step in which an entry's GATHER ends and the entry, which holds a way, completes with the way VACANT (R26). -/
theorem settle_vacates {u : State} {N' : Vector Node 4} {w : WayNo} (h : x.AwaitsOnly n) (hc : x.Clean)
    (hend : (State.form u ns u.entries e (x.returnedTo n .returnC) u.poolQueue).endGather e
      = State.form u N' u.entries e (x.vacates n) u.poolQueue)
    (hst : u.status = .ready) (hwf : Directory.wf u.dir) (hw : x.way = some w) (hs : x.successor = none)
    (hk : x.kind = .recall → x.beneficiary = none ∧ x.walkNode = none ∧ (∀ m ∈ u.wayWait, m.cond ≠ .stalled)
      ∧ u.walker.stall.reserving = none) (hp : x.posted = false)
    (he : u.entry e = x) (hq : u.quiet (LineAddr.set x.line) w) :
    ∃ t, settle ⟨State.form u ns u.entries e (x.returnedTo n .returnC) u.poolQueue, [.checkGather e], []⟩ = .next t
      ∧ CompletedIn { u with nodes := N' } t e (LineAddr.set x.line) w none := by
  have hfinish : (x.vacates n).finishDone = true :=
    (finishDone_iff _).2 ⟨fun k => by simp [Entry.vacates, Entry.returnedTo, Entry.setMark, h.confirm], h.poolOp, hc.probes⟩
  have hquiet : (State.form u N' u.entries e (x.vacates n) u.poolQueue).quiet (LineAddr.set x.line) w := by
    obtain ⟨hsets, hstall⟩ := hq
    have hother : ∀ m ∈ u.wayWait, m.entry ≠ e := fun m hm heq => hsets m hm (by rw [heq, State.setOf, he])
    exact ⟨fun m hm => by rw [form_setOf _ _ _ _ _ _ rfl (hother m hm)]; exact hsets m hm, hstall⟩
  obtain ⟨t, hrun, hcompleted⟩ := run_complete (z := State.form u N' u.entries e (x.vacates n) u.poolQueue)
    (form_entry ..) hst hwf hw rfl hs hk hp (finalRecord_vacant rfl _) nofun rfl hfinish hquiet
  refine ⟨t, settle_eq (fuel := 9) (by decide) ?_, completedIn_entry (X := x.vacates n) hcompleted⟩
  rw [run_endGather (by rw [form_entry]; exact h.phase) (by rw [form_entry]; exact gatherDone_returnedTo h .returnC), hend]
  exact hrun

end

/-- Settles O41. -/
theorem returnsMerge : Obligations.ReturnsMerge := by
  intro s us n r e u x hch hm v
  have hv : v = s.returnDone us n r := rfl
  clear_value v
  subst hv
  have hform := merged_form hch e
  have hentry : ((s.damaged us).takeReturn n).entry e = x := taken_entry e
  obtain ⟨hentries, hqueue, hissue, hlist, hwalker, hstatus, hdir⟩ := returnDone_fields s us n r
  refine ⟨fun haw => ?probed, fun haw hph hline hsnap hop hprobes hconfirm hport => ?awaited⟩
  case probed =>
    obtain ⟨-, -, hwaits⟩ := (mergeTarget_iff s n r.line e).1 hm
    have hunanswered : (x.probe n).unanswered = true := by
      rw [unanswered_iff]
      rcases hwaits with h | h | h
      · exact .inl h
      · exact .inr h
      · exact absurd h haw
    refine ⟨fun b hr hk => ?_, fun b hr hk => ?_, fun hr => ?_⟩
    · rw [exec_returnD_merges hch hm hr, mergeReturn_dropped hentry hform haw hk hr, ← returnDone_form]
      set raised := (s.returnDone us n r).raise .protocol (returnEvent n r.tag r.line) with hraise
      have hraised : raised.entries = s.entries := (raise_entries _ _ _).trans hentries
      have hmarked : raised.modEntry e (fun x => x.setMark n .returnC)
          = { raised with entries := tset s.entries e (x.setMark n .returnC) } := by
        rw [State.modEntry, State.entry, hraised, State.setEntry, hraised]
        rfl
      rw [hmarked]
      refine settle_gathering ?_
      rw [State.entry, tget_tset_same]
      exact gatherDone_of_unanswered (n := n) hunanswered
    · rw [exec_returnD_merges hch hm hr, mergeReturn_data hentry hform haw hk hr]
      refine settle_gathering ?_
      rw [form_entry]
      exact gatherDone_of_unanswered (n := n) hunanswered
    · rw [exec_returnC_merges hch hm hr, mergeReturn_clean hentry hform haw hr]
      refine settle_gathering ?_
      rw [form_entry]
      exact gatherDone_of_unanswered (n := n) hunanswered
  case awaited =>
    have hawaits : x.AwaitsOnly n := ⟨hph, haw, hsnap, hop, hprobes, hconfirm⟩
    obtain ⟨hport, hnone⟩ := hport
    have hwait : (s.returnDone us n r).issueWait = [] := hissue.trans hnone
    have hroom : (s.returnDone us n r).poolQueue.length < 32 := by rwa [hqueue]
    refine ⟨fun b hr => ?data, fun hr => ?clean⟩
    case data =>
      intro y granted stored
      have hexec : exec (.returnD us) s = settle ⟨State.form (s.returnDone us n r) (s.returnDone us n r).nodes s.entries e
          (x.dataReturned n b) (s.returnDone us n r).poolQueue, [.checkGather e], []⟩ := by
        rw [exec_returnD_merges hch hm hr, mergeReturn_awaited_data hentry hform haw hr]
        rfl
      have hstored : (s.returnDone us n r).poolQueue ++ [⟨.entry e, x.line, some b⟩] = stored := by rw [hqueue, hline]
      refine ⟨fun N ho horph hl => ⟨fun hk hkept => ?_, fun hk hlost howes => ?_⟩, fun hk => ?_⟩
      · rw [← hstored]
        refine hexec.trans ((settle_yieldData (X := x.dataReturned n b) (M := n) hph hk ho horph hsnap rfl rfl hprobes hop
          rfl ((returnDone_link N).trans_ne hl) hroom hwait (.inl rfl)).trans ?_)
        have hnot : ¬(n ≠ N ∧ x.holderKept = true) := by simp [hkept]
        rw [if_neg (by exact hnot), ← hline]
        rfl
      · refine hexec.trans ((settle_returned_fetchH hawaits hk ho horph hlost howes
          ((returnDone_link N).trans_ne hl)).trans ?_)
        rw [← hline]
        rfl
      · rw [← hstored]
        exact hexec.trans (settle_returned_writes hawaits hk hroom hwait)
    case clean =>
      have hexec : exec (.returnC us) s = settle ⟨(State.form (s.returnDone us n r) (s.returnDone us n r).nodes s.entries e
          (x.returnedTo n .returnC) (s.returnDone us n r).poolQueue).settleNoData e, [.checkGather e], []⟩ := by
        rw [exec_returnC_merges hch hm hr, mergeReturn_awaited_clean hentry hform haw hr]
        rfl
      refine ⟨fun hk => ?_, fun w hst hwf hw hquiet hs hp hstale howes hstrag => ?_⟩
      · have hread : (s.returnDone us n r).poolQueue ++ [⟨.entry e, x.line, none⟩]
            = s.poolQueue ++ [⟨.entry e, r.line, none⟩] := by rw [hqueue, hline]
        rw [← hread]
        exact hexec.trans (settle_returned_reads hk hroom hwait)
      · have hclean : x.Clean := ⟨hstale, howes, hstrag⟩
        have hwf' : Directory.wf (s.returnDone us n r).dir := by rwa [hdir]
        have hx : (s.returnDone us n r).entry e = x := by rw [State.entry, hentries]; rfl
        have hq : (s.returnDone us n r).quiet (LineAddr.set x.line) w := by
          obtain ⟨hsets, hstall⟩ := hquiet
          refine ⟨fun m hm => ?_, by rw [hwalker]; exact hstall⟩
          rw [State.setOf, State.entry, hentries, hline]
          exact hsets m (by rwa [hlist] at hm)
        rw [← hentries] at hexec
        rw [← hline]
        refine ⟨fun N hk ho horph hl => ?_, fun hk hscope hben hstalled hreserve => ?_⟩
        · rw [hexec, form_settleNoData_vacates (X := x.returnedTo n .returnC) (.inl hk)]
          exact settle_vacates hawaits hclean
            ((endGather_vacates hawaits hclean).1 hk ho horph ((returnDone_link N).trans_ne hl)) (hstatus.trans hst) hwf' hw
            hs (fun h => by rw [hk] at h; cases h) hp hx hq
        · rw [hexec, form_settleNoData_vacates (X := x.returnedTo n .returnC) (.inr hk)]
          exact settle_vacates hawaits hclean ((endGather_vacates (N := n) hawaits hclean).2 hk) (hstatus.trans hst) hwf' hw
            hs (fun _ => ⟨hben, by simp [Entry.walkNode, hk, hscope], by rwa [hlist], by rwa [hwalker]⟩) hp hx hq

end Sys2Proof.Machine

/-! The answers of sharers and of copies, and the completion of recalls over SHARED lines (R31, R41, R76, R84, R86 to
R88, R151, R152). -/

namespace Sys2Proof.Machine

/-! ## An answer heard on an ACTIVE link -/

/-- The nodes once a frame of node n has been received: the run of damaged receipts ends. -/
def State.heardFrom (s : State) (n : NodeId) : Vector Node 4 := tset s.nodes n { s.node n with damagedCount := 0 }

section
variable {s : State} {n : NodeId} {m : WireMsg} {us : List DirUpset} {e : EntryId} {k : AnswerKind}

/-- An answer its entry accepts goes to the entry, whose phases are checked next. -/
theorem answerRow_accepted (hl : (s.node n).link = .active) (hno : m.entryNo = entryCode e)
    (ha : (s.entry e).accepts n m.line = true) (hm : m.answer = some k)
    (hk : ∀ u : State, u.matchKind n m k = u.matchAnswer n k m) : (s.damaged us).answerRow n k m
      = settle ⟨(State.form (s.damaged us) (s.heardFrom n) s.entries e (s.entry e) s.poolQueue).acceptAnswer e n k m,
          [.checkGather e, .checkFinish e], []⟩ := by
  set u : State := State.form (s.damaged us) (s.heardFrom n) s.entries e (s.entry e) s.poolQueue with hu
  have hheard : (s.damaged us).answerRow n k m = settle (u.matchKind n m k) :=
    answerRow_heard (.inl ⟨hl, by rw [hu, State.heardFrom, ← frameAccepted_form, State.frameAccepted, modNode_damaged]⟩) hm
  rw [hheard, hk, matchAnswer_accepted hno (by rwa [hu, form_entry])]
  rfl

end

/-! ## A sharer's first answer, and a copy's -/

section
variable {d : State} {ns : Vector Node 4} {es : Vector Entry 48} {e : EntryId} {X : Entry} {q : List PoolOp} {n : NodeId}
  {m : WireMsg}

/-- A sharer without data is done with its answer (R41). -/
theorem form_firstAnswer_drop (hk : (X.probe n).kind = some .drop) (hm : X.mark n = .none) {k : AnswerKind}
    (hdata : k ≠ .ackData) : (State.form d ns es e X q).firstAnswer e n k m = State.form d ns es e X q := by
  simp [State.firstAnswer, form_entry, hk, hm, hdata]

/-- A sharer's data is discarded with an event (R41, R76). -/
theorem form_firstAnswer_dropData (hk : (X.probe n).kind = some .drop) (hm : X.mark n = .none) :
    (State.form d ns es e X q).firstAnswer e n .ackData m
      = (State.form d ns es e X q).raise .protocol (answerEvent n .ackData X.line (entryCode e)) := by
  simp [State.firstAnswer, form_entry, hk, hm, AnswerKind.msgKind]

end

/-- An entry gathers on while another node's probe is unanswered. -/
theorem gatherDone_setProbe {x : Entry} {n other : NodeId} (hne : other ≠ n) (h : (x.probe other).unanswered = true)
    (p : Probe) : (x.setProbe n p).gatherDone = false := by
  refine gatherDone_of_unanswered (n := other) ?_
  rw [probe_setProbe, if_neg hne.symm]
  exact h

/-! ## The GATHER of a recall over a SHARED line ends -/

/-- A recall of a SHARED line that waits for node n alone, whose answer has one copy. -/
structure Entry.RecallsLast (x : Entry) (n : NodeId) (T : NodeSet) : Prop where
  kind : x.kind = .recall
  phase : x.phase = .gather
  snapshot : x.snapshot = some (.hit .shared T)
  poolOp : x.poolOp = .none
  awaited : x.awaited = none
  stale : x.poolStale = false
  writeBack : x.owesWriteBack = false
  confirm : x.confirm = .notNeeded
  mark : x.mark n = .none
  probe : (x.probe n).kind = some .drop
  status : (x.probe n).status = .sent
  sends : (x.probe n).sends = 1
  answers : (x.probe n).answers = 0
  others : ∀ k, k ≠ n → (x.probe k).unanswered = false ∧ (x.probe k).straggling = false

/-- The recall once the last node has answered, its outcome fixed. -/
def Entry.recalled (x : Entry) (n : NodeId) (T : NodeSet) : Entry :=
  { x.setProbe n (x.probe n).counted with outcome := sharedOrVacant (T &&& ~~~(scopeNodes x.scope T)), phase := .finish }

section
variable {x : Entry} {n : NodeId} {T : NodeSet} (h : x.RecallsLast n T)
include h

theorem Entry.RecallsLast.answered (k : NodeId) : ((x.setProbe n (x.probe n).counted).probe k).unanswered = false
    ∧ ((x.setProbe n (x.probe n).counted).probe k).straggling = false := by
  rw [probe_setProbe]
  split
  · simp [Probe.unanswered, Probe.straggling, Probe.counted, h.sends, h.answers]
  · rename_i hk
    exact h.others k (Ne.symm hk)

theorem Entry.RecallsLast.finishDone : (x.recalled n T).finishDone = true :=
  (finishDone_iff _).2 ⟨fun k => by rw [Entry.recalled]; simp [Entry.setProbe, h.confirm], h.poolOp,
    fun k => (h.answered k).2⟩

theorem Entry.RecallsLast.endGather {d : State} {ns : Vector Node 4} {es : Vector Entry 48} {e : EntryId} {q : List PoolOp} :
    (State.form d ns es e (x.setProbe n (x.probe n).counted) q).endGather e
      = State.form d ns es e (x.recalled n T) q := by
  have hquiet : (x.setProbe n (x.probe n).counted).reply e d.promote = none := by
    simp only [Entry.reply, Entry.setProbe, h.kind]
  have hwrite : (x.setProbe n (x.probe n).counted).finishWrite = none := by
    simp [Entry.finishWrite, Entry.setProbe, h.kind, h.stale, h.writeBack]
  have hfixed : (x.setProbe n (x.probe n).counted).fixedOutcome d.promote
      = sharedOrVacant (T &&& ~~~(scopeNodes x.scope T)) := by
    simp only [Entry.fixedOutcome, Entry.setProbe, h.kind, h.snapshot]
  rw [form_endGather_silent (.inr hquiet), hwrite, writeOwed_none, Entry.finished, hfixed]
  rfl

/-- The last ACK-CLEAN ends the GATHER; the recall's FINISH is over. -/
theorem Entry.RecallsLast.run_answer {s : State} {m : WireMsg} {e : EntryId} (hx : s.entry e = x)
    (hl : (s.node n).link = .active) (hno : m.entryNo = entryCode e) (hm : m.answer = some .ackClean)
    (hline : x.line = m.line) {fuel : Nat} {t : State} (hf : fuel + 1 ≤ Config.settleBound)
    (hrun : Work.run fuel ⟨State.form s (s.heardFrom n) s.entries e (x.recalled n T) s.poolQueue,
      [.checkFinish e, .checkFinish e], []⟩ = some t) : exec (.ackClean n m []) s = .next t := by
  have haccepts : (s.entry e).accepts n m.line = true :=
    (accepts_iff _ _ _).2 ⟨by rw [hx, h.phase]; simp, by rw [hx]; exact hline, .inl (by rw [hx]; exact h.status)⟩
  have hgathered : (x.setProbe n (x.probe n).counted).gatherDone = true :=
    (gatherDone_iff _).2 ⟨fun k => (h.answered k).1, h.poolOp, h.awaited⟩
  change (s.damaged []).answerRow n .ackClean m = _
  rw [answerRow_accepted hl hno haccepts hm (fun _ => rfl), hx,
    form_acceptAnswer_first (X := x) rfl (by rw [h.status]; simp),
    form_firstAnswer_drop (X := x.setProbe n (x.probe n).counted) (by rw [probe_setProbe_same]; exact h.probe) h.mark
      (by simp)]
  refine settle_eq (fuel := fuel + 1) hf ?_
  rw [run_endGather (by rw [form_entry]; exact h.phase) (by rw [form_entry]; exact hgathered), h.endGather]
  exact hrun

end

/-! ## The arbiter's offer of a RECALL entry -/

theorem recallAvailable_iff (s : State) :
    s.recallAvailable = true ↔ s.recallsInUse < 4 ∧ ∃ g, (s.entry g).phase = .free := by
  rw [State.recallAvailable, Bool.and_eq_true, decide_eq_true_eq, freeEntry_isSome]
  rfl

theorem reserving_iff (x : Stall) (d : NodeId) : x.reserving = some d ↔ x = .reserve d := by
  cases x <;> simp [Stall.reserving]

section
variable {k : Work} {seeker : Option Member} (hs : k.s.wayWait.find? (fun m => decide (m.cond = .stalled)) = seeker)
include hs

/-- A STALLED seeker is given the entry, unless the walker waits too and the mark is its own (R84). -/
theorem offer_seeker (h : k.s.recallAvailable = true) {m : Member} (hm : seeker = some m)
    (hw : k.s.walker.stall.reserving = none ∨ k.s.recallMark = .walker) :
    k.offer = (k.push [.offerRecall]).giveSeeker m.entry := by
  subst hm
  cases hr : k.s.walker.stall.reserving with
  | none => simp only [Work.offer, h, if_true, hs, hr]
  | some d =>
    have hmark : k.s.recallMark = .walker := hw.resolve_left (by rw [hr]; simp)
    simp only [Work.offer, h, if_true, hs, hr, hmark]

/-- The walker is given the entry, unless a STALLED seeker waits too and the mark is the list's (R84). -/
theorem offer_walker (h : k.s.recallAvailable = true) {d : NodeId} (hd : k.s.walker.stall.reserving = some d)
    (hm : seeker = none ∨ k.s.recallMark = .wayWait) : k.offer = (k.push [.offerRecall]).giveWalker d := by
  cases seeker with
  | none => simp only [Work.offer, h, if_true, hs, hd]
  | some m =>
    have hmark : k.s.recallMark = .wayWait := hm.resolve_left (by simp)
    simp only [Work.offer, h, if_true, hs, hd, hmark]

/-- Nobody waits for a RECALL entry, or none is free. -/
theorem offer_nobody (h : k.s.recallAvailable = true → seeker = none ∧ k.s.walker.stall.reserving = none) :
    k.offer = k := by
  cases ha : k.s.recallAvailable with
  | false => simp only [Work.offer, ha, Bool.false_eq_true, if_false]
  | true =>
    obtain ⟨hnone, hr⟩ := h ha
    subst hnone
    simp only [Work.offer, ha, if_true, hs, hr]

end

theorem find_stalled {s : State} (h : ∀ m ∈ s.wayWait, m.cond ≠ .stalled) :
    s.wayWait.find? (fun m => decide (m.cond = .stalled)) = none :=
  List.find?_eq_none.2 fun m hm => by simpa using h m hm

/-- The arbiter's notice that a RECALL entry is free sets nothing going where nobody waits for one. -/
theorem run_recallFree {u : State} (hs : ∀ m ∈ u.wayWait, m.cond ≠ .stalled) (hr : u.walker.stall.reserving = none)
    (fuel : Nat) (ns : List Notice) :
    Work.run (fuel + 2) ⟨u, [], .recallFree :: ns⟩ = Work.run fuel ⟨u, [], ns⟩ := by
  rw [run_notice]
  change Work.run (fuel + 1) ⟨u, [.offerRecall], ns⟩ = _
  rw [run_task]
  change Work.run fuel (Work.offer ⟨u, [], ns⟩) = _
  rw [offer_nobody (k := ⟨u, [], ns⟩) (find_stalled hs) (fun _ => ⟨rfl, hr⟩)]

/-! ## A recall hands its way over -/

/-- A seeker that takes a recalled way over leaves the list and reads the pool (R43, R88). -/
theorem beginWork_miss {u : State} {b : EntryId} {y : Entry} {w : WayNo} (hy : u.entry b = y)
    (hk : y.kind = .fetchS ∨ y.kind = .fetchH) (hport : u.portFree) : u.beginWork b .miss (some w) = { u with
      wayWait := u.wayWait.filter (fun k => decide (k.entry ≠ b))
      entries := tset u.entries b { y with phase := .gather, snapshot := some .miss, way := some w, poolOp := .readOut }
      poolQueue := u.poolQueue ++ [⟨.entry b, y.line, none⟩] } := by
  set v : State := { u with wayWait := u.wayWait.filter (fun k => decide (k.entry ≠ b)) } with hv
  have hform : u.leaveList b = State.form v v.nodes v.entries b y v.poolQueue := by
    rw [← hy]
    exact form_eq b v
  have hkind : decidedKind y.kind y.originNode .miss = y.kind := by rcases hk with hk | hk <;> rw [hk] <;> rfl
  rw [State.beginWork, State.leaveWait, hform, form_mod, hkind]
  refine (startWork_missRead (form_entry ..) (by exact hk) rfl).trans ?_
  exact form_issueRead _ _ _ _ _ _ hport.1 hport.2

/-- The state in which a recall's way has passed to entry b, VACANT and most recent. -/
def State.wayPassed (s : State) (K : SetIdx) (w : WayNo) (b : EntryId) : State :=
  ((s.storeWay K w { s.way K w with written := none, damage := .intact, quarantined := false }).touch K w).setPin K w
    (.entry b)

theorem wayPassed_rest (s : State) (K : SetIdx) (w : WayNo) (b : EntryId) :
    s.wayPassed K w b = { s with dir := (s.wayPassed K w b).dir } := rfl

/-- A recall made for entry b. -/
structure Entry.RecallsFor (X : Entry) (b : EntryId) (w : WayNo) : Prop where
  kind : X.kind = .recall
  phase : X.phase = .finish
  done : X.finishDone = true
  beneficiary : X.beneficiary = some b
  walkNode : X.walkNode = none
  way : X.way = some w
  successor : X.successor = none
  posted : X.posted = false

section
variable {z : State} {f b : EntryId} {X y : Entry} {w : WayNo}

/-- The first steps of its completion. -/
theorem complete_hands_over (h : X.RecallsFor b w) (hX : z.entry f = X) (hr : X.finalRecord z.lostNodes = none)
    (ts : List Task) (ns : List Notice) : Work.complete ⟨z, ts, ns⟩ f
      = ⟨(z.wayPassed (LineAddr.set X.line) w b).beginWork b .miss (some w),
        .checkGather b :: .completeTail f false true :: ts, ns⟩ := by
  have hset : z.setOf f = LineAddr.set X.line := by rw [State.setOf, hX]
  have hheir : X.heir = some b := by rw [Entry.heir, if_pos h.kind, h.beneficiary]
  have hpass : ∀ v : State, v.entry f = X → v.passPin f w
      = (v.setPin (LineAddr.set X.line) w (.entry b)).beginWork b .miss (some w) := fun v hv => by
    have hsetv : v.setOf f = LineAddr.set X.line := by rw [State.setOf, hv]
    simp only [State.passPin, hv, h.kind, h.beneficiary, hsetv]
  simp only [Work.complete, hX, hset, h.way, hr, hheir, h.successor, Work.mod, Work.push, Option.isSome_some, if_true,
    Option.map_some, Option.map_none, Option.toList_some, Option.toList_none, List.append_nil, List.cons_append,
    List.nil_append, Bool.not_true, Bool.and_false]
  rw [writeWay_plain (by simp)]
  exact congrArg (fun v => (⟨v, _, _⟩ : Work)) (hpass _ (by exact hX))

/-- The recall over, the seeker reads the pool with the way its own (R26, R84, R88). -/
theorem run_hands_over (h : X.RecallsFor b w) (hX : z.entry f = X) (hr : X.finalRecord z.lostNodes = none)
    (hy : z.entry b = y) (hne : f ≠ b) (hk : y.kind = .fetchS ∨ y.kind = .fetchH) (hport : z.portFree)
    (hold : ∀ k ∈ z.wayWait, k.entry ≠ b → z.setOf k.entry ≠ LineAddr.set X.line)
    (hstalled : ∀ k ∈ z.wayWait, k.cond ≠ .stalled) (hreserve : z.walker.stall.reserving = none) :
    Work.run 8 ⟨z, [.checkFinish f, .checkFinish f], []⟩ = some { z.wayPassed (LineAddr.set X.line) w b with
      wayWait := z.wayWait.filter (fun k => decide (k.entry ≠ b))
      entries := tset (tset z.entries f Entry.free) b { y with
        phase := .gather, snapshot := some .miss, way := some w, poolOp := .readOut }
      poolQueue := z.poolQueue ++ [⟨.entry b, y.line, none⟩] } := by
  set Y : Entry := { y with phase := .gather, snapshot := some .miss, way := some w, poolOp := .readOut } with hY
  set begun : State := { z.wayPassed (LineAddr.set X.line) w b with
    wayWait := z.wayWait.filter (fun k => decide (k.entry ≠ b)), entries := tset z.entries b Y
    poolQueue := z.poolQueue ++ [⟨.entry b, y.line, none⟩] } with hbegun
  have hf : begun.entry f = X := (tget_tset_ne _ _ hne.symm).trans hX
  have hset : begun.setOf f = LineAddr.set X.line := by rw [State.setOf, hf]
  have hfinish : Work.task ⟨z, [.checkFinish f], []⟩ (.checkFinish f)
      = ⟨begun, [.checkGather b, .completeTail f false true, .checkFinish f], []⟩ := by
    refine (if_pos ⟨by rw [hX]; exact h.phase, by rw [hX]; exact h.done⟩).trans ?_
    rw [complete_hands_over h hX hr, beginWork_miss (u := z.wayPassed (LineAddr.set X.line) w b) hy hk hport]
    rfl
  have hgathers : (Task.checkGather b).idle begun := idle_checkGather (.inr (gatherDone_of_poolOp (by
    rw [State.entry, hbegun, tget_tset_same]
    simp [hY])))
  have htail : Work.task ⟨begun, [.checkFinish f], []⟩ (.completeTail f false true)
      = ⟨begun.freeUp f, [.checkFinish f], [.recallFree, .oldestLeft (LineAddr.set X.line)]⟩ := by
    rw [task_completeTail (by rw [show (⟨begun, _, _⟩ : Work).s = begun from rfl, hf]; exact h.phase)]
    simp only [Work.completeTail, hf, hset, h.kind, h.way, h.walkNode, h.posted, Work.note, Work.mod, if_true,
      Bool.false_eq_true, if_false, List.append_nil, List.nil_append, List.cons_append]
  have hfree : (begun.freeUp f).entry f = Entry.free := tget_tset_same _ _ _
  have hdone : (Task.checkFinish f).idle (begun.freeUp f) := idle_checkFinish (.inl (by rw [hfree]; simp [Entry.free]))
  have hlist : ∀ k ∈ (begun.freeUp f).wayWait, k ∈ z.wayWait ∧ k.entry ≠ b := fun k hk => by
    simpa using List.mem_filter.1 hk
  have holdest : (begun.freeUp f).oldestSeeker (LineAddr.set X.line) = none := by
    refine List.find?_eq_none.2 fun k hk hseeks => ?_
    obtain ⟨hmem, hkb⟩ := hlist k hk
    have hkf : k.entry ≠ f := fun heq => hold k hmem hkb (by rw [heq, State.setOf, hX])
    have hentry : (begun.freeUp f).entry k.entry = z.entry k.entry :=
      (tget_tset_ne _ _ hkf.symm).trans (tget_tset_ne _ _ hkb.symm)
    simp only [Bool.and_eq_true, decide_eq_true_eq, State.setOf, hentry] at hseeks
    exact hold k hmem hkb hseeks.2
  rw [run_task, hfinish, run_task, hgathers _ rfl, run_task, htail, run_task, hdone _ rfl,
    run_recallFree (fun k hk => hstalled k (hlist k hk).1) (by exact hreserve), run_oldestLeft holdest]
  refine congrArg some ?_
  rw [State.freeUp, State.setEntry, hbegun, tset_comm hne.symm]

end

/-! ## Answers while another is waited for -/

section
variable {s : State} {n other : NodeId} {m : WireMsg} {us : List DirUpset} {e : EntryId} {p : Probe}

/-- An entry that another node keeps gathering ends the step as the answer left it. -/
theorem settle_waits {z : State} {X : Entry} (hz : z.entry e = X.setProbe n p) (hph : X.phase = .gather)
    (hne : other ≠ n) (hother : (X.probe other).unanswered = true) :
    settle ⟨z, [.checkGather e, .checkFinish e], []⟩ = .next z :=
  settle_gathers (by rw [hz]; exact hph) (by rw [hz]; exact gatherDone_setProbe hne hother p) (.inr rfl)

variable (hl : (s.node n).link = .active) (hno : m.entryNo = entryCode e) (ha : (s.entry e).accepts n m.line = true)
  (hph : (s.entry e).phase = .gather) (hp : (s.entry e).probe n = p) (hne : other ≠ n)
  (hother : ((s.entry e).probe other).unanswered = true)
include hl hno ha hph hp hne hother

/-- A sharer's first answer is counted, and its data raises an event. -/
theorem dropAnswer_counted (hk : p.kind = some .drop) (hst : p.status ≠ .answered) (hmark : (s.entry e).mark n = .none) :
    let z := State.form (s.damaged us) (s.heardFrom n) s.entries e ((s.entry e).setProbe n p.counted) s.poolQueue
    (m.answer = some .ackClean → exec (.ackClean n m us) s = .next z)
    ∧ (m.answer = some .miss → exec (.miss n m us) s = .next z)
    ∧ (m.answer = some .ackData → exec (.ackData n m us) s
        = .next (z.raise .protocol (answerEvent n .ackData m.line (entryCode e)))) := by
  intro z
  obtain ⟨-, hline, -⟩ := (accepts_iff _ _ _).1 ha
  have hkind : (((s.entry e).setProbe n p.counted).probe n).kind = some .drop := by rw [probe_setProbe_same]; exact hk
  have hquiet : ∀ k : AnswerKind, k ≠ .ackData → m.answer = some k →
      (∀ u : State, u.matchKind n m k = u.matchAnswer n k m) → (s.damaged us).answerRow n k m = .next z :=
    fun k hdata hm hrow => by
      rw [answerRow_accepted hl hno ha hm hrow, form_acceptAnswer_first hp hst,
        form_firstAnswer_drop (X := (s.entry e).setProbe n p.counted) hkind hmark hdata]
      exact settle_waits (form_entry ..) hph hne hother
  refine ⟨fun hm => hquiet _ (by simp) hm fun _ => rfl, fun hm => hquiet _ (by simp) hm fun _ => rfl, fun hm => ?_⟩
  change (s.damaged us).answerRow n .ackData m = _
  rw [answerRow_accepted hl hno ha hm (fun _ => rfl), form_acceptAnswer_first hp hst,
    form_firstAnswer_dropData (X := (s.entry e).setProbe n p.counted) hkind hmark, ← hline]
  refine settle_waits (n := n) (other := other) (X := s.entry e) (p := p.counted) ?_ hph hne hother
  rw [State.entry, raise_entries]
  exact form_entry ..

/-- A copy's answer is counted. -/
theorem copyAnswer_counted (hst : p.status = .answered) :
    let z := State.form (s.damaged us) (s.heardFrom n) s.entries e ((s.entry e).setProbe n p.counted) s.poolQueue
    (m.answer = some .ackClean → exec (.ackClean n m us) s = .next z)
    ∧ (m.answer = some .miss → exec (.miss n m us) s = .next z)
    ∧ (m.answer = some .ackData → exec (.ackData n m us) s = .next z) := by
  intro z
  have hrow : ∀ k : AnswerKind, m.answer = some k → (∀ u : State, u.matchKind n m k = u.matchAnswer n k m) →
      (s.damaged us).answerRow n k m = .next z := fun k hm hk => by
    rw [answerRow_accepted hl hno ha hm hk, form_acceptAnswer_copy hp hst]
    exact settle_waits (form_entry ..) hph hne hother
  exact ⟨fun hm => hrow _ hm fun _ => rfl, fun hm => hrow _ hm fun _ => rfl, fun hm => hrow _ hm fun _ => rfl⟩

end

/-- The form of a state with one entry changed, read over the state with its damage. -/
theorem form_damaged (s : State) (us : List DirUpset) (ns : Vector Node 4) (e : EntryId) (X : Entry) :
    State.form (s.damaged us) ns s.entries e X s.poolQueue
      = { s.damaged us with nodes := ns, entries := tset s.entries e X } := by
  rw [← damaged_poolQueue s us]
  rfl

/-! ## A departure recall counts down -/

section
variable {z : State} {n : NodeId} {r : WalkRec}

theorem recallReturned_counts (hr : z.walker.record n = some r) (h : 1 < r.recalls ∨ r.remaining ≠ 0) :
    z.recallReturned n = z.setRecord n (some { r with recalls := r.recalls - 1 }) := by
  have hrecord : (z.setRecord n (some { r with recalls := r.recalls - 1 })).walker.record n
      = some { r with recalls := r.recalls - 1 } := tget_tset_same _ _ _
  have hgoes : ¬(r.remaining = 0 ∧ r.recalls - 1 = 0) := by omega
  simp only [State.recallReturned, hr, State.finishRecord, hrecord, hgoes, if_false]

/-- The last recall of a DEPART record finishes it, with the DONE to the LEAVE (R152). -/
theorem recallReturned_ends (hr : z.walker.record n = some r) (hone : r.recalls = 1) (hzero : r.remaining = 0)
    (hmode : r.mode = .depart) (hl : (z.node n).link ≠ .down) : z.recallReturned n = { z with
      nodes := tset z.nodes n { z.node n with outQ := (z.node n).outQ ++ [.done r.leaveTag .request false true] }
      walker := { z.walker with records := tset z.walker.records n none } } := by
  set y := z.setRecord n (some { r with recalls := r.recalls - 1 }) with hy
  have hrecord : y.walker.record n = some { r with recalls := r.recalls - 1 } := tget_tset_same _ _ _
  have hlast : r.recalls - 1 = 0 := by omega
  have hsent : y.send n (.done r.leaveTag .request false true) = { y with
      nodes := tset z.nodes n { z.node n with outQ := (z.node n).outQ ++ [.done r.leaveTag .request false true] } } :=
    send_up (by exact hl) _
  have hreturned : z.recallReturned n = y.finishRecord n := by rw [State.recallReturned, hr]
  have hfinish : y.finishRecord n = (y.send n (.done r.leaveTag .request false true)).setRecord n none := by
    simp only [State.finishRecord, hrecord, hzero, hlast, and_self, if_true, hmode]
  rw [hreturned, hfinish, hsent]
  exact congrArg (fun records => ({ z with
    nodes := tset z.nodes n { z.node n with outQ := (z.node n).outQ ++ [.done r.leaveTag .request false true] }
    walker := { z.walker with records := records } } : State)) (tset_tset_same _ _ _ _)

end

theorem without_eq_and : ∀ (T : NodeSet) (n : NodeId), T &&& ~~~(NodeSet.single n) = NodeSet.without T n := by decide

theorem and_not_self : ∀ T : NodeSet, T &&& ~~~T = 0 := by decide

/-- What a recall of one sharer leaves of the record (R87). -/
theorem finalRecord_left {x : Entry} {T lost : NodeSet} {n : NodeId} (h : x.outcome = sharedOrVacant (NodeSet.without T n))
    (hlost : NodeSet.without T n &&& lost = 0) (horph : x.orphaned = false) : x.finalRecord lost
      = if NodeSet.without T n = 0 then none else some ⟨LineAddr.tag x.line, .shared, NodeSet.without T n⟩ := by
  by_cases hT : NodeSet.without T n = 0
  · rw [if_pos hT]
    exact finalRecord_vacant (by rw [h, sharedOrVacant, if_pos hT]) lost
  · rw [if_neg hT]
    exact finalRecord_record (by rw [h, sharedOrVacant, if_neg hT]) horph hlost (fun _ => hT)

/-- Settles O19. -/
theorem sharersAndCopiesAnswer : Obligations.SharersAndCopiesAnswer := by
  refine ⟨fun s n other m us e p hl hno ha hph hp hk hst hmark hne hother => ?sharer,
    fun s n other m us e p hl hno ha hph hp hst hne hother => ?copy,
    fun s n m f b w T x y hx hy hne hready hwf hl hno hm hline hkind hscope hph hway hsnap hben hsucc hposted hop haw hstale
      howes hconfirm hmark hprobe hstatus hsends hanswers hothers hk hport hold hstalled hreserve => ?seeker,
    fun s n m f w T x r hx hready hwf hl hno hm hline hkind hscope hph hway hsnap hT hlost hben hsucc hposted hop haw hstale
      howes horph hconfirm hmark hprobe hstatus hsends hanswers hothers hquiet hstalled hreserve hrecord => ?departure,
    fun k => ?offer⟩
  case sharer =>
    intro u
    have hrows := dropAnswer_counted (us := us) hl hno ha hph hp hne hother hk hst hmark
    rw [form_damaged] at hrows
    exact hrows
  case copy =>
    intro u
    have hcounted : p.counted = { p with
        answers := p.answers + 1, timer := if p.answers + 1 = p.sends then .stopped else p.timer } := by
      rw [Probe.counted, ← hst]
    have hrows := copyAnswer_counted (us := us) hl hno ha hph hp hne hother hst
    rw [form_damaged, hcounted] at hrows
    exact hrows
  case seeker =>
    intro set
    have hlast : x.RecallsLast n T := ⟨hkind, hph, hsnap, hop, haw, hstale, howes, hconfirm, hmark, hprobe, hstatus, hsends,
      hanswers, hothers⟩
    have hset : LineAddr.set (x.recalled n T).line = set := congrArg LineAddr.set hline
    set z := State.form s (s.heardFrom n) s.entries f (x.recalled n T) s.poolQueue with hz
    have hfor : (x.recalled n T).RecallsFor b w := ⟨hkind, rfl, hlast.finishDone, hben,
      by simp [Entry.walkNode, Entry.recalled, Entry.setProbe, hkind, hscope], hway, hsucc, hposted⟩
    have hvacant : (x.recalled n T).outcome = .vacant := by
      simp only [Entry.recalled, hscope, scopeNodes, and_not_self, sharedOrVacant, if_true]
    have hrun := run_hands_over (z := z) (f := f) hfor (form_entry ..) (finalRecord_vacant hvacant _)
      ((form_entry_ne _ _ _ _ _ _ hne.symm).trans hy) hne hk hport (fun k hmem hkb => ?_) hstalled hreserve
    · rw [hset] at hrun
      refine ⟨_, hlast.run_answer hx hl hno hm hline (by decide) hrun, ?_⟩
      obtain ⟨hpassed, horder, hways, hsets, hvalid, hquar, hseed, -⟩ := written_of (z := z) (K := set) (w := w)
        (r := none) (P := .entry b) hready hwf
      refine ⟨?_, rfl, rfl, hpassed, horder, hways, hsets, hvalid, hquar, hseed, rfl⟩
      rw [hz]
      exact congrArg (fun es => tset es b _) (tset_tset_same _ _ _ _)
    · rw [hset]
      have hsets := hold k hmem hkb
      have hkf : k.entry ≠ f := fun heq => hsets (by rw [heq, State.setOf, hx, hline])
      rwa [hz, State.setOf, form_entry_ne _ _ _ _ _ _ hkf]
  case departure =>
    intro heard left after
    have hlast : x.RecallsLast n T := ⟨hkind, hph, hsnap, hop, haw, hstale, howes, hconfirm, hmark, hprobe, hstatus, hsends,
      hanswers, hothers⟩
    have hset : LineAddr.set (x.recalled n T).line = LineAddr.set m.line := congrArg LineAddr.set hline
    set z := State.form s (s.heardFrom n) s.entries f (x.recalled n T) s.poolQueue with hz
    have hzlost : z.lostNodes = s.lostNodes := lostNodes_congr fun k => by
      change (tget (tset s.nodes n { s.node n with damagedCount := 0 }) k).membership = _
      by_cases hk : n = k
      · subst hk
        rw [tget_tset_same]
      · rw [tget_tset_ne _ _ hk]
        rfl
    have houtcome : (x.recalled n T).outcome = sharedOrVacant (NodeSet.without T n) := by
      simp only [Entry.recalled, hscope, scopeNodes, hT, if_true, without_eq_and]
    have hleft : (x.recalled n T).finalRecord z.lostNodes = left := by
      rw [hzlost, finalRecord_left houtcome hlost horph]
      exact if_congr Iff.rfl rfl (congrArg (fun l => some (⟨LineAddr.tag l, .shared, _⟩ : Record)) hline)
    have hwell : ∀ q, left = some q → q.wellFormed = true := fun q hq => by
      simp only [left] at hq
      split at hq
      · cases hq
      · rename_i hT'
        obtain rfl := Option.some.inj hq
        simpa [Record.wellFormed] using hT'
    have hzquiet : z.quiet (LineAddr.set m.line) w := by
      obtain ⟨hsets, hstall⟩ := hquiet
      refine ⟨fun k hmem => ?_, hstall⟩
      have hkf : k.entry ≠ f := fun heq => hsets k hmem (by rw [heq, State.setOf, hx, hline])
      rw [hz, State.setOf, form_entry_ne _ _ _ _ _ _ hkf]
      exact hsets k hmem
    have hwalk : (x.recalled n T).walkNode = some n := by
      simp [Entry.walkNode, Entry.recalled, Entry.setProbe, hkind, hscope]
    have hcompletes : ∀ B : State, z.recallReturned n = { B with entries := tset B.entries f (x.recalled n T) } →
        ∃ t, exec (.ackClean n m []) s = .next t ∧ CompletedIn B t f (LineAddr.set m.line) w left := fun B hB => by
      obtain ⟨t, hrun, hcompleted⟩ := run_complete_walk (z := z) (B := z.recallReturned n) (ts := [.checkFinish f])
        (form_entry ..) hready hwf hway hset hsucc (fun _ => ⟨hben, hstalled, hreserve⟩) hposted hleft hwell rfl
        hlast.finishDone hzquiet (.inr rfl) (by rw [hwalk])
      rw [hB] at hcompleted
      exact ⟨t, hlast.run_answer hx hl hno hm hline (by decide) hrun, completedIn_entry hcompleted⟩
    refine ⟨fun hgoes => hcompletes _ (recallReturned_counts hrecord hgoes), fun hone hzero hmode => hcompletes _ ?_⟩
    have hnode : z.node n = heard := tget_tset_same _ _ _
    rw [recallReturned_ends (z := z) hrecord hone hzero hmode (by rw [hnode]; simp [heard, hl]), hnode]
    exact congrArg (fun ns => ({ z with nodes := ns, walker := { s.walker with
      records := tset s.walker.records n none } } : State)) (tset_tset_same _ _ _ _)
  case offer =>
    intro seeker
    refine ⟨fun h => offer_nobody rfl fun ha => ?_, fun g hg hfree => ?_⟩
    · obtain ⟨hfew, g, hfree⟩ := (recallAvailable_iff _).1 ha
      rcases h with h | h
      · omega
      · exact absurd hfree (h g)
    · have ha : k.s.recallAvailable = true := (recallAvailable_iff _).2 ⟨hg, g, hfree⟩
      exact ⟨fun m hm hw => offer_seeker rfl ha hm hw,
        fun d hd hmark => offer_walker rfl ha ((reserving_iff _ d).2 hd) hmark,
        fun hs hr => offer_nobody rfl fun _ => ⟨hs, hr⟩⟩

end Sys2Proof.Machine

/-! The Reclaim Walker's examination of a way (chapter 10; R87, R149 to R152). -/

namespace Sys2Proof.Machine

/-! ## What the walker reads -/

theorem seen_quarantined {x : Way} (h : x.quarantined = true) : Way.seen x = .quarantined := if_pos h

theorem seen_vacant {x : Way} (hq : x.quarantined = false) (h : x.written = none) : Way.seen x = .vacant := by
  simp only [Way.seen, hq, h, Bool.false_eq_true, if_false]

theorem seen_record {x : Way} {q : Record} (hq : x.quarantined = false) (h : x.written = some q) :
    Way.seen x = .record q := by
  simp only [Way.seen, hq, h, Bool.false_eq_true, if_false]

theorem ne_zero_of_has {T : NodeSet} {d : NodeId} (h : NodeSet.has T d = true) : T ≠ 0 := by
  rintro rfl
  simp [NodeSet.has] at h

theorem single_sharer : ∀ (T : NodeSet) (d : NodeId), NodeSet.has T d = true →
    (∃ n, T = NodeSet.single n) → NodeSet.single d = T := by decide

/-- The walker at way p of set k, the set's storage as it was written. -/
structure State.WalksAt (s : State) (k : SetIdx) (p : WayNo) (x : Way) : Prop where
  ready : s.status = .ready
  stall : s.walker.stall = .none
  walks : s.walker.walks = true
  pointer : s.walker.pointer = k
  position : s.walker.position = p
  sound : (s.dirSet k).sound
  way : s.way k p = x

section
variable {s : State} {k : SetIdx} {p : WayNo} {x : Way} (h : s.WalksAt k p x)
include h

theorem State.WalksAt.exec_examine : exec (.walkerExamineWay []) s = settle (Work.of s).examine := by
  change execWalkerExamineWay [] s = _
  exact if_pos ⟨h.ready, h.stall, h.walks⟩

/-- The read of the set changes nothing, and finds the way as it stands. -/
theorem State.WalksAt.read : ∃ rd, s.readSet s.walker.pointer .walker .walker = (s, rd)
    ∧ tget rd s.walker.position = (Way.seen x, x.pin) := by
  obtain ⟨hsame, hways⟩ := readSet_sound h.sound .walker .walker
  rw [h.pointer, h.position]
  generalize s.readSet k .walker .walker = found at hsame hways
  obtain ⟨u, rd⟩ := found
  subst hsame
  exact ⟨rd, rfl, by rw [hways p, h.way]⟩

/-- A way with nothing for the walker to do is passed (R149). -/
theorem State.WalksAt.passes (hpass : x.quarantined = true ∨ (x.pin = .none ∧ (x.written = none
      ∨ ∃ q, x.written = some q ∧ q.sharers &&& s.walker.nodesIn .loss = 0
        ∧ q.sharers &&& s.walker.nodesIn .depart = 0))) :
    exec (.walkerExamineWay []) s = .next s.nextWay := by
  obtain ⟨rd, hread, hway⟩ := h.read
  have hexamine : (Work.of s).examine = Work.of s.nextWay := by
    cases hq : x.quarantined with
    | true => exact examine_quarantined hread (hway.trans (by rw [seen_quarantined hq]))
    | false =>
      obtain ⟨hpin, hwritten⟩ := hpass.resolve_left (by rw [hq]; simp)
      rw [hpin] at hway
      rcases hwritten with hnone | ⟨q, hsome, hloss, hdepart⟩
      · exact examine_vacant hread (hway.trans (by rw [seen_vacant hq hnone]))
      · rw [examine_record hread (hway.trans (by rw [seen_record hq hsome])), hloss, hdepart, if_neg (by simp),
          if_neg (by simp)]
  rw [h.exec_examine, hexamine, settle_of]

/-- The walker stands still for a pinned way (R149). -/
theorem State.WalksAt.stands (hq : x.quarantined = false) (hpin : x.pin ≠ .none) :
    exec (.walkerExamineWay []) s = .next (s.setStall (.way p)) := by
  obtain ⟨rd, hread, hway⟩ := h.read
  have hexamine : (Work.of s).examine = Work.of (s.setStall (.way s.walker.position)) := by
    cases hw : x.written with
    | none => exact examine_pinnedVacant hread (hway.trans (by rw [seen_vacant hq hw])) hpin
    | some q => exact examine_pinnedRecord hread (hway.trans (by rw [seen_record hq hw])) hpin
  rw [h.exec_examine, hexamine, settle_of, h.position]

variable (hq : x.quarantined = false) (hpin : x.pin = .none) {q : Record} (hw : x.written = some q)
include hq hpin hw

theorem State.WalksAt.readsRecord : ∃ rd, s.readSet s.walker.pointer .walker .walker = (s, rd)
    ∧ tget rd s.walker.position = (.record q, .none) := by
  obtain ⟨rd, hread, hway⟩ := h.read
  exact ⟨rd, hread, hway.trans (by rw [seen_record hq hw, hpin])⟩

/-- A SHARED way loses its LOSS nodes (R150). -/
theorem State.WalksAt.dropsLost (hlost : q.sharers &&& s.walker.nodesIn .loss ≠ 0) (hst : q.state = .shared) :
    exec (.walkerExamineWay []) s = .next (s.writeWay k p
      (some { q with sharers := q.sharers &&& ~~~(s.walker.nodesIn .loss) }) .walker) := by
  obtain ⟨rd, hread, hway⟩ := h.readsRecord hq hpin hw
  rw [h.exec_examine, examine_record hread hway, if_pos hlost, and_not_and, h.pointer, h.position]
  simp only [hst, settle_of]

/-- A way HELD by a LOSS node is pinned and poisoned (R150). -/
theorem State.WalksAt.poisons (hlost : q.sharers &&& s.walker.nodesIn .loss ≠ 0) (hst : q.state = .held)
    (hport : s.portFree) : exec (.walkerExamineWay []) s = .next { (s.setStall .write).setPin k p .walker with
      poolQueue := s.poolQueue ++ [⟨.walker, lineOf q.tag k, some ⟨0, true⟩⟩] } := by
  obtain ⟨rd, hread, hway⟩ := h.readsRecord hq hpin hw
  have hissued : s.issuePoison k p q = { (s.setStall .write).setPin k p .walker with
      poolQueue := s.poolQueue ++ [⟨.walker, lineOf q.tag k, some ⟨0, true⟩⟩] } := by
    rw [State.issuePoison, issue_free (by exact hport)]
    rfl
  rw [h.exec_examine, examine_record hread hway, if_pos hlost, h.pointer, h.position, ← hissued]
  simp only [hst, settle_of]

/-- With no RECALL entry to be had the walker stands for the reserve (R84, R151). -/
theorem State.WalksAt.reserves (hlost : q.sharers &&& s.walker.nodesIn .loss = 0)
    (hdepart : q.sharers &&& s.walker.nodesIn .depart ≠ 0) (hnone : s.recallAvailable = false) :
    exec (.walkerExamineWay []) s
      = .next (s.setStall (.reserve (NodeSet.holder (q.sharers &&& s.walker.nodesIn .depart)))) := by
  obtain ⟨rd, hread, hway⟩ := h.readsRecord hq hpin hw
  rw [h.exec_examine, examine_record hread hway, if_neg (by simp [hlost]), if_pos hdepart, Work.departWay]
  exact (congrArg settle (if_neg (by rw [show (Work.of s).s = s from rfl, hnone]; simp))).trans (settle_of _)

/-- With one free it reads the way again, given the entry for the lowest-numbered DEPART node (R151). -/
theorem State.WalksAt.examinesGiven (hlost : q.sharers &&& s.walker.nodesIn .loss = 0)
    (hdepart : q.sharers &&& s.walker.nodesIn .depart ≠ 0) (hfree : s.recallAvailable = true) {d : NodeId}
    (hd : NodeSet.holder (q.sharers &&& s.walker.nodesIn .depart) = d) :
    (Work.of s).examine = (Work.of s).examineGiven d [.offerRecall] := by
  obtain ⟨rd, hread, hway⟩ := h.readsRecord hq hpin hw
  rw [examine_record hread hway, if_neg (by simp [hlost]), if_pos hdepart, Work.departWay, hd]
  exact if_pos hfree

/-- What the walker does with a RECALL entry for node d (R151). -/
theorem State.WalksAt.given (hlost : q.sharers &&& s.walker.nodesIn .loss = 0) {j : Work} (hj : j.s = s) (d : NodeId)
    (rest : List Task) : j.examineGiven d rest =
      if q.sharers &&& s.walker.nodesIn .depart = 0 then (j.mod State.nextWay).push rest
      else if NodeSet.has (q.sharers &&& s.walker.nodesIn .depart) d then
        j.departRecall k p q (q.sharers &&& s.walker.nodesIn .depart) d
      else (j.mod (fun u =>
        u.setStall (.reserve (NodeSet.holder (q.sharers &&& s.walker.nodesIn .depart))))).push rest := by
  obtain ⟨rd, hread, hway⟩ := h.readsRecord hq hpin hw
  obtain ⟨u, ts, ns⟩ := j
  subst hj
  rw [examineGiven_record hread hway hlost, h.pointer, h.position]
  rfl

/-- The walker that gets a RECALL entry makes the recall (R151). -/
theorem State.WalksAt.departs (hlost : q.sharers &&& s.walker.nodesIn .loss = 0) {d : NodeId}
    (hdepart : NodeSet.has (q.sharers &&& s.walker.nodesIn .depart) d = true) (hfree : s.recallAvailable = true)
    (hd : NodeSet.holder (q.sharers &&& s.walker.nodesIn .depart) = d) : exec (.walkerExamineWay []) s
      = settle (Work.departRecall ⟨s, [], []⟩ k p q (q.sharers &&& s.walker.nodesIn .depart) d) := by
  have hne : q.sharers &&& s.walker.nodesIn .depart ≠ 0 := ne_zero_of_has hdepart
  rw [h.exec_examine, h.examinesGiven hq hpin hw hlost hne hfree hd, h.given hq hpin hw hlost rfl d [.offerRecall],
    if_neg hne, if_pos hdepart]
  rfl

end

/-! ## The departure recall -/

theorem nextWay_entries (s : State) : s.nextWay.entries = s.entries := by
  by_cases h : s.walker.position = 7
  · obtain ⟨-, -, -, -, -, hrest⟩ := nextWay_finishes s h
    exact (congrArg State.entries hrest :)
  · rw [State.nextWay, if_neg h]

section
variable {s : State} {k : SetIdx} {p : WayNo} {q : Record} {d : NodeId} {f : EntryId} {r : WalkRec}

/-- The entry of a departure recall as it probes. -/
def departEntry (k : SetIdx) (p : WayNo) (q : Record) (d : NodeId) : Entry := { Entry.free with
  phase := .gather, kind := .recall, admitted := .recall, line := lineOf q.tag k, way := some p
  scope := some (.only d), creation := some q, snapshot := some (.hit q.state q.sharers) }

/-- The state in which a departure recall for node d has been made, the walker y (R87, R151). -/
def State.departMade (s : State) (k : SetIdx) (p : WayNo) (q : Record) (d : NodeId) (f : EntryId) (y : Walker) : State :=
  { s.setPin k p (.entry f) with recallMark := .walker, walker := y }.probing f (departEntry k p q d)
    (match q.state with | .shared => .drop | .held => .surrender) (NodeSet.single d)

/-- The walker with the recall counted at its node's record. -/
def Walker.counting (x : Walker) (d : NodeId) (r : WalkRec) : Walker :=
  { x with records := tset x.records d (some { r with recalls := r.recalls + 1 }) }

/-- The work of a departure recall. -/
theorem departRecall_eq {leaving : NodeSet} (hwf : q.wellFormed = true) (hd : NodeSet.has q.sharers d = true)
    (hr : s.walker.record d = some r) (hf : s.freeEntry = some f) (hactive : s.activeOn (lineOf q.tag k) = none)
    (hjoined : (s.node d).joined = true) (hlink : (s.node d).link ≠ .down) :
    Work.departRecall ⟨s, [], []⟩ k p q leaving d = ⟨
      (let t := s.departMade k p q d f (s.walker.counting d r)
      if NodeSet.without leaving d = 0 then t.nextWay else t.setStall (.way p)), [.checkGather f], []⟩ := by
  have hscope : scopeNodes (some (.only d)) q.sharers = NodeSet.single d := if_pos hd
  have hreaches : s.reaches (scopeNodes (some (.only d)) q.sharers) := by
    rw [hscope]
    intro m hm
    rw [has_single, decide_eq_true_eq] at hm
    subst hm
    exact ⟨hjoined, hlink⟩
  have hheld : q.state = .held → scopeNodes (some (.only d)) q.sharers = q.sharers := fun hst => by
    rw [hscope]
    rcases (wellFormed_iff q).1 hwf with ⟨hshared, -⟩ | ⟨-, hone⟩
    · rw [hst] at hshared
      cases hshared
    · exact single_sharer _ d hd hone
  have hmade := recall_made (W := s) (f := f) (k := k) (v := p) (b := none) (party := .walker) (ns := []) hf hactive hwf
    hreaches hheld
  rw [hscope] at hmade
  exact departRecall_made hmade (by exact hr)

end

/-- Settles O56. -/
theorem walkerActsOnTheWay : Obligations.WalkerActsOnTheWay := by
  intro s k p x hready hstall hwalks hpointer hposition hsound hway lost departing stalled
  have h : s.WalksAt k p x := ⟨hready, hstall, hwalks, hpointer, hposition, hsound, hway⟩
  refine ⟨fun hpass => ⟨fun hp => ?_, fun hp => ⟨_, h.passes hpass, nextWay_finishes s (hposition.trans hp)⟩⟩,
    fun hq hpin => h.stands hq hpin,
    fun hq hpin q hw hlost => ⟨fun hst => h.dropsLost hq hpin hw hlost hst,
      fun hst hport => h.poisons hq hpin hw hlost hst hport⟩,
    fun hq hpin q hw hlost hdepart hnone => h.reserves hq hpin hw hlost hdepart hnone,
    fun hq hpin q hw hlost d f r => ?departs, fun hq hpin q hw hlost j d rest hj => ?given⟩
  · rw [h.passes hpass, State.nextWay, if_neg (by rw [hposition]; exact hp), hposition]
  case given =>
    intro leaving
    have hgiven := h.given hq hpin hw hlost hj d rest
    refine ⟨fun hd => ?_, fun hd hsome => ?_, fun hnone => ?_⟩
    · rw [hgiven, if_neg (ne_zero_of_has hd), if_pos hd]
    · rw [hgiven, if_neg hsome, if_neg (by rw [hd]; simp)]
    · rw [hgiven, if_pos hnone]
  case departs =>
    intro leaving hd hlow hr hfew hfree hfirst hactive hjoined hlink counted made
    have hne : leaving ≠ 0 := ne_zero_of_has hd
    have hfound : s.freeEntry = some f :=
      find_lowest (by simp [Entry.inUse, hfree]) fun g hg => by simpa [Entry.inUse] using hfirst g hg
    have havailable : s.recallAvailable = true := (recallAvailable_iff s).2 ⟨hfew, f, hfree⟩
    have hwf : q.wellFormed = true := (hsound p).2 q (by rw [← hw, ← hway]; rfl)
    have hrun := h.departs hq hpin hw hlost hd havailable (holder_lowest _ d hd hlow)
    rw [departRecall_eq hwf (has_and _ _ d hd) hr hfound hactive hjoined hlink] at hrun
    have hsettles : ∀ t : State, t.entries = (s.departMade k p q d f (s.walker.counting d r)).entries →
        settle ⟨t, [.checkGather f], []⟩ = .next t := fun t ht => by
      refine settle_gathering ?_
      rw [State.entry, ht]
      exact gatherDone_probing (single_ne_zero d)
    have hmade : ∀ y, made y = s.departMade k p q d f y := fun y => by
      simp only [made, State.departMade, departEntry] <;> cases q.state <;> rfl
    refine ⟨fun hmore => ?_, fun hlast hp => ?_,
      fun hlast hp => ⟨(s.departMade k p q d f (s.walker.counting d r)).nextWay, ?_, ?_⟩⟩
    · rw [hrun, if_neg hmore, hmade]
      exact hsettles _ rfl
    · have hnext : (s.departMade k p q d f (s.walker.counting d r)).nextWay
          = s.departMade k p q d f { s.walker.counting d r with position := p + 1 } := by
        have hat : (s.departMade k p q d f (s.walker.counting d r)).walker.position = p := hposition
        rw [State.nextWay, hat, if_neg hp]
        rfl
      rw [hrun, if_pos hlast, hmade]
      exact (hsettles _ (nextWay_entries _)).trans (congrArg _ hnext)
    · rw [hrun, if_pos hlast]
      exact hsettles _ (nextWay_entries _)
    · rw [hmade]
      exact nextWay_finishes _ (hposition.trans hp)

end Sys2Proof.Machine

/-! The end of the walker's poison write, and the seeker it lets in (chapters 8 and 10; R80 to R82, R150). -/

namespace Sys2Proof.Machine

/-! ## The way the poison write leaves -/

/-- A way made VACANT and unpinned, the recency order kept. -/
def State.vacated (s : State) (k : SetIdx) (w : WayNo) : State :=
  (s.storeWay k w { s.way k w with written := none, damage := .intact, quarantined := false }).setPin k w .none

section
variable {s : State} (k : SetIdx) (w : WayNo) (hready : s.status = .ready) (hwf : Directory.wf s.dir)

theorem vacated_status (s : State) : (s.vacated k w).status = s.status := rfl

theorem vacated_validCount (s : State) :
    (s.vacated k w).dir.validCount = s.dir.validCount - (s.way k w).counted.toNat := rfl

include hready hwf

theorem dirSet_vacated (j : SetIdx) : (s.vacated k w).dirSet j = if k = j then { s.dirSet k with
    ways := tset (s.dirSet k).ways w { written := none, damage := .intact, pin := .none, quarantined := false } }
    else s.dirSet j := by
  set stored := s.storeWay k w { s.way k w with written := none, damage := .intact, quarantined := false } with hstored
  have hput : (s.vacated k w).dirSet j = _ :=
    dirSet_putWay (s := stored) hready (storeWay_wf hwf k w _) k j w { stored.way k w with pin := .none }
  rw [hput]
  have hway : stored.way k w = { s.way k w with written := none, damage := .intact, quarantined := false } := by
    rw [hstored, way_storeWay hready hwf, if_pos rfl]
  by_cases hj : k = j
  · rw [if_pos hj, if_pos hj, hway, hstored, dirSet_storeWay hready hwf, if_pos rfl]
    simp only [tset_tset_same]
  · rw [if_neg hj, if_neg hj, hstored, dirSet_storeWay hready hwf, if_neg hj]

theorem way_vacated (v : WayNo) : (s.vacated k w).way k v
    = if w = v then { written := none, damage := .intact, pin := .none, quarantined := false } else s.way k v := by
  rw [State.way, dirSet_vacated k w hready hwf, if_pos rfl]
  exact tget_tset _ _ _ _

end

theorem dirSet_setStall {s : State} (h : s.status = .ready) (x : Stall) (k : SetIdx) :
    (s.setStall x).dirSet k = s.dirSet k := dirSet_walker h s.nodes _ k

/-! ## The sole seeker of a set takes its free way -/

theorem find_sole {α : Type} {L : List α} {q : α → Bool} {a : α} (ha : a ∈ L) (hq : q a = true)
    (h : ∀ m ∈ L, q m = true → m = a) : L.find? q = some a := by
  cases hfind : L.find? q with
  | none => exact absurd hq (List.find?_eq_none.1 hfind a ha)
  | some m => rw [h m (List.mem_of_find?_eq_some hfind) (List.find?_some hfind)]

theorem recallFor_none {s : State} {e : EntryId} (h : ∀ f, (s.entry f).phase ≠ .free → (s.entry f).kind = .recall →
    (s.entry f).beneficiary ≠ some e) : s.recallFor e = none := by
  rw [State.recallFor, List.find?_eq_none]
  intro f _
  simpa [inUse_iff] using h f

/-- A set that was last written as it stands is read so: way p is free, and no way is unreadable. -/
theorem readSet_offers {s : State} {k : SetIdx} {p : WayNo} (hs : (s.dirSet k).sound)
    (hp : (s.dirSet k).first Way.free p) (r : Reader) (kind : MsgKind) : (s.readSet k r kind).2.unreadable = []
      ∧ (s.readSet k r kind).2.allQuarantined = false
      ∧ (s.readSet k r kind).2.freeWay (s.dirSet k).order = some p := by
  refine ⟨unreadable_sound hs r kind, ?_, freeWay_first hs hp r kind⟩
  obtain ⟨⟨hfree, -⟩, -⟩ := hp
  rw [← Bool.not_eq_true, allQuarantined_sound hs]
  intro hall
  exact absurd hfree (by rw [show (tget (s.dirSet k).ways p).quarantined = true from hall p]; decide)

theorem setCond_member {ms : List Member} {e : EntryId} {c : WaitCond} (h : ⟨e, c⟩ ∈ ms) (c' : WaitCond) :
    setCond ms e c' = ms.map (fun m => if m.entry = e then { m with cond := c' } else m) :=
  if_pos (List.any_eq_true.2 ⟨_, h, by simp⟩)

theorem filter_conds (ms : List Member) (e : EntryId) (c : WaitCond) :
    (ms.map (fun m => if m.entry = e then { m with cond := c } else m)).filter (fun m => decide (m.entry ≠ e))
      = ms.filter (fun m => decide (m.entry ≠ e)) := by
  induction ms with
  | nil => rfl
  | cons m ms ih => by_cases hm : m.entry = e <;> simp_all

theorem filter_alone {α : Type} {L : List α} {q : α → Bool} {a : α} (h : L.filter q = [a]) (f : α → Bool) :
    L.filter (fun m => q m && f m) = [a].filter f := by
  rw [← h, List.filter_filter]
  simp only [Bool.and_comm]

/-- Entry e is the only member of the way-wait list for set k, whose one free way is p. -/
structure State.SoleSeeker (s : State) (k : SetIdx) (p : WayNo) (e : EntryId) (x : Entry) (c : WaitCond) : Prop where
  entry : s.entry e = x
  set : LineAddr.set x.line = k
  waits : ⟨e, c⟩ ∈ s.wayWait
  sole : ∀ m ∈ s.wayWait, s.setOf m.entry = k → m = ⟨e, c⟩
  stall : s.walker.stall = .none
  portFree : s.portFree
  noRecall : ∀ f, (s.entry f).phase ≠ .free → (s.entry f).kind = .recall → (s.entry f).beneficiary ≠ some e

/-- The seeker has taken the way: it has left the list and gathers with its READ out. -/
def State.takenBy (s : State) (k : SetIdx) (p : WayNo) (e : EntryId) (x : Entry) : State :=
  { s.setPin k p (.entry e) with
    wayWait := s.wayWait.filter (fun m => decide (m.entry ≠ e))
    entries := tset s.entries e { x with phase := .gather, snapshot := some .miss, way := some p, poolOp := .readOut }
    poolQueue := s.poolQueue ++ [⟨.entry e, x.line, none⟩] }

section
variable {s : State} {k : SetIdx} {p : WayNo} {e : EntryId} {x : Entry} {c : WaitCond} (h : s.SoleSeeker k p e x c)
include h

theorem State.SoleSeeker.setOf : s.setOf e = k := by rw [State.setOf, h.entry, h.set]

theorem State.SoleSeeker.member : s.wayWait.find? (fun m => decide (m.entry = e)) = some ⟨e, c⟩ :=
  find_sole h.waits (by simp) fun m hm he => h.sole m hm (by rw [of_decide_eq_true he, h.setOf])

theorem State.SoleSeeker.oldest (hc : c.seeks = true) : s.oldestSeeker k = some ⟨e, c⟩ :=
  find_sole h.waits (by simp [hc, h.setOf]) fun m hm hq => h.sole m hm (by simp at hq; exact hq.2)

/-- Served with a read that finds way p free, the seeker takes it and its work begins (R82). -/
theorem State.SoleSeeker.serve (hk : x.kind = .fetchS ∨ x.kind = .fetchH) {rd : SetRead} (hun : rd.unreadable = [])
    (hall : rd.allQuarantined = false) (hfree : rd.freeWay (s.dirSet k).order = some p) (ts : List Task)
    (ns : List Notice) : Work.serve ⟨s, ts, ns⟩ e rd
      = ⟨s.takenBy k p e x, .checkGather e :: ts, ns ++ [.oldestLeft k]⟩ := by
  have hdrop : s.dropBeneficiary e = s := by rw [State.dropBeneficiary, recallFor_none h.noRecall]
  simp only [Work.serve, hun, hall, h.setOf, hfree, Work.mod, hdrop, Work.begin, Work.push, Work.note, ne_eq,
    not_true_eq_false, if_false, Bool.false_eq_true, List.cons_append, List.nil_append,
    beginWork_miss (u := s.setPin k p (.entry e)) (b := e) h.entry hk h.portFree]
  rfl

/-- Once it has left, nobody waits for a way of the set. -/
theorem State.SoleSeeker.oldest_takenBy : (s.takenBy k p e x).oldestSeeker k = none := by
  rw [State.oldestSeeker, List.find?_eq_none]
  intro m hm
  obtain ⟨hmem, hne⟩ := List.mem_filter.1 hm
  have hne : m.entry ≠ e := of_decide_eq_true hne
  have hline : (s.takenBy k p e x).setOf m.entry = s.setOf m.entry :=
    congrArg (fun y : Entry => LineAddr.set y.line) (tget_tset_ne _ _ (Ne.symm hne))
  have hother : s.setOf m.entry ≠ k := fun hset => hne (by rw [h.sole m hmem hset])
  simp [hline, hother]

/-- The tasks and notices left once the seeker has its way set nothing going. -/
theorem State.SoleSeeker.run_takenBy {ts : List Task} (hts : ∀ t ∈ ts, t = .serveOldest k ∨ t = .tellWalker k p)
    (fuel : Nat) : Work.run (fuel + 1 + (ts.length + 1)) ⟨s.takenBy k p e x, .checkGather e :: ts, [.oldestLeft k]⟩
      = some (s.takenBy k p e x) := by
  have hidle : ∀ t ∈ Task.checkGather e :: ts, t.idle (s.takenBy k p e x) := by
    intro t ht
    rcases List.mem_cons.1 ht with rfl | ht
    · exact idle_checkGather (.inr (gatherDone_of_table rfl (by simp)))
    · rcases hts t ht with rfl | rfl
      · intro j hj
        change Work.serveFresh _ _ _ = _
        simp only [Work.serveFresh, hj, h.oldest_takenBy]
      · intro j hj
        change Work.tellWalker _ _ _ = _
        have hstall : j.s.walker.stall = .none := by rw [hj]; exact h.stall
        rw [Work.tellWalker, if_neg (by simp [hstall])]
  have hrun := run_idle hidle (fuel + 1) [] [.oldestLeft k]
  rw [List.append_nil] at hrun
  exact hrun.trans (run_oldestLeft h.oldest_takenBy fuel)

/-- Served on the unpinning, a BLOCKED or STALLED seeker takes the way (R81, R82). -/
theorem State.SoleSeeker.task_serveOldest (hk : x.kind = .fetchS ∨ x.kind = .fetchH) (hc : c = .blocked ∨ c = .stalled)
    (hs : (s.dirSet k).sound) (hp : (s.dirSet k).first Way.free p) (ts : List Task) (ns : List Notice) :
    Work.task ⟨s, ts, ns⟩ (.serveOldest k) = ⟨s.takenBy k p e x, .checkGather e :: ts, ns ++ [.oldestLeft k]⟩ := by
  have hseeks : c.seeks = true := by rcases hc with rfl | rfl <;> rfl
  have hstands : c.stands = true := by rcases hc with rfl | rfl <;> rfl
  obtain ⟨hun, hall, hfree⟩ := readSet_offers hs hp .wayWait x.kind.msgKind
  change Work.serveFresh _ _ _ = _
  simp only [Work.serveFresh, h.oldest hseeks, hstands, if_true, read_eq, h.setOf, h.entry,
    (readSet_sound hs .wayWait x.kind.msgKind).1]
  exact h.serve hk hun hall hfree ts ns

/-- A member that begins to seek the way is still the only one for its set. -/
theorem State.SoleSeeker.seeking {y : Entry} (hline : y.line = x.line) (hkind : y.kind ≠ .recall) (c' : WaitCond) :
    State.SoleSeeker { s with wayWait := setCond s.wayWait e c', entries := tset s.entries e y } k p e y c' := by
  have hcond := setCond_member h.waits c'
  have hentry : ∀ f, State.entry { s with wayWait := setCond s.wayWait e c', entries := tset s.entries e y } f
      = if e = f then y else s.entry f := fun f => tget_tset _ _ _ _
  have hset : ∀ f, State.setOf { s with wayWait := setCond s.wayWait e c', entries := tset s.entries e y } f
      = s.setOf f := fun f => by
    rw [State.setOf, hentry, State.setOf]
    split
    · rename_i hf
      rw [← hf, h.entry, hline]
    · rfl
  refine ⟨(hentry e).trans (if_pos rfl), hline ▸ h.set, ?_, fun m hm hk => ?_, h.stall, h.portFree, fun f => ?_⟩
  · rw [hcond]
    exact List.mem_map.2 ⟨_, h.waits, if_pos rfl⟩
  · rw [hset] at hk
    obtain ⟨m₀, hm₀, rfl⟩ := List.mem_map.1 (hcond ▸ hm)
    by_cases he : m₀.entry = e
    · rw [if_pos he, he]
    · rw [if_neg he] at hk
      exact absurd (by rw [h.sole m₀ hm₀ hk]) he
  · rw [hentry]
    split
    · exact fun _ hrecall => absurd hrecall hkind
    · exact h.noRecall f

/-- It then takes the way as it would have before, but for its entry. -/
theorem State.SoleSeeker.takenBy_seeking (y : Entry) (c' : WaitCond) :
    State.takenBy { s with wayWait := setCond s.wayWait e c', entries := tset s.entries e y } k p e y
      = s.takenBy k p e y := by
  have hlist := filter_conds s.wayWait e c'
  rw [← setCond_member h.waits] at hlist
  simp only [State.takenBy, hlist, tset_tset_same]
  rfl

theorem State.SoleSeeker.demoteOthers : s.demoteOthers k e = s := by
  have hlist : s.wayWait.map (fun m =>
      if m.cond.seeks ∧ m.entry ≠ e ∧ s.setOf m.entry = k then { m with cond := .behind } else m) = s.wayWait := by
    conv_rhs => rw [← List.map_id s.wayWait]
    exact List.map_congr_left fun m hm => if_neg fun ⟨_, hne, hset⟩ => hne (by rw [h.sole m hm hset])
  rw [State.demoteOthers, hlist]

/-- It seeks the way with nobody before it, and is served (R79). -/
theorem State.SoleSeeker.seek (y : Entry) (hline : y.line = x.line) (hkind : y.kind ≠ .recall) (rd : SetRead)
    (ts : List Task) (ns : List Notice) : Work.seek ⟨s.setEntry e y, ts, ns⟩ e rd
      = Work.serve ⟨{ s with
          wayWait := setCond s.wayWait e .behind
          entries := tset s.entries e { y with phase := .wayWait } }, ts, ns⟩ e rd := by
  have hseeking := h.seeking (y := { y with phase := .wayWait }) hline hkind .behind
  have hwait : (s.setEntry e y).wait e .behind = { s with
      wayWait := setCond s.wayWait e .behind
      entries := tset s.entries e { y with phase := .wayWait } } := by
    simp only [State.wait, State.modEntry, State.setEntry, State.entry, tget_tset_same, tset_tset_same]
  have hset : (s.setEntry e y).setOf e = k := by
    rw [State.setOf, State.entry, State.setEntry, tget_tset_same, hline, h.set]
  simp only [Work.seek, Work.mod, hwait, hset]
  rw [hseeking.oldest rfl, hseeking.demoteOthers]
  exact if_pos rfl

/-- The entry of a member that seeks a way after a read without a HIT (R55, R80). -/
def Entry.sought (x : Entry) : Entry :=
  { x with phase := .wayWait, kind := if x.kind = .upgrade then .fetchH else x.kind, snapshot := some .miss }

/-- A PIN member that finds no HIT and the way free takes it (R80 to R82). -/
theorem State.SoleSeeker.task_reread (hk : x.kind = .fetchS ∨ x.kind = .fetchH ∨ x.kind = .upgrade) {ws : List WayNo}
    (hc : c = .pin ws) (hw : p ∈ ws) (hs : (s.dirSet k).sound) (hp : (s.dirSet k).first Way.free p)
    (hmiss : (s.dirSet k).misses (LineAddr.tag x.line)) (ts : List Task) (ns : List Notice) :
    Work.task ⟨s, ts, ns⟩ (.reread e p)
      = ⟨s.takenBy k p e x.sought, .checkGather e :: ts, ns ++ [.oldestLeft k]⟩ := by
  subst hc
  have hset := h.set
  have hneeds : x.kind.needsWay = true := by rcases hk with hk | hk | hk <;> rw [hk] <;> rfl
  have hsought : x.sought.kind = .fetchS ∨ x.sought.kind = .fetchH := by
    rcases hk with hk | hk | hk <;> simp [Entry.sought, hk]
  have hrecall : x.sought.kind ≠ .recall := by rcases hsought with hk | hk <;> rw [hk] <;> decide
  obtain ⟨hun, hall, hfree⟩ := readSet_offers hs hp .wayWait x.kind.msgKind
  have hhit := hit_misses hs hmiss .wayWait x.kind.msgKind
  have hseeking := h.seeking (y := x.sought) rfl hrecall .behind
  have hconverted : s.modEntry e (fun y =>
      { y with kind := if y.kind = .upgrade then .fetchH else y.kind, snapshot := some .miss })
      = s.setEntry e { x with kind := x.sought.kind, snapshot := some .miss } := by
    rw [State.modEntry, h.entry]
    rfl
  change Work.reread ⟨s, ts, ns⟩ e p = _
  rw [reread_sound (k := ⟨s, ts, ns⟩) h.member hw h.entry (by rw [hset]; exact hs), hset,
    afterRead_needsWay (k := ⟨s, ts, ns⟩) h.entry hhit hun hneeds]
  simp only [hall, Bool.false_eq_true, if_false, Work.mod, hconverted]
  rw [h.seek { x with kind := x.sought.kind, snapshot := some .miss } rfl hrecall, ← h.takenBy_seeking x.sought .behind]
  exact hseeking.serve hsought hun hall hfree ts ns

end

section
variable {s : State} {k : SetIdx} {p : WayNo} {e : EntryId} {x : Entry} {c : WaitCond} (h : s.SoleSeeker k p e x c)
  (halone : s.wayWait.filter (fun m => decide (s.setOf m.entry = k)) = [⟨e, c⟩]) (hs : (s.dirSet k).sound)
  (hp : (s.dirSet k).first Way.free p)
include h halone hs hp

/-- Way p is given up while a BLOCKED or STALLED seeker stands for it (R81, R82). -/
theorem State.SoleSeeker.settle_stands (hk : x.kind = .fetchS ∨ x.kind = .fetchH) (hc : c = .blocked ∨ c = .stalled) :
    settle ⟨s, [], [.unpinned k p]⟩ = .next (s.takenBy k p e x) := by
  have hpins : s.pinWaiters k p = [] := by
    rw [State.pinWaiters, filter_alone halone]
    rcases hc with rfl | rfl <;> rfl
  refine settle_eq (fuel := 5) (by decide) ?_
  have hnotice : Work.notice ⟨s, [], []⟩ (.unpinned k p) = ⟨s, [.serveOldest k, .tellWalker k p], []⟩ := by
    change Work.push _ _ = _
    simp only [hpins]
    rfl
  rw [run_notice, hnotice, run_task, h.task_serveOldest hk hc hs hp]
  exact h.run_takenBy (ts := [.tellWalker k p]) (by simp) 0

/-- Way p is given up while a PIN member whose line is not in the set waits for it (R80 to R82). -/
theorem State.SoleSeeker.settle_pin (hk : x.kind = .fetchS ∨ x.kind = .fetchH ∨ x.kind = .upgrade) {ws : List WayNo}
    (hc : c = .pin ws) (hw : p ∈ ws) (hmiss : (s.dirSet k).misses (LineAddr.tag x.line)) :
    settle ⟨s, [], [.unpinned k p]⟩ = .next (s.takenBy k p e x.sought) := by
  have hrecall : x.sought.kind ≠ .recall := by rcases hk with hk | hk | hk <;> simp [Entry.sought, hk]
  have hpins : s.pinWaiters k p = [e] := by
    rw [State.pinWaiters, filter_alone halone, hc]
    simp [hw]
  refine settle_eq (fuel := 6) (by decide) ?_
  have hnotice : Work.notice ⟨s, [], []⟩ (.unpinned k p)
      = ⟨s, [.reread e p, .serveOldest k, .tellWalker k p], []⟩ := by
    change Work.push _ _ = _
    simp only [hpins]
    rfl
  rw [run_notice, hnotice, run_task, h.task_reread hk hc hw hs hp hmiss, ← h.takenBy_seeking x.sought .behind]
  exact (h.seeking (y := x.sought) rfl hrecall .behind).run_takenBy
    (ts := [.serveOldest k, .tellWalker k p]) (by simp) 0

end

/-! ## The poison write is done -/

theorem nextWay_wayWait (s : State) : s.nextWay.wayWait = s.wayWait := by
  by_cases h : s.walker.position = 7
  · obtain ⟨-, -, -, -, -, hrest⟩ := nextWay_finishes s h
    exact (congrArg State.wayWait hrest :)
  · rw [State.nextWay, if_neg h]

theorem nextWay_stall (s : State) : s.nextWay.walker.stall = s.walker.stall := by
  by_cases h : s.walker.position = 7
  · obtain ⟨-, -, hstall, -⟩ := nextWay_finishes s h
    exact hstall
  · rw [State.nextWay, if_neg h]

/-- The walker's poison write of line l with the buffer b, for way p of set k, may complete. -/
structure State.Poisons (s : State) (l : LineAddr) (b : Buffer) (k : SetIdx) (p : WayNo) : Prop where
  ready : s.status = .ready
  wf : Directory.wf s.dir
  stall : s.walker.stall = .write
  pointer : s.walker.pointer = k
  position : s.walker.position = p
  completable : s.completable .walker = some ⟨.walker, l, some b⟩
  issueWait : s.issueWait = []

/-- The line is stored and the walker's operation retired. -/
def State.poisonStored (s : State) (us : List DirUpset) (l : LineAddr) (b : Buffer) : State :=
  { (s.damaged us).poolWrite l b with
    poolQueue := s.poolQueue.filter (fun op => decide (op.owner ≠ .walker)) }

/-- The state of a finished poison write, before the walker moves on. -/
def State.poisoned (s : State) (us : List DirUpset) (l : LineAddr) (b : Buffer) (k : SetIdx) (p : WayNo) : State :=
  ((s.poisonStored us l b).vacated k p).setStall .none

/-- A poison write changes the directory, the pool and its queue, and the walker, and nothing else. -/
theorem poisonStored_eq (s : State) (us : List DirUpset) (l : LineAddr) (b : Buffer) : s.poisonStored us l b = { s with
    dir := (s.damaged us).dir
    pool := (s.poolWrite l b).pool
    poolQueue := s.poolQueue.filter (fun op => decide (op.owner ≠ .walker)) } := by
  obtain ⟨hrest, -⟩ := damaged_rest us s
  have hdamaged : s.damaged us = { s with dir := (s.damaged us).dir } :=
    congrArg (fun t : State => { t with dir := (s.damaged us).dir }) hrest
  rw [State.poisonStored, hdamaged]
  generalize (s.damaged us).dir = D
  have hbeyond : State.beyondSize { s with dir := D } l = s.beyondSize l := rfl
  unfold State.poolWrite
  rw [hbeyond]
  split <;> rfl

theorem poisoned_eq (s : State) (us : List DirUpset) (l : LineAddr) (b : Buffer) (k : SetIdx) (p : WayNo) :
    s.poisoned us l b k p = { s with
      dir := ((s.poisonStored us l b).vacated k p).dir
      pool := (s.poolWrite l b).pool
      poolQueue := s.poolQueue.filter (fun op => decide (op.owner ≠ .walker))
      walker := { s.walker with stall := .none } } := by
  have hvacated : (s.poisonStored us l b).vacated k p
      = { s.poisonStored us l b with dir := ((s.poisonStored us l b).vacated k p).dir } := rfl
  rw [State.poisoned, hvacated]
  generalize ((s.poisonStored us l b).vacated k p).dir = D
  rw [poisonStored_eq]
  rfl

theorem poisonStored_walker (s : State) (us : List DirUpset) (l : LineAddr) (b : Buffer) :
    (s.poisonStored us l b).walker = s.walker := by
  obtain ⟨-, -, -, -, -, hwalker, -⟩ := poolWrite_fields s us l b
  exact hwalker

section
variable {s : State} {us : List DirUpset} {l : LineAddr} {b : Buffer} {k : SetIdx} {p : WayNo} (h : s.Poisons l b k p)
include h

theorem State.Poisons.retireOp :
    ((s.damaged us).poolWrite l b).retireOp .walker = s.poisonStored us l b := by
  obtain ⟨-, -, hqueue, hwait, -⟩ := poolWrite_fields s us l b
  have hwait := hwait.trans h.issueWait
  rw [State.poisonStored, ← hqueue]
  simp only [State.retireOp, State.setPoolField, hwait]

theorem State.Poisons.exec_complete : exec (.poisonWriteComplete us) s
    = settle ⟨(s.poisoned us l b k p).nextWay, [], [.unpinned k p]⟩ := by
  change execPoisonWriteComplete us s = _
  have hdone : (s.poisonStored us l b).poisonDone = (s.poisoned us l b k p).nextWay := by
    rw [State.poisonDone, poisonStored_walker, h.pointer, h.position, writeWay_plain (by simp)]
    rfl
  simp only [execPoisonWriteComplete, completable_damaged, damaged_walker, h.stall, h.completable, h.retireOp, hdone,
    h.pointer, h.position]
  rfl

theorem State.Poisons.ready_stored : (s.poisonStored us l b).status = .ready := by
  obtain ⟨-, -, -, -, -, -, hstatus, -⟩ := poolWrite_fields s us l b
  exact hstatus.trans h.ready

theorem State.Poisons.wf_stored : Directory.wf (s.poisonStored us l b).dir := by
  obtain ⟨-, -, -, -, -, -, -, hdir⟩ := poolWrite_fields s us l b
  exact (show (s.poisonStored us l b).dir = _ from hdir) ▸ damaged_wf h.wf us

theorem State.Poisons.dirSet_stored (j : SetIdx) : (s.poisonStored us l b).dirSet j = (s.damaged us).dirSet j := by
  obtain ⟨-, -, -, -, -, -, -, hdir⟩ := poolWrite_fields s us l b
  rw [dirSet_ready h.ready_stored, dirSet_ready ((damaged_status s us).trans h.ready),
    show (s.poisonStored us l b).dir = _ from hdir]

/-- Of the directory a poison write changes way p of its set alone. -/
theorem State.Poisons.dirSet_poisoned (j : SetIdx) : (s.poisoned us l b k p).dirSet j = if k = j then
    { (s.damaged us).dirSet k with
      ways := tset ((s.damaged us).dirSet k).ways p
        { written := none, damage := .intact, pin := .none, quarantined := false } }
    else (s.damaged us).dirSet j := by
  have hvacated := dirSet_vacated (s := s.poisonStored us l b) k p h.ready_stored h.wf_stored j
  rw [h.dirSet_stored, h.dirSet_stored] at hvacated
  rw [State.poisoned, dirSet_setStall (by rw [vacated_status]; exact h.ready_stored)]
  exact hvacated

theorem State.Poisons.way_poisoned (v : WayNo) : (s.poisoned us l b k p).way k v = if p = v then
    { written := none, damage := .intact, pin := .none, quarantined := false } else (s.damaged us).way k v := by
  rw [State.way, h.dirSet_poisoned, if_pos rfl]
  exact tget_tset _ _ _ _

theorem State.Poisons.validCount_poisoned : (s.poisoned us l b k p).dir.validCount
    = s.dir.validCount - ((s.damaged us).way k p).counted.toNat := by
  obtain ⟨-, -, -, -, -, -, -, hdir⟩ := poolWrite_fields s us l b
  have hcount : (s.poisonStored us l b).dir.validCount = s.dir.validCount :=
    (congrArg Directory.validCount hdir).trans (damaged_validCount s us)
  have hway : (s.poisonStored us l b).way k p = (s.damaged us).way k p := by
    rw [State.way, h.dirSet_stored]
    rfl
  change ((s.poisonStored us l b).vacated k p).dir.validCount = _
  rw [vacated_validCount, hcount, hway]

omit h in
theorem entry_poisoned (e : EntryId) : (s.poisoned us l b k p).entry e = s.entry e := by
  rw [State.entry, poisoned_eq]
  rfl

omit h in
theorem setOf_poisoned (e : EntryId) : (s.poisoned us l b k p).setOf e = s.setOf e := by
  rw [State.setOf, entry_poisoned]
  rfl

omit h in
theorem wayWait_poisoned : (s.poisoned us l b k p).wayWait = s.wayWait := by rw [poisoned_eq]

omit h in
theorem walker_poisoned : (s.poisoned us l b k p).walker = { s.walker with stall := .none } := by rw [poisoned_eq]

/-- With nobody waiting for a way of the set the walker moves on (R150). -/
theorem State.Poisons.passes (hwait : ∀ m ∈ s.wayWait, s.setOf m.entry ≠ k) :
    exec (.poisonWriteComplete us) s = .next (s.poisoned us l b k p).nextWay := by
  have hquiet : (s.poisoned us l b k p).nextWay.quiet k p := by
    refine ⟨fun m hm => ?_, ?_⟩
    · rw [nextWay_wayWait, wayWait_poisoned] at hm
      have hset : (s.poisoned us l b k p).nextWay.setOf m.entry = s.setOf m.entry := by
        rw [State.setOf, State.entry, nextWay_entries]
        exact setOf_poisoned m.entry
      rw [hset]
      exact hwait m hm
    · rw [nextWay_stall, walker_poisoned]
      nofun
  rw [h.exec_complete]
  exact settle_eq (fuel := 3) (by decide) (run_unpinned hquiet 0)

end

/-! ## The walker has moved on, and the set's seeker is served -/

/-- The walker stands at the way after the one it poisoned. -/
def State.poisonPassed (s : State) (us : List DirUpset) (l : LineAddr) (b : Buffer) (k : SetIdx) (p : WayNo) : State :=
  { s.poisoned us l b k p with walker := { (s.poisoned us l b k p).walker with position := p + 1 } }

section
variable {s : State} {us : List DirUpset} {l : LineAddr} {b : Buffer} {k : SetIdx} {p : WayNo} (h : s.Poisons l b k p)

theorem entries_passed : (s.poisonPassed us l b k p).entries = s.entries := by rw [State.poisonPassed, poisoned_eq]

theorem wayWait_passed : (s.poisonPassed us l b k p).wayWait = s.wayWait := by rw [State.poisonPassed, poisoned_eq]

theorem setOf_passed (e : EntryId) : (s.poisonPassed us l b k p).setOf e = s.setOf e := by
  rw [State.setOf, State.entry, entries_passed]
  rfl

include h

theorem State.Poisons.nextWay (hp : p ≠ 7) : (s.poisoned us l b k p).nextWay = s.poisonPassed us l b k p := by
  have hposition : (s.poisoned us l b k p).walker.position = p := by rw [walker_poisoned]; exact h.position
  rw [State.nextWay, if_neg (by rw [hposition]; exact hp), hposition]
  rfl

/-- The pool's queue has room once the walker's operation is done. -/
theorem State.Poisons.portFree (hq : s.poolQueue.length ≤ 32) : (s.poisonPassed us l b k p).portFree := by
  obtain ⟨hmem, howner⟩ := completable_mem h.completable
  have hless : (s.poolQueue.filter (fun op => decide (op.owner ≠ .walker))).length < s.poolQueue.length :=
    List.length_filter_lt_length_iff_exists.2 ⟨_, hmem, by simp⟩
  rw [State.portFree, State.poisonPassed, poisoned_eq]
  exact ⟨Nat.lt_of_lt_of_le hless hq, h.issueWait⟩

theorem State.Poisons.dirSet_passed : (s.poisonPassed us l b k p).dirSet k = { (s.damaged us).dirSet k with
    ways := tset ((s.damaged us).dirSet k).ways p
      { written := none, damage := .intact, pin := .none, quarantined := false } } := by
  have hready : (s.poisoned us l b k p).status = .ready := by rw [poisoned_eq]; exact h.ready
  have hpoisoned := h.dirSet_poisoned (us := us) k
  rw [if_pos rfl] at hpoisoned
  exact (dirSet_walker hready (s.poisoned us l b k p).nodes _ k).trans hpoisoned

theorem State.Poisons.way_passed (v : WayNo) : tget ((s.poisonPassed us l b k p).dirSet k).ways v
    = if p = v then { written := none, damage := .intact, pin := .none, quarantined := false }
      else (s.damaged us).way k v := by
  rw [h.dirSet_passed]
  exact tget_tset _ _ _ _

theorem State.Poisons.sound (hs : ((s.damaged us).dirSet k).sound) : ((s.poisonPassed us l b k p).dirSet k).sound := by
  intro v
  rw [h.way_passed]
  split
  · exact ⟨rfl, nofun⟩
  · exact hs v

/-- The poisoned way is the set's one free way. -/
theorem State.Poisons.first (hp : p ∈ ((s.damaged us).dirSet k).order)
    (hfree : ∀ v, v ≠ p → ¬((s.damaged us).way k v).free) :
    ((s.poisonPassed us l b k p).dirSet k).first Way.free p := by
  obtain ⟨before, after, horder, hbefore⟩ := List.eq_append_cons_of_mem hp
  refine ⟨by rw [h.way_passed, if_pos rfl]; exact ⟨rfl, rfl, rfl⟩, before, after, ?_, fun v hv => ?_⟩
  · rw [h.dirSet_passed]
    exact horder
  · have hne : v ≠ p := fun heq => hbefore (heq ▸ hv)
    rw [h.way_passed, if_neg (Ne.symm hne)]
    exact hfree v hne

theorem State.Poisons.misses {t : DirTag} (hmiss : ∀ v, v ≠ p → ((s.damaged us).way k v).quarantined = true
      ∨ ∀ q, ((s.damaged us).way k v).written = some q → q.tag ≠ t) :
    ((s.poisonPassed us l b k p).dirSet k).misses t := by
  intro v
  rw [h.way_passed]
  split
  · exact .inr nofun
  · rename_i hv
    exact hmiss v (Ne.symm hv)

theorem State.Poisons.soleSeeker {e : EntryId} {x : Entry} {c : WaitCond}
    (halone : s.wayWait.filter (fun m => decide (s.setOf m.entry = k)) = [⟨e, c⟩]) (hx : s.entry e = x)
    (hnone : ∀ f, (s.entry f).phase ≠ .free → (s.entry f).kind = .recall → (s.entry f).beneficiary ≠ some e)
    (hq : s.poolQueue.length ≤ 32) : (s.poisonPassed us l b k p).SoleSeeker k p e x c := by
  have hmember : ∀ m, m ∈ s.wayWait ∧ s.setOf m.entry = k ↔ m = ⟨e, c⟩ := fun m => by
    rw [← List.mem_singleton (b := (⟨e, c⟩ : Member)), ← halone, List.mem_filter, decide_eq_true_eq]
  have hentry : ∀ f, (s.poisonPassed us l b k p).entry f = s.entry f := fun f => by
    rw [State.entry, entries_passed]
    rfl
  obtain ⟨hwaits, hset⟩ := (hmember ⟨e, c⟩).2 rfl
  refine ⟨(hentry e).trans hx, by rw [← hx]; exact hset, by rw [wayWait_passed]; exact hwaits,
    fun m hm hk => (hmember m).1 ⟨wayWait_passed ▸ hm, (setOf_passed m.entry) ▸ hk⟩, ?_, h.portFree hq, fun f => ?_⟩
  · rw [State.poisonPassed, poisoned_eq]
  · rw [hentry]
    exact hnone f

/-- A seeker that takes the way once the walker has moved on ends the step. -/
theorem State.Poisons.served (hp : p ≠ 7) {e : EntryId} {y : Entry}
    (hrun : settle ⟨s.poisonPassed us l b k p, [], [.unpinned k p]⟩
      = .next ((s.poisonPassed us l b k p).takenBy k p e y)) :
    exec (.poisonWriteComplete us) s = .next { (s.poisonPassed us l b k p).setPin k p (.entry e) with
      entries := tset s.entries e { y with
        phase := .gather, snapshot := some .miss, way := some p, poolOp := .readOut }
      wayWait := s.wayWait.filter (fun m => decide (m.entry ≠ e))
      poolQueue := (s.poisoned us l b k p).poolQueue ++ [⟨.entry e, y.line, none⟩] } := by
  rw [h.exec_complete, h.nextWay hp, hrun, State.takenBy, entries_passed, wayWait_passed]
  rfl

end

/-- Settles O57. -/
theorem poisonWriteFreesTheWay : Obligations.PoisonWriteFreesTheWay := by
  intro s us l b k p u hready hwf hstall hpointer hposition hcompletable hissue
  have h : s.Poisons l b k p := ⟨hready, hwf, hstall, hpointer, hposition, hcompletable, hissue⟩
  refine ⟨s.poisoned us l b k p, ?way, fun v hv => ?ways, fun j hj => ?sets, ?order, h.validCount_poisoned, ?pool,
    ?queue, walker_poisoned, ?rest, fun hwait => ⟨fun hp => ?before, fun hp => ?last⟩,
    ?served⟩
  case way => rw [h.way_poisoned, if_pos rfl]
  case ways => rw [h.way_poisoned, if_neg (Ne.symm hv)]
  case sets => rw [h.dirSet_poisoned, if_neg (Ne.symm hj)]
  case order => rw [h.dirSet_poisoned, if_pos rfl]
  case pool => rw [poisoned_eq]
  case queue => rw [poisoned_eq]
  case rest => rw [poisoned_eq]
  case before => rw [h.passes hwait, h.nextWay hp, State.poisonPassed]
  case last =>
    exact ⟨_, h.passes hwait, nextWay_finishes _ (by rw [walker_poisoned]; exact hposition.trans hp)⟩
  case served =>
    intro e c x kind halone hx hrow hop hnone hs hmem hfree hq hp zp
    have hsole := h.soleSeeker (us := us) halone hx hnone hq
    have halone' : (s.poisonPassed us l b k p).wayWait.filter
        (fun m => decide ((s.poisonPassed us l b k p).setOf m.entry = k)) = [⟨e, c⟩] := by
      simp only [wayWait_passed, setOf_passed, halone]
    rcases hrow with ⟨hc, hk, rfl⟩ | ⟨⟨ws, hc, hw⟩, hk, hmiss⟩
    · exact h.served hp (hsole.settle_stands halone' (h.sound hs) (h.first hmem hfree) hk hc)
    · have hkind : x.kind = .fetchS ∨ x.kind = .fetchH ∨ x.kind = .upgrade := by
        rcases hk with ⟨-, hk⟩ | ⟨-, hk | hk⟩ <;> simp [hk]
      have hsought : x.sought.kind = kind := by
        rcases hk with ⟨rfl, hk⟩ | ⟨rfl, hk | hk⟩ <;> simp [Entry.sought, hk]
      subst hsought
      exact h.served hp (hsole.settle_pin halone' (h.sound hs) (h.first hmem hfree) hkind hc hw (h.misses hmiss))

end Sys2Proof.Machine
